-- ==== Sys2Proof/Word.lean ====
section
/-! DEFINITION. The word types of the block: 32-bit registers and operands, 8-bit bytes (R14, R15). -/

namespace Sys2Proof

/-- A 32-bit value: a device register, a host operand, a word of OTP (R14, R30, R38 to R45). -/
abbrev Word := BitVec 32

/-- An 8-bit value: a FIFO entry, a byte of `BUF`, of `FLASH` or of the OTP byte view (R43, R71, R73). -/
abbrev Byte := BitVec 8

end Sys2Proof
end

