-- ==== Sys2Proof/Config.lean ====
section
/-! DEFINITION. What an implementation fixes (R8 to R13): every parameter as a field of a plain record (their default
values stand in Decode.lean), and the free values (opaque: nothing can evaluate them). -/

namespace Sys2Proof

/-- The fifteen NOR commands of R113; their byte values are parameters (R12). -/
inductive NorCmd where
  | rdid | rdsr | wrsr | wren | wrdi | en4b
  | read | read4b | pp | pp4b | be4k | be4k4b | se | se4b | ce
deriving DecidableEq, Repr

/-- Every NOR command, in the order of R113. -/
def NorCmd.all : List NorCmd :=
  [.rdid, .rdsr, .wrsr, .wren, .wrdi, .en4b, .read, .read4b, .pp, .pp4b, .be4k, .be4k4b, .se, .se4b, .ce]

namespace Config

/-! ## Configuration records -/

/-- `EfuseController` (R8): the record `EFUSE.INFO` returns. `addressBits` is legal in 1..27 (D5). The spec gives
`registerBase` no width: 32 bits here, the other fields natural numbers (DESIGN CHOICE, log 39). -/
structure EfuseController where
  registerBase : Word
  addressBits : Nat
  cellCount : Nat
  cellWidth : Nat
deriving DecidableEq, Repr

/-- The 3-byte JEDEC ID in the order received (R77, D24). -/
structure JedecId where
  b0 : Byte
  b1 : Byte
  b2 : Byte
deriving DecidableEq, Repr

/-- `FlashInfo` (R13), what the geometry lookup returns. -/
structure FlashInfo where
  pageSize : Nat
  sectorSize : Nat
  flag4B : Bool
  flagErase4K : Bool
deriving DecidableEq, Repr

/-- How the busy flag of the macro appears in the value read from MODE: "a parameter" (R34, R38, D3). -/
inductive ReadyView where
  /-- The default register view: the macro returns the command field to idle, and an idle command field means ready. -/
  | command
  /-- A bit of its own: it reads `busyIs` while the macro is busy and the opposite while it is not; `clears` says
  whether the macro returns the command field to idle all the same. -/
  | flag (bit : Fin 32) (busyIs clears : Bool)
deriving DecidableEq, Repr

/-- A busy bit of its own stands outside the command field. -/
def ReadyView.outside (mask : Word) : ReadyView → Bool
  | .command => true
  | .flag bit _ _ => !mask.getLsbD bit

/-- The command field of MODE, its encodings and the view of the busy flag (R9, R34, R38, R102): all codes lie in the
field, and "must be pairwise different". -/
structure ModeCodes where
  /-- `MODE_CMD_MASK`. -/
  mask : Word
  /-- `MODE_CMD_IDLE`. -/
  idle : Word
  /-- `MODE_CMD_READ`. -/
  read : Word
  /-- `MODE_CMD_WRITE`. -/
  write : Word
  /-- How the busy flag appears. -/
  view : ReadyView
  viewOutside : view.outside mask = true
  inField : idle &&& mask = idle ∧ read &&& mask = read ∧ write &&& mask = write
  distinct : [idle, read, write].Nodup
deriving DecidableEq, Repr

/-- Byte offsets of the three eFuse registers (R9, D1): three registers of 32 bits side by side in one window. -/
structure EfuseOffsets where
  /-- `EFUSE_MODE_OFF`. -/
  mode : Word
  /-- `EFUSE_ADDR_OFF`. -/
  addr : Word
  /-- `EFUSE_RD_DATA_OFF`. -/
  rdData : Word
  distinct : [mode, addr, rdData].Nodup
deriving DecidableEq, Repr

/-- Byte offsets of the SPI registers (R11, R108, D13). -/
structure SpiOffsets where
  tranCsr : Word
  tranNum : Word
  fifoPort : Word
  fifoPt : Word
  intSts : Word
  distinct : [tranCsr, tranNum, fifoPort, fifoPt, intSts].Nodup
deriving DecidableEq, Repr

/-- Where the fields of TRAN_CSR stand, by the lowest bit of each, and the codes of the four trigger levels (R41, R108,
D13). `ADDR_BYTES` has 3 bits, `TRG_LVL` 2, the others one (DESIGN CHOICE, log 25). -/
structure TranPlaces where
  rx : Nat
  tx : Nat
  addrBytes : Nat
  withCmd : Nat
  trgLvl : Nat
  goBusy : Nat
  trg1 : BitVec 2
  trg2 : BitVec 2
  trg4 : BitVec 2
  trg8 : BitVec 2
deriving DecidableEq, Repr

/-- The bits the fields take. -/
def TranPlaces.bits (t : TranPlaces) : List Nat :=
  [t.rx, t.tx, t.addrBytes, t.addrBytes + 1, t.addrBytes + 2, t.withCmd, t.trgLvl, t.trgLvl + 1, t.goBusy]

/-- A layout of TRAN_CSR (R108): fields of one 32-bit register, and four different codes. -/
structure TranFields extends TranPlaces where
  apart : toTranPlaces.bits.Nodup
  fits : ∀ i ∈ toTranPlaces.bits, i < 32
  levels : [trg1, trg2, trg4, trg8].Nodup
deriving DecidableEq, Repr

/-- A layout of INT_STS (R36, R108): two bits of one 32-bit register. -/
structure IntFields where
  tranDone : Nat
  rdFifo : Nat
  apart : tranDone ≠ rdFifo
  fits : tranDone < 32 ∧ rdFifo < 32
deriving DecidableEq, Repr

/-- The numbers of the status codes (R250): "no rule depends on a number, only on the codes being distinct". -/
structure StatusCodes where
  success : BitVec 64
  invalidParameter : BitVec 64
  outOfResources : BitVec 64
  notFound : BitVec 64
  timeout : BitVec 64
  shellSuccess : Nat
  shellAborted : Nat
  distinct : [success, invalidParameter, outOfResources, notFound, timeout].Nodup ∧ shellSuccess ≠ shellAborted
deriving DecidableEq, Repr

/-- The command bytes (R12, D22), one field per NOR command. -/
structure NorBytes where
  rdid : Byte
  rdsr : Byte
  wrsr : Byte
  wren : Byte
  wrdi : Byte
  en4b : Byte
  read : Byte
  read4b : Byte
  pp : Byte
  pp4b : Byte
  be4k : Byte
  be4k4b : Byte
  se : Byte
  se4b : Byte
  ce : Byte
deriving DecidableEq, Repr

/-- The byte of a command. -/
def NorBytes.byte (n : NorBytes) : NorCmd → Byte
  | .rdid => n.rdid
  | .rdsr => n.rdsr
  | .wrsr => n.wrsr
  | .wren => n.wren
  | .wrdi => n.wrdi
  | .en4b => n.en4b
  | .read => n.read
  | .read4b => n.read4b
  | .pp => n.pp
  | .pp4b => n.pp4b
  | .be4k => n.be4k
  | .be4k4b => n.be4k4b
  | .se => n.se
  | .se4b => n.se4b
  | .ce => n.ce

/-- One parameter set of R12: "The command bytes of one parameter set must be pairwise different". -/
structure NorOps extends NorBytes where
  distinct : (NorCmd.all.map toNorBytes.byte).Nodup
deriving DecidableEq, Repr

/-- `SR_WIP_BIT` and `SR_WEL_BIT` (R12): two bits of the status register. -/
structure SrBits where
  wip : Fin 8
  wel : Fin 8
  distinct : wip ≠ wel
deriving DecidableEq, Repr

/-- The parameters that belong to no single unit (R9, R11, R12, R13). A budget `none` is an unbounded wait. -/
structure Params where
  /-- The command field of MODE (R9, R102). -/
  mode : ModeCodes
  /-- Offsets in an eFuse window (R9). -/
  efuseOffsets : EfuseOffsets
  /-- Offsets in an SPI window (R108). -/
  spiOffsets : SpiOffsets
  /-- The fields of TRAN_CSR (R108). -/
  tran : TranFields
  /-- The fields of INT_STS (R108). -/
  intSts : IntFields
  /-- The lowest bit of the fill level in FIFO_PT (R108). -/
  fillLevel : Fin 29
  /-- The numbers of the status codes (R250). -/
  codes : StatusCodes
  /-- The command bytes (R12). -/
  ops : NorOps
  /-- The named bits of the part's status register (R12). -/
  srBits : SrBits
  /-- `EFUSE_WAIT_BUDGET` (R9, D11). -/
  efuseWaitBudget : Option Nat
  /-- `SPI_WAIT_BUDGET` (R11, D27). -/
  spiWaitBudget : Option Nat
  /-- `READY_POLL_BUDGET` (R11, D27). -/
  readyPollBudget : Option Nat
  /-- `FIFO_DEPTH` (R11, D16). -/
  fifoDepth : Nat
  /-- `STRICT_FIFO` (R11, D16). -/
  strictFifo : Bool
  /-- `SR_INIT_VALUE` (R12, D23). -/
  srInit : Byte
  /-- `ERASED_BYTE` (R13, R215, D28): also what an unlisted address of `FLASH` reads as (log 10). -/
  erasedByte : Byte
  /-- Size in bytes of a device's bounce buffer (R10: OPEN). -/
  bounceSize : Nat
  /-- `NorFlashGetInfo` as a finite table (R13). -/
  geometry : List (JedecId × FlashInfo)
deriving DecidableEq, Repr

/-- `NorFlashGetInfo(id)`: "a pure lookup function" (R5, R13). -/
def norFlashGetInfo (p : Params) (id : JedecId) : Option FlashInfo :=
  (p.geometry.find? (fun e => e.1 = id)).map (fun e => e.2)

/-- The fixed part of a flash device's board description: controller window, size and ID of the part (R10, R13, R87).
The spec gives `baseAddress` no width: 32 bits here (DESIGN CHOICE, log 39). -/
structure SpiBoard where
  baseAddress : Word
  flashSize : Nat
  jedecId : JedecId
deriving DecidableEq, Repr

/-! ## What the spec fixes -/

/-- The byte of a fresh OTP array (R9, D12): what an unlisted address of the OTP byte view reads as (log 10). -/
def freshOtpByte : Byte := 0x00#8

/-- The unit of the `BE_4K` pair and of `NOR_FLASH_ERASE_4K` granularity (R106, R208). -/
def erase4K : Nat := 4096

/-! ## Free values (log 8, log 9, log 47)

What a unit draws depends on the address of its register window, which no two units share (D1), and on the
counter of the drawer. -/

/-- A value the spec leaves unspecified, drawn afresh for every counter value: `RD_DATA` after a write command
(R40), the working registers and the bounce buffer between operations (R30, R31, R52). -/
opaque freeWord : Word → Nat → Word

/-- As `freeWord`, for byte strings: the bounce buffer's content between operations (R52, U31). -/
opaque freeBytes : Word → Nat → List Byte

/-- A bit the spec leaves unspecified, drawn afresh for every counter value: whether a register command that arrives
with payload bytes it does not have (R180; log 36), or a page program that arrives without data (R182, R207; log 45),
takes effect. -/
opaque freeBit : Word → Nat → Bool

/-- As `freeBit`, for a byte: the value of a status write without exactly one payload byte (R180, R202; log 36), a byte
received from a command that sends none (R179, R212; log 43). -/
opaque freeByte : Word → Nat → Byte

/-- As `freeByte`, for a list, place by place: what a page program that runs past its page writes (R207; log 46). -/
opaque freeData : Word → Nat → Nat → Byte

/-- What a part sends after the three bytes of its ID (R212 gives none; log 36). -/
opaque idTail : SpiBoard → Nat → Byte

/-- How far below an address that is not a multiple of the erase unit the unit erased starts, drawn afresh for every
counter value and taken modulo the unit (R183, R208; log 44). -/
opaque freeOffset : Word → Nat → Nat

/-- One less than the page size of a part the geometry table does not know (R207, R13; log 21). -/
opaque unlistedPage : SpiBoard → Nat

/-- One less than the native sector size of a part the geometry table does not know (R208, R13; log 21). -/
opaque unlistedSector : SpiBoard → Nat

end Config

end Sys2Proof
end

