-- ==== Sys2Proof/Syntax.lean ====
section
/-! DEFINITION. The operations of the block: one constructor of `Instr` per row of spec/opcode_table.json, the five
formats that carry them (R100), and the reasons a decoder rejects bytes by name (R114). -/

namespace Sys2Proof

/-- The five classes of transfer-mode word (R107). -/
inductive TranClass where
  | regrd | regwr | datard | datawr | erase
deriving DecidableEq, Repr

/-- The operations of the block, one constructor per row of the opcode table (R109 to R113).

`bus`, `dev` are table indices; an SPI unit's controller, flash part and `norTable` entry share one index (log 27). -/
inductive Instr where
  /- REQ, level H (R110) -/
  | efuseRdb (bus offset count : Word)
  | efuseWrb (bus offset count : Word) (data : List Byte)
  | efuseInfo (bus : Word) (wantInfo wantTotal : Bool)
  | norSetup (handle : Option Word)
  | norInit (dev : Word)
  | norRd (dev offset length : Word)
  | norWr (dev offset length : Word) (data : List Byte)
  | norEr (dev offset length : Word)
  | norErchip (dev : Word)
  | norFree (dev : Word)
  /- REQ, level P (R111) -/
  | efuseRdw (bus wordIndex : Word)
  | efuseSetb (bus wordIndex : Word) (bitIndex : BitVec 5)
  | efuseWrw (bus wordIndex value : Word)
  | spiRdreg (dev : Word) (cmd : Byte) (n : BitVec 2)
  | spiWrreg (dev : Word) (cmd : Byte) (n : BitVec 2) (payload : List Byte)
  | spiXrd (dev addr len : Word)
  | spiXpp (dev addr len : Word) (payload : List Byte)
  | spiXer (dev addr : Word)
  | norWaitrdy (dev : Word)
  | norGetid (dev : Word)
  /- EFUSE_MODE (R102, R112): one 32-bit write of MODE of controller `bus` -/
  | modeIdle (bus : Word)
  | modeRead (bus : Word)
  | modeWrite (bus : Word)
  /- EFUSE_ADDR (R101): one 32-bit write of ADDR of controller `bus` -/
  | efuseAddr (bus wordIndex : Word) (bitIndex : BitVec 5)
  /- TRAN (R107, R108): one 32-bit write of TRAN_CSR; `go` is `GO_BUSY`, `addrBytes` the field `ADDR_BYTES` -/
  | tranRegrd (dev : Word) (go : Bool)
  | tranRegwr (dev : Word) (go : Bool)
  | tranDatard (dev : Word) (go : Bool) (addrBytes : BitVec 3)
  | tranDatawr (dev : Word) (go : Bool) (addrBytes : BitVec 3)
  | tranErase (dev : Word) (go : Bool) (addrBytes : BitVec 3)
  /- FRAME (R104, R113): one transaction carrying this frame to the part (log 15) -/
  | rdid (dev : Word)
  | rdsr (dev : Word)
  | wrsr (dev : Word) (v : Byte)
  | wren (dev : Word)
  | wrdi (dev : Word)
  | en4b (dev : Word)
  | read (dev : Word) (addr : BitVec 24) (len : Word)
  | read4b (dev : Word) (addr : BitVec 32) (len : Word)
  | pp (dev : Word) (addr : BitVec 24) (data : List Byte)
  | pp4b (dev : Word) (addr : BitVec 32) (data : List Byte)
  | be4k (dev : Word) (addr : BitVec 24)
  | be4k4b (dev : Word) (addr : BitVec 32)
  | se (dev : Word) (addr : BitVec 24)
  | se4b (dev : Word) (addr : BitVec 32)
  | ce (dev : Word)
deriving DecidableEq, Repr

/-- What carries an operation (R100): the format, with the target the register window or bus gives it. A `frame`
also has the transaction's `TRAN_NUM`, which is a register and not part of the frame's bytes (R42, R104). -/
inductive Port where
  | req
  | efuseMode (bus : Word)
  | efuseAddr (bus : Word)
  | tran (dev : Word)
  | frame (dev : Word) (tranNum : Word)
deriving DecidableEq, Repr

/-- Encoded operations of one format, back to back (log 4). -/
structure Call where
  port : Port
  bytes : List Byte
deriving DecidableEq, Repr

/-- Why bytes select no operation (R114, R109). All are safe: the model gives the bytes no meaning. -/
inductive DecodeError where
  /-- Operand bytes are missing. -/
  | truncated
  /-- R114 (e): the `REQ` selector is not listed. -/
  | unknownSelector (op : Byte)
  /-- A boolean or optional operand's flag byte is neither 0 nor 1 (log 5). -/
  | badFlag (b : Byte)
  /-- `bitIndex` is not in 0..31 (R109, U10). -/
  | bitIndexRange (b : Byte)
  /-- `n` is not in 0..3 (R109, U18). -/
  | payloadRange (b : Byte)
  /-- R114 (a): `MODE.CMD` holds the reserved value. -/
  | reservedMode
  /-- R114 (b): a reserved bit of MODE or ADDR is set. -/
  | reservedBits
  /-- R114 (c): the word is outside the five classes of R107. -/
  | reservedTran
  /-- R114 (d): the command byte is outside the set of R113. -/
  | unknownCommand (b : Byte)
  /-- `TRAN_NUM` does not fit the command of the frame (R113). -/
  | frameLength
  /-- The bus has no controller of legal `addressBits`, so ADDR has no layout (R101, U11). -/
  | noLayout
deriving DecidableEq, Repr

/-- `addressBits` of each bus, the parameter the layout of ADDR depends on (R101). -/
abbrev AddrWidths := Word → Option Nat

end Sys2Proof
end

