-- ==== Sys2Proof/WellFormed.lean ====
section
/-! DEFINITION. Which terms of `Instr` are operations of the block: the operand constraints of R101, R107, R109 and
R113 that the operand types do not already say. -/

namespace Sys2Proof

/-- The word index fits the `WORD` field of ADDR, for a legal `addressBits` (R101, D5). -/
def addrFits (ab : AddrWidths) (bus wordIndex : Word) : Bool :=
  match ab bus with
  | none => false
  | some a => decide (1 ≤ a ∧ a ≤ 27 ∧ wordIndex.toNat < 2 ^ a)

/-- `ADDR_BYTES` of a data or erase class is `addressByteCount`: 3 or 4 (R107). -/
def addrBytesLegal (n : BitVec 3) : Bool := n = 3#3 || n = 4#3

/-- The data bytes of a page-program frame are as many as `TRAN_NUM` can count (R42, R113). -/
def payloadFits (data : List Byte) : Bool := decide (data.length < 2 ^ 32)

/-- Well-formedness of an operation (R101, R107, R109, R113). -/
def WellFormed (ab : AddrWidths) : Instr → Bool
  | .efuseWrb _ _ count data => decide (data.length = count.toNat)
  | .norWr _ _ length data => decide (data.length = length.toNat)
  | .spiWrreg _ _ n payload => decide (payload.length = n.toNat)
  | .spiXpp _ _ len payload => decide (payload.length = len.toNat)
  | .efuseAddr bus wordIndex _ => addrFits ab bus wordIndex
  | .tranDatard _ _ n => addrBytesLegal n
  | .tranDatawr _ _ n => addrBytesLegal n
  | .tranErase _ _ n => addrBytesLegal n
  | .pp _ _ data => payloadFits data
  | .pp4b _ _ data => payloadFits data
  | .efuseRdb _ _ _ | .efuseInfo _ _ _ | .norSetup _ | .norInit _ | .norRd _ _ _ | .norEr _ _ _ | .norErchip _
  | .norFree _ | .efuseRdw _ _ | .efuseSetb _ _ _ | .efuseWrw _ _ _ | .spiRdreg _ _ _ | .spiXrd _ _ _ | .spiXer _ _
  | .norWaitrdy _ | .norGetid _ | .modeIdle _ | .modeRead _ | .modeWrite _ | .tranRegrd _ _ | .tranRegwr _ _
  | .rdid _ | .rdsr _ | .wrsr _ _ | .wren _ | .wrdi _ | .en4b _ | .read _ _ _ | .read4b _ _ _ | .be4k _ _
  | .be4k4b _ _ | .se _ _ | .se4b _ _ | .ce _ => true

end Sys2Proof
end

