-- ==== Sys2Proof/Decode.lean ====
section
/-! DEFINITION. From bytes to operations and back (R100 to R118): one decoder per format, total on any bytes and
rejecting by name, and the encoder. Within one format every encoding has one meaning; the five formats are told
apart by what carries them (`Port`), never by the bytes (log 6). -/

namespace Sys2Proof

/-! ## Bytes and fields -/

/-- The four bytes of a 32-bit operand or register value, least significant first (log 5). -/
def le32 (w : Word) : List Byte :=
  [w.extractLsb' 0 8, w.extractLsb' 8 8, w.extractLsb' 16 8, w.extractLsb' 24 8]

/-- The word whose bytes are `b0` (least significant) to `b3`. -/
def unle32 (b0 b1 b2 b3 : Byte) : Word := b3 ++ b2 ++ b1 ++ b0

/-- `ComposeAddr(A, wordIndex, bitIndex)` (R101). -/
def composeAddr (a : Nat) (wordIndex : Word) (bitIndex : BitVec 5) : Word :=
  wordIndex ||| (bitIndex.setWidth 32 <<< a)

/-- Address bytes of a frame, most significant first (R76, R105): 3 bytes. -/
def addrBytes3 (a : BitVec 24) : List Byte :=
  [a.extractLsb' 16 8, a.extractLsb' 8 8, a.extractLsb' 0 8]

/-- Address bytes of a frame, most significant first (R76, R105): 4 bytes. -/
def addrBytes4 (a : BitVec 32) : List Byte :=
  [a.extractLsb' 24 8, a.extractLsb' 16 8, a.extractLsb' 8 8, a.extractLsb' 0 8]

/-! ## Parameters -/

/-- The default command bytes (R12, R113). -/
def defaultOps : Config.NorOps :=
  { rdid := 0x9F#8, rdsr := 0x05#8, wrsr := 0x01#8, wren := 0x06#8, wrdi := 0x04#8, en4b := 0xB7#8, read := 0x03#8,
    read4b := 0x13#8, pp := 0x02#8, pp4b := 0x12#8, be4k := 0x20#8, be4k4b := 0x21#8, se := 0xD8#8, se4b := 0xDC#8,
    ce := 0xC7#8, distinct := by decide }

/-- The defaults of R9, R11, R12, R13, R108 and R250 with the OPEN parameters as 95_test_vectors.md has them (log 3). -/
def defaultParams : Config.Params :=
  { mode := { mask := 0x3#32, idle := 0x0#32, read := 0x2#32, write := 0x3#32, view := .command,
              viewOutside := by decide, inField := by decide, distinct := by decide },
    efuseOffsets := { mode := 0x00#32, addr := 0x04#32, rdData := 0x0C#32, distinct := by decide },
    spiOffsets := { tranCsr := 0x10#32, tranNum := 0x14#32, fifoPort := 0x18#32, fifoPt := 0x20#32, intSts := 0x28#32,
                    distinct := by decide },
    tran := { rx := 0, tx := 1, addrBytes := 8, withCmd := 11, trgLvl := 12, goBusy := 15, trg1 := 0#2, trg2 := 1#2,
              trg4 := 2#2, trg8 := 3#2, apart := by decide, fits := by decide, levels := by decide },
    intSts := { tranDone := 0, rdFifo := 2, apart := by decide, fits := by decide }, fillLevel := 0,
    codes := { success := 0#64, invalidParameter := 0x8000000000000002#64, outOfResources := 0x8000000000000009#64,
               notFound := 0x800000000000000E#64, timeout := 0x8000000000000012#64, shellSuccess := 0,
               shellAborted := 21, distinct := by decide },
    ops := defaultOps, srBits := { wip := 0, wel := 1, distinct := by decide },
    efuseWaitBudget := none, spiWaitBudget := none, readyPollBudget := none, fifoDepth := 8, strictFifo := false,
    srInit := 0#8, erasedByte := 0xFF#8, bounceSize := 3,
    geometry := [(⟨0xEF#8, 0x40#8, 0x18#8⟩, ⟨256, 65536, false, true⟩),
                 (⟨0xC2#8, 0x20#8, 0x19#8⟩, ⟨256, 65536, true, false⟩)] }

/-- The command byte of each NOR command (R12, R113). -/
def Config.Params.op (cfg : Config.Params) (c : NorCmd) : Byte := cfg.ops.byte c

/-- The NOR command of a command byte (R113); none outside the set (R114 (d)). -/
def Config.Params.cmdOf (cfg : Config.Params) (b : Byte) : Option NorCmd := NorCmd.all.find? fun c => cfg.op c = b

/-- The mask of one bit of the part's status register. -/
def bitMask (k : Fin 8) : Byte := 1#8 <<< k.val

/-- The mask of `WIP` and `WEL` (R12, R37). -/
def Config.Params.srMask (cfg : Config.Params) : Byte := bitMask cfg.srBits.wip ||| bitMask cfg.srBits.wel

/-- The transaction class of each command (R113). -/
def NorCmd.cls : NorCmd → TranClass
  | .rdid | .rdsr => .regrd
  | .wrsr | .wren | .wrdi | .en4b | .ce => .regwr
  | .read | .read4b => .datard
  | .pp | .pp4b => .datawr
  | .be4k | .be4k4b | .se | .se4b => .erase

/-- The number of address bytes a command takes (R113). -/
def NorCmd.addrLen : NorCmd → Nat
  | .rdid | .rdsr | .wrsr | .wren | .wrdi | .en4b | .ce => 0
  | .read | .pp | .be4k | .se => 3
  | .read4b | .pp4b | .be4k4b | .se4b => 4

/-! ## Words of TRAN_CSR -/

/-- A field whose lowest bit is `p`. -/
def fieldAt {n : Nat} (p : Nat) (x : BitVec n) : Word := x.setWidth 32 <<< p

/-- `RX` of a class (R107). -/
def TranClass.rx : TranClass → Bool
  | .regrd | .datard => true
  | .regwr | .datawr | .erase => false

/-- `TX` of a class (R107). -/
def TranClass.tx : TranClass → Bool
  | .regwr | .datawr => true
  | .regrd | .datard | .erase => false

/-- `TRG_LVL` of a class (R107, R11): the code of 1 byte (`TRG_REG`) or of 8 (`TRG_DATA`). -/
def TranClass.trgLvl (cfg : Config.Params) : TranClass → BitVec 2
  | .regrd | .regwr => cfg.tran.trg1
  | .datard | .datawr | .erase => cfg.tran.trg8

/-- The values of `ADDR_BYTES` in a word of a class (R107): none for the register classes, 3 or 4 for the others. -/
def TranClass.admits (cls : TranClass) (n : BitVec 3) : Bool :=
  match cls with
  | .regrd | .regwr => n = 0#3
  | .datard | .datawr | .erase => addrBytesLegal n

/-- Value of `TRAN_CSR` for a class (R107, R108): "the whole register", every other bit 0 (R41). -/
def tranWord (cfg : Config.Params) (cls : TranClass) (addrBytes : BitVec 3) (go : Bool) : Word :=
  fieldAt cfg.tran.rx (BitVec.ofBool cls.rx) ||| fieldAt cfg.tran.tx (BitVec.ofBool cls.tx) |||
    fieldAt cfg.tran.addrBytes addrBytes ||| fieldAt cfg.tran.withCmd 1#1 |||
    fieldAt cfg.tran.trgLvl (cls.trgLvl cfg) ||| fieldAt cfg.tran.goBusy (BitVec.ofBool go)

/-- The field `GO_BUSY` of a TRAN_CSR word (R35, R108). -/
def goBusy (cfg : Config.Params) (v : Word) : Bool := v.getLsbD cfg.tran.goBusy

/-- The field `ADDR_BYTES` of a TRAN_CSR word (R41, R108). -/
def tranAddr (cfg : Config.Params) (v : Word) : BitVec 3 := v.extractLsb' cfg.tran.addrBytes 3

/-! ## Operand readers -/

/-- Reads a 32-bit operand. -/
def readWord {α : Type} (r : List Byte) (k : Word → List Byte → Except DecodeError α) : Except DecodeError α :=
  match r with
  | b0 :: b1 :: b2 :: b3 :: t => k (unle32 b0 b1 b2 b3) t
  | _ => .error .truncated

/-- Reads a byte operand. -/
def readByte {α : Type} (r : List Byte) (k : Byte → List Byte → Except DecodeError α) : Except DecodeError α :=
  match r with
  | b :: t => k b t
  | [] => .error .truncated

/-- Reads a boolean operand: one byte, 0 or 1 (log 5). -/
def readFlag {α : Type} (r : List Byte) (k : Bool → List Byte → Except DecodeError α) : Except DecodeError α :=
  readByte r fun b t =>
    if b = 0#8 then k false t else if b = 1#8 then k true t else .error (.badFlag b)

/-- Reads `bitIndex`: one byte, 0..31 (R109). -/
def readBitIndex {α : Type} (r : List Byte) (k : BitVec 5 → List Byte → Except DecodeError α) :
    Except DecodeError α :=
  readByte r fun b t => if b.toNat < 32 then k (b.setWidth 5) t else .error (.bitIndexRange b)

/-- Reads `n`: one byte, 0..3 (R109). -/
def readCount {α : Type} (r : List Byte) (k : BitVec 2 → List Byte → Except DecodeError α) : Except DecodeError α :=
  readByte r fun b t => if b.toNat < 4 then k (b.setWidth 2) t else .error (.payloadRange b)

/-- Reads a byte list whose length is a preceding count (R109). -/
def readBytes {α : Type} (n : Nat) (r : List Byte) (k : List Byte → List Byte → Except DecodeError α) :
    Except DecodeError α :=
  if r.length < n then .error .truncated else k (r.take n) (r.drop n)

/-- Reads a 3-byte frame address, most significant byte first (R105). -/
def readAddr3 {α : Type} (r : List Byte) (k : BitVec 24 → List Byte → Except DecodeError α) :
    Except DecodeError α :=
  match r with
  | b2 :: b1 :: b0 :: t => k (b2 ++ b1 ++ b0) t
  | _ => .error .truncated

/-- Reads a 4-byte frame address, most significant byte first (R105). -/
def readAddr4 {α : Type} (r : List Byte) (k : BitVec 32 → List Byte → Except DecodeError α) :
    Except DecodeError α :=
  match r with
  | b3 :: b2 :: b1 :: b0 :: t => k (b3 ++ b2 ++ b1 ++ b0) t
  | _ => .error .truncated

/-! ## The decoders -/

/-- What a decoder answers: the operation and the bytes after it. -/
abbrev Decoded := Except DecodeError (Instr × List Byte)

/-- Format `REQ` (R109). -/
def decodeReq (bytes : List Byte) : Decoded :=
  readByte bytes fun op r =>
    match op.toNat with
    | 0x01 => readWord r fun bus r => readWord r fun off r => readWord r fun cnt r => .ok (.efuseRdb bus off cnt, r)
    | 0x02 => readWord r fun bus r => readWord r fun off r => readWord r fun cnt r =>
        readBytes cnt.toNat r fun data r => .ok (.efuseWrb bus off cnt data, r)
    | 0x03 => readWord r fun bus r => readFlag r fun wi r => readFlag r fun wt r => .ok (.efuseInfo bus wi wt, r)
    | 0x10 => readFlag r fun given r =>
        if given then readWord r fun h r => .ok (.norSetup (some h), r) else .ok (.norSetup none, r)
    | 0x11 => readWord r fun dev r => .ok (.norInit dev, r)
    | 0x12 => readWord r fun dev r => readWord r fun off r => readWord r fun len r => .ok (.norRd dev off len, r)
    | 0x13 => readWord r fun dev r => readWord r fun off r => readWord r fun len r =>
        readBytes len.toNat r fun data r => .ok (.norWr dev off len data, r)
    | 0x14 => readWord r fun dev r => readWord r fun off r => readWord r fun len r => .ok (.norEr dev off len, r)
    | 0x15 => readWord r fun dev r => .ok (.norErchip dev, r)
    | 0x16 => readWord r fun dev r => .ok (.norFree dev, r)
    | 0x20 => readWord r fun bus r => readWord r fun w r => .ok (.efuseRdw bus w, r)
    | 0x21 => readWord r fun bus r => readWord r fun w r => readBitIndex r fun k r => .ok (.efuseSetb bus w k, r)
    | 0x22 => readWord r fun bus r => readWord r fun w r => readWord r fun v r => .ok (.efuseWrw bus w v, r)
    | 0x30 => readWord r fun dev r => readByte r fun cmd r => readCount r fun n r => .ok (.spiRdreg dev cmd n, r)
    | 0x31 => readWord r fun dev r => readByte r fun cmd r => readCount r fun n r =>
        readBytes n.toNat r fun p r => .ok (.spiWrreg dev cmd n p, r)
    | 0x32 => readWord r fun dev r => readWord r fun a r => readWord r fun len r => .ok (.spiXrd dev a len, r)
    | 0x33 => readWord r fun dev r => readWord r fun a r => readWord r fun len r =>
        readBytes len.toNat r fun p r => .ok (.spiXpp dev a len p, r)
    | 0x34 => readWord r fun dev r => readWord r fun a r => .ok (.spiXer dev a, r)
    | 0x35 => readWord r fun dev r => .ok (.norWaitrdy dev, r)
    | 0x36 => readWord r fun dev r => .ok (.norGetid dev, r)
    | _ => .error (.unknownSelector op)

/-- Format `EFUSE_MODE` (R102, R114 (a), (b)). -/
def decodeMode (cfg : Config.Params) (bus : Word) (bytes : List Byte) : Decoded :=
  readWord bytes fun v r =>
    if v = cfg.mode.idle then .ok (.modeIdle bus, r)
    else if v = cfg.mode.read then .ok (.modeRead bus, r)
    else if v = cfg.mode.write then .ok (.modeWrite bus, r)
    else if v &&& ~~~cfg.mode.mask = 0#32 then .error .reservedMode
    else .error .reservedBits

/-- Format `EFUSE_ADDR` (R101), whose layout depends on `addressBits` of the bus. -/
def decodeAddr (ab : AddrWidths) (bus : Word) (bytes : List Byte) : Decoded :=
  readWord bytes fun v r =>
    match ab bus with
    | none => .error .noLayout
    | some a =>
      if 1 ≤ a ∧ a ≤ 27 then
        if v.toNat < 2 ^ (a + 5) then
          .ok (.efuseAddr bus (BitVec.ofNat 32 (v.toNat % 2 ^ a)) (BitVec.ofNat 5 (v.toNat / 2 ^ a)), r)
        else .error .reservedBits
      else .error .noLayout

/-- Format `TRAN` (R107, R108): the word that a class, an `ADDR_BYTES` and a `GO_BUSY` give. The field `ADDR_BYTES` of
the three data classes is decoded as it stands; its reserved values are refused when the word is written (R114 (c)). -/
def decodeTran (cfg : Config.Params) (dev : Word) (bytes : List Byte) : Decoded :=
  readWord bytes fun v r =>
    let go := goBusy cfg v
    let n := tranAddr cfg v
    if v = tranWord cfg .regrd 0#3 go then .ok (.tranRegrd dev go, r)
    else if v = tranWord cfg .regwr 0#3 go then .ok (.tranRegwr dev go, r)
    else if v = tranWord cfg .datard n go then .ok (.tranDatard dev go n, r)
    else if v = tranWord cfg .datawr n go then .ok (.tranDatawr dev go n, r)
    else if v = tranWord cfg .erase n go then .ok (.tranErase dev go n, r)
    else .error .reservedTran

/-- A frame without data phase: `TRAN_NUM` must be 0 (R113). -/
def noData (num : Word) (i : Instr) (r : List Byte) : Decoded :=
  if num = 0#32 then .ok (i, r) else .error .frameLength

/-- Format `FRAME` (R104, R113): command byte, address bytes, payload of `TRAN_NUM` bytes when the class transmits. A
data length of 0 in READ or PP, below R113's 1, is decoded as it stands (DESIGN CHOICE, log 45). -/
def decodeFrame (cfg : Config.Params) (dev num : Word) (bytes : List Byte) : Decoded :=
  readByte bytes fun b r =>
    match cfg.cmdOf b with
    | none => .error (.unknownCommand b)
    | some .rdid => if num = 3#32 then .ok (.rdid dev, r) else .error .frameLength
    | some .rdsr => if num = 1#32 then .ok (.rdsr dev, r) else .error .frameLength
    | some .wrsr => if num = 1#32 then readByte r fun v r => .ok (.wrsr dev v, r) else .error .frameLength
    | some .wren => noData num (.wren dev) r
    | some .wrdi => noData num (.wrdi dev) r
    | some .en4b => noData num (.en4b dev) r
    | some .read => readAddr3 r fun a r => .ok (.read dev a num, r)
    | some .read4b => readAddr4 r fun a r => .ok (.read4b dev a num, r)
    | some .pp => readAddr3 r fun a r => readBytes num.toNat r fun p r => .ok (.pp dev a p, r)
    | some .pp4b => readAddr4 r fun a r => readBytes num.toNat r fun p r => .ok (.pp4b dev a p, r)
    | some .be4k => readAddr3 r fun a r => noData num (.be4k dev a) r
    | some .be4k4b => readAddr4 r fun a r => noData num (.be4k4b dev a) r
    | some .se => readAddr3 r fun a r => noData num (.se dev a) r
    | some .se4b => readAddr4 r fun a r => noData num (.se4b dev a) r
    | some .ce => noData num (.ce dev) r

/-- The decoder: the first operation of a call, and the bytes left after it (R100). -/
def decode (cfg : Config.Params) (ab : AddrWidths) (c : Call) : Decoded :=
  match c.port with
  | .req => decodeReq c.bytes
  | .efuseMode bus => decodeMode cfg bus c.bytes
  | .efuseAddr bus => decodeAddr ab bus c.bytes
  | .tran dev => decodeTran cfg dev c.bytes
  | .frame dev num => decodeFrame cfg dev num c.bytes

/-! ## The encoder -/

/-- One byte 0 or 1 (log 5). -/
def flagByte (b : Bool) : Byte := if b then 1#8 else 0#8

/-- `TRAN_NUM` of a payload. -/
def lengthWord (data : List Byte) : Word := BitVec.ofNat 32 data.length

/-- The encoding of an operation (R101, R102, R104, R107, R109, R113). -/
def encode (cfg : Config.Params) (ab : AddrWidths) : Instr → Call
  | .efuseRdb bus off cnt => ⟨.req, 0x01#8 :: (le32 bus ++ le32 off ++ le32 cnt)⟩
  | .efuseWrb bus off cnt data => ⟨.req, 0x02#8 :: (le32 bus ++ le32 off ++ le32 cnt ++ data)⟩
  | .efuseInfo bus wi wt => ⟨.req, 0x03#8 :: (le32 bus ++ [flagByte wi, flagByte wt])⟩
  | .norSetup none => ⟨.req, [0x10#8, 0#8]⟩
  | .norSetup (some h) => ⟨.req, 0x10#8 :: 1#8 :: le32 h⟩
  | .norInit dev => ⟨.req, 0x11#8 :: le32 dev⟩
  | .norRd dev off len => ⟨.req, 0x12#8 :: (le32 dev ++ le32 off ++ le32 len)⟩
  | .norWr dev off len data => ⟨.req, 0x13#8 :: (le32 dev ++ le32 off ++ le32 len ++ data)⟩
  | .norEr dev off len => ⟨.req, 0x14#8 :: (le32 dev ++ le32 off ++ le32 len)⟩
  | .norErchip dev => ⟨.req, 0x15#8 :: le32 dev⟩
  | .norFree dev => ⟨.req, 0x16#8 :: le32 dev⟩
  | .efuseRdw bus w => ⟨.req, 0x20#8 :: (le32 bus ++ le32 w)⟩
  | .efuseSetb bus w k => ⟨.req, 0x21#8 :: (le32 bus ++ le32 w ++ [k.setWidth 8])⟩
  | .efuseWrw bus w v => ⟨.req, 0x22#8 :: (le32 bus ++ le32 w ++ le32 v)⟩
  | .spiRdreg dev cmd n => ⟨.req, 0x30#8 :: (le32 dev ++ [cmd, n.setWidth 8])⟩
  | .spiWrreg dev cmd n p => ⟨.req, 0x31#8 :: (le32 dev ++ [cmd, n.setWidth 8] ++ p)⟩
  | .spiXrd dev a len => ⟨.req, 0x32#8 :: (le32 dev ++ le32 a ++ le32 len)⟩
  | .spiXpp dev a len p => ⟨.req, 0x33#8 :: (le32 dev ++ le32 a ++ le32 len ++ p)⟩
  | .spiXer dev a => ⟨.req, 0x34#8 :: (le32 dev ++ le32 a)⟩
  | .norWaitrdy dev => ⟨.req, 0x35#8 :: le32 dev⟩
  | .norGetid dev => ⟨.req, 0x36#8 :: le32 dev⟩
  | .modeIdle bus => ⟨.efuseMode bus, le32 cfg.mode.idle⟩
  | .modeRead bus => ⟨.efuseMode bus, le32 cfg.mode.read⟩
  | .modeWrite bus => ⟨.efuseMode bus, le32 cfg.mode.write⟩
  | .efuseAddr bus w k => ⟨.efuseAddr bus, le32 (composeAddr ((ab bus).getD 0) w k)⟩
  | .tranRegrd dev go => ⟨.tran dev, le32 (tranWord cfg .regrd 0#3 go)⟩
  | .tranRegwr dev go => ⟨.tran dev, le32 (tranWord cfg .regwr 0#3 go)⟩
  | .tranDatard dev go n => ⟨.tran dev, le32 (tranWord cfg .datard n go)⟩
  | .tranDatawr dev go n => ⟨.tran dev, le32 (tranWord cfg .datawr n go)⟩
  | .tranErase dev go n => ⟨.tran dev, le32 (tranWord cfg .erase n go)⟩
  | .rdid dev => ⟨.frame dev 3#32, [cfg.op .rdid]⟩
  | .rdsr dev => ⟨.frame dev 1#32, [cfg.op .rdsr]⟩
  | .wrsr dev v => ⟨.frame dev 1#32, [cfg.op .wrsr, v]⟩
  | .wren dev => ⟨.frame dev 0#32, [cfg.op .wren]⟩
  | .wrdi dev => ⟨.frame dev 0#32, [cfg.op .wrdi]⟩
  | .en4b dev => ⟨.frame dev 0#32, [cfg.op .en4b]⟩
  | .read dev a len => ⟨.frame dev len, cfg.op .read :: addrBytes3 a⟩
  | .read4b dev a len => ⟨.frame dev len, cfg.op .read4b :: addrBytes4 a⟩
  | .pp dev a data => ⟨.frame dev (lengthWord data), cfg.op .pp :: (addrBytes3 a ++ data)⟩
  | .pp4b dev a data => ⟨.frame dev (lengthWord data), cfg.op .pp4b :: (addrBytes4 a ++ data)⟩
  | .be4k dev a => ⟨.frame dev 0#32, cfg.op .be4k :: addrBytes3 a⟩
  | .be4k4b dev a => ⟨.frame dev 0#32, cfg.op .be4k4b :: addrBytes4 a⟩
  | .se dev a => ⟨.frame dev 0#32, cfg.op .se :: addrBytes3 a⟩
  | .se4b dev a => ⟨.frame dev 0#32, cfg.op .se4b :: addrBytes4 a⟩
  | .ce dev => ⟨.frame dev 0#32, [cfg.op .ce]⟩

/-! ## Words of the opcode table -/

/-- `TRAN_NUM` under which a bare frame of the opcode table is read: the fixed data length of the command, or 1
byte where the length is the caller's (R113; log 6). -/
def tableTranNum (cfg : Config.Params) (w : Nat) : Word :=
  match cfg.cmdOf (BitVec.ofNat 8 w) with
  | some .rdid => 3#32
  | some .rdsr | some .wrsr | some .read | some .read4b | some .pp | some .pp4b => 1#32
  | _ => 0#32

/-- The bytes of a table word, first word in the low bits, followed by operand bytes of zero. -/
def tableBytes (nbits w : Nat) : List Byte :=
  (List.range (nbits / 8)).map (fun i => BitVec.ofNat 8 (w / 2 ^ (8 * i))) ++ List.replicate 16 0#8

/-- The formats a table word of this width can stand for, in the order they are tried (log 6): 8 bits a `REQ`
selector, else a command byte; 32 bits a value of MODE, else of `TRAN_CSR`, else of ADDR. -/
def tablePorts (cfg : Config.Params) (nbits w : Nat) : List Port :=
  if nbits ≤ 8 then [.req, .frame 0#32 (tableTranNum cfg w)]
  else [.efuseMode 0#32, .tran 0#32, .efuseAddr 0#32]

/-- The first of the ports under which the bytes decode, with exactly the bytes of that one operation. -/
def firstCall (cfg : Config.Params) (ab : AddrWidths) (bytes : List Byte) : List Port → Option (Call × Instr)
  | [] => none
  | p :: ps =>
    match decode cfg ab ⟨p, bytes⟩ with
    | .ok (i, r) => some (⟨p, bytes.take (bytes.length - r.length)⟩, i)
    | .error _ => firstCall cfg ab bytes ps

/-- The call a table word stands for, and the operation in it. -/
def tableCall (cfg : Config.Params) (ab : AddrWidths) (nbits w : Nat) : Option (Call × Instr) :=
  firstCall cfg ab (tableBytes nbits w) (tablePorts cfg nbits w)

/-- The opcode table draws ADDR for `addressBits = 7` (R101). -/
def tableWidths : AddrWidths := fun _ => some 7

/-- The instruction the decoder reads from a word of the opcode table, with the default
parameters the table is drawn for. -/
def decodeTableWord (nbits w : Nat) : Option Instr :=
  (tableCall defaultParams tableWidths nbits w).map (fun x => x.2)

end Sys2Proof
end

