-- ==== Sys2Proof/Machine/State.lean ====
section
/-! DEFINITION. The state of the block (10_state.md), the reasons a step can stop, and the state after reset. Plain
data throughout. The OTP array, the flash array, both register windows, the FIFO, the in-flight transaction, the
working registers, the device records; beside them the caller's side (BUF, status, results) and the schedule of the
hardware agents. -/

namespace Sys2Proof.Machine

open Sys2Proof

/-! ## Reasons to stop -/

/-- Accesses to addresses that do not exist. The spec gives such a request no meaning (R94, R95): the model stops,
which is safe. -/
inductive Fault where
  /-- A word index or byte range outside `OTP[b]` (R94): raised by the eFuse primitives, the byte engine and
  EMAC. Safe. -/
  | otpRange
  /-- A flash address or range outside `FLASH`, or a part larger than its addressing mode reaches (R95): raised by the
  data operations and by PART. Safe. -/
  | flashRange
deriving DecidableEq, Repr

/-- Situations the spec refuses (`refuse`, R17): it gives them no meaning, so stopping is safe. -/
inductive Refusal where
  /-- An instruction this model gives no meaning yet; none is left. Safe. -/
  | notModelled (mnemonic : String)
  /-- The bytes of a call select no operation (R114). Raised by `step`. Safe. -/
  | undecodable (e : DecodeError)
  /-- An operand list whose length is not the operand that counts it, a page program of more bytes than `TRAN_NUM`
  counts (R42), or a word index that does not fit the `WORD` field of ADDR (R101, R109). Safe. -/
  | illFormed
  /-- A bare register access, frame or primitive on a controller that does not exist (DESIGN CHOICE, log 41). Safe. -/
  | noController
  /-- An operation on an absent device record (R220). Safe. -/
  | absentDevice
  /-- A data operation on a record that `NOR.INIT` has not completed (R232). Safe. -/
  | notInitialised
  /-- A configuration the spec excludes: `addressBits` outside 1..27 (R8, U11), page or sector size 0 (U27). Safe. -/
  | badConfig
  /-- A write of ADDR or MODE while the macro is busy (R285). Safe. -/
  | efuseBusy
  /-- A value with no meaning written to a register: RD_DATA (R40), MODE or ADDR with reserved bits (R114), FIFO_PT or
  INT_STS with a value other than 0 (R44, R45), a 32-bit access of FIFO_PORT (R82). Safe. -/
  | registerReserved
  /-- A write of TRAN_CSR while `GO_BUSY = 1` (R41). Safe. -/
  | tranBusy
  /-- A TRAN_CSR word outside the five classes (R114 (c)). Safe. -/
  | reservedTran
  /-- A push onto a full FIFO with `STRICT_FIFO` (R47, R173). Safe. -/
  | fifoFull
  /-- A pop from an empty FIFO (R47). Safe. -/
  | fifoEmpty
  /-- A transaction on a controller that is not idle, or a write of TRAN_CSR outside the phase `S_IDLE`: after a
  timed-out wait, or with a transaction in flight (R170, R185, U5). Safe. -/
  | controllerNotIdle
  /-- `SPI.RDREG` of 0 bytes (R179). Safe. -/
  | payloadRange
  /-- `SPI.XRD` or `SPI.XPP` of a length that crosses a page (R181, R182, U19). Safe. -/
  | pageCross
  /-- A command byte outside the set (R114 (d), R212). Safe. -/
  | unknownCommand
  /-- An address length that does not match the command (R212). Safe. -/
  | addressLength
  /-- An address-taking command whose address length is not that of the part's mode: a base command while `mode4B = 1`,
  a `_4B` command while `mode4B = 0` (R212, R217, U22). Safe. -/
  | addressMode
  /-- Any command but RDSR while `WIP = 1` (R212, R289). Safe. -/
  | partBusy
  /-- The part after a controller reset cut a transaction that had started (R222, U25). Safe. -/
  | partUnknown
deriving DecidableEq, Repr

/-- Either reason. -/
inductive Stop where
  | fault (f : Fault)
  | refuse (r : Refusal)
deriving DecidableEq, Repr

/-! ## Status codes -/

/-- The EFI status codes of R250. -/
inductive Status where
  | success | invalidParameter | outOfResources | notFound | timeout
deriving DecidableEq, Repr

/-! ## Memory -/

/-- A memory of bytes as a list of (address, byte): strictly rising addresses, no entry equal to what an unlisted
address reads as (Machine/Memory.lean). -/
abbrev Memory := List Host.Cell

/-! ## Engine E -/

/-- `ephase` (R32). -/
inductive EPhase where
  | idle | cmdRead | cmdWrite
deriving DecidableEq, Repr

/-- The registers of one eFuse window (R38 to R40). -/
inductive EReg where
  | mode | addr | rdData
deriving DecidableEq, Repr

/-- One entry of the register trace (R138): a register write, or the read of RD_DATA. -/
inductive EAccess where
  | write (r : EReg) (v : Word)
  | readData (v : Word)
deriving DecidableEq, Repr

/-- Working registers of engine E (R30) and `BUF` as the operation in progress sees it (R73). -/
structure EWork where
  off : Word
  cnt : Word
  ptr : Word
  tmp : Word
  buf : List Byte
deriving DecidableEq, Repr

/-- One eFuse controller with its macro (R8, R32, R34, R38 to R40, R48). `sched` says, poll by poll, whether EMAC steps
before the poll; when it is used up, `live` says whether EMAC still steps (log 2). -/
structure EfuseUnit where
  ctl : Config.EfuseController
  wordsSet : Option Nat
  mode : Word
  addr : Word
  rdData : Word
  busy : Bool
  ephase : EPhase
  otp : Memory
  work : EWork
  sched : List Bool
  live : Bool
  draws : Nat
  trace : List EAccess
deriving DecidableEq, Repr

/-! ## Engine S -/

/-- `sphase` (R33). -/
inductive SPhase where
  | idle | configure | frame | pushData | arm | wait | drain | resetPointer
deriving DecidableEq, Repr

/-- The registers of one SPI window (R41 to R45). -/
inductive SReg where
  | tranCsr | tranNum | fifoPort | fifoPt | intSts
deriving DecidableEq, Repr

/-- One entry of the register trace: a 32-bit write, a push, a pop (R84). -/
inductive SAccess where
  | write (r : SReg) (v : Word)
  | push (b : Byte)
  | pop (b : Byte)
deriving DecidableEq, Repr

/-- One completed transaction as a mock records it (R184): the bytes delivered to the part, and its answer. -/
structure Frame where
  out : List Byte
  rx : List Byte
deriving DecidableEq, Repr

/-- SHIFT's in-flight record (R174, R178); `inp` is what the part has answered so far. -/
structure Xfer where
  cls : TranClass
  toSend : Nat
  toRecv : Nat
  recvd : Nat
  out : List Byte
  inp : List Byte
deriving DecidableEq, Repr

/-- Registers, FIFO and phase of one SPI controller (R33, R36, R41 to R45, R47). -/
structure SpiCtl where
  tranCsr : Word
  tranNum : Word
  intSts : Word
  fifo : List Byte
  rxLeft : Nat
  sphase : SPhase
  xfer : Option Xfer
deriving DecidableEq, Repr

/-- What the part is executing while `WIP = 1` (R49). -/
inductive Pending where
  | program (a : Nat) (data : List Byte)
  | eraseUnit (a u : Nat)
  | eraseAll
  | statusWrite (v : Byte)
deriving DecidableEq, Repr

/-- The flash part (R37, R49). `cut`: a controller reset cut a started transaction, and what the part holds is
unknown since (R222, U25). `draws` counts the free values the part has drawn (log 36). -/
structure Part where
  flash : Memory
  sr : Byte
  mode4B : Bool
  pending : Option Pending
  cut : Bool
  draws : Nat
deriving DecidableEq, Repr

/-- The fields of a device record that only `NOR.INIT` writes (R10, R211, R224). -/
structure Resolved where
  addressByteCount : Nat
  readOpcode : Byte
  programOpcode : Byte
  eraseOpcode : Byte
  pageSize : Nat
  sectorSize : Nat
  /-- `NOR_FLASH_4B_ADDR` of `eraseGranularityFlags`. -/
  flag4B : Bool
  /-- `NOR_FLASH_ERASE_4K` of `eraseGranularityFlags`. -/
  flagErase4K : Bool
deriving DecidableEq, Repr

/-- A `SpiNorDevice` record (R10, R51). `resolved = none`: "every resolved field unset" (R221). `bounceBuffer` is the
size of the scratch buffer the record owns; its content stands in `SWork.bounce` (R52, log 9). -/
structure NorDevice where
  baseAddress : Word
  resolved : Option Resolved
  bounceBuffer : Nat
  inited : Bool
deriving DecidableEq, Repr

/-- Working registers of engine S (R31), the bounce buffer's content (R52) and `BUF` as the operation in progress
sees it (R73). -/
structure SWork where
  addr : Word
  rem : Word
  pgoff : Word
  chunk : Word
  ptr : Word
  idx : Word
  nsec : Word
  esz : Word
  xcnt : Word
  bounce : List Byte
  buf : List Byte
deriving DecidableEq, Repr

/-- One step of the agents around an SPI controller: SHIFT, PART, or a power cycle of the part (R178, R216, R280). -/
inductive SAgent where
  | shift | part | power
deriving DecidableEq, Repr

/-- Whether SHIFT and PART still step once the schedule is used up (R296, log 2). -/
structure SLive where
  shift : Bool
  part : Bool
deriving DecidableEq, Repr

/-- One SPI controller, the part on its bus, and the `norTable` entry of the same index (R51, R265, log 27). `sched`
gives, poll by poll, the agent steps taken before the poll. -/
structure SpiUnit where
  board : Config.SpiBoard
  ctl : SpiCtl
  part : Part
  record : Option NorDevice
  work : SWork
  sched : List (List SAgent)
  live : SLive
  draws : Nat
  trace : List SAccess
  frames : List Frame
deriving DecidableEq, Repr

/-! ## The machine -/

/-- Where HOST spins in a wait that never ends (R256): an eFuse wait-ready, an SPI WAIT, the flash wait-ready. -/
inductive SpinSite where
  | efuse (bus : Nat)
  | spi (dev : Nat)
  | flashReady (dev : Nat)
deriving DecidableEq, Repr

/-- The HOST agent between steps: no operation executing, or one that hangs (R256, log 11). -/
inductive HostPhase where
  | idle
  | spinning (site : SpinSite)
deriving DecidableEq, Repr

/-- An environment draw of `NOR.SETUP` (R221, R252): the allocation fails, or which of the free indices is taken. -/
inductive AllocDraw where
  | fail
  | pick (k : Nat)
deriving DecidableEq, Repr

/-- The whole machine. `efuse` is `efuseTable` with the hardware of each controller (NCTRL is its length, R8, R50);
`spi` holds the SPI units and with them `norTable` (R51). -/
structure State where
  cfg : Config.Params
  efuse : List EfuseUnit
  spi : List SpiUnit
  host : HostPhase
  calls : List Call
  status : Status
  buf : List Byte
  outWord : Word
  outDev : Word
  outInfo : Option Config.EfuseController
  outTotal : Option Word
  allocs : List AllocDraw
deriving DecidableEq, Repr

/-! ## Reset -/

/-- Working registers at power-on: undefined (R58), held as 0 (log 9). -/
def EWork.reset : EWork := ⟨0#32, 0#32, 0#32, 0#32, []⟩

/-- Working registers at power-on: undefined (R58), held as 0 (log 9). -/
def SWork.reset : SWork := ⟨0#32, 0#32, 0#32, 0#32, 0#32, 0#32, 0#32, 0#32, 0#32, [], []⟩

/-- An eFuse controller of the board, with what its OTP array holds at power-on (R8, R9: `otp0`). -/
structure EfuseBoard where
  ctl : Config.EfuseController
  wordsSet : Option Nat
  otp0 : Memory
deriving DecidableEq, Repr

/-- An SPI unit of the board, with what its part keeps without power: the array and the status bits (R10, R13, R57). -/
structure FlashBoard where
  board : Config.SpiBoard
  flash0 : Memory
  sr0 : Byte
deriving DecidableEq, Repr

/-- An eFuse controller after power-on (R55). -/
def EfuseUnit.reset (cfg : Config.Params) (b : EfuseBoard) : EfuseUnit :=
  { ctl := b.ctl, wordsSet := b.wordsSet, mode := cfg.mode.idle, addr := 0#32, rdData := 0#32, busy := false,
    ephase := .idle, otp := b.otp0, work := EWork.reset, sched := [], live := true, draws := 0, trace := [] }

/-- An SPI controller after power-on and after the reset `NOR.SETUP` performs (R56). -/
def SpiCtl.reset : SpiCtl :=
  { tranCsr := 0#32, tranNum := 0#32, intSts := 0#32, fifo := [], rxLeft := 0, sphase := .idle, xfer := none }

/-- A flash part after power-on (R57). -/
def Part.reset (cfg : Config.Params) (b : FlashBoard) : Part :=
  { flash := b.flash0, sr := b.sr0 &&& ~~~cfg.srMask, mode4B := false, pending := none, cut := false, draws := 0 }

/-- An SPI unit after power-on (R56 to R58): the `norTable` entry is absent. -/
def SpiUnit.reset (cfg : Config.Params) (b : FlashBoard) : SpiUnit :=
  { board := b.board, ctl := SpiCtl.reset, part := Part.reset cfg b, record := none, work := SWork.reset, sched := [],
    live := ⟨true, true⟩, draws := 0, trace := [], frames := [] }

/-- A machine right after power-on (R55 to R58, R280, R282), no operation asked for. -/
def State.powerOn (cfg : Config.Params) (es : List EfuseBoard) (fs : List FlashBoard) : State :=
  { cfg := cfg, efuse := es.map (EfuseUnit.reset cfg), spi := fs.map (SpiUnit.reset cfg), host := .idle, calls := [],
    status := .success, buf := [], outWord := 0#32, outDev := 0#32, outInfo := none, outTotal := none, allocs := [] }

/-- The machine right after power-on, on the board of log 3: two eFuse controllers with fresh arrays, one SPI unit with
an erased part. -/
def State.reset : State :=
  State.powerOn defaultParams
    [⟨⟨0x10000#32, 7, 128, 32⟩, none, []⟩, ⟨⟨0x11000#32, 7, 128, 32⟩, none, []⟩]
    [⟨⟨0x20000#32, 2 ^ 24, ⟨0xEF#8, 0x40#8, 0x18#8⟩⟩, [], 0#8⟩]

end Sys2Proof.Machine
end

