-- ==== Sys2Proof/Machine/Memory.lean ====
section
/-! DEFINITION. The two arrays (R48, R49, R70, R71) as canonical lists of (address, byte): one read, one write and one
block erase of a byte memory, and the word view of the OTP array (R75). `d` is what an unlisted address reads as:
`Config.freshOtpByte` for OTP, the parameter `ERASED_BYTE` for FLASH (log 10). -/

namespace Sys2Proof.Machine

open Sys2Proof

/-- The byte at an address. -/
def memRead (d : Byte) (m : Memory) (a : Nat) : Byte :=
  match m with
  | [] => d
  | c :: t => if c.1 = a then c.2 else memRead d t a

/-- Stores a byte, keeping addresses rising and listing no entry equal to `d`. -/
def memWrite (d : Byte) (m : Memory) (a : Nat) (b : Byte) : Memory :=
  match m with
  | [] => if b = d then [] else [(a, b)]
  | c :: t =>
    if c.1 < a then c :: memWrite d t a b
    else if c.1 = a then (if b = d then t else (a, b) :: t)
    else (if b = d then c :: t else (a, b) :: c :: t)

/-- Every byte of `lo .. lo + n - 1` becomes what an unlisted address reads as. -/
def memClear (m : Memory) (lo n : Nat) : Memory :=
  m.filter (fun c => !(decide (lo ≤ c.1) && decide (c.1 < lo + n)))

/-- The canonical form: strictly rising addresses from `lo` on, no entry equal to `d`. -/
def memWfFrom (d : Byte) (lo : Nat) (m : Memory) : Bool :=
  match m with
  | [] => true
  | c :: t => decide (lo ≤ c.1) && decide (c.2 ≠ d) && memWfFrom d (c.1 + 1) t

/-- The canonical form of a memory. -/
def Memory.wf (d : Byte) (m : Memory) : Bool := memWfFrom d 0 m

/-- Completion of a page program (R214): `FLASH[a + j] <- FLASH[a + j] & data[j]`, in ascending address order. -/
def flashProgram (cfg : Config.Params) (m : Memory) (a : Nat) (data : List Byte) : Memory :=
  match data with
  | [] => m
  | b :: t =>
    flashProgram cfg (memWrite cfg.erasedByte m a (memRead cfg.erasedByte m a &&& b)) (a + 1) t

/-- The byte of `FLASH` at an address. -/
def flashRead (cfg : Config.Params) (m : Memory) (a : Nat) : Byte := memRead cfg.erasedByte m a

/-- Byte `o` of the OTP space (R75). -/
def otpByte (m : Memory) (o : Nat) : Byte := memRead Config.freshOtpByte m o

/-- `MemRead(OTP[b], w, 1)`: the whole word, byte `4w` least significant (R75, R132). -/
def otpWord (m : Memory) (w : Nat) : Word :=
  unle32 (otpByte m (4 * w)) (otpByte m (4 * w + 1)) (otpByte m (4 * w + 2)) (otpByte m (4 * w + 3))

/-- A write command on bit `k` of word `w` (R132): bit `k % 8` of byte `4w + k / 8` becomes 1 (R75). -/
def otpSetBit (m : Memory) (w k : Nat) : Memory :=
  memWrite Config.freshOtpByte m (4 * w + k / 8) (otpByte m (4 * w + k / 8) ||| (1#8 <<< (k % 8)))

end Sys2Proof.Machine
end

