-- ==== Sys2Proof/Machine/Flags.lean ====
section
/-! DEFINITION. Every flag of the block (10_state.md section 3): the eFuse ready predicate, `GO_BUSY` (read in
Decode.lean), `TRAN_DONE`, `RD_FIFO` with its trigger level, `WIP` and `WEL`; the numeric status codes (R250). -/

namespace Sys2Proof.Machine

open Sys2Proof

/-- One bit of a 32-bit register. -/
def regBit (p : Nat) : Word := 1#32 <<< p

/-- The value a read of MODE gives, from the word stored in it and the busy flag (R34, R38, D3). -/
def modeValue (cfg : Config.Params) (busy : Bool) (v : Word) : Word :=
  match cfg.mode.view with
  | .command => v
  | .flag bit busyIs _ => (v &&& ~~~regBit bit) ||| (if busy = busyIs then regBit bit else 0#32)

/-- `EfuseReady(v)` of a value read from MODE (R34, R38, R131, D3): by default, the command field reads idle. -/
def efuseReady (cfg : Config.Params) (v : Word) : Bool :=
  match cfg.mode.view with
  | .command => v &&& cfg.mode.mask = cfg.mode.idle
  | .flag bit busyIs _ => v.getLsbD bit != busyIs

/-- What the macro leaves in MODE of a command `v` it has completed (R38, R132): the default view returns the command
field to idle. -/
def modeLeft (cfg : Config.Params) (v : Word) : Word :=
  match cfg.mode.view with
  | .command => cfg.mode.idle
  | .flag _ _ clears => if clears then cfg.mode.idle else v

/-- TRAN_CSR with `GO_BUSY` cleared, as SHIFT leaves it at COMPLETE (R35, R178). -/
def clearGo (cfg : Config.Params) (v : Word) : Word := v &&& ~~~regBit cfg.tran.goBusy

/-- `TRAN_DONE` of an INT_STS value (R36, R108). -/
def tranDone (cfg : Config.Params) (v : Word) : Bool := v.getLsbD cfg.intSts.tranDone

/-- INT_STS with `TRAN_DONE` set (R178). -/
def setTranDone (cfg : Config.Params) (v : Word) : Word := v ||| regBit cfg.intSts.tranDone

/-- `RD_FIFO` of an INT_STS value (R36, R108). -/
def rdFifo (cfg : Config.Params) (v : Word) : Bool := v.getLsbD cfg.intSts.rdFifo

/-- `RD_FIFO <- x` (R36). -/
def putRdFifo (cfg : Config.Params) (v : Word) (x : Bool) : Word :=
  (v &&& ~~~regBit cfg.intSts.rdFifo) ||| (if x then regBit cfg.intSts.rdFifo else 0#32)

/-- The bits of INT_STS that are fields (R45). -/
def intMask (cfg : Config.Params) : Word := regBit cfg.intSts.tranDone ||| regBit cfg.intSts.rdFifo

/-- FIFO trigger level in bytes of a TRAN_CSR value (R41, R108). -/
def triggerLevel (cfg : Config.Params) (v : Word) : Nat :=
  let code := v.extractLsb' cfg.tran.trgLvl 2
  if code = cfg.tran.trg1 then 1 else if code = cfg.tran.trg2 then 2 else if code = cfg.tran.trg4 then 4 else 8

/-- The condition of `RD_FIFO` (R36, D17): the FIFO holds a byte, and at least as many as the trigger level or the
bytes of the transaction not yet popped, whichever is less. -/
def rdFifoCond (cfg : Config.Params) (c : SpiCtl) : Bool :=
  decide (1 ≤ c.fifo.length) && decide (min (triggerLevel cfg c.tranCsr) c.rxLeft ≤ c.fifo.length)

/-- `RD_FIFO` evaluated again: after every received byte and every pop (R36, R178). -/
def refreshRdFifo (cfg : Config.Params) (c : SpiCtl) : SpiCtl :=
  { c with intSts := putRdFifo cfg c.intSts (rdFifoCond cfg c) }

/-- `WIP` of the part's status register (R37, R12: `SR_WIP_BIT`). -/
def wip (cfg : Config.Params) (sr : Byte) : Bool := sr.getLsbD cfg.srBits.wip

/-- `WEL` of the part's status register (R37, R12: `SR_WEL_BIT`). -/
def wel (cfg : Config.Params) (sr : Byte) : Bool := sr.getLsbD cfg.srBits.wel

/-- `WIP <- 1`. -/
def setWip (cfg : Config.Params) (sr : Byte) : Byte := sr ||| bitMask cfg.srBits.wip

/-- `WEL <- 1` (R203). -/
def setWel (cfg : Config.Params) (sr : Byte) : Byte := sr ||| bitMask cfg.srBits.wel

/-- `WEL <- 0` (R204). -/
def clearWel (cfg : Config.Params) (sr : Byte) : Byte := sr &&& ~~~bitMask cfg.srBits.wel

/-- `WEL <- x` (R203, R204). -/
def putWel (cfg : Config.Params) (sr : Byte) (x : Bool) : Byte := if x then setWel cfg sr else clearWel cfg sr

/-- `WIP <- 0`, `WEL <- 0` (R216, R57). -/
def clearBusy (cfg : Config.Params) (sr : Byte) : Byte := sr &&& ~~~cfg.srMask

/-- Completion of `StatusWrite(v)` (R216): the bits of SR other than `WIP` and `WEL` take those of `v`. -/
def statusMerge (cfg : Config.Params) (sr v : Byte) : Byte := (v &&& ~~~cfg.srMask) ||| (sr &&& cfg.srMask)

/-- The numeric status codes (R250). -/
def Status.code (cfg : Config.Params) : Status → BitVec 64
  | .success => cfg.codes.success
  | .invalidParameter => cfg.codes.invalidParameter
  | .outOfResources => cfg.codes.outOfResources
  | .notFound => cfg.codes.notFound
  | .timeout => cfg.codes.timeout

end Sys2Proof.Machine
end

