-- ==== Sys2Proof/Machine/Operands.lean ====
section
/-! DEFINITION. How operands become what the hardware receives (30_encoding.md section 2, 20_memory.md): fields of the
composed address, OTP capacity, the head/body/tail split, byte lanes, address bytes, pages, erase units, the class of
a TRAN word, the resolved opcodes. -/

namespace Sys2Proof.Machine

open Sys2Proof

/-! ## eFuse -/

/-- `addressBits` is legal (R8, D5). -/
def widthLegal (a : Nat) : Bool := decide (1 ≤ a ∧ a ≤ 27)

/-- The field `WORD` of an ADDR value: `ADDR[A-1:0]` (R39, R132). -/
def addrWord (a : Nat) (v : Word) : Nat := v.toNat % 2 ^ a

/-- The field `BIT` of an ADDR value: `ADDR[A+4:A]` (R39, R132). -/
def addrBit (a : Nat) (v : Word) : Nat := v.toNat / 2 ^ a % 32

/-- `OTP_WORDS[b]` (R48, D8); a board may override the cell geometry, never the width of the word field. -/
def EfuseUnit.words (u : EfuseUnit) : Nat :=
  min (2 ^ u.ctl.addressBits) (u.wordsSet.getD (u.ctl.cellCount * u.ctl.cellWidth / 32))

/-- `capacityBytes[b]` (R94). -/
def EfuseUnit.capacity (u : EfuseUnit) : Nat := 4 * u.words

/-- One segment of a byte range (R150): `n` bytes from lane `lane` of word `word`, buffer bytes `ptr ..`. -/
structure Segment where
  word : Nat
  lane : Nat
  n : Nat
  ptr : Nat
deriving DecidableEq, Repr

/-- Body and tail of R150; `fuel` bounds the number of segments. -/
def splitBody (fuel off cnt ptr : Nat) : List Segment :=
  match fuel with
  | 0 => []
  | f + 1 =>
    if 4 ≤ cnt then ⟨off / 4, 0, 4, ptr⟩ :: splitBody f (off + 4) (cnt - 4) (ptr + 4)
    else if 0 < cnt then [⟨off / 4, 0, cnt, ptr⟩]
    else []

/-- `Split(offset, count)` (R150). -/
def split (off cnt : Nat) : List Segment :=
  if off % 4 ≠ 0 ∧ 0 < cnt then
    let n := min (4 - off % 4) cnt
    ⟨off / 4, off % 4, n, 0⟩ :: splitBody cnt (off + n) (cnt - n) n
  else splitBody cnt off cnt 0

/-- Byte lane `l` of a word (R75). -/
def lane (v : Word) (l : Nat) : Byte := v.extractLsb' (8 * l) 8

/-- The bytes a segment takes from the word read (R151). -/
def segmentBytes (g : Segment) (v : Word) : List Byte := (List.range g.n).map (fun i => lane v (g.lane + i))

/-- `x[TMP]` of a write segment: the bytes in their lanes, zeros elsewhere (R152). -/
def placeBytes (l : Nat) (bytes : List Byte) : Word :=
  match bytes with
  | [] => 0#32
  | b :: t => (b.setWidth 32 <<< (8 * l)) ||| placeBytes (l + 1) t

/-- The buffer bytes of a segment. -/
def segmentData (g : Segment) (data : List Byte) : List Byte := (data.drop g.ptr).take g.n

/-! ## SPI -/

/-- `AddrBytes(a, n)` (R105): n bytes, most significant first. -/
def addrBytes (a : Word) (n : Nat) : List Byte :=
  match n with
  | 0 => []
  | k + 1 => (a >>> (8 * k)).setWidth 8 :: addrBytes a k

/-- `Addr(out)`: the number the address bytes form, most significant first (R212). -/
def addrNumber (bytes : List Byte) : Nat := bytes.foldl (fun acc b => acc * 256 + b.toNat) 0

/-- The class of a TRAN_CSR word, `GO_BUSY` aside; none outside the five classes (R107, R114 (c)). -/
def tranClassOf (cfg : Config.Params) (v : Word) : Option TranClass :=
  [TranClass.regrd, .regwr, .datard, .datawr, .erase].find? fun c =>
    c.admits (tranAddr cfg v) && v = tranWord cfg c (tranAddr cfg v) (goBusy cfg v)

/-- The field `ADDR_BYTES` of a TRAN_CSR word (R41, R108). -/
def tranAddrBytes (cfg : Config.Params) (v : Word) : Nat := (tranAddr cfg v).toNat

/-- The field `RX` (R41, R108). -/
def tranRx (cfg : Config.Params) (v : Word) : Bool := v.getLsbD cfg.tran.rx

/-- The field `TX` (R41, R108). -/
def tranTx (cfg : Config.Params) (v : Word) : Bool := v.getLsbD cfg.tran.tx

/-- `SelectOpcodes(flag4B, flagErase4K)` with the geometry it is resolved from (R211, R224). -/
def resolve (cfg : Config.Params) (info : Config.FlashInfo) : Resolved :=
  { addressByteCount := if info.flag4B then 4 else 3,
    readOpcode := if info.flag4B then cfg.op .read4b else cfg.op .read,
    programOpcode := if info.flag4B then cfg.op .pp4b else cfg.op .pp,
    eraseOpcode :=
      if info.flagErase4K then (if info.flag4B then cfg.op .be4k4b else cfg.op .be4k)
      else (if info.flag4B then cfg.op .se4b else cfg.op .se),
    pageSize := info.pageSize, sectorSize := info.sectorSize, flag4B := info.flag4B,
    flagErase4K := info.flagErase4K }

/-- `eraseGranularity` (R106): `x[ESZ]`. -/
def Resolved.granularity (g : Resolved) : Nat := if g.flagErase4K then Config.erase4K else g.sectorSize

/-- `chunk = min(pageSize - pageOffset, remainingLength)` (R106). -/
def chunkLen (pageSize addr rem : Nat) : Nat := min (pageSize - addr % pageSize) rem

/-- `sectorCount = ceil(length / eraseGranularity)` (R106). -/
def sectorCount (len gran : Nat) : Nat := (len + gran - 1) / gran

/-- The multiple of `unit` at or below an address. -/
def alignDown (unit addr : Nat) : Nat := addr - addr % unit

/-- A request of `len` bytes at `addr` lies in FLASH, and FLASH in what the address bytes reach (R95). -/
def flashFits (flashSize nAddr addr len : Nat) : Bool :=
  decide (addr + len ≤ flashSize ∧ flashSize ≤ 2 ^ (8 * nAddr))

/-! ## Register addresses (R87) -/

/-- Byte offset of an eFuse register in its window (R9). -/
def EReg.offset (cfg : Config.Params) : EReg → Word
  | .mode => cfg.efuseOffsets.mode
  | .addr => cfg.efuseOffsets.addr
  | .rdData => cfg.efuseOffsets.rdData

/-- Byte offset of an SPI register in its window (R108). -/
def SReg.offset (cfg : Config.Params) : SReg → Word
  | .tranCsr => cfg.spiOffsets.tranCsr
  | .tranNum => cfg.spiOffsets.tranNum
  | .fifoPort => cfg.spiOffsets.fifoPort
  | .fifoPt => cfg.spiOffsets.fifoPt
  | .intSts => cfg.spiOffsets.intSts

/-- Address of an eFuse register (R15, R72, R87). -/
def EfuseUnit.regAddress (cfg : Config.Params) (u : EfuseUnit) (r : EReg) : Word := u.ctl.registerBase + r.offset cfg

/-- Address of an SPI register (R15, R72, R87). -/
def SpiUnit.regAddress (cfg : Config.Params) (u : SpiUnit) (r : SReg) : Word := u.board.baseAddress + r.offset cfg

end Sys2Proof.Machine
end

