-- ==== Sys2Proof/Machine/Part.lean ====
section
/-! DEFINITION. The PART agent, the environment model of the flash part (43_nor_commands.md section 3): what it answers
in a transaction, what a frame does at chip-select release, its completion step, its power cycle. -/

namespace Sys2Proof.Machine

open Sys2Proof

/-- The flash address of a frame's arguments, if `n` address bytes are there exactly, and `n` is the address length of
the part's mode (R212, R217, U22). -/
def frameAddr (p : Part) (n : Nat) (args : List Byte) : Except Stop Nat :=
  if args.length ≠ n then .error (.refuse .addressLength)
  else if p.mode4B ≠ decide (n = 4) then .error (.refuse .addressMode)
  else .ok (addrNumber args)

/-- The address of a command that takes one; 0 for the others, whose frame has no address byte (R212, R217). -/
def commandAddr (c : NorCmd) (p : Part) (args : List Byte) : Except Stop Nat :=
  if c.addrLen = 0 then (if args = [] then .ok 0 else .error (.refuse .addressLength)) else frameAddr p c.addrLen args

/-- A part that has drawn one free value (log 36). -/
def Part.drawn (p : Part) : Part := { p with draws := p.draws + 1 }

/-- Byte `i` of the JEDEC ID (R200, R212). Past the third byte the value is free (log 36). -/
def jedecByte (board : Config.SpiBoard) (i : Nat) : Byte :=
  match i with
  | 0 => board.jedecId.b0
  | 1 => board.jedecId.b1
  | 2 => board.jedecId.b2
  | _ => Config.idTail board i

/-- Data byte `i` that a ready part sends after a command with the address `a`, and the part after it (R206, R212). A
command that sends no data (R202 to R205, R207 to R209) is received with free bytes (DESIGN CHOICE, log 43). -/
def partAnswer (cfg : Config.Params) (board : Config.SpiBoard) (p : Part) (c : NorCmd) (a i : Nat) :
    Except Stop (Byte × Part) :=
  match c with
  | .rdid => .ok (jedecByte board i, p)
  | .rdsr => .ok (p.sr, p)
  | .read | .read4b =>
    if a + i < board.flashSize then .ok (flashRead cfg p.flash (a + i), p) else .error (.fault .flashRange)
  | .wrsr | .wren | .wrdi | .en4b | .ce | .pp | .pp4b | .be4k | .be4k4b | .se | .se4b =>
    .ok (Config.freeByte board.baseAddress p.draws, p.drawn)

/-- `PartReadByte(out, i)` (R212): the i-th data byte the part sends after it has received `out`; nothing but RDSR is
answered while `WIP = 1` (R212, R289). -/
def partReadByte (cfg : Config.Params) (board : Config.SpiBoard) (p : Part) (out : List Byte) (i : Nat) :
    Except Stop (Byte × Part) :=
  if p.cut then .error (.refuse .partUnknown)
  else
    match out with
    | [] => .error (.refuse .unknownCommand)
    | b :: args =>
      match cfg.cmdOf b with
      | none => .error (.refuse .unknownCommand)
      | some c =>
        match commandAddr c p args with
        | .error e => .error e
        | .ok a =>
          if wip cfg p.sr && decide (c ≠ .rdsr) then .error (.refuse .partBusy)
          else partAnswer cfg board p c a i

/-- RDID, READ and READ_4B at chip-select release: "it does nothing" (R212), on a frame that R212 does not refuse. -/
def partSent (cfg : Config.Params) (p : Part) (n : Nat) (args : List Byte) : Except Stop Part :=
  match if n = 0 then .ok 0 else frameAddr p n (args.take n) with
  | .error e => .error e
  | .ok _ => if wip cfg p.sr then .error (.refuse .partBusy) else .ok p

/-- Whether a frame has the effect `f` or none is free (log 36, log 45). -/
def Part.perhaps (board : Config.SpiBoard) (f : Part → Part) (p : Part) : Part :=
  if Config.freeBit board.baseAddress p.draws then f p.drawn else p.drawn

/-- A command without address or data (R203 to R205, R209) has the effect `f`; refused while the part is busy (R289).
With the payload bytes R180 allows it, whether it has that effect or none is free (log 36). -/
def partSimple (cfg : Config.Params) (board : Config.SpiBoard) (p : Part) (args : List Byte) (f : Part → Part) :
    Except Stop Part :=
  if wip cfg p.sr then .error (.refuse .partBusy)
  else if args = [] then .ok (f p)
  else .ok (p.perhaps board f)

/-- `WEL <- x` (R203, R204). -/
def Part.putWel (cfg : Config.Params) (x : Bool) (p : Part) : Part := { p with sr := Machine.putWel cfg p.sr x }

/-- `mode4B <- 1` (R205); no command leaves 4-byte mode. -/
def Part.enterMode4B (p : Part) : Part := { p with mode4B := true }

/-- `pending <- x`, `WIP <- 1`. -/
def partStart (cfg : Config.Params) (p : Part) (x : Pending) : Part :=
  { p with pending := some x, sr := setWip cfg p.sr }

/-- A program, erase or status write at chip-select release: refused while `WIP = 1` (R289), ignored while `WEL = 0`
(R213; log 13), else what `go` answers is started (R202, R207 to R209). -/
def partBegin (cfg : Config.Params) (p : Part) (go : Except Stop (Part × Pending)) : Except Stop Part :=
  if wip cfg p.sr then .error (.refuse .partBusy)
  else if !wel cfg p.sr then .ok p
  else
    match go with
    | .error e => .error e
    | .ok (q, x) => .ok (partStart cfg q x)

/-- The page size of the part (R207): that of its geometry, or, where the table has no entry, a free size (log 21). -/
def partPage (cfg : Config.Params) (board : Config.SpiBoard) : Nat :=
  match Config.norFlashGetInfo cfg board.jedecId with
  | some info => info.pageSize
  | none => Config.unlistedPage board + 1

/-- What a page program of `data` starts at `a` (R207). "What a part does with data that runs past the page end is not
in the source": it programs free data, from the start of the page on to where the frame's data would end (DESIGN CHOICE,
log 46). -/
def programStart (cfg : Config.Params) (board : Config.SpiBoard) (p : Part) (a : Nat) (data : List Byte) :
    Part × Pending :=
  let off := a % partPage cfg board
  if off + data.length ≤ partPage cfg board then (p, .program a data)
  else
    (p.drawn, .program (alignDown (partPage cfg board) a)
      ((List.range (off + data.length)).map (Config.freeData board.baseAddress p.draws)))

/-- A page program stays in the array (R95, R207), and the part has pages (U27). -/
def programCheck (cfg : Config.Params) (board : Config.SpiBoard) (a len : Nat) : Option Stop :=
  if partPage cfg board = 0 then some (.refuse .badConfig)
  else if board.flashSize < a + len then some (.fault .flashRange)
  else none

/-- The program of no byte, on a write-enabled part. -/
def Part.programNothing (cfg : Config.Params) (a : Nat) (p : Part) : Part :=
  if wel cfg p.sr then partStart cfg p (.program a []) else p

/-- PP and PP_4B at chip-select release (R207). Without data, for which the rules state nothing, whether the part starts
a program of no byte or does nothing is free (DESIGN CHOICE, log 45). -/
def partProgram (cfg : Config.Params) (board : Config.SpiBoard) (p : Part) (n : Nat) (args : List Byte) :
    Except Stop Part :=
  match frameAddr p n (args.take n) with
  | .error e => .error e
  | .ok a =>
    if args.drop n = [] then
      if wip cfg p.sr then .error (.refuse .partBusy) else .ok (p.perhaps board (Part.programNothing cfg a))
    else
      partBegin cfg p
        (match programCheck cfg board a (args.drop n).length with
        | some x => .error x
        | none => .ok (programStart cfg board p a (args.drop n)))

/-- The unit of `u` bytes that an address names lies in the array (R95, R208). -/
def eraseUnitAt (board : Config.SpiBoard) (u a : Nat) : Except Stop Nat :=
  if u = 0 then .error (.refuse .badConfig)
  else if board.flashSize < alignDown u a + u then .error (.fault .flashRange)
  else .ok u

/-- The size of the native sector (R208): that of the part's geometry, or, where the table has no entry, a free size
(log 21). -/
def eraseSectorAt (cfg : Config.Params) (board : Config.SpiBoard) (a : Nat) : Except Stop Nat :=
  match Config.norFlashGetInfo cfg board.jedecId with
  | some info => eraseUnitAt board info.sectorSize a
  | none => if board.flashSize ≤ a then .error (.fault .flashRange) else .ok (Config.unlistedSector board + 1)

/-- What an erase of a unit of `u` bytes starts at `a` (R208). The rules bound `a` to a multiple of `u`; at another
address the unit is one of `u` bytes that holds `a` (R183), and where it starts is free (DESIGN CHOICE, log 44). -/
def eraseStart (board : Config.SpiBoard) (p : Part) (u a : Nat) : Part × Pending :=
  if a % u = 0 then (p, .eraseUnit a u)
  else (p.drawn, .eraseUnit (a - Config.freeOffset board.baseAddress p.draws % u) u)

/-- An erase at chip-select release (R208); `unit` gives the size of the unit at an address. -/
def partErase (cfg : Config.Params) (board : Config.SpiBoard) (p : Part) (n : Nat) (args : List Byte)
    (unit : Nat → Except Stop Nat) : Except Stop Part :=
  match frameAddr p n args with
  | .error e => .error e
  | .ok a =>
    partBegin cfg p
      (match unit a with
      | .error e => .error e
      | .ok u => .ok (eraseStart board p u a))

/-- WRSR at chip-select release (R202). With another number of payload bytes than one, which R180 allows, the value
written is free (log 36). -/
def partStatusWrite (cfg : Config.Params) (board : Config.SpiBoard) (p : Part) (args : List Byte) :
    Except Stop Part :=
  partBegin cfg p
    (match args with
    | [v] => .ok (p, .statusWrite v)
    | _ => .ok (p.drawn, .statusWrite (Config.freeByte board.baseAddress p.draws)))

/-- The chip erase of a write-enabled part (R209, R213). -/
def Part.eraseChip (cfg : Config.Params) (p : Part) : Part :=
  if wel cfg p.sr then partStart cfg p .eraseAll else p

/-- `PartExecute(out)` (R212): the state change at the end of the transaction. -/
def partExecute (cfg : Config.Params) (board : Config.SpiBoard) (p : Part) (out : List Byte) : Except Stop Part :=
  if p.cut then .error (.refuse .partUnknown)
  else
    match out with
    | [] => .error (.refuse .unknownCommand)
    | b :: args =>
      match cfg.cmdOf b with
      | none => .error (.refuse .unknownCommand)
      | some .rdid => partSent cfg p 0 args
      | some .rdsr => .ok p
      | some .read => partSent cfg p 3 args
      | some .read4b => partSent cfg p 4 args
      | some .wrsr => partStatusWrite cfg board p args
      | some .wren => partSimple cfg board p args (Part.putWel cfg true)
      | some .wrdi => partSimple cfg board p args (Part.putWel cfg false)
      | some .en4b => partSimple cfg board p args Part.enterMode4B
      | some .ce => partSimple cfg board p args (Part.eraseChip cfg)
      | some .pp => partProgram cfg board p 3 args
      | some .pp4b => partProgram cfg board p 4 args
      | some .be4k => partErase cfg board p 3 args (eraseUnitAt board Config.erase4K)
      | some .be4k4b => partErase cfg board p 4 args (eraseUnitAt board Config.erase4K)
      | some .se => partErase cfg board p 3 args (eraseSectorAt cfg board)
      | some .se4b => partErase cfg board p 4 args (eraseSectorAt cfg board)

/-- What a pending program, erase or status write does to the part (R214, R215, R216). -/
def applyPending (cfg : Config.Params) (p : Part) : Pending → Part
  | .program a data => { p with flash := flashProgram cfg p.flash a data }
  | .eraseUnit a u => { p with flash := memClear p.flash a u }
  | .eraseAll => { p with flash := [] }
  | .statusWrite v => { p with sr := statusMerge cfg p.sr v }

/-- `pending` applied, if there is one. -/
def applyPending? (cfg : Config.Params) (p : Part) : Part :=
  match p.pending with
  | none => p
  | some x => applyPending cfg p x

/-- The PART completion step (R216): enabled exactly when `WIP = 1`. -/
def partStep (cfg : Config.Params) (p : Part) : Part :=
  if wip cfg p.sr then
    let q := applyPending? cfg p
    { q with sr := clearBusy cfg q.sr, pending := none }
  else p

/-- A power cycle of the part (R57, R280): what had not completed did not happen (U33, log 23). That a part cut in a
transaction stays unknown across it is the model's choice (U25, log 17). -/
def partPowerCycle (cfg : Config.Params) (p : Part) : Part :=
  { p with sr := clearBusy cfg p.sr, mode4B := false, pending := none }

end Sys2Proof.Machine
end

