-- ==== Sys2Proof/Machine/Ops.lean ====
section
/-! DEFINITION. The shared operations: register accesses with their side effects (R84), the hardware agents EMAC and
SHIFT (R132, R178) and their schedule (R296), the polled waits (R131, R175), how an operation ends (a value, a status
raised, a hang: R17, R256, R259) and how its end returns to the caller (R260). -/

namespace Sys2Proof.Machine

open Sys2Proof

/-! ## How a piece of an operation ends -/

/-- Which wait never ends (R256): on a polled flag of the controller, or on the flash part's status. -/
inductive HangKind where
  | flag | flashReady
deriving DecidableEq, Repr

/-- The outcomes of a piece of an operation over a unit `σ`: it goes on with a value; a status is raised (R17,
R259); it hangs (R256); the model stops. -/
inductive Res (σ α : Type) where
  | ok (a : α) (u : σ)
  | raised (st : Status) (u : σ)
  | hang (k : HangKind) (u : σ)
  | stop (x : Stop)

/-- Sequencing: only `ok` goes on ("`raise` ends the current host operation at once", R17). -/
def Res.bind {σ α β : Type} (r : Res σ α) (f : α → σ → Res σ β) : Res σ β :=
  match r with
  | .ok a u => f a u
  | .raised st u => .raised st u
  | .hang k u => .hang k u
  | .stop x => .stop x

/-- A refusal. -/
def Res.refuse {σ α : Type} (r : Refusal) : Res σ α := .stop (.refuse r)

/-- A register access inside an operation: it is made, or the model stops. -/
def Res.access {σ : Type} (r : Except Stop σ) : Res σ Unit :=
  match r with
  | .ok u => .ok () u
  | .error x => .stop x

/-! ## Waits -/

/-- Polls until `ready`: before each read of the flag the hardware agents may step (`point`). At most `n` polls;
the answer says whether the flag was seen (R131, R175). -/
def pollUntil {σ : Type} (point : σ → Except Stop σ) (ready : σ → Bool) (n : Nat) (u : σ) : Except Stop (Bool × σ) :=
  match n with
  | 0 => .ok (false, u)
  | m + 1 =>
    match point u with
    | .error x => .error x
    | .ok v => if ready v then .ok (true, v) else pollUntil point ready m v

/-- Number of polls of a wait: the budget (at least one poll is made), or, unbounded, so many that the schedule is
used up and no further poll could see the flag (R131, R253; log 11). -/
def pollCount (budget : Option Nat) (schedLen : Nat) : Nat :=
  match budget with
  | none => schedLen + 2
  | some b => max b 1

/-- What an unsuccessful wait ends in: a hang without a budget (R256), `EFI_TIMEOUT` with one (R253). The agents may
step once more before the status reaches the caller (U4, log 12). -/
def waitFailed {σ α : Type} (k : HangKind) (budget : Option Nat) (point : σ → Except Stop σ) (u : σ) : Res σ α :=
  match budget with
  | none => .hang k u
  | some _ =>
    match point u with
    | .error x => .stop x
    | .ok v => .raised .timeout v

/-- A wait on a polled flag: wait-ready of engine E (R131), WAIT of engine S (R175). -/
def waitFlag {σ : Type} (budget : Option Nat) (schedLen : Nat) (point : σ → Except Stop σ) (ready : σ → Bool)
    (u : σ) : Res σ Unit :=
  match pollUntil point ready (pollCount budget schedLen) u with
  | .error x => .stop x
  | .ok (true, v) => .ok () v
  | .ok (false, v) => waitFailed .flag budget point v

/-! ## Engine E: registers and EMAC -/

/-- `Reg32Write` on an eFuse window (R38, R39, R40, R84): a command written to MODE starts the macro; nothing may be
written while it is busy (R285). -/
def eWrite (cfg : Config.Params) (r : EReg) (v : Word) (u : EfuseUnit) : Except Stop EfuseUnit :=
  match r with
  | .rdData => .error (.refuse .registerReserved)
  | .addr =>
    if u.busy then .error (.refuse .efuseBusy)
    else .ok { u with addr := v, trace := u.trace ++ [.write .addr v] }
  | .mode =>
    if u.busy then .error (.refuse .efuseBusy)
    else if v = cfg.mode.idle then
      .ok { u with mode := v, ephase := .idle, trace := u.trace ++ [.write .mode v] }
    else if v = cfg.mode.read then
      .ok { u with mode := v, busy := true, ephase := .cmdRead, trace := u.trace ++ [.write .mode v] }
    else if v = cfg.mode.write then
      .ok { u with mode := v, busy := true, ephase := .cmdWrite, trace := u.trace ++ [.write .mode v] }
    else .error (.refuse .registerReserved)

/-- `Reg32Read` on an eFuse window: no side effect (R84). MODE shows the busy flag as its view says (R34). -/
def eRead (cfg : Config.Params) (r : EReg) (u : EfuseUnit) : Word :=
  match r with
  | .mode => modeValue cfg u.busy u.mode
  | .addr => u.addr
  | .rdData => u.rdData

/-- The macro has completed its command: not busy, MODE as its view leaves it, phase idle (R132). -/
def EfuseUnit.done (cfg : Config.Params) (u : EfuseUnit) : EfuseUnit :=
  { u with busy := false, mode := modeLeft cfg u.mode, ephase := .idle }

/-- The free word `k` places on from the unit's counter (log 8, log 9). -/
def EfuseUnit.draw (u : EfuseUnit) (k : Nat) : Word := Config.freeWord u.ctl.registerBase (u.draws + k)

/-- The EMAC step (R132), enabled exactly when the macro is busy. After a write command RD_DATA is unspecified: a free
value (R40, log 8). A controller whose `addressBits` is not legal (R8, U11) and a word outside the array (R94) have no
meaning. -/
def emacStep (cfg : Config.Params) (u : EfuseUnit) : Except Stop EfuseUnit :=
  if u.busy then
    if widthLegal u.ctl.addressBits = false then .error (.refuse .badConfig)
    else if addrWord u.ctl.addressBits u.addr < u.words then
      match u.ephase with
      | .cmdRead => .ok { u.done cfg with rdData := otpWord u.otp (addrWord u.ctl.addressBits u.addr) }
      | .cmdWrite =>
        .ok { u.done cfg with
          otp := otpSetBit u.otp (addrWord u.ctl.addressBits u.addr) (addrBit u.ctl.addressBits u.addr),
          rdData := u.draw 0, draws := u.draws + 1 }
      | .idle => .ok (u.done cfg)
    else .error (.fault .otpRange)
  else .ok u

/-- What the macro does before one poll: the next entry of the schedule, or `live` once it is used up (log 2). -/
def ePoint (cfg : Config.Params) (u : EfuseUnit) : Except Stop EfuseUnit :=
  match u.sched with
  | true :: t => emacStep cfg { u with sched := t }
  | false :: t => .ok { u with sched := t }
  | [] => if u.live then emacStep cfg u else .ok u

/-- wait-ready (R131). -/
def eWait (cfg : Config.Params) (u : EfuseUnit) : Res EfuseUnit Unit :=
  waitFlag cfg.efuseWaitBudget u.sched.length (ePoint cfg) (fun v => efuseReady cfg (eRead cfg .mode v)) u

/-- Preconditions of every eFuse primitive: legal `addressBits` (U11), word inside the array (R94). -/
def eCheck (w : Nat) (u : EfuseUnit) : Option Stop :=
  if widthLegal u.ctl.addressBits = false then some (.refuse .badConfig)
  else if w < u.words then none
  else some (.fault .otpRange)

/-! ## Engine S: FIFO, registers and SHIFT -/

/-- `FifoPush(v)` through FIFO_PORT (R43, R47). -/
def fifoPush (cfg : Config.Params) (b : Byte) (u : SpiUnit) : Except Stop SpiUnit :=
  if cfg.strictFifo && decide (cfg.fifoDepth ≤ u.ctl.fifo.length) then .error (.refuse .fifoFull)
  else .ok { u with ctl := { u.ctl with fifo := u.ctl.fifo ++ [b] }, trace := u.trace ++ [.push b] }

/-- The pushes of a byte string, in order (R172, R173). -/
def fifoPushAll (cfg : Config.Params) (bs : List Byte) (u : SpiUnit) : Except Stop SpiUnit :=
  match bs with
  | [] => .ok u
  | b :: t =>
    match fifoPush cfg b u with
    | .error x => .error x
    | .ok v => fifoPushAll cfg t v

/-- `FifoPop()` through FIFO_PORT (R43, R47); `RD_FIFO` is evaluated again (R178). -/
def fifoPop (cfg : Config.Params) (u : SpiUnit) : Res SpiUnit Byte :=
  match u.ctl.fifo with
  | [] => .refuse .fifoEmpty
  | b :: t =>
    .ok b { u with ctl := refreshRdFifo cfg { u.ctl with fifo := t, rxLeft := u.ctl.rxLeft - 1 },
                   trace := u.trace ++ [.pop b] }

/-- `k` pops; the bytes in the order received (R176). -/
def fifoPopN (cfg : Config.Params) (k : Nat) (u : SpiUnit) : Res SpiUnit (List Byte) :=
  match k with
  | 0 => .ok [] u
  | j + 1 => (fifoPop cfg u).bind fun b v => (fifoPopN cfg j v).bind fun bs w => .ok (b :: bs) w

/-- SHIFT's in-flight record as a TRAN_CSR write with `GO_BUSY` leaves it (R174): command and address bytes and, for
TX, `TRAN_NUM` payload bytes to send; for RX, `TRAN_NUM` bytes to receive. `TRAN_NUM` is taken as it stands, also where
it lies outside the range R107 gives the class (DESIGN CHOICE, log 16). -/
def armed (cfg : Config.Params) (cls : TranClass) (v num : Word) : Xfer :=
  { cls := cls, toSend := 1 + tranAddrBytes cfg v + (if tranTx cfg v then num.toNat else 0),
    toRecv := if tranRx cfg v then num.toNat else 0, recvd := 0, out := [], inp := [] }

/-- `Reg32Write` on an SPI window (R41, R42, R44, R45, R84, R114). -/
def sWrite (cfg : Config.Params) (r : SReg) (v : Word) (u : SpiUnit) : Except Stop SpiUnit :=
  match r with
  | .fifoPort => .error (.refuse .registerReserved)
  | .tranNum => .ok { u with ctl := { u.ctl with tranNum := v }, trace := u.trace ++ [.write .tranNum v] }
  | .fifoPt =>
    if v = 0#32 then .ok { u with ctl := { u.ctl with fifo := [] }, trace := u.trace ++ [.write .fifoPt v] }
    else .error (.refuse .registerReserved)
  | .intSts =>
    if v = 0#32 then .ok { u with ctl := { u.ctl with intSts := v }, trace := u.trace ++ [.write .intSts v] }
    else .error (.refuse .registerReserved)
  | .tranCsr =>
    if goBusy cfg u.ctl.tranCsr then .error (.refuse .tranBusy)
    else
      match tranClassOf cfg v with
      | none => .error (.refuse .reservedTran)
      | some cls =>
        if goBusy cfg v then
          .ok { u with
            ctl := { u.ctl with tranCsr := v, xfer := some (armed cfg cls v u.ctl.tranNum),
                                rxLeft := (armed cfg cls v u.ctl.tranNum).toRecv },
            trace := u.trace ++ [.write .tranCsr v] }
        else .ok { u with ctl := { u.ctl with tranCsr := v }, trace := u.trace ++ [.write .tranCsr v] }

/-- `Reg32Read` on an SPI window: no side effect (R84); FIFO_PT reads as the whole fill level in its place, also above
15 (R44, R108; DESIGN CHOICE, log 26); the bits of INT_STS other than `TRAN_DONE` and `RD_FIFO` read as 0 (R45, U8;
DESIGN CHOICE, log 7). FIFO_PORT is not read as a word (R82): it has no stored value (R43). -/
def sRead (cfg : Config.Params) (r : SReg) (u : SpiUnit) : Word :=
  match r with
  | .tranCsr => u.ctl.tranCsr
  | .tranNum => u.ctl.tranNum
  | .fifoPt => BitVec.ofNat 32 u.ctl.fifo.length <<< cfg.fillLevel.val
  | .intSts => u.ctl.intSts
  | .fifoPort => 0#32

/-- COMPLETE (R178): the part executes what it received, `TRAN_DONE <- 1`, `GO_BUSY <- 0`, nothing in flight. -/
def shiftComplete (cfg : Config.Params) (u : SpiUnit) (x : Xfer) : Except Stop SpiUnit :=
  match partExecute cfg u.board u.part x.out with
  | .error e => .error e
  | .ok p =>
    .ok { u with part := p,
                 ctl := { u.ctl with intSts := setTranDone cfg u.ctl.intSts, tranCsr := clearGo cfg u.ctl.tranCsr,
                                     xfer := none },
                 frames := u.frames ++ [⟨x.out, x.inp⟩] }

/-- S-SEND (R178): the head of the FIFO goes out; the last byte of a transaction without receive phase completes it. -/
def shiftSend (cfg : Config.Params) (u : SpiUnit) (x : Xfer) (b : Byte) (t : List Byte) : Except Stop SpiUnit :=
  let y : Xfer := { x with out := x.out ++ [b], toSend := x.toSend - 1 }
  let v : SpiUnit := { u with ctl := { u.ctl with fifo := t, xfer := some y } }
  if y.toSend = 0 ∧ y.toRecv = 0 then shiftComplete cfg v y else .ok v

/-- S-RECV (R178): the part's next byte enters the FIFO; the last one completes the transaction. -/
def shiftRecv (cfg : Config.Params) (u : SpiUnit) (x : Xfer) : Except Stop SpiUnit :=
  match partReadByte cfg u.board u.part x.out x.recvd with
  | .error e => .error e
  | .ok (b, p) =>
    let y : Xfer := { x with recvd := x.recvd + 1, toRecv := x.toRecv - 1, inp := x.inp ++ [b] }
    let v : SpiUnit :=
      { u with part := p, ctl := refreshRdFifo cfg { u.ctl with fifo := u.ctl.fifo ++ [b], xfer := some y } }
    if y.toRecv = 0 then shiftComplete cfg v y else .ok v

/-- A step of SHIFT is enabled (R178): only while `GO_BUSY = 1`; S-SEND stalls on an empty FIFO, S-RECV on a
full one. -/
def shiftEnabled (cfg : Config.Params) (u : SpiUnit) : Bool :=
  goBusy cfg u.ctl.tranCsr &&
    match u.ctl.xfer with
    | none => false
    | some x =>
      if 0 < x.toSend then decide (u.ctl.fifo ≠ [])
      else decide (0 < x.toRecv) && decide (u.ctl.fifo.length < cfg.fifoDepth)

/-- One step of SHIFT (R178); nothing where no step is enabled. -/
def shiftStep (cfg : Config.Params) (u : SpiUnit) : Except Stop SpiUnit :=
  if shiftEnabled cfg u then
    match u.ctl.xfer with
    | none => .ok u
    | some x =>
      if 0 < x.toSend then
        match u.ctl.fifo with
        | [] => .ok u
        | b :: t => shiftSend cfg u x b t
      else shiftRecv cfg u x
  else .ok u

/-- SHIFT runs until it stalls or completes; each step takes one from `toSend + toRecv`. -/
def shiftRun (cfg : Config.Params) (n : Nat) (u : SpiUnit) : Except Stop SpiUnit :=
  match n with
  | 0 => .ok u
  | m + 1 =>
    if shiftEnabled cfg u then
      match shiftStep cfg u with
      | .error e => .error e
      | .ok v => shiftRun cfg m v
    else .ok u

/-- Bytes SHIFT has still to move. -/
def SpiUnit.inFlight (u : SpiUnit) : Nat :=
  match u.ctl.xfer with
  | none => 0
  | some x => x.toSend + x.toRecv

/-- One step of an agent around the controller (log 2). -/
def sAgentStep (cfg : Config.Params) (a : SAgent) (u : SpiUnit) : Except Stop SpiUnit :=
  match a with
  | .shift => shiftStep cfg u
  | .part => .ok { u with part := partStep cfg u.part }
  | .power => .ok { u with part := partPowerCycle cfg u.part }

/-- The agent steps of one schedule entry, in order. -/
def sBatch (cfg : Config.Params) (as : List SAgent) (u : SpiUnit) : Except Stop SpiUnit :=
  match as with
  | [] => .ok u
  | a :: t =>
    match sAgentStep cfg a u with
    | .error e => .error e
    | .ok v => sBatch cfg t v

/-- PART's step, if PART still steps. -/
def partLive (cfg : Config.Params) (u : SpiUnit) : SpiUnit :=
  if u.live.part then { u with part := partStep cfg u.part } else u

/-- What the agents do before one poll: the next entry of the schedule, or, once it is used up, PART's step and
SHIFT's run as far as `live` says (log 2). -/
def sPoint (cfg : Config.Params) (u : SpiUnit) : Except Stop SpiUnit :=
  match u.sched with
  | as :: t => sBatch cfg as { u with sched := t }
  | [] => if u.live.shift then shiftRun cfg (partLive cfg u).inFlight (partLive cfg u) else .ok (partLive cfg u)

/-- `sphase <- P` (R17, R33). -/
def SpiUnit.setPhase (u : SpiUnit) (p : SPhase) : SpiUnit := { u with ctl := { u.ctl with sphase := p } }

/-- `WAIT` (R175): on `RD_FIFO` when the transaction receives, else on `TRAN_DONE`. -/
def sWait (cfg : Config.Params) (forRead : Bool) (u : SpiUnit) : Res SpiUnit Unit :=
  waitFlag cfg.spiWaitBudget u.sched.length (sPoint cfg)
    (fun v => if forRead then rdFifo cfg (sRead cfg .intSts v) else tranDone cfg (sRead cfg .intSts v))
        (u.setPhase .wait)

/-! ## Between operations -/

/-- The free word `k` places on from the unit's counter (log 9). -/
def SpiUnit.draw (u : SpiUnit) (k : Nat) : Word := Config.freeWord u.board.baseAddress (u.draws + k)

/-- The working registers do not survive an operation (R30): free values (log 9). -/
def EfuseUnit.retire (u : EfuseUnit) : EfuseUnit :=
  { u with
    work := ⟨u.draw 0, u.draw 1, u.draw 2, u.draw 3, []⟩,
    draws := u.draws + 4 }

/-- The working registers and the bounce buffer's content do not survive an operation (R31, R52): free values
(log 9). -/
def SpiUnit.retire (u : SpiUnit) : SpiUnit :=
  { u with
    work := ⟨u.draw 0, u.draw 1, u.draw 2, u.draw 3, u.draw 4, u.draw 5, u.draw 6, u.draw 7, u.draw 8,
             Config.freeBytes u.board.baseAddress u.draws, []⟩,
    draws := u.draws + 9 }

/-- The unit as an operation finds it: `BUF` is the caller's (R73). -/
def EfuseUnit.load (u : EfuseUnit) (buf : List Byte) : EfuseUnit := { u with work := { u.work with buf := buf } }

/-- The unit as an operation finds it: `BUF` is the caller's (R73). -/
def SpiUnit.load (u : SpiUnit) (buf : List Byte) : SpiUnit := { u with work := { u.work with buf := buf } }

/-- The machine stops. -/
def stopped (x : Stop) : Host.Outcome State Fault Refusal :=
  match x with
  | .fault f => .fault f
  | .refuse r => .refused r

/-- The operation ends and its status goes to the caller (R17, R250, R259, R260). -/
def State.answer (s : State) (st : Status) : State := { s with status := st }

/-- The eFuse unit and `BUF` after an operation that returns. -/
def State.putE (s : State) (b : Nat) (u : EfuseUnit) : State :=
  { s with efuse := s.efuse.set b u.retire, buf := u.work.buf }

/-- The SPI unit and `BUF` after an operation that returns. -/
def State.putS (s : State) (d : Nat) (u : SpiUnit) : State :=
  { s with spi := s.spi.set d u.retire, buf := u.work.buf }

/-- How an operation of engine E returns: `k` stores its result; a raised status only reports itself (R259); a hang
leaves HOST in the wait (R256). -/
def returnE {α : Type} (b : Nat) (s : State) (k : α → State → State) (r : Res EfuseUnit α) :
    Host.Outcome State Fault Refusal :=
  match r with
  | .ok a u => .next (k a ((s.putE b u).answer .success))
  | .raised st u => .next ((s.putE b u).answer st)
  | .hang _ u => .next { s with efuse := s.efuse.set b u, buf := u.work.buf, host := .spinning (.efuse b) }
  | .stop x => stopped x

/-- Where HOST spins. -/
def HangKind.site (k : HangKind) (d : Nat) : SpinSite :=
  match k with
  | .flag => .spi d
  | .flashReady => .flashReady d

/-- What a raised status leaves: for invalid input the state is exactly as before the call (R251, R260); else what the
operation had done stays (R259). -/
def raisedS (d : Nat) (s : State) (st : Status) (u : SpiUnit) : State :=
  if st = .invalidParameter then s.answer st else (s.putS d u).answer st

/-- How an operation of engine S returns, as `returnE`. -/
def returnS {α : Type} (d : Nat) (s : State) (k : α → State → State) (r : Res SpiUnit α) :
    Host.Outcome State Fault Refusal :=
  match r with
  | .ok a u => .next (k a ((s.putS d u).answer .success))
  | .raised st u => .next (raisedS d s st u)
  | .hang h u => .next { s with spi := s.spi.set d u, buf := u.work.buf, host := .spinning (h.site d) }
  | .stop x => stopped x

/-- No result beside the status and `BUF`. -/
def noResult {α : Type} (_ : α) (s : State) : State := s

/-- An operation of engine E on an existing controller (R139, R154). A primitive on a bus that names none, for which the
spec states no outcome, is refused (DESIGN CHOICE, log 41). -/
def onEfuse {α : Type} (bus : Word) (s : State) (k : α → State → State)
    (f : EfuseUnit → Res EfuseUnit α) : Host.Outcome State Fault Refusal :=
  match s.efuse[bus.toNat]? with
  | none => .refused .noController
  | some u => returnE bus.toNat s k (f (u.load s.buf))

/-- An operation of engine S on an SPI unit; `missing` is the reason where there is none: no device record (R220), or,
for a FRAME row, no controller (DESIGN CHOICE, log 41). -/
def onSpi {α : Type} (dev : Word) (s : State) (missing : Refusal) (k : α → State → State)
    (f : SpiUnit → Res SpiUnit α) : Host.Outcome State Fault Refusal :=
  match s.spi[dev.toNat]? with
  | none => .refused missing
  | some u => returnS dev.toNat s k (f (u.load s.buf))

/-- A single register write of the eFuse window, with no status of its own (R130; log 16). A controller whose
`addressBits` is not legal is a configuration error (R8, U11); a bus that names no controller is refused (DESIGN CHOICE,
log 41). -/
def eRegisterWrite (bus : Word) (s : State) (r : EReg) (v : EfuseUnit → Except Stop Word) :
    Host.Outcome State Fault Refusal :=
  match s.efuse[bus.toNat]? with
  | none => .refused .noController
  | some u =>
    if widthLegal u.ctl.addressBits = false then .refused .badConfig
    else
      match v u with
      | .error x => stopped x
      | .ok w =>
        match eWrite s.cfg r w u with
        | .error x => stopped x
        | .ok u' => .next { s with efuse := s.efuse.set bus.toNat u' }

/-- A single write of TRAN_CSR, with no status of its own (R84; log 16). Outside the phase `S_IDLE` (after a timed-out
wait) every operation is refused until `NOR.SETUP` (R185, U5). An index that names no controller is refused (DESIGN
CHOICE, log 41). -/
def sRegisterWrite (dev : Word) (s : State) (r : SReg) (v : Word) : Host.Outcome State Fault Refusal :=
  match s.spi[dev.toNat]? with
  | none => .refused .noController
  | some u =>
    match sWrite s.cfg r v u with
    | .error x => stopped x
    | .ok u' =>
      if u.ctl.sphase = .idle then .next { s with spi := s.spi.set dev.toNat u' }
      else .refused .controllerNotIdle

end Sys2Proof.Machine
end

