-- ==== Sys2Proof/Machine/Efuse.lean ====
section
/-! DEFINITION. Engine E (40_efuse_primitives.md, 41_efuse_bytes.md): the three MODE commands, the ADDR write, the
word primitives, the byte engine, and the meanings of their instructions. -/

namespace Sys2Proof.Machine

open Sys2Proof

/-! ## Primitives -/

/-- `Reg32Write(ADDR, ComposeAddr(A, w, k))` (R101). -/
def writeAddress (cfg : Config.Params) (w k : Nat) (u : EfuseUnit) : Res EfuseUnit Unit :=
  .access (eWrite cfg .addr (composeAddr u.ctl.addressBits (BitVec.ofNat 32 w) (BitVec.ofNat 5 k)) u)

/-- `return Reg32Read(RD_DATA)` (R133). -/
def readData (cfg : Config.Params) (u : EfuseUnit) : Res EfuseUnit Word :=
  .ok (eRead cfg .rdData u) { u with trace := u.trace ++ [.readData (eRead cfg .rdData u)] }

/-- The six steps of `embeddedRead` (R133), preconditions met. -/
def readWordSteps (cfg : Config.Params) (w : Nat) (u : EfuseUnit) : Res EfuseUnit Word :=
  (Res.access (eWrite cfg .mode cfg.mode.idle u)).bind fun _ u =>
  (eWait cfg u).bind fun _ u =>
  (writeAddress cfg w 0 u).bind fun _ u =>
  (Res.access (eWrite cfg .mode cfg.mode.read u)).bind fun _ u =>
  (eWait cfg u).bind fun _ u =>
  readData cfg u

/-- `embeddedRead(controller, wordIndex)` (R133). -/
def embeddedRead (cfg : Config.Params) (w : Nat) (u : EfuseUnit) : Res EfuseUnit Word :=
  match eCheck w u with
  | some x => .stop x
  | none => readWordSteps cfg w u

/-- The three steps of `setBit` (R134), preconditions met. -/
def setBitSteps (cfg : Config.Params) (w k : Nat) (u : EfuseUnit) : Res EfuseUnit Unit :=
  (writeAddress cfg w k u).bind fun _ u =>
  (Res.access (eWrite cfg .mode cfg.mode.write u)).bind fun _ u =>
  eWait cfg u

/-- `setBit(controller, wordIndex, bitIndex)` (R134). -/
def embeddedSetBit (cfg : Config.Params) (w k : Nat) (u : EfuseUnit) : Res EfuseUnit Unit :=
  match eCheck w u with
  | some x => .stop x
  | none => setBitSteps cfg w k u

/-- `setBit` for each listed bit position where `value` has a 1 (R135). -/
def setBits (cfg : Config.Params) (w : Nat) (value : Word) (ks : List Nat) (u : EfuseUnit) : Res EfuseUnit Unit :=
  match ks with
  | [] => .ok () u
  | k :: t =>
    if value.getLsbD k then (embeddedSetBit cfg w k u).bind fun _ v => setBits cfg w value t v
    else setBits cfg w value t u

/-- `embeddedWrite(controller, wordIndex, value)` (R135): bits in ascending order (D7). -/
def embeddedWrite (cfg : Config.Params) (w : Nat) (value : Word) (u : EfuseUnit) : Res EfuseUnit Unit :=
  match eCheck w u with
  | some x => .stop x
  | none => setBits cfg w value (List.range 32) u

/-! ## Byte engine -/

/-- The working registers once a segment has been taken off the request (R150). -/
def EWork.advance (k : EWork) (total : Nat) (g : Segment) (tmp : Word) : EWork :=
  { k with off := BitVec.ofNat 32 (4 * g.word + g.lane + g.n), cnt := BitVec.ofNat 32 (total - (g.ptr + g.n)),
           ptr := BitVec.ofNat 32 (g.ptr + g.n), tmp := tmp }

/-- The loop of `EfuseReadBytes` (R151). -/
def readSegments (cfg : Config.Params) (total : Nat) (gs : List Segment) (u : EfuseUnit) : Res EfuseUnit Unit :=
  match gs with
  | [] => .ok () u
  | g :: t =>
    (embeddedRead cfg g.word u).bind fun v u =>
      readSegments cfg total t { u with
        work := { u.work.advance total g v with buf := u.work.buf ++ segmentBytes g v } }

/-- The loop of `EfuseWriteBytes` (R152): `x[TMP]` starts at 0 and takes the covered bytes; the array's OR does the
rest (C1). -/
def writeSegments (cfg : Config.Params) (total : Nat) (gs : List Segment) (u : EfuseUnit) : Res EfuseUnit Unit :=
  match gs with
  | [] => .ok () u
  | g :: t =>
    let v := placeBytes g.lane (segmentData g u.work.buf)
    (embeddedWrite cfg g.word v { u with work := u.work.advance total g v }).bind fun _ u =>
      writeSegments cfg total t u

/-- Precondition of the byte operations (R94): the range lies in the array. -/
def eRangeCheck (off cnt : Nat) (u : EfuseUnit) : Option Stop :=
  if widthLegal u.ctl.addressBits = false then some (.refuse .badConfig)
  else if off + cnt ≤ u.capacity then none
  else some (.fault .otpRange)

/-- `x[OFF] <- offset; x[CNT] <- count; x[PTR] <- 0` (R150) and the buffer the operation starts with. -/
def EfuseUnit.start (u : EfuseUnit) (off cnt : Word) (buf : List Byte) : EfuseUnit :=
  { u with work := { u.work with off := off, cnt := cnt, ptr := 0#32, buf := buf } }

/-- `EfuseReadBytes` on a valid bus (R151). -/
def efuseReadBytes (cfg : Config.Params) (off cnt : Word) (u : EfuseUnit) : Res EfuseUnit Unit :=
  match eRangeCheck off.toNat cnt.toNat u with
  | some x => .stop x
  | none => readSegments cfg cnt.toNat (split off.toNat cnt.toNat) (u.start off cnt [])

/-- `EfuseWriteBytes` on a valid bus (R152). -/
def efuseWriteBytes (cfg : Config.Params) (off cnt : Word) (data : List Byte) (u : EfuseUnit) :
    Res EfuseUnit Unit :=
  match eRangeCheck off.toNat cnt.toNat u with
  | some x => .stop x
  | none => writeSegments cfg cnt.toNat (split off.toNat cnt.toNat) (u.start off cnt data)

/-- Bus validation (R154): `bus >= NCTRL` ends the operation with `EFI_INVALID_PARAMETER`, no hardware access. -/
def withBus (bus : Word) (s : State) (go : Host.Outcome State Fault Refusal) : Host.Outcome State Fault Refusal :=
  if s.efuse.length ≤ bus.toNat then .next (s.answer .invalidParameter) else go

/-! ## Meanings -/

/-- `EFUSE.RDB` (R151). -/
def execEfuseRdb (bus offset count : Word) (s : State) : Host.Outcome State Fault Refusal :=
  withBus bus s (onEfuse bus s noResult (efuseReadBytes s.cfg offset count))

/-- `EFUSE.WRB` (R152). `data` is the caller's `count` bytes (R109). -/
def execEfuseWrb (bus offset count : Word) (data : List Byte) (s : State) : Host.Outcome State Fault Refusal :=
  if data.length ≠ count.toNat then .refused .illFormed
  else withBus bus s (onEfuse bus s noResult (efuseWriteBytes s.cfg offset count data))

/-- The outputs of `GetEfuseInfo` the caller supplied (R153). The spec gives `total` no width: 32 bits here, NCTRL
modulo 2^32 (DESIGN CHOICE, log 39). -/
def efuseInfo (ctl : Config.EfuseController) (wantInfo wantTotal : Bool) (s : State) : State :=
  { s with outInfo := if wantInfo then some ctl else s.outInfo,
           outTotal := if wantTotal then some (BitVec.ofNat 32 s.efuse.length) else s.outTotal }

/-- `EFUSE.INFO` (R153): no hardware access, and no check but that of `bus`: it answers also for a controller whose
`addressBits` is not legal (R8, U11; DESIGN CHOICE, log 40). -/
def execEfuseInfo (bus : Word) (wantInfo wantTotal : Bool) (s : State) : Host.Outcome State Fault Refusal :=
  match s.efuse[bus.toNat]? with
  | none => .next (s.answer .invalidParameter)
  | some u => .next (efuseInfo u.ctl wantInfo wantTotal (s.answer .success))

/-- The word a read primitive returns (R133). -/
def wordResult (v : Word) (s : State) : State := { s with outWord := v }

/-- `EFUSE.RDW` (R133). -/
def execEfuseRdw (bus wordIndex : Word) (s : State) : Host.Outcome State Fault Refusal :=
  onEfuse bus s wordResult (embeddedRead s.cfg wordIndex.toNat)

/-- `EFUSE.SETB` (R134). -/
def execEfuseSetb (bus wordIndex : Word) (bitIndex : BitVec 5) (s : State) : Host.Outcome State Fault Refusal :=
  onEfuse bus s noResult (embeddedSetBit s.cfg wordIndex.toNat bitIndex.toNat)

/-- `EFUSE.WRW` (R135). -/
def execEfuseWrw (bus wordIndex value : Word) (s : State) : Host.Outcome State Fault Refusal :=
  onEfuse bus s noResult (embeddedWrite s.cfg wordIndex.toNat value)

/-- `MODE.IDLE` (R130): one write of MODE. -/
def execModeIdle (bus : Word) (s : State) : Host.Outcome State Fault Refusal :=
  eRegisterWrite bus s .mode (fun _ => .ok s.cfg.mode.idle)

/-- `MODE.READ` (R38, R102, R133): one write of MODE, which starts a word read. -/
def execModeRead (bus : Word) (s : State) : Host.Outcome State Fault Refusal :=
  eRegisterWrite bus s .mode (fun _ => .ok s.cfg.mode.read)

/-- `MODE.WRITE` (R38, R102, R134): one write of MODE, which starts programming the addressed bit. -/
def execModeWrite (bus : Word) (s : State) : Host.Outcome State Fault Refusal :=
  eRegisterWrite bus s .mode (fun _ => .ok s.cfg.mode.write)

/-- The composed address, where it is defined: `wordIndex < 2^A` (R101). -/
def composedAddress (wordIndex : Word) (bitIndex : BitVec 5) (u : EfuseUnit) : Except Stop Word :=
  if wordIndex.toNat < 2 ^ u.ctl.addressBits then .ok (composeAddr u.ctl.addressBits wordIndex bitIndex)
  else .error (.refuse .illFormed)

/-- `EFUSE.ADDR` (R39, R101): one write of ADDR. -/
def execEfuseAddr (bus wordIndex : Word) (bitIndex : BitVec 5) (s : State) : Host.Outcome State Fault Refusal :=
  eRegisterWrite bus s .addr (composedAddress wordIndex bitIndex)

end Sys2Proof.Machine
end

