-- ==== Sys2Proof/Machine/Spi.lean ====
section
/-! DEFINITION. Engine S, transactions (42_spi_transaction.md): the phases CONFIGURE to RESET_POINTER, `Transact`, the
five transaction primitives with wait-ready and the ID read over them, and the meanings of their instructions. -/

namespace Sys2Proof.Machine

open Sys2Proof

/-! ## The state machine -/

/-- A transaction descriptor (R170); `n` is the number of address bytes an address takes. -/
structure Txn where
  cls : TranClass
  cmd : Byte
  addr : Option Word
  n : Nat
  tx : List Byte
  rxLen : Nat
deriving DecidableEq, Repr

/-- The address bytes of the frame: none without an address (R170, R172). -/
def Txn.addrBytes (d : Txn) : List Byte :=
  match d.addr with
  | none => []
  | some a => Machine.addrBytes a d.n

/-- `AddrCount(d)` (R171). -/
def Txn.addrCount (d : Txn) : Nat :=
  match d.addr with
  | none => 0
  | some _ => d.n

/-- `TranWord(d.cls, AddrCount(d), GO_BUSY)` (R171, R174). -/
def Txn.word (cfg : Config.Params) (d : Txn) (go : Bool) : Word := tranWord cfg d.cls (BitVec.ofNat 3 d.addrCount) go

/-- The bytes the part receives: `[cmd] ++ AddrBytes(addr, n) ++ tx` (R184). -/
def Txn.out (d : Txn) : List Byte := d.cmd :: (d.addrBytes ++ d.tx)

/-- `CONFIGURE` (R171). -/
def configure (cfg : Config.Params) (d : Txn) (u : SpiUnit) : Res SpiUnit Unit :=
  (Res.access (sWrite cfg .intSts 0#32 (u.setPhase .configure))).bind fun _ u =>
  (Res.access (sWrite cfg .tranNum (BitVec.ofNat 32 (d.tx.length + d.rxLen)) u)).bind fun _ u =>
  .access (sWrite cfg .tranCsr (d.word cfg false) u)

/-- `FRAME` (R172). -/
def frame (cfg : Config.Params) (d : Txn) (u : SpiUnit) : Res SpiUnit Unit :=
  .access (fifoPushAll cfg (d.cmd :: d.addrBytes) (u.setPhase .frame))

/-- One burst and the ones after it (R173): at most `FIFO_DEPTH` bytes a burst, in buffer order. With `FIFO_DEPTH = 0`,
where the loop of R173 makes no progress, the last burst pushes all that is left (DESIGN CHOICE, log 42). -/
def pushBursts (cfg : Config.Params) (fuel : Nat) (tx : List Byte) (u : SpiUnit) : Res SpiUnit Unit :=
  match fuel with
  | 0 => .access (fifoPushAll cfg tx u)
  | f + 1 =>
    if tx = [] then .ok () u
    else
      let k := min cfg.fifoDepth tx.length
      (Res.access (fifoPushAll cfg (tx.take k) u)).bind fun _ u =>
        pushBursts cfg f (tx.drop k) { u with work := { u.work with xcnt := BitVec.ofNat 32 (tx.length - k) } }

/-- `PUSH_DATA` (R173), only with a payload. -/
def pushData (cfg : Config.Params) (d : Txn) (u : SpiUnit) : Res SpiUnit Unit :=
  if d.tx = [] then .ok () u
  else
    pushBursts cfg d.tx.length d.tx
      { u.setPhase .pushData with work := { u.work with xcnt := BitVec.ofNat 32 d.tx.length } }

/-- `ARM` (R174). -/
def arm (cfg : Config.Params) (d : Txn) (u : SpiUnit) : Res SpiUnit Unit :=
  .access (sWrite cfg .tranCsr (d.word cfg true) (u.setPhase .arm))

/-- `DRAIN` (R176): bursts of at most `FIFO_DEPTH`, each after the first preceded by its own WAIT for `RD_FIFO`. `left`
is `x[XCNT]`. -/
def drain (cfg : Config.Params) (fuel left : Nat) (u : SpiUnit) : Res SpiUnit (List Byte) :=
  match fuel with
  | 0 => .hang .flag u
  | f + 1 =>
    let k := min cfg.fifoDepth (min left u.ctl.fifo.length)
    (fifoPopN cfg k (u.setPhase .drain)).bind fun bs u =>
      let u := { u with work := { u.work with xcnt := BitVec.ofNat 32 (left - k) } }
      if left - k = 0 then .ok bs u
      else
        (sWait cfg true u).bind fun _ u =>
        (drain cfg f (left - k) u).bind fun rest u => .ok (bs ++ rest) u

/-- `DRAIN`, only when the transaction receives (R170, R176). -/
def drainAll (cfg : Config.Params) (d : Txn) (u : SpiUnit) : Res SpiUnit (List Byte) :=
  if d.rxLen = 0 then .ok [] u
  else drain cfg d.rxLen d.rxLen { u with work := { u.work with xcnt := BitVec.ofNat 32 d.rxLen } }

/-- `RESET_POINTER` (R177). -/
def resetPointer (cfg : Config.Params) (rx : List Byte) (u : SpiUnit) : Res SpiUnit (List Byte) :=
  (Res.access (sWrite cfg .fifoPt 0#32 (u.setPhase .resetPointer))).bind fun _ u => .ok rx (u.setPhase .idle)

/-- Precondition of a transaction (R170): idle, not armed, FIFO empty. -/
def SpiUnit.idle (cfg : Config.Params) (u : SpiUnit) : Bool :=
  decide (u.ctl.sphase = .idle) && !goBusy cfg u.ctl.tranCsr && decide (u.ctl.fifo = [])

/-- `Transact(d)` (R170); its value is the bytes received. -/
def transact (cfg : Config.Params) (d : Txn) (u : SpiUnit) : Res SpiUnit (List Byte) :=
  if u.idle cfg then
    (configure cfg d u).bind fun _ u =>
    (frame cfg d u).bind fun _ u =>
    (pushData cfg d u).bind fun _ u =>
    (arm cfg d u).bind fun _ u =>
    (sWait cfg (decide (0 < d.rxLen)) u).bind fun _ u =>
    (drainAll cfg d u).bind fun rx u =>
    resetPointer cfg rx u
  else .refuse .controllerNotIdle

/-! ## Primitives -/

/-- The device record of an operation (R220). -/
def withRecord {α : Type} (u : SpiUnit) (f : NorDevice → Res SpiUnit α) : Res SpiUnit α :=
  match u.record with
  | none => .refuse .absentDevice
  | some r => f r

/-- The fields `NOR.INIT` has resolved; a geometry with a zero size is a configuration error (R10, U27). -/
def withResolved {α : Type} (u : SpiUnit) (f : Resolved → Res SpiUnit α) : Res SpiUnit α :=
  withRecord u fun r =>
    match r.resolved with
    | none => .refuse .notInitialised
    | some g => if g.pageSize = 0 ∨ g.sectorSize = 0 then .refuse .badConfig else f g

/-- `dev.bounceBuffer[0 .. n-1] <- bytes` (R179, R180). -/
def SpiUnit.bounce (u : SpiUnit) (bytes : List Byte) : SpiUnit :=
  { u with work := { u.work with bounce := bytes ++ u.work.bounce.drop bytes.length } }

/-- `ReadRegister` (R179). A command of another class than R179 names, for which the spec states no outcome, is framed
all the same and the part answers what it answers (`partReadByte`; DESIGN CHOICE, log 43); a byte that is no command is
never framed (R114 (d)). -/
def readRegister (cfg : Config.Params) (cmd : Byte) (n : Nat) (u : SpiUnit) : Res SpiUnit (List Byte) :=
  withRecord u fun _ =>
    if cfg.cmdOf cmd = none then .refuse .unknownCommand
    else if n = 0 ∨ 3 < n then .refuse .payloadRange
    else
      (transact cfg ⟨.regrd, cmd, none, 0, [], n⟩ u).bind fun rx u => .ok rx (u.bounce rx)

/-- `WriteRegister` (R180). A command of another class than R180 names, for which the spec states no outcome, is framed
all the same and the part executes the frame (`partExecute`; DESIGN CHOICE, log 43); a byte that is no command is never
framed (R114 (d)). -/
def writeRegister (cfg : Config.Params) (cmd : Byte) (payload : List Byte) (u : SpiUnit) :
    Res SpiUnit (List Byte) :=
  withRecord u fun _ =>
    if cfg.cmdOf cmd = none then .refuse .unknownCommand
    else if 3 < payload.length then .refuse .payloadRange
    else transact cfg ⟨.regwr, cmd, none, 0, payload, 0⟩ (u.bounce payload)

/-- Operands of a data transaction (R95, R181, R182, U19): inside one page, inside FLASH. A length of 0, below the bound
of R181 and R182, for which the spec states no outcome, is a transaction without data at an address in FLASH (DESIGN
CHOICE, log 45). -/
def dataCheck (g : Resolved) (flashSize addr len : Nat) : Option Stop :=
  if g.pageSize - addr % g.pageSize < len then some (.refuse .pageCross)
  else if flashFits flashSize g.addressByteCount addr (max len 1) then none
  else some (.fault .flashRange)

/-- Data read transaction (R181). -/
def readTransaction (cfg : Config.Params) (addr len : Nat) (u : SpiUnit) : Res SpiUnit (List Byte) :=
  withResolved u fun g =>
    match dataCheck g u.board.flashSize addr len with
    | some x => .stop x
    | none => transact cfg ⟨.datard, g.readOpcode, some (BitVec.ofNat 32 addr), g.addressByteCount, [], len⟩ u

/-- Program transaction (R182). -/
def programTransaction (cfg : Config.Params) (addr : Nat) (payload : List Byte) (u : SpiUnit) :
    Res SpiUnit (List Byte) :=
  withResolved u fun g =>
    match dataCheck g u.board.flashSize addr payload.length with
    | some x => .stop x
    | none =>
      transact cfg ⟨.datawr, g.programOpcode, some (BitVec.ofNat 32 addr), g.addressByteCount, payload, 0⟩ u

/-- Operands of an erase transaction (R95, R183): the whole unit that holds the address lies in FLASH; the address may
be any in it (log 44). Where `FLASH_SIZE` is not a multiple of the unit, the last, incomplete unit has no meaning here
and faults (DESIGN CHOICE, log 20). -/
def eraseCheck (g : Resolved) (flashSize addr : Nat) : Option Stop :=
  if flashFits flashSize g.addressByteCount (alignDown g.granularity addr) g.granularity then none
  else some (.fault .flashRange)

/-- Erase transaction (R183). -/
def eraseTransaction (cfg : Config.Params) (addr : Nat) (u : SpiUnit) : Res SpiUnit (List Byte) :=
  withResolved u fun g =>
    match eraseCheck g u.board.flashSize addr with
    | some x => .stop x
    | none => transact cfg ⟨.erase, g.eraseOpcode, some (BitVec.ofNat 32 addr), g.addressByteCount, [], 0⟩ u

/-- `NOR.GETID` (R200). -/
def getId (cfg : Config.Params) (u : SpiUnit) : Res SpiUnit (List Byte) :=
  readRegister cfg (cfg.op .rdid) 3 u

/-- Up to `n` status polls (R210); the answer says whether the part was seen ready. -/
def readyPolls (cfg : Config.Params) (n : Nat) (u : SpiUnit) : Res SpiUnit Bool :=
  match n with
  | 0 => .ok false u
  | m + 1 =>
    (readRegister cfg (cfg.op .rdsr) 1 u).bind fun rx u =>
      if wip cfg (rx.headD 0#8) then readyPolls cfg m u else .ok true u

/-- `NOR.WAITRDY` (R210). -/
def waitReady (cfg : Config.Params) (u : SpiUnit) : Res SpiUnit Unit :=
  (readyPolls cfg (pollCount cfg.readyPollBudget u.sched.length) u).bind fun ready u =>
    if ready then .ok () u else waitFailed .flashReady cfg.readyPollBudget (sPoint cfg) u

/-- The bytes a standalone read returns are the caller's `BUF` (R16, R109). -/
def intoBuf (rx : List Byte) (u : SpiUnit) : Res SpiUnit Unit := .ok () { u with work := { u.work with buf := rx } }

/-! ## Meanings -/

/-- `SPI.RDREG` (R179). -/
def execSpiRdreg (dev : Word) (cmd : Byte) (n : BitVec 2) (s : State) : Host.Outcome State Fault Refusal :=
  onSpi dev s .absentDevice noResult fun u => (readRegister s.cfg cmd n.toNat u).bind intoBuf

/-- `SPI.WRREG` (R180). -/
def execSpiWrreg (dev : Word) (cmd : Byte) (n : BitVec 2) (payload : List Byte) (s : State) :
    Host.Outcome State Fault Refusal :=
  if payload.length ≠ n.toNat then .refused .illFormed
  else onSpi dev s .absentDevice noResult fun u => writeRegister s.cfg cmd payload (u.load payload)

/-- `SPI.XRD` (R181). -/
def execSpiXrd (dev addr len : Word) (s : State) : Host.Outcome State Fault Refusal :=
  onSpi dev s .absentDevice noResult fun u => (readTransaction s.cfg addr.toNat len.toNat u).bind intoBuf

/-- `SPI.XPP` (R182). -/
def execSpiXpp (dev addr len : Word) (payload : List Byte) (s : State) : Host.Outcome State Fault Refusal :=
  if payload.length ≠ len.toNat then .refused .illFormed
  else onSpi dev s .absentDevice noResult fun u => programTransaction s.cfg addr.toNat payload (u.load payload)

/-- `SPI.XER` (R183). -/
def execSpiXer (dev addr : Word) (s : State) : Host.Outcome State Fault Refusal :=
  onSpi dev s .absentDevice noResult (eraseTransaction s.cfg addr.toNat)

/-- `NOR.WAITRDY` (R210). -/
def execNorWaitrdy (dev : Word) (s : State) : Host.Outcome State Fault Refusal :=
  onSpi dev s .absentDevice noResult (waitReady s.cfg)

/-- `NOR.GETID` (R200). -/
def execNorGetid (dev : Word) (s : State) : Host.Outcome State Fault Refusal :=
  onSpi dev s .absentDevice noResult fun u => (getId s.cfg u).bind intoBuf

/-- `TRAN.REGRD` (R107, R179): one write of TRAN_CSR. -/
def execTranRegrd (dev : Word) (go : Bool) (s : State) : Host.Outcome State Fault Refusal :=
  sRegisterWrite dev s .tranCsr (tranWord s.cfg .regrd 0#3 go)

/-- `TRAN.REGWR` (R107, R180): one write of TRAN_CSR. -/
def execTranRegwr (dev : Word) (go : Bool) (s : State) : Host.Outcome State Fault Refusal :=
  sRegisterWrite dev s .tranCsr (tranWord s.cfg .regwr 0#3 go)

/-- `TRAN.DATARD` (R107, R181): one write of TRAN_CSR. -/
def execTranDatard (dev : Word) (go : Bool) (addrBytes : BitVec 3) (s : State) :
    Host.Outcome State Fault Refusal :=
  sRegisterWrite dev s .tranCsr (tranWord s.cfg .datard addrBytes go)

/-- `TRAN.DATAWR` (R107, R182): one write of TRAN_CSR. -/
def execTranDatawr (dev : Word) (go : Bool) (addrBytes : BitVec 3) (s : State) :
    Host.Outcome State Fault Refusal :=
  sRegisterWrite dev s .tranCsr (tranWord s.cfg .datawr addrBytes go)

/-- `TRAN.ERASE` (R107, R183): one write of TRAN_CSR. -/
def execTranErase (dev : Word) (go : Bool) (addrBytes : BitVec 3) (s : State) :
    Host.Outcome State Fault Refusal :=
  sRegisterWrite dev s .tranCsr (tranWord s.cfg .erase addrBytes go)

end Sys2Proof.Machine
end

