-- ==== Sys2Proof/Machine/Nor.lean ====
section
/-! DEFINITION. The SPI-NOR host operations (44_nor_operations.md): SetupDevice, Init, ReadData, WriteData, Erase,
EraseChip, FreeDevice, as sequences of the primitives. -/

namespace Sys2Proof.Machine

open Sys2Proof

/-- `WREN`: `SPI.WRREG dev, OP_WREN, 0, []` (R118, R203). -/
def writeEnable (cfg : Config.Params) (u : SpiUnit) : Res SpiUnit (List Byte) :=
  writeRegister cfg (cfg.op .wren) [] u

/-- `WRDI`: `SPI.WRREG dev, OP_WRDI, 0, []` (R118, R204). -/
def writeDisable (cfg : Config.Params) (u : SpiUnit) : Res SpiUnit (List Byte) :=
  writeRegister cfg (cfg.op .wrdi) [] u

/-! ## NOR.SETUP, NOR.FREE -/

/-- A started transaction is in flight: SHIFT has sent part of its frame (R222, U25). -/
def SpiUnit.cutting (u : SpiUnit) : Bool :=
  match u.ctl.xfer with
  | none => false
  | some x => decide (x.out ≠ [])

/-- The controller reset (R222, R56). A transaction it cuts leaves the part in an unknown state (U25, log 17). -/
def resetController (u : SpiUnit) : SpiUnit :=
  { u with ctl := SpiCtl.reset, part := { u.part with cut := u.part.cut || u.cutting } }

/-- The record `SetupDevice` creates (R221). -/
def freshRecord (cfg : Config.Params) (u : SpiUnit) : NorDevice :=
  { baseAddress := u.board.baseAddress, resolved := none, bounceBuffer := cfg.bounceSize, inited := false }

/-- Indices of `norTable` that hold no record, in order. -/
def freeIndices (spi : List SpiUnit) : List Nat :=
  (List.range spi.length).filter (fun i => (spi[i]?.bind SpiUnit.record).isNone)

/-- The environment's draw, and the draws after it (R221, R252; log 18). -/
def nextDraw (ds : List AllocDraw) : AllocDraw × List AllocDraw :=
  match ds with
  | [] => (.pick 0, [])
  | d :: t => (d, t)

/-- The free index a draw takes; none if the allocation fails (R221). -/
def drawnIndex (spi : List SpiUnit) (d : AllocDraw) : Option Nat :=
  match d with
  | .fail => none
  | .pick k => (freeIndices spi)[k % (freeIndices spi).length]?

/-- The unit a given handle names, if its record is present (R221: reuse). -/
def reusable (s : State) (handle : Option Word) : Option (Nat × SpiUnit) :=
  match handle with
  | none => none
  | some h =>
    match s.spi[h.toNat]? with
    | none => none
    | some u => if u.record = none then none else some (h.toNat, u)

/-- Returns the handle with the controller reset (R221). -/
def setupDone (s : State) (i : Nat) (u : SpiUnit) : State :=
  { s with spi := s.spi.set i (resetController u), outDev := BitVec.ofNat 32 i, status := .success }

/-- `NOR.SETUP` (R221). -/
def execNorSetup (handle : Option Word) (s : State) : Host.Outcome State Fault Refusal :=
  match reusable s handle with
  | some (i, u) => .next (setupDone s i u)
  | none =>
    let s' := { s with allocs := (nextDraw s.allocs).2 }
    match drawnIndex s.spi (nextDraw s.allocs).1 with
    | none => .next (s'.answer .outOfResources)
    | some i =>
      match s.spi[i]? with
      | none => .next (s'.answer .outOfResources)
      | some u => .next (setupDone s' i { u with record := some (freshRecord s.cfg u) })

/-- `NOR.FREE` (R229): the record goes, with its bounce buffer; no hardware access, and so it succeeds also on a
controller that a timed-out wait left unusable (R185; DESIGN CHOICE, log 38). -/
def execNorFree (dev : Word) (s : State) : Host.Outcome State Fault Refusal :=
  match s.spi[dev.toNat]? with
  | none => .refused .absentDevice
  | some u =>
    if u.record = none then .refused .absentDevice
    else .next { s with spi := s.spi.set dev.toNat { u with record := none }, status := .success }

/-! ## NOR.INIT -/

/-- Stores the resolved fields in the record, which is not initialised until `Init` has completed (R224, C8). -/
def SpiUnit.setResolved (u : SpiUnit) (g : Resolved) : SpiUnit :=
  { u with record := u.record.map (fun r => { r with resolved := some g, inited := false }) }

/-- `dev.inited <- true` (R224). -/
def SpiUnit.setInited (u : SpiUnit) : SpiUnit :=
  { u with record := u.record.map (fun r => { r with inited := true }) }

/-- The JEDEC ID of the bytes received (R77). -/
def jedecOf (rx : List Byte) : Config.JedecId := ⟨rx.getD 0 0#8, rx.getD 1 0#8, rx.getD 2 0#8⟩

/-- "if 4-byte, issues enter 4-byte mode" (R205, R224). -/
def enter4B (cfg : Config.Params) (flag4B : Bool) (u : SpiUnit) : Res SpiUnit Unit :=
  if flag4B then (writeRegister cfg (cfg.op .en4b) [] u).bind fun _ u => .ok () u else .ok () u

/-- "initializes the status register via write-enable/write-status/wait-ready/write-disable" (R224). -/
def initStatus (cfg : Config.Params) (u : SpiUnit) : Res SpiUnit Unit :=
  (writeEnable cfg u).bind fun _ u =>
  (writeRegister cfg (cfg.op .wrsr) [cfg.srInit] u).bind fun _ u =>
  (waitReady cfg u).bind fun _ u =>
  (writeDisable cfg u).bind fun _ u => .ok () u

/-- `Init` (R224). An unknown ID ends it with `EFI_NOT_FOUND` and no field written (C8). -/
def norInit (cfg : Config.Params) (u : SpiUnit) : Res SpiUnit Unit :=
  (getId cfg u).bind fun rx u =>
  match Config.norFlashGetInfo cfg (jedecOf rx) with
  | none => .raised .notFound u
  | some info =>
    if info.pageSize = 0 ∨ info.sectorSize = 0 then .refuse .badConfig
    else
      (enter4B cfg info.flag4B (u.setResolved (resolve cfg info))).bind fun _ u =>
      (initStatus cfg u).bind fun _ u => .ok () u.setInited

/-- `NOR.INIT` (R224). -/
def execNorInit (dev : Word) (s : State) : Host.Outcome State Fault Refusal :=
  onSpi dev s .absentDevice noResult (norInit s.cfg)

/-! ## Data operations -/

/-- A record that `Init` has completed (R232). -/
def withInited {α : Type} (u : SpiUnit) (f : Resolved → Res SpiUnit α) : Res SpiUnit α :=
  withRecord u fun r => if r.inited then withResolved u f else .refuse .notInitialised

/-- `raise EFI_INVALID_PARAMETER` for `length = 0` (R223). -/
def nonZero {α : Type} (len : Nat) (u : SpiUnit) (r : Res SpiUnit α) : Res SpiUnit α :=
  if len = 0 then .raised .invalidParameter u else r

/-- Precondition of the data operations (R95). -/
def inFlash {α : Type} (g : Resolved) (off len : Nat) (u : SpiUnit) (r : Res SpiUnit α) : Res SpiUnit α :=
  if flashFits u.board.flashSize g.addressByteCount off len then r else .stop (.fault .flashRange)

/-- Working registers while a chunk at `addr` is serviced (R225, R226). -/
def SpiUnit.atChunk (u : SpiUnit) (pageSize addr rem ptr : Nat) : SpiUnit :=
  { u with work := { u.work with
      addr := BitVec.ofNat 32 addr, rem := BitVec.ofNat 32 rem, ptr := BitVec.ofNat 32 ptr,
      pgoff := BitVec.ofNat 32 (addr % pageSize), chunk := BitVec.ofNat 32 (chunkLen pageSize addr rem) } }

/-- `x[ADDR]`, `x[REM]`, `x[PTR]` once a request is serviced (R225, R226). -/
def SpiUnit.pastChunks (u : SpiUnit) (addr ptr : Nat) : SpiUnit :=
  { u with work := { u.work with
      addr := BitVec.ofNat 32 addr, rem := 0#32, ptr := BitVec.ofNat 32 ptr } }

/-- The loop of `ReadData` (R225); `fuel` bounds the number of chunks. -/
def readChunks (cfg : Config.Params) (pageSize fuel addr rem ptr : Nat) (u : SpiUnit) : Res SpiUnit Unit :=
  match fuel with
  | 0 => .ok () (u.pastChunks addr ptr)
  | f + 1 =>
    if rem = 0 then .ok () (u.pastChunks addr ptr)
    else
      let k := chunkLen pageSize addr rem
      (readTransaction cfg addr k (u.atChunk pageSize addr rem ptr)).bind fun rx u =>
        readChunks cfg pageSize f (addr + k) (rem - k) (ptr + k)
          { u with work := { u.work with buf := u.work.buf ++ rx } }

/-- `ReadData` (R225). -/
def norRead (cfg : Config.Params) (off len : Nat) (u : SpiUnit) : Res SpiUnit Unit :=
  withInited u fun g =>
    nonZero len u <| inFlash g off len u <| readChunks cfg g.pageSize len off len 0 (u.load [])

/-- The loop of `WriteData` (R226): each chunk bracketed by write-enable and wait-ready. -/
def writeChunks (cfg : Config.Params) (pageSize fuel addr rem ptr : Nat) (u : SpiUnit) : Res SpiUnit Unit :=
  match fuel with
  | 0 => .ok () (u.pastChunks addr ptr)
  | f + 1 =>
    if rem = 0 then .ok () (u.pastChunks addr ptr)
    else
      let k := chunkLen pageSize addr rem
      (writeEnable cfg (u.atChunk pageSize addr rem ptr)).bind fun _ u =>
      (programTransaction cfg addr ((u.work.buf.drop ptr).take k) u).bind fun _ u =>
      (waitReady cfg u).bind fun _ u =>
        writeChunks cfg pageSize f (addr + k) (rem - k) (ptr + k) u

/-- `WriteData` (R226). -/
def norWrite (cfg : Config.Params) (off len : Nat) (data : List Byte) (u : SpiUnit) : Res SpiUnit Unit :=
  withInited u fun g =>
    nonZero len u <| inFlash g off len u <|
      (writeChunks cfg g.pageSize len off len 0 (u.load data)).bind fun _ u =>
      (writeDisable cfg u).bind fun _ u => .ok () u

/-- Working registers while sector `idx` is erased (R227). -/
def SpiUnit.atSector (u : SpiUnit) (off gran nsec idx : Nat) : SpiUnit :=
  { u with work := { u.work with
      esz := BitVec.ofNat 32 gran, nsec := BitVec.ofNat 32 nsec, idx := BitVec.ofNat 32 idx,
      addr := BitVec.ofNat 32 (off + idx * gran) } }

/-- The loop of `Erase` (R227): sector `idx` at `FlashOffset + idx * EraseSize` (C5), each bracketed by write-enable and
wait-ready. -/
def eraseSectors (cfg : Config.Params) (off gran nsec : Nat) (idxs : List Nat) (u : SpiUnit) : Res SpiUnit Unit :=
  match idxs with
  | [] => .ok () u
  | idx :: t =>
    (writeEnable cfg (u.atSector off gran nsec idx)).bind fun _ u =>
    (eraseTransaction cfg (off + idx * gran) u).bind fun _ u =>
    (waitReady cfg u).bind fun _ u =>
      eraseSectors cfg off gran nsec t u

/-- `Erase` (R227): a misaligned offset ends it with `EFI_INVALID_PARAMETER`, no hardware command issued. -/
def norErase (cfg : Config.Params) (off len : Nat) (u : SpiUnit) : Res SpiUnit Unit :=
  withInited u fun g =>
    nonZero len u <|
      if off % g.granularity ≠ 0 then .raised .invalidParameter u
      else
        inFlash g off len u <|
          (eraseSectors cfg off g.granularity (sectorCount len g.granularity)
            (List.range (sectorCount len g.granularity)) u).bind fun _ u =>
          (writeDisable cfg u).bind fun _ u => .ok () u

/-- `EraseChip` (R228). -/
def norEraseChip (cfg : Config.Params) (u : SpiUnit) : Res SpiUnit Unit :=
  withInited u fun _ =>
    (writeEnable cfg u).bind fun _ u =>
    (writeRegister cfg (cfg.op .ce) [] u).bind fun _ u =>
    (waitReady cfg u).bind fun _ u =>
    (writeDisable cfg u).bind fun _ u => .ok () u

/-- `NOR.RD` (R225). -/
def execNorRd (dev offset length : Word) (s : State) : Host.Outcome State Fault Refusal :=
  onSpi dev s .absentDevice noResult (norRead s.cfg offset.toNat length.toNat)

/-- `NOR.WR` (R226). `data` is the caller's `length` bytes (R109). -/
def execNorWr (dev offset length : Word) (data : List Byte) (s : State) : Host.Outcome State Fault Refusal :=
  if data.length ≠ length.toNat then .refused .illFormed
  else onSpi dev s .absentDevice noResult (norWrite s.cfg offset.toNat length.toNat data)

/-- `NOR.ER` (R227). -/
def execNorEr (dev offset length : Word) (s : State) : Host.Outcome State Fault Refusal :=
  onSpi dev s .absentDevice noResult (norErase s.cfg offset.toNat length.toNat)

/-- `NOR.ERCHIP` (R228). -/
def execNorErchip (dev : Word) (s : State) : Host.Outcome State Fault Refusal :=
  onSpi dev s .absentDevice noResult (norEraseChip s.cfg)

end Sys2Proof.Machine
end

