-- ==== Sys2Proof/Machine/NorFrame.lean ====
section
/-! DEFINITION. The fifteen NOR commands as instructions (43_nor_commands.md section 1): each is one transaction of its
class carrying its frame to the part (log 15), with no device record involved. -/

namespace Sys2Proof.Machine

open Sys2Proof

/-- The transaction of a command without address (R200 to R205, R209). -/
def registerTxn (cfg : Config.Params) (c : NorCmd) (tx : List Byte) (rxLen : Nat) : Txn :=
  ⟨c.cls, cfg.op c, none, 0, tx, rxLen⟩

/-- The transaction of a command with an address of `n` bytes (R206 to R208). -/
def addressTxn (cfg : Config.Params) (c : NorCmd) (n : Nat) (addr : Word) (tx : List Byte) (rxLen : Nat) : Txn :=
  ⟨c.cls, cfg.op c, some addr, n, tx, rxLen⟩

/-- A frame whose data is the caller's `BUF`: a page program, also without data, and whatever else has a payload. -/
def Txn.sendsBuf (d : Txn) : Bool := decide (d.tx ≠ [] ∨ d.cls = .datawr)

/-- One frame on the bus of unit `dev`; the bytes received go to the caller's `BUF`, and a payload comes from it. -/
def execFrame (dev : Word) (d : Txn) (s : State) : Host.Outcome State Fault Refusal :=
  onSpi dev s .noController noResult fun u =>
    (transact s.cfg d (if d.sendsBuf then u.load d.tx else u)).bind fun rx u =>
      if d.cls.rx then intoBuf rx u else .ok () u

/-- `RDID` (R200). -/
def execRdid (dev : Word) (s : State) : Host.Outcome State Fault Refusal :=
  execFrame dev (registerTxn s.cfg .rdid [] 3) s

/-- `RDSR` (R201). -/
def execRdsr (dev : Word) (s : State) : Host.Outcome State Fault Refusal :=
  execFrame dev (registerTxn s.cfg .rdsr [] 1) s

/-- `WRSR v` (R202). -/
def execWrsr (dev : Word) (v : Byte) (s : State) : Host.Outcome State Fault Refusal :=
  execFrame dev (registerTxn s.cfg .wrsr [v] 0) s

/-- `WREN` (R203). -/
def execWren (dev : Word) (s : State) : Host.Outcome State Fault Refusal :=
  execFrame dev (registerTxn s.cfg .wren [] 0) s

/-- `WRDI` (R204). -/
def execWrdi (dev : Word) (s : State) : Host.Outcome State Fault Refusal :=
  execFrame dev (registerTxn s.cfg .wrdi [] 0) s

/-- `EN4B` (R205). -/
def execEn4b (dev : Word) (s : State) : Host.Outcome State Fault Refusal :=
  execFrame dev (registerTxn s.cfg .en4b [] 0) s

/-- `READ a` (R206). With a length of 0, below R113's 1, nothing is read (DESIGN CHOICE, log 45). -/
def execRead (dev : Word) (addr : BitVec 24) (len : Word) (s : State) : Host.Outcome State Fault Refusal :=
  execFrame dev (addressTxn s.cfg .read 3 (addr.setWidth 32) [] len.toNat) s

/-- `READ_4B a` (R206). With a length of 0, below R113's 1, nothing is read (DESIGN CHOICE, log 45). -/
def execRead4b (dev : Word) (addr : BitVec 32) (len : Word) (s : State) : Host.Outcome State Fault Refusal :=
  execFrame dev (addressTxn s.cfg .read4b 4 addr [] len.toNat) s

/-- `PP a, data` (R207): as many bytes as `TRAN_NUM` can hold (R113); without data see `partProgram` (log 45). -/
def execPp (dev : Word) (addr : BitVec 24) (data : List Byte) (s : State) : Host.Outcome State Fault Refusal :=
  if payloadFits data then execFrame dev (addressTxn s.cfg .pp 3 (addr.setWidth 32) data 0) s
  else .refused .illFormed

/-- `PP_4B a, data` (R207): as many bytes as `TRAN_NUM` can hold (R113); without data see `partProgram` (log 45). -/
def execPp4b (dev : Word) (addr : BitVec 32) (data : List Byte) (s : State) : Host.Outcome State Fault Refusal :=
  if payloadFits data then execFrame dev (addressTxn s.cfg .pp4b 4 addr data 0) s
  else .refused .illFormed

/-- `BE_4K a` (R208). -/
def execBe4k (dev : Word) (addr : BitVec 24) (s : State) : Host.Outcome State Fault Refusal :=
  execFrame dev (addressTxn s.cfg .be4k 3 (addr.setWidth 32) [] 0) s

/-- `BE_4K_4B a` (R208). -/
def execBe4k4b (dev : Word) (addr : BitVec 32) (s : State) : Host.Outcome State Fault Refusal :=
  execFrame dev (addressTxn s.cfg .be4k4b 4 addr [] 0) s

/-- `SE a` (R208). -/
def execSe (dev : Word) (addr : BitVec 24) (s : State) : Host.Outcome State Fault Refusal :=
  execFrame dev (addressTxn s.cfg .se 3 (addr.setWidth 32) [] 0) s

/-- `SE_4B a` (R208). -/
def execSe4b (dev : Word) (addr : BitVec 32) (s : State) : Host.Outcome State Fault Refusal :=
  execFrame dev (addressTxn s.cfg .se4b 4 addr [] 0) s

/-- `CE` (R209). -/
def execCe (dev : Word) (s : State) : Host.Outcome State Fault Refusal :=
  execFrame dev (registerTxn s.cfg .ce [] 0) s

end Sys2Proof.Machine
end

