-- ==== Sys2Proof/Machine/Dispatch.lean ====
section
/-! DEFINITION. One arm per operation of the opcode table, each one call of its meaning. -/

namespace Sys2Proof.Machine

open Sys2Proof

def exec (i : Instr) (s : State) : Host.Outcome State Fault Refusal :=
  match i with
  | .efuseRdb bus offset count => Sys2Proof.Machine.execEfuseRdb bus offset count s
  | .efuseWrb bus offset count data => Sys2Proof.Machine.execEfuseWrb bus offset count data s
  | .efuseInfo bus wantInfo wantTotal => Sys2Proof.Machine.execEfuseInfo bus wantInfo wantTotal s
  | .norSetup handle => Sys2Proof.Machine.execNorSetup handle s
  | .norInit dev => Sys2Proof.Machine.execNorInit dev s
  | .norRd dev offset length => Sys2Proof.Machine.execNorRd dev offset length s
  | .norWr dev offset length data => Sys2Proof.Machine.execNorWr dev offset length data s
  | .norEr dev offset length => Sys2Proof.Machine.execNorEr dev offset length s
  | .norErchip dev => Sys2Proof.Machine.execNorErchip dev s
  | .norFree dev => Sys2Proof.Machine.execNorFree dev s
  | .efuseRdw bus wordIndex => Sys2Proof.Machine.execEfuseRdw bus wordIndex s
  | .efuseSetb bus wordIndex bitIndex => Sys2Proof.Machine.execEfuseSetb bus wordIndex bitIndex s
  | .efuseWrw bus wordIndex value => Sys2Proof.Machine.execEfuseWrw bus wordIndex value s
  | .spiRdreg dev cmd n => Sys2Proof.Machine.execSpiRdreg dev cmd n s
  | .spiWrreg dev cmd n payload => Sys2Proof.Machine.execSpiWrreg dev cmd n payload s
  | .spiXrd dev addr len => Sys2Proof.Machine.execSpiXrd dev addr len s
  | .spiXpp dev addr len payload => Sys2Proof.Machine.execSpiXpp dev addr len payload s
  | .spiXer dev addr => Sys2Proof.Machine.execSpiXer dev addr s
  | .norWaitrdy dev => Sys2Proof.Machine.execNorWaitrdy dev s
  | .norGetid dev => Sys2Proof.Machine.execNorGetid dev s
  | .modeIdle bus => Sys2Proof.Machine.execModeIdle bus s
  | .modeRead bus => Sys2Proof.Machine.execModeRead bus s
  | .modeWrite bus => Sys2Proof.Machine.execModeWrite bus s
  | .efuseAddr bus wordIndex bitIndex => Sys2Proof.Machine.execEfuseAddr bus wordIndex bitIndex s
  | .tranRegrd dev go => Sys2Proof.Machine.execTranRegrd dev go s
  | .tranRegwr dev go => Sys2Proof.Machine.execTranRegwr dev go s
  | .tranDatard dev go addrBytes => Sys2Proof.Machine.execTranDatard dev go addrBytes s
  | .tranDatawr dev go addrBytes => Sys2Proof.Machine.execTranDatawr dev go addrBytes s
  | .tranErase dev go addrBytes => Sys2Proof.Machine.execTranErase dev go addrBytes s
  | .rdid dev => Sys2Proof.Machine.execRdid dev s
  | .rdsr dev => Sys2Proof.Machine.execRdsr dev s
  | .wrsr dev v => Sys2Proof.Machine.execWrsr dev v s
  | .wren dev => Sys2Proof.Machine.execWren dev s
  | .wrdi dev => Sys2Proof.Machine.execWrdi dev s
  | .en4b dev => Sys2Proof.Machine.execEn4b dev s
  | .read dev addr len => Sys2Proof.Machine.execRead dev addr len s
  | .read4b dev addr len => Sys2Proof.Machine.execRead4b dev addr len s
  | .pp dev addr data => Sys2Proof.Machine.execPp dev addr data s
  | .pp4b dev addr data => Sys2Proof.Machine.execPp4b dev addr data s
  | .be4k dev addr => Sys2Proof.Machine.execBe4k dev addr s
  | .be4k4b dev addr => Sys2Proof.Machine.execBe4k4b dev addr s
  | .se dev addr => Sys2Proof.Machine.execSe dev addr s
  | .se4b dev addr => Sys2Proof.Machine.execSe4b dev addr s
  | .ce dev => Sys2Proof.Machine.execCe dev s

end Sys2Proof.Machine
end

