-- ==== Sys2Proof/Machine/Fetch.lean ====
section
/-! DEFINITION. Between operations: the agents' steps, the next operation HOST is asked for (log 4), and the placing of
one operation at the head of that queue. The block fetches no instructions (R58, R92): a call stands where a processor
has a program. -/

namespace Sys2Proof.Machine

open Sys2Proof

/-- A step of every unit of a list, or the first stop. -/
def stepUnits {σ : Type} (f : σ → Except Stop σ) (us : List σ) : Except Stop (List σ) :=
  match us with
  | [] => .ok []
  | u :: t =>
    match f u with
    | .error x => .error x
    | .ok v =>
      match stepUnits f t with
      | .error x => .error x
      | .ok vs => .ok (v :: vs)

/-- The hardware agents of every unit step between HOST steps (R18): one schedule point each (log 2). -/
def agentsStep (s : State) : Except Stop State :=
  match stepUnits (ePoint s.cfg) s.efuse with
  | .error x => .error x
  | .ok es =>
    match stepUnits (sPoint s.cfg) s.spi with
    | .error x => .error x
    | .ok us => .ok { s with efuse := es, spi := us }

/-- `addressBits` of each bus, which the layout of ADDR depends on (R101). -/
def State.widths (s : State) : AddrWidths := fun bus => (s.efuse[bus.toNat]?).map (fun u => u.ctl.addressBits)

/-- The queue after the first operation of a call is taken off it. -/
def restCalls (c : Call) (rest : List Byte) (t : List Call) : List Call :=
  match rest with
  | [] => t
  | b :: bs => ⟨c.port, b :: bs⟩ :: t

/-- What HOST does next: nothing (the block does nothing until an operation is called, R58), an operation, or bytes
that select none (R114). -/
inductive Fetched where
  | nothing
  | operation (i : Instr) (rest : List Call)
  | undecodable (e : DecodeError)
deriving DecidableEq, Repr

/-- The next operation of the queue. -/
def fetch (s : State) : Fetched :=
  match s.calls with
  | [] => .nothing
  | c :: t =>
    match decode s.cfg s.widths c with
    | .error e => .undecodable e
    | .ok (i, r) => .operation i (restCalls c r t)

/-- One more status poll of a wait-ready that never ends (R210, R256): a whole transaction. -/
def spinPoll (s : State) (d : Nat) (poll : SpiUnit → Res SpiUnit (List Byte)) : Host.Outcome State Fault Refusal :=
  match s.spi[d]? with
  | none => .next s
  | some u =>
    match poll u with
    | .ok _ v => .next { s with spi := s.spi.set d v }
    | .raised _ v => .next { s with spi := s.spi.set d v }
    | .hang _ v => .next { s with spi := s.spi.set d v }
    | .stop x => stopped x

/-- The call that `withFetchWord` places: the operation of the word, or, where none decodes, the bytes themselves in the
first format of that width, which refuses them (R114; log 6). -/
def placedCall (s : State) (nbits w : Nat) : Call :=
  match tableCall s.cfg s.widths nbits w with
  | some (c, _) => c
  | none => ⟨(tablePorts s.cfg nbits w).headD .req, tableBytes nbits w⟩

end Sys2Proof.Machine
end

