-- ==== Sys2Proof/Machine/Step.lean ====
section
/-! DEFINITION. One step of the machine: the hardware agents step, then HOST runs the next operation start to finish,
or does nothing when none is asked for, or polls once more when it hangs (R18, R58, R89, R256). -/

namespace Sys2Proof.Machine

open Sys2Proof

/-- What HOST does in a step, after the agents have stepped. -/
def hostStep (s : State) : Host.Outcome State Fault Refusal :=
  match s.host with
  | .spinning (.efuse _) => .next s
  | .spinning (.spi _) => .next s
  | .spinning (.flashReady d) => spinPoll s d (readRegister s.cfg (s.cfg.op .rdsr) 1)
  | .idle =>
    match fetch s with
    | .nothing => .next s
    | .undecodable e => .refused (.undecodable e)
    | .operation i rest => exec i { s with calls := rest }

/-- One step. -/
def step (s : State) : Host.Outcome State Fault Refusal :=
  match agentsStep s with
  | .error x => stopped x
  | .ok t => hostStep t

/-- The operation of an opcode-table word at the head of what HOST is asked to run (log 4). -/
def State.withFetchWord (s : State) (nbits w : Nat) : State :=
  { s with host := .idle, calls := placedCall s nbits w :: s.calls }

end Sys2Proof.Machine
end

