-- ==== Sys2Proof/Machine/Start.lean ====
section
/-! DEFINITION. The driver start (R50, R252, R282): the tables are built from board configuration before any operation
exists, or there is no machine. -/

namespace Sys2Proof.Machine

open Sys2Proof

/-- The driver start (R282): the controllers are "enumerated once at driver start from board configuration", and HOST is
asked for nothing yet; if the enumeration cannot allocate its records, the driver fails with `EFI_OUT_OF_RESOURCES`
before any operation exists (R252). Whether the allocation fails is the environment's draw (log 37). -/
def driverStart (cfg : Config.Params) (es : List EfuseBoard) (fs : List FlashBoard) (alloc : AllocDraw) :
    Except Status State :=
  match alloc with
  | .fail => .error .outOfResources
  | .pick _ => .ok (State.powerOn cfg es fs)

end Sys2Proof.Machine
end

