-- ==== Sys2Proof/Safety.lean ====
section
/-! DEFINITION. The terms statements about runs use: which engine an operation acts on, when the agents around a unit
are fair or prompt (R296), when a unit can take an operation (R170, R285, R298), and the invariants of the machine. -/

namespace Sys2Proof

/-! ## Which unit an operation acts on -/

/-- The eFuse controller an operation names (R109, R112). -/
def Instr.bus? : Instr → Option Word
  | .efuseRdb bus _ _ => some bus
  | .efuseWrb bus _ _ _ => some bus
  | .efuseInfo bus _ _ => some bus
  | .efuseRdw bus _ => some bus
  | .efuseSetb bus _ _ => some bus
  | .efuseWrw bus _ _ => some bus
  | .modeIdle bus => some bus
  | .modeRead bus => some bus
  | .modeWrite bus => some bus
  | .efuseAddr bus _ _ => some bus
  | .norSetup _ | .norInit _ | .norRd _ _ _ | .norWr _ _ _ _ | .norEr _ _ _ | .norErchip _ | .norFree _
  | .spiRdreg _ _ _ | .spiWrreg _ _ _ _ | .spiXrd _ _ _ | .spiXpp _ _ _ _ | .spiXer _ _ | .norWaitrdy _
  | .norGetid _ | .tranRegrd _ _ | .tranRegwr _ _ | .tranDatard _ _ _ | .tranDatawr _ _ _ | .tranErase _ _ _
  | .rdid _ | .rdsr _ | .wrsr _ _ | .wren _ | .wrdi _ | .en4b _ | .read _ _ _ | .read4b _ _ _ | .pp _ _ _
  | .pp4b _ _ _ | .be4k _ _ | .be4k4b _ _ | .se _ _ | .se4b _ _ | .ce _ => none

/-- The SPI unit an operation names; `NOR.SETUP` takes or draws its own (R221). -/
def Instr.dev? : Instr → Option Word
  | .norInit dev => some dev
  | .norRd dev _ _ => some dev
  | .norWr dev _ _ _ => some dev
  | .norEr dev _ _ => some dev
  | .norErchip dev => some dev
  | .norFree dev => some dev
  | .spiRdreg dev _ _ => some dev
  | .spiWrreg dev _ _ _ => some dev
  | .spiXrd dev _ _ => some dev
  | .spiXpp dev _ _ _ => some dev
  | .spiXer dev _ => some dev
  | .norWaitrdy dev => some dev
  | .norGetid dev => some dev
  | .tranRegrd dev _ => some dev
  | .tranRegwr dev _ => some dev
  | .tranDatard dev _ _ => some dev
  | .tranDatawr dev _ _ => some dev
  | .tranErase dev _ _ => some dev
  | .rdid dev => some dev
  | .rdsr dev => some dev
  | .wrsr dev _ => some dev
  | .wren dev => some dev
  | .wrdi dev => some dev
  | .en4b dev => some dev
  | .read dev _ _ => some dev
  | .read4b dev _ _ => some dev
  | .pp dev _ _ => some dev
  | .pp4b dev _ _ => some dev
  | .be4k dev _ => some dev
  | .be4k4b dev _ => some dev
  | .se dev _ => some dev
  | .se4b dev _ => some dev
  | .ce dev => some dev
  | .efuseRdb _ _ _ | .efuseWrb _ _ _ _ | .efuseInfo _ _ _ | .norSetup _ | .efuseRdw _ _ | .efuseSetb _ _ _
  | .efuseWrw _ _ _ | .modeIdle _ | .modeRead _ | .modeWrite _ | .efuseAddr _ _ _ => none

/-! ## Which waits an operation makes -/

/-- The waits an operation can end in (R253, R255): none; the eFuse wait-ready; the WAIT of a transaction; that and the
wait-ready of the part. -/
inductive Waits where
  | never | macroReady | transfer | partReady
deriving DecidableEq, Repr

/-- The waits of each operation (R255, column T). The table of R255 has no FRAME, MODE, ADDR or TRAN row: that a FRAME
row waits as the transaction it is (log 15), and that a register row never waits (log 16), is the model's. -/
def Instr.waits : Instr → Waits
  | .efuseRdb _ _ _ | .efuseWrb _ _ _ _ | .efuseRdw _ _ | .efuseSetb _ _ _ | .efuseWrw _ _ _ => .macroReady
  | .norInit _ | .norWr _ _ _ _ | .norEr _ _ _ | .norErchip _ | .norWaitrdy _ => .partReady
  | .norRd _ _ _ | .spiRdreg _ _ _ | .spiWrreg _ _ _ _ | .spiXrd _ _ _ | .spiXpp _ _ _ _ | .spiXer _ _ | .norGetid _
  | .rdid _ | .rdsr _ | .wrsr _ _ | .wren _ | .wrdi _ | .en4b _ | .read _ _ _ | .read4b _ _ _ | .pp _ _ _
  | .pp4b _ _ _ | .be4k _ _ | .be4k4b _ _ | .se _ _ | .se4b _ _ | .ce _ => .transfer
  | .efuseInfo _ _ _ | .norSetup _ | .norFree _ | .modeIdle _ | .modeRead _ | .modeWrite _ | .efuseAddr _ _ _
  | .tranRegrd _ _ | .tranRegwr _ _ | .tranDatard _ _ _ | .tranDatawr _ _ _ | .tranErase _ _ _ => .never

/-- A budget that bounds one of the waits is set (R253). -/
def Waits.budgeted (cfg : Config.Params) : Waits → Bool
  | .never => false
  | .macroReady => cfg.efuseWaitBudget.isSome
  | .transfer => cfg.spiWaitBudget.isSome
  | .partReady => cfg.spiWaitBudget.isSome || cfg.readyPollBudget.isSome

namespace Machine

/-! ## Fair and prompt agents (R296, log 2) -/

/-- EMAC of the unit always steps in the end, and in time for the wait: no budget, or no delay left in the schedule. -/
def EfuseUnit.Fair (cfg : Config.Params) (u : EfuseUnit) : Prop :=
  u.live = true ∧ (cfg.efuseWaitBudget = none ∨ u.sched = [])

/-- The macro can take a command (R285, R298), and MODE says so (R34, R38). -/
def EfuseUnit.Ready (cfg : Config.Params) (u : EfuseUnit) : Prop :=
  widthLegal u.ctl.addressBits = true ∧ u.busy = false ∧ efuseReady cfg (eRead cfg .mode u) = true

/-- SHIFT and PART always step in the end, and in time for every wait: nothing is left of the schedule, or no wait has a
budget and the schedule does not take the part's power away. -/
def SpiUnit.Fair (cfg : Config.Params) (u : SpiUnit) : Prop :=
  u.live = ⟨true, true⟩ ∧
    (u.sched = [] ∨ cfg.spiWaitBudget = none ∧ cfg.readyPollBudget = none ∧ ∀ b ∈ u.sched, SAgent.power ∉ b)

/-- A transaction can start and complete (R170, R298): the controller is idle, its agents are fair, the part is in a
known state, and the FIFO holds a trigger level (R41, U16). -/
def SpiUnit.Available (cfg : Config.Params) (u : SpiUnit) : Prop :=
  u.idle cfg = true ∧ u.Fair cfg ∧ u.part.cut = false ∧ 8 ≤ cfg.fifoDepth

/-- The part is not executing anything (R37, R289). -/
def SpiUnit.PartReady (cfg : Config.Params) (u : SpiUnit) : Prop := wip cfg u.part.sr = false

/-- The part after a command: as the command left it, or with PART's own step taken since (R216). -/
def Settles (cfg : Config.Params) (r q : Part) : Prop := q = r ∨ q = partStep cfg r

/-- The part after an erase command of a unit of `u` bytes at `a`, sent to a ready part `p` (R208, R213): ignored
without write-enable (log 13), else started, at `a` where it is a multiple of `u`, and elsewhere at a free place from
which the unit holds `a` (R183; log 44). -/
def EraseTaken (cfg : Config.Params) (p : Part) (u a : Nat) (q : Part) : Prop :=
  if wel cfg p.sr then
    (if a % u = 0 then Settles cfg (partStart cfg p (.eraseUnit a u)) q
     else ∃ b, b ≤ a ∧ a < b + u ∧
       Settles cfg (partStart cfg p.drawn (.eraseUnit b u)) q)
  else Settles cfg p q

/-- The part after a page program of `data` at `a`, sent to a ready part `p` with pages of `page` bytes (R207, R213):
ignored without write-enable (log 13), else started; past the page end, what is written, from the start of the page on
to where the data would end, is free (log 46); without data, whether anything is started is free (log 45). -/
def ProgramTaken (cfg : Config.Params) (p : Part) (page a : Nat) (data : List Byte) (q : Part) : Prop :=
  if data = [] then
    ∃ b : Bool, Settles cfg (if b && wel cfg p.sr then partStart cfg p.drawn (.program a []) else p.drawn) q
  else if wel cfg p.sr then
    (if a % page + data.length ≤ page then Settles cfg (partStart cfg p (.program a data)) q
     else ∃ bytes : List Byte, bytes.length = a % page + data.length ∧
       Settles cfg (partStart cfg p.drawn (.program (alignDown page a) bytes)) q)
  else Settles cfg p q

/-- A transaction descriptor of R170: a word of its class, the address bytes it counts, a payload only in a class that
transmits, data to receive only in a class that receives. -/
def Txn.Legal (cfg : Config.Params) (d : Txn) : Prop :=
  tranClassOf cfg (d.word cfg false) = some d.cls ∧ d.addrCount < 8 ∧ d.tx.length + d.rxLen < 2 ^ 32 ∧
    (d.tx ≠ [] → d.cls = .regwr ∨ d.cls = .datawr) ∧ (0 < d.rxLen → d.cls = .regrd ∨ d.cls = .datard)

/-- The controller registers after a completed transaction (R171, R174, R177, R178). -/
def Txn.doneCtl (cfg : Config.Params) (d : Txn) : SpiCtl :=
  { tranCsr := d.word cfg false, tranNum := BitVec.ofNat 32 (d.tx.length + d.rxLen), intSts := setTranDone cfg 0#32,
    fifo := [], rxLeft := 0, sphase := .idle, xfer := none }

/-- The whole payload of a transaction may be pushed before ARM (R47, R173). -/
def FifoRoom (cfg : Config.Params) (n : Nat) : Prop := cfg.strictFifo = true → n ≤ cfg.fifoDepth

/-- The fields `NOR.INIT` resolves are in the record, and are those of the part on the bus (R211, R224); the part is in
the address mode the record holds, as it is when `NOR.INIT` has run since its last power-on (R217). -/
def SpiUnit.Resolves (cfg : Config.Params) (u : SpiUnit) (info : Config.FlashInfo) : Prop :=
  (∃ r, u.record = some r ∧ r.resolved = some (resolve cfg info)) ∧
    Config.norFlashGetInfo cfg u.board.jedecId = some info ∧ 0 < info.pageSize ∧ 0 < info.sectorSize ∧
    u.part.mode4B = info.flag4B

/-- `NOR.INIT` has completed on the record (R224, R232). -/
def SpiUnit.Initialised (cfg : Config.Params) (u : SpiUnit) (info : Config.FlashInfo) : Prop :=
  u.Resolves cfg info ∧ ∃ r, u.record = some r ∧ r.inited = true

/-! ## What an operation leaves -/

/-- The address word of bit `k` of word `w` on this controller (R101). -/
def EfuseUnit.address (u : EfuseUnit) (w k : Nat) : Word :=
  composeAddr u.ctl.addressBits (BitVec.ofNat 32 w) (BitVec.ofNat 5 k)

/-- The register trace of a word read (R133, R138): MODE, ADDR, MODE written, RD_DATA read once. -/
def wordTrace (cfg : Config.Params) (u : EfuseUnit) (w : Nat) : List EAccess :=
  [.write .mode cfg.mode.idle, .write .addr (u.address w 0), .write .mode cfg.mode.read,
   .readData (otpWord u.otp w)]

/-- The register trace of a word write (R135, R138): ADDR and MODE once per 1 bit, in ascending order. -/
def setTrace (cfg : Config.Params) (u : EfuseUnit) (w : Nat) (value : Word) (ks : List Nat) : List EAccess :=
  (ks.filter fun k => value.getLsbD k).flatMap fun k =>
    [.write .addr (u.address w k), .write .mode cfg.mode.write]

/-- The register trace of a byte read (R138, R151): three register writes and one read of RD_DATA per segment. -/
def readTrace (cfg : Config.Params) (u : EfuseUnit) (gs : List Segment) : List EAccess :=
  gs.flatMap fun g => wordTrace cfg u g.word

/-- The register trace of a byte write (R138, R152). -/
def writeTrace (cfg : Config.Params) (u : EfuseUnit) (data : List Byte) (gs : List Segment) : List EAccess :=
  gs.flatMap fun g => setTrace cfg u g.word (placeBytes g.lane (segmentData g data)) (List.range 32)

/-- What an operation of engine E that returns leaves of its controller (R133 to R135, R298): the same controller, MODE
as before or as the macro leaves a completed command in it, with its reserved bits 0 (log 7), the macro not busy, which
is what MODE shows (R34, R38), fair as before. -/
structure EfuseUnit.Returned (cfg : Config.Params) (u v : EfuseUnit) : Prop where
  ctl : v.ctl = u.ctl
  wordsSet : v.wordsSet = u.wordsSet
  live : v.live = u.live
  mode : v.mode = u.mode ∨ v.mode = modeLeft cfg cfg.mode.read ∨ v.mode = modeLeft cfg cfg.mode.write
  busy : v.busy = false
  ready : efuseReady cfg (eRead cfg .mode v) = true
  ephase : v.ephase = .idle
  fair : v.Fair cfg

/-- What an operation of engine S that returns leaves of its unit (R177, R298): the same board and device record, an
idle controller with nothing in flight, fair as before, with the transactions `fs` recorded. -/
structure SpiUnit.Returned (cfg : Config.Params) (u v : SpiUnit) (fs : List Frame) : Prop where
  board : v.board = u.board
  record : v.record = u.record
  live : v.live = u.live
  idle : v.idle cfg = true
  xfer : v.ctl.xfer = none
  fair : v.Fair cfg
  frames : v.frames = u.frames ++ fs

/-- A unit after one write of TRAN_CSR (R41, R84, R174): the word is stored; with `GO_BUSY` SHIFT has `x` in flight. -/
def SpiUnit.tranWritten (u : SpiUnit) (w : Word) (go : Bool) (x : Xfer) : SpiUnit :=
  { u with
    ctl := { u.ctl with tranCsr := w, xfer := if go then some x else u.ctl.xfer,
                        rxLeft := if go then x.toRecv else u.ctl.rxLeft },
    trace := u.trace ++ [.write .tranCsr w] }

/-- SHIFT's record of a freshly armed transaction (R174). -/
def freshXfer (cls : TranClass) (toSend toRecv : Nat) : Xfer := ⟨cls, toSend, toRecv, 0, [], []⟩

/-- A part that has completed what it was executing: the array and the status bits given, nothing pending (R216). -/
def Part.rest (p : Part) (m : Memory) (sr : Byte) : Part := { p with flash := m, sr := sr, pending := none }

/-! ## What a mock records (R184, R230) -/

/-- The commands of recorded transactions, status polls left out: their number is not fixed (R210). -/
def commandsOf (cfg : Config.Params) (fs : List Frame) : List (List Byte) :=
  (fs.map Frame.out).filter fun o => o ≠ [cfg.op .rdsr]

/-- The commands of a page-wise read (R225): one data read per chunk. -/
def readCommands (g : Resolved) (fuel addr rem : Nat) : List (List Byte) :=
  match fuel with
  | 0 => []
  | f + 1 =>
    if rem = 0 then []
    else (g.readOpcode :: addrBytes (BitVec.ofNat 32 addr) g.addressByteCount) ::
      readCommands g f (addr + chunkLen g.pageSize addr rem) (rem - chunkLen g.pageSize addr rem)

/-- A recorded data read stays inside one page (R230). -/
def ReadInPage (g : Resolved) (f : Frame) : Prop :=
  ∃ a : Nat, a < 2 ^ (8 * g.addressByteCount) ∧
      f.out = g.readOpcode :: addrBytes (BitVec.ofNat 32 a) g.addressByteCount ∧
    0 < f.rx.length ∧ a / g.pageSize = (a + f.rx.length - 1) / g.pageSize

/-- A recorded page program stays inside one page (R230). -/
def ProgramInPage (g : Resolved) (f : Frame) : Prop :=
  ∃ (a : Nat) (data : List Byte), a < 2 ^ (8 * g.addressByteCount) ∧
    f.out = g.programOpcode :: (addrBytes (BitVec.ofNat 32 a) g.addressByteCount ++ data) ∧ data ≠ [] ∧
      a / g.pageSize = (a + data.length - 1) / g.pageSize

/-- The commands of a page-wise write (R226): write-enable and page program per chunk. -/
def writeCommands (cfg : Config.Params) (g : Resolved) (fuel addr : Nat) (data : List Byte) : List (List Byte) :=
  match fuel with
  | 0 => []
  | f + 1 =>
    if data = [] then []
    else [cfg.op .wren] ::
      (g.programOpcode :: (addrBytes (BitVec.ofNat 32 addr) g.addressByteCount ++
        data.take (chunkLen g.pageSize addr data.length))) ::
      writeCommands cfg g f (addr + chunkLen g.pageSize addr data.length)
          (data.drop (chunkLen g.pageSize addr data.length))

/-- The commands of a sector-wise erase (R227): write-enable and erase per sector. -/
def eraseCommands (cfg : Config.Params) (g : Resolved) (off : Nat) (idxs : List Nat) : List (List Byte) :=
  idxs.flatMap fun i => [[cfg.op .wren],
    g.eraseOpcode :: addrBytes (BitVec.ofNat 32 (off + i * g.granularity)) g.addressByteCount]

/-! ## Invariants -/

/-- What is true of an eFuse unit in every run (R34, R32, R38, R48): the value read from MODE is ready exactly while the
macro is not busy; a busy macro has its command in MODE, and the phase names it; MODE of one that is not busy holds the
idle command or what the macro leaves of a completed one; the array is in canonical form. -/
def EfuseUnit.Inv (cfg : Config.Params) (u : EfuseUnit) : Prop :=
  efuseReady cfg (eRead cfg .mode u) = !u.busy ∧
  (u.busy = true → u.mode = cfg.mode.read ∧ u.ephase = .cmdRead ∨ u.mode = cfg.mode.write ∧ u.ephase = .cmdWrite) ∧
  (u.busy = false → u.ephase = .idle ∧
    u.mode ∈ [cfg.mode.idle, modeLeft cfg cfg.mode.read, modeLeft cfg cfg.mode.write]) ∧
  Memory.wf Config.freshOtpByte u.otp = true

/-- What is true of SHIFT's record in every run (R174, R178): something is left to move, the bytes received are those
recorded, and nothing is received before the whole frame is sent. -/
def Xfer.Inv (x : Xfer) : Prop :=
  0 < x.toSend + x.toRecv ∧ x.inp.length = x.recvd ∧ (0 < x.toSend → x.recvd = 0)

/-- What is true of a part in every run (R37, R49): it is busy exactly while something is pending, and its array is in
canonical form. -/
def Part.Inv (cfg : Config.Params) (p : Part) : Prop :=
  wip cfg p.sr = p.pending.isSome ∧ Memory.wf cfg.erasedByte p.flash = true

/-- What is true of an SPI unit in every run (R35, R36, R41, R114): TRAN_CSR holds 0 or a word of the five classes;
`GO_BUSY` is set exactly while a transaction is in flight; no bit of INT_STS but `TRAN_DONE` and `RD_FIFO` is set. -/
def SpiUnit.Inv (cfg : Config.Params) (u : SpiUnit) : Prop :=
  (u.ctl.tranCsr = 0#32 ∨ (tranClassOf cfg u.ctl.tranCsr).isSome = true) ∧
  goBusy cfg u.ctl.tranCsr = u.ctl.xfer.isSome ∧
  (∀ x, u.ctl.xfer = some x → x.Inv) ∧
  u.ctl.intSts &&& ~~~intMask cfg = 0#32 ∧
  u.part.Inv cfg

/-- The invariant of the machine. -/
def State.Inv (s : State) : Prop := (∀ u ∈ s.efuse, u.Inv s.cfg) ∧ ∀ u ∈ s.spi, u.Inv s.cfg

/-- A bit of OTP is 1 (R48, R75). -/
def otpBit (m : Memory) (o k : Nat) : Bool := (otpByte m o).getLsbD k

end Machine

end Sys2Proof
end

