-- ==== Sys2Proof/Certificates/Slice0/Obligations.lean ====
section
/-! DEFINITION. Statements about the block for the provers: the encodings, the machine as a whole, engine E, engine S,
the NOR commands, the NOR host operations. A statement about a run of a unit is made for every fair or prompt schedule
(`Fair`, `Available`; R296, log 2). -/

open Sys2Proof Sys2Proof.Machine

/-! ## Encodings (30_encoding.md) -/

/-- R100 to R113: the decoder reads every encoded well-formed operation back, with every operand at every value, and
leaves the bytes after it. -/
def Obligations.DecodeUndoesEncode : Prop :=
  ∀ (cfg : Config.Params) (ab : AddrWidths) (i : Instr) (rest : List Byte), WellFormed ab i = true →
    decode cfg ab ⟨(encode cfg ab i).port, (encode cfg ab i).bytes ++ rest⟩ = .ok (i, rest)

/-- R100 to R113: an accepted call is the encoding of the operation decoded, followed by the bytes left: no two
encodings of one format mean the same operation, and no bit of an accepted encoding is ignored. -/
def Obligations.EncodeUndoesDecode : Prop :=
  ∀ (cfg : Config.Params) (ab : AddrWidths) (c : Call) (i : Instr) (rest : List Byte),
    decode cfg ab c = .ok (i, rest) → (encode cfg ab i).port = c.port ∧ (encode cfg ab i).bytes ++ rest = c.bytes

/-- R101, R102, R105, R107, R113, R116: words and frames the spec writes out decode to what it says they are. -/
def Obligations.DecodesWordsOfTheSpec : Prop :=
  decode defaultParams (fun _ => some 7) ⟨.req, [0x02#8, 0#8, 0#8, 0#8, 0#8, 6#8, 0#8, 0#8, 0#8, 1#8, 0#8, 0#8, 0#8,
      0xA5#8]⟩ =
      .ok (.efuseWrb 0#32 6#32 1#32 [0xA5#8], []) ∧
    decode defaultParams (fun _ => some 7) ⟨.efuseAddr 0#32, [0x83#8, 0x02#8, 0#8, 0#8]⟩ =
        .ok (.efuseAddr 0#32 3#32 5#5, []) ∧
    decode defaultParams (fun _ => some 7) ⟨.efuseMode 0#32, [0x02#8, 0#8, 0#8, 0#8]⟩ = .ok (.modeRead 0#32, []) ∧
    decode defaultParams (fun _ => some 7) ⟨.tran 0#32, [0x01#8, 0xBB#8, 0#8, 0#8]⟩ =
        .ok (.tranDatard 0#32 true 3#3, []) ∧
    decode defaultParams (fun _ => some 7) ⟨.frame 0#32 44#32, [0x03#8, 0#8, 0x01#8, 0#8]⟩ =
        .ok (.read 0#32 0x100#24 44#32, []) ∧
    decode defaultParams (fun _ => some 7) ⟨.frame 0#32 0#32, [0x21#8, 0#8, 0#8, 0x10#8, 0#8]⟩ =
      .ok (.be4k4b 0#32 0x1000#32, [])

/-- R114: what selects nothing is refused by name: (a) the values of MODE.CMD other than the three encodings, (b)
reserved bits of MODE and ADDR, (c) a TRAN_CSR word outside the five classes (by the decoder, or where the word is
written), (d) a command byte outside the set, (e) a selector that is not listed. -/
def Obligations.ReservedEncodingsAreRefused : Prop :=
  (∀ (cfg : Config.Params) (bus v : Word) (r : List Byte), v &&& ~~~cfg.mode.mask = 0#32 →
      v ∉ [cfg.mode.idle, cfg.mode.read, cfg.mode.write] →
      decodeMode cfg bus (le32 v ++ r) = .error .reservedMode) ∧
    (∀ (cfg : Config.Params) (bus v : Word) (r : List Byte), v &&& ~~~cfg.mode.mask ≠ 0#32 →
      decodeMode cfg bus (le32 v ++ r) = .error .reservedBits) ∧
    (∀ (ab : AddrWidths) (bus v : Word) (r : List Byte) (a : Nat), ab bus = some a → 1 ≤ a → a ≤ 27 →
      2 ^ (a + 5) ≤ v.toNat → decodeAddr ab bus (le32 v ++ r) = .error .reservedBits) ∧
    (∀ (cfg : Config.Params) (u : SpiUnit) (v : Word), goBusy cfg u.ctl.tranCsr = false → tranClassOf cfg v = none →
      sWrite cfg .tranCsr v u = .error (.refuse .reservedTran)) ∧
    (∀ (cfg : Config.Params) (dev num : Word) (b : Byte) (r : List Byte), (∀ c, cfg.op c ≠ b) →
      decodeFrame cfg dev num (b :: r) = .error (.unknownCommand b)) ∧
    ∀ (op : Byte) (r : List Byte),
      op.toNat ∉ [0x01, 0x02, 0x03, 0x10, 0x11, 0x12, 0x13, 0x14, 0x15, 0x16, 0x20, 0x21, 0x22, 0x30, 0x31, 0x32, 0x33,
        0x34, 0x35, 0x36] → decodeReq (op :: r) = .error (.unknownSelector op)

/-! ## The machine -/

/-- R18, R58, R100: HOST runs the operation that its next call decodes to, start to finish, after the hardware
agents have stepped; with no call it does nothing. The queue of calls and one operation a step are the model's
(log 1, log 4). -/
def Obligations.StepRunsTheNextOperation : Prop :=
  ∀ (s t : State), agentsStep s = .ok t → t.host = .idle →
    (t.calls = [] → step s = .next t) ∧
    ∀ (c : Call) (cs : List Call) (i : Instr) (rest : List Byte), t.calls = c :: cs →
      decode t.cfg t.widths c = .ok (i, rest) → step s = exec i { t with calls := restCalls c rest cs }

/-- The machine after reset meets the invariant. That the reserved bits of MODE, which R55 leaves unspecified, are 0 is
the model's choice (log 7), and so are the arrays it starts with (log 10). -/
def Obligations.InvariantHoldsAtReset : Prop := State.reset.Inv

/-- R34, R35, R36, R38, R41, R49: in every state a step leads to from a state that meets the invariant: the value read
from MODE is ready exactly while the busy flag is 0, MODE holds one of its three commands, and while the macro is busy
the phase agrees with it, `GO_BUSY` is set exactly while a transaction is in
flight, TRAN_CSR holds 0 or a word of the five classes, the part is busy exactly while something is pending, and both
arrays keep their canonical form. That reserved bits hold the 0 written to them is the model's choice (log 7). -/
def Obligations.EveryStepKeepsTheInvariant : Prop :=
  ∀ (s t : State), s.Inv → step s = .next t → t.Inv

/-- R56, R222: the SPI controller after power-on and after the reset `NOR.SETUP` performs. -/
def Obligations.SpiControllerResetValues : Prop :=
  ∀ (cfg : Config.Params) (u : SpiUnit),
    (u ∈ State.reset.spi ∨ (∃ es fs, u ∈ (State.powerOn cfg es fs).spi) ∨
      ∃ s t h, s.spi.length < 2 ^ 32 ∧ exec (.norSetup h) s = .next t ∧ t.status = .success ∧
        t.spi[t.outDev.toNat]? = some u) →
    u.ctl.tranCsr = 0#32 ∧ goBusy cfg u.ctl.tranCsr = false ∧ u.ctl.tranNum = 0#32 ∧ u.ctl.intSts = 0#32 ∧
      u.ctl.fifo = [] ∧ sRead cfg .fifoPt u = 0#32 ∧ u.ctl.sphase = .idle ∧ u.ctl.xfer = none

/-- R55, R57, R58, R252, R282: what a driver start leaves of the eFuse controllers, the flash parts and the device
table, on any board; the machine after reset is one such; a start whose enumeration cannot allocate fails with
`EFI_OUT_OF_RESOURCES` and there is no machine (log 37). -/
def Obligations.PowerOnValues : Prop :=
  (∀ (cfg : Config.Params) (es : List EfuseBoard) (fs : List FlashBoard) (k : Nat), ∃ s,
    driverStart cfg es fs (.pick k) = .ok s ∧ s.calls = [] ∧ s.host = .idle ∧
      s.efuse.map EfuseUnit.ctl = es.map EfuseBoard.ctl ∧ s.efuse.map EfuseUnit.otp = es.map EfuseBoard.otp0 ∧
      s.spi.map SpiUnit.board = fs.map FlashBoard.board ∧
      (∀ u ∈ s.efuse, u.mode &&& cfg.mode.mask = cfg.mode.idle ∧ u.busy = false ∧ u.ephase = .idle) ∧
      ∀ u ∈ s.spi, wip cfg u.part.sr = false ∧ wel cfg u.part.sr = false ∧ u.part.mode4B = false ∧
        u.part.pending = none ∧ u.record = none) ∧
    (∃ cfg es fs k, driverStart cfg es fs (.pick k) = .ok State.reset) ∧
    ∀ (cfg : Config.Params) (es : List EfuseBoard) (fs : List FlashBoard),
      driverStart cfg es fs .fail = .error .outOfResources

/-- R48, R136: no step of any agent removes a 1 from the OTP array of any controller. -/
def Obligations.OtpOnlyGainsOnes : Prop :=
  ∀ (s t : State) (b : Nat) (u v : EfuseUnit), step s = .next t → s.efuse[b]? = some u → t.efuse[b]? = some v →
    Memory.wf Config.freshOtpByte u.otp = true → ∀ o k, otpBit u.otp o k = true → otpBit v.otp o k = true

/-- R7, R265 (log 27): an operation changes no controller, part or device record but that of the index it names, and no
unit of the other engine; `NOR.SETUP` leaves engine E alone. -/
def Obligations.OperationsTouchOnlyTheirUnit : Prop :=
  ∀ (i : Instr) (s t : State), exec i s = .next t →
    (i.dev? = none → (∀ h, i ≠ .norSetup h) → t.spi = s.spi) ∧
    (i.bus? = none → t.efuse = s.efuse) ∧
    (∀ b, i.bus? = some b → ∀ n, n ≠ b.toNat → t.efuse[n]? = s.efuse[n]?) ∧
    ∀ d, i.dev? = some d → ∀ n, n ≠ d.toNat → t.spi[n]? = s.spi[n]?

/-- R50, R59: no step changes the controller table, the boards or the other configuration. -/
def Obligations.ConfigurationNeverChanges : Prop :=
  ∀ (s t : State), step s = .next t →
    t.cfg = s.cfg ∧ t.efuse.map EfuseUnit.ctl = s.efuse.map EfuseUnit.ctl ∧
      t.efuse.map EfuseUnit.words = s.efuse.map EfuseUnit.words ∧
      t.spi.map SpiUnit.board = s.spi.map SpiUnit.board

/-- R256 (log 11): an operation that hangs never returns: HOST stays in the wait, asks for nothing else, and reports
nothing. -/
def Obligations.HangNeverReturns : Prop :=
  ∀ (s t : State) (x : SpinSite), s.host = .spinning x → step s = .next t →
    t.host = .spinning x ∧ t.calls = s.calls ∧ t.status = s.status ∧ t.buf = s.buf ∧ t.outWord = s.outWord ∧
      t.outDev = s.outDev ∧ t.outInfo = s.outInfo ∧ t.outTotal = s.outTotal ∧ t.allocs = s.allocs

/-- R251, R260: an operation that answers `EFI_INVALID_PARAMETER` leaves everything else exactly as it was. -/
def Obligations.InvalidInputChangesNothingElse : Prop :=
  ∀ (i : Instr) (s t : State), s.status ≠ .invalidParameter → exec i s = .next t → t.status = .invalidParameter →
    t = { s with status := .invalidParameter }

/-- R255: which operation can return which failure: `EFI_INVALID_PARAMETER` only the eFuse byte operations and the
three data operations, `EFI_OUT_OF_RESOURCES` only `NOR.SETUP`, `EFI_NOT_FOUND` only `NOR.INIT`, `EFI_TIMEOUT` only
an operation of column T with a budget of one of its waits set. The table has no FRAME, MODE, ADDR or TRAN row: that a
FRAME row is one transaction and may time out with its budget (log 15), and that a register row has no wait and no
status (log 16), is the model's and not the rule's. -/
def Obligations.FailuresAreThoseOfTheTable : Prop :=
  ∀ (i : Instr) (s t : State), s.status = .success → exec i s = .next t →
    (t.status = .invalidParameter →
      (∃ b o c, i = .efuseRdb b o c) ∨ (∃ b o c d, i = .efuseWrb b o c d) ∨ (∃ b x y, i = .efuseInfo b x y) ∨
      (∃ d o l, i = .norRd d o l) ∨ (∃ d o l w, i = .norWr d o l w) ∨ ∃ d o l, i = .norEr d o l) ∧
    (t.status = .outOfResources → ∃ h, i = .norSetup h) ∧
    (t.status = .notFound → ∃ d, i = .norInit d) ∧
    (t.status = .timeout → i.waits.budgeted s.cfg = true)

/-! ## Engine E (40_efuse_primitives.md, 41_efuse_bytes.md)

Where a statement says what MODE holds it is the whole register: that the reserved bits stay 0 is the model's (log 7). -/

/-- R34, R132: the EMAC step: a pending read delivers the addressed word, a pending write makes the addressed bit 1 and
no other; either leaves the macro not busy, which the value read from MODE shows in whatever view is configured, MODE
idle in the default view (R38), the phase idle; without a command nothing happens. A word outside
the array faults (R94, log 20); on a controller whose `addressBits` is not legal nothing has a meaning (R8, U11). -/
def Obligations.MacroExecutesThePendingCommand : Prop :=
  ∀ (cfg : Config.Params) (u : EfuseUnit),
    (u.busy = false → emacStep cfg u = .ok u) ∧
    (u.busy = true → widthLegal u.ctl.addressBits = true → addrWord u.ctl.addressBits u.addr < u.words →
      Memory.wf Config.freshOtpByte u.otp = true →
      ∃ v, emacStep cfg u = .ok v ∧ v.busy = false ∧ v.mode = modeLeft cfg u.mode ∧ v.ephase = .idle ∧
        efuseReady cfg (eRead cfg .mode v) = true ∧ v.addr = u.addr ∧ v.ctl = u.ctl ∧
        (u.ephase = .cmdRead → v.otp = u.otp ∧ v.rdData = otpWord u.otp (addrWord u.ctl.addressBits u.addr)) ∧
        (u.ephase = .cmdWrite → ∀ o k, k < 8 → otpBit v.otp o k = (otpBit u.otp o k ||
          decide (8 * o + k = 32 * addrWord u.ctl.addressBits u.addr + addrBit u.ctl.addressBits u.addr)))) ∧
    (u.busy = true → widthLegal u.ctl.addressBits = true → u.words ≤ addrWord u.ctl.addressBits u.addr →
      emacStep cfg u = .error (.fault .otpRange)) ∧
    (u.busy = true → widthLegal u.ctl.addressBits = false → emacStep cfg u = .error (.refuse .badConfig))

/-- R38, R39, R101, R102, R130, R133, R134: on a controller whose `addressBits` is legal (R8) a write of MODE stores the
command; the read and write commands set the busy flag and the phase, the idle command only the phase. A write of ADDR
stores the composed address, in which the two fields are disjoint. Nothing else of the machine changes, the status
included (log 16). On another controller the four writes are refused (U11). -/
def Obligations.EfuseRegisterWritesTakeEffect : Prop :=
  ∀ (s : State) (bus w : Word) (k : BitVec 5) (u : EfuseUnit), s.efuse[bus.toNat]? = some u →
    (widthLegal u.ctl.addressBits = false →
      ∀ i ∈ [Instr.modeIdle bus, .modeRead bus, .modeWrite bus, .efuseAddr bus w k], exec i s = .refused .badConfig) ∧
    (widthLegal u.ctl.addressBits = true → u.busy = false →
      exec (.modeIdle bus) s = .next { s with efuse := (s.efuse.set bus.toNat
        { u with mode := s.cfg.mode.idle, ephase := .idle, trace := u.trace ++ [.write .mode s.cfg.mode.idle] }) } ∧
      exec (.modeRead bus) s = .next { s with efuse := (s.efuse.set bus.toNat
        { u with mode := s.cfg.mode.read, busy := true, ephase := .cmdRead,
                 trace := u.trace ++ [.write .mode s.cfg.mode.read] }) } ∧
      exec (.modeWrite bus) s = .next { s with efuse := (s.efuse.set bus.toNat
        { u with mode := s.cfg.mode.write, busy := true, ephase := .cmdWrite,
                 trace := u.trace ++ [.write .mode s.cfg.mode.write] }) } ∧
      (w.toNat < 2 ^ u.ctl.addressBits →
        ∃ a : Word, a = w ||| (k.setWidth 32 <<< u.ctl.addressBits) ∧
          a.toNat = w.toNat + 2 ^ u.ctl.addressBits * k.toNat ∧
          exec (.efuseAddr bus w k) s = .next { s with efuse := (s.efuse.set bus.toNat
            { u with addr := a, trace := u.trace ++ [.write .addr a] }) }))

/-- R285: ADDR and MODE may be written only while the macro is not busy; a write while it is busy is refused. -/
def Obligations.NoEfuseRegisterWriteWhileBusy : Prop :=
  ∀ (s : State) (bus w : Word) (k : BitVec 5) (u : EfuseUnit), s.efuse[bus.toNat]? = some u → u.busy = true →
    widthLegal u.ctl.addressBits = true →
    exec (.modeIdle bus) s = .refused .efuseBusy ∧ exec (.modeRead bus) s = .refused .efuseBusy ∧
      exec (.modeWrite bus) s = .refused .efuseBusy ∧
      (w.toNat < 2 ^ u.ctl.addressBits → exec (.efuseAddr bus w k) s = .refused .efuseBusy)

/-- R133, R138: `EFUSE.RDW` returns the word, leaves the array alone and makes the three register writes and the one
read of RD_DATA that its rule lists; nothing of the machine but this controller, the status and the result changes. -/
def Obligations.EfuseRdwReadsTheWord : Prop :=
  ∀ (s : State) (bus w : Word) (u : EfuseUnit), s.efuse[bus.toNat]? = some u → u.Ready s.cfg → u.Fair s.cfg →
      u.Inv s.cfg →
    w.toNat < u.words →
    ∃ v, exec (.efuseRdw bus w) s = .next { s with
        efuse := s.efuse.set bus.toNat v, status := .success, outWord := otpWord u.otp w.toNat } ∧
      u.Returned s.cfg v ∧ v.otp = u.otp ∧ v.addr = u.address w.toNat 0 ∧ v.rdData = otpWord u.otp w.toNat ∧
      v.mode = modeLeft s.cfg s.cfg.mode.read ∧
      v.trace = u.trace ++ wordTrace s.cfg u w.toNat

/-- R134, R138: `EFUSE.SETB` makes the one bit 1 and changes no other bit of the array, with the two register writes
its rule lists; RD_DATA is unspecified afterwards (R40), everything else of the machine but the status is as before. -/
def Obligations.EfuseSetbProgramsOneBit : Prop :=
  ∀ (s : State) (bus w : Word) (k : BitVec 5) (u : EfuseUnit), s.efuse[bus.toNat]? = some u → u.Ready s.cfg →
    u.Fair s.cfg → u.Inv s.cfg → w.toNat < u.words →
    ∃ v, exec (.efuseSetb bus w k) s = .next { s with efuse := s.efuse.set bus.toNat v, status := .success } ∧
      u.Returned s.cfg v ∧ v.addr = u.address w.toNat k.toNat ∧ v.mode = modeLeft s.cfg s.cfg.mode.write ∧
      v.trace = u.trace ++ [.write .addr (u.address w.toNat k.toNat), .write .mode s.cfg.mode.write] ∧
      ∀ o j, j < 8 → otpBit v.otp o j = (otpBit u.otp o j || decide (8 * o + j = 32 * w.toNat + k.toNat))

/-- R135, R138: `EFUSE.WRW` makes the word its OR with the value and changes no other byte of the array, with one bit
program per 1 of the value in ascending order; a value of 0 touches no register. -/
def Obligations.EfuseWrwOrsTheValue : Prop :=
  ∀ (s : State) (bus w value : Word) (u : EfuseUnit), s.efuse[bus.toNat]? = some u → u.Ready s.cfg → u.Fair s.cfg →
    u.Inv s.cfg → w.toNat < u.words →
    ∃ v, exec (.efuseWrw bus w value) s = .next { s with efuse := s.efuse.set bus.toNat v, status := .success } ∧
      u.Returned s.cfg v ∧ otpWord v.otp w.toNat = otpWord u.otp w.toNat ||| value ∧
      (∀ o, o / 4 ≠ w.toNat → otpByte v.otp o = otpByte u.otp o) ∧
      v.trace = u.trace ++ setTrace s.cfg u w.toNat value (List.range 32) ∧
      (value = 0#32 → v.addr = u.addr ∧ v.rdData = u.rdData)

/-- R137: a word read after a word write returns the old word OR the value. -/
def Obligations.EfuseWordReadAfterWrite : Prop :=
  ∀ (s : State) (bus w value : Word) (u : EfuseUnit), s.efuse[bus.toNat]? = some u → u.Ready s.cfg → u.Fair s.cfg →
    u.Inv s.cfg → w.toNat < u.words →
    ∃ t r, exec (.efuseWrw bus w value) s = .next t ∧ t.status = .success ∧ exec (.efuseRdw bus w) t = .next r ∧
      r.status = .success ∧ r.outWord = otpWord u.otp w.toNat ||| value ∧
      (otpWord u.otp w.toNat = 0#32 → r.outWord = value)

/-- R151, R156, R158: `EFUSE.RDB` returns the bytes of the range, whatever its alignment, with one word read per touched
word, and leaves the array alone. -/
def Obligations.EfuseRdbReturnsTheBytes : Prop :=
  ∀ (s : State) (bus off cnt : Word) (u : EfuseUnit), s.efuse[bus.toNat]? = some u → u.Ready s.cfg → u.Fair s.cfg →
    u.Inv s.cfg → off.toNat + cnt.toNat ≤ u.capacity →
    ∃ v, exec (.efuseRdb bus off cnt) s = .next { s with
        efuse := s.efuse.set bus.toNat v, status := .success,
        buf := (List.range cnt.toNat).map fun j => otpByte u.otp (off.toNat + j) } ∧
      u.Returned s.cfg v ∧ v.otp = u.otp ∧ v.trace = u.trace ++ readTrace s.cfg u (split off.toNat cnt.toNat) ∧
      (cnt = 0#32 → v.addr = u.addr ∧ v.rdData = u.rdData)

/-- R152, R156, R158: `EFUSE.WRB` makes every byte of the range its OR with the data and changes no other byte of the
array, with one word write per touched word and no read command. -/
def Obligations.EfuseWrbOrsTheBytes : Prop :=
  ∀ (s : State) (bus off cnt : Word) (data : List Byte) (u : EfuseUnit), s.efuse[bus.toNat]? = some u → u.Ready s.cfg →
    u.Fair s.cfg → u.Inv s.cfg → off.toNat + cnt.toNat ≤ u.capacity → data.length = cnt.toNat →
    ∃ v, exec (.efuseWrb bus off cnt data) s = .next { s with
        efuse := s.efuse.set bus.toNat v, status := .success, buf := data } ∧
      u.Returned s.cfg v ∧
      (∀ j (h : j < data.length), otpByte v.otp (off.toNat + j) = otpByte u.otp (off.toNat + j) ||| data[j]) ∧
      (∀ o, o < off.toNat ∨ off.toNat + cnt.toNat ≤ o → otpByte v.otp o = otpByte u.otp o) ∧
      v.trace = u.trace ++ writeTrace s.cfg u data (split off.toNat cnt.toNat) ∧
      (cnt = 0#32 → v.addr = u.addr ∧ v.rdData = u.rdData)

/-- R155: bytes written and read back are the data OR-ed with what was there; on a fresh array, the data itself. -/
def Obligations.EfuseByteRoundTrip : Prop :=
  ∀ (s : State) (bus off cnt : Word) (data : List Byte) (u : EfuseUnit), s.efuse[bus.toNat]? = some u → u.Ready s.cfg →
    u.Fair s.cfg → u.Inv s.cfg → off.toNat + cnt.toNat ≤ u.capacity → data.length = cnt.toNat →
    ∃ t r, exec (.efuseWrb bus off cnt data) s = .next t ∧ t.status = .success ∧
      exec (.efuseRdb bus off cnt) t = .next r ∧ r.status = .success ∧ r.buf.length = cnt.toNat ∧
      (∀ j (h : j < data.length) (h' : j < r.buf.length),
        r.buf[j] = data[j] ||| otpByte u.otp (off.toNat + j)) ∧
      ((∀ o, otpByte u.otp o = 0#8) → r.buf = data)

/-- R153: `EFUSE.INFO` returns the controller's record and the number of controllers where they are asked for; for a bus
that is not below that number it is invalid input and neither output is written. Nothing else changes. That it answers
also for a controller whose `addressBits` is not legal is the model's choice (log 40), and so is the width of the
number of controllers (log 39). -/
def Obligations.EfuseInfoReturnsTheRecord : Prop :=
  ∀ (s : State) (bus : Word) (wantInfo wantTotal : Bool),
    (∀ u, s.efuse[bus.toNat]? = some u → exec (.efuseInfo bus wantInfo wantTotal) s = .next { s with
      status := .success, outInfo := if wantInfo then some u.ctl else s.outInfo,
      outTotal := if wantTotal then some (BitVec.ofNat 32 s.efuse.length) else s.outTotal }) ∧
    (s.efuse.length ≤ bus.toNat →
      exec (.efuseInfo bus wantInfo wantTotal) s = .next { s with status := .invalidParameter })

/-- R154: a bus number that is not below the number of controllers is invalid input for the three byte operations, and
nothing but the status changes. -/
def Obligations.BusOutOfRangeIsInvalid : Prop :=
  ∀ (s : State) (bus off cnt : Word) (data : List Byte) (x y : Bool), s.efuse.length ≤ bus.toNat →
    data.length = cnt.toNat →
    exec (.efuseRdb bus off cnt) s = .next { s with status := .invalidParameter } ∧
      exec (.efuseWrb bus off cnt data) s = .next { s with status := .invalidParameter } ∧
      exec (.efuseInfo bus x y) s = .next { s with status := .invalidParameter }

/-- R131, R253, R256 (log 2, log 11): a macro that never becomes ready: with a budget the word read ends with
`EFI_TIMEOUT`, without one it never returns; either way the command stays pending and the array is as before. -/
def Obligations.UnreadyMacroTimesOutOrHangs : Prop :=
  ∀ (s : State) (bus w : Word) (u : EfuseUnit), s.efuse[bus.toNat]? = some u → u.Ready s.cfg → u.live = false →
    u.sched = [] → w.toNat < u.words →
    let stuck (v : EfuseUnit) : Prop :=
      v.busy = true ∧ v.mode = s.cfg.mode.read ∧ v.ephase = .cmdRead ∧ v.otp = u.otp ∧ v.ctl = u.ctl ∧
        v.addr = u.address w.toNat 0 ∧ v.rdData = u.rdData
    (∀ n, s.cfg.efuseWaitBudget = some n → ∃ v, stuck v ∧
      exec (.efuseRdw bus w) s = .next { s with efuse := s.efuse.set bus.toNat v, status := .timeout }) ∧
    (s.cfg.efuseWaitBudget = none → ∃ v, stuck v ∧
      exec (.efuseRdw bus w) s = .next { s with
        efuse := s.efuse.set bus.toNat v, host := .spinning (.efuse bus.toNat) })

/-! ## Engine S (42_spi_transaction.md) -/

/-- R41, R84, R107, R108, R174: each class of TRAN_CSR word is stored; with `GO_BUSY` SHIFT has the command byte, the
address bytes and, where the class transmits, `TRAN_NUM` bytes to send, and `TRAN_NUM` bytes to receive where it
receives. Nothing else of the machine changes, the phase and the status included (log 16). For a `TRAN_NUM` outside
the range R107 gives the class (0 or above 3 in REGRD, above 3 in REGWR, 0 in a data class, not 0 in ERASE) the spec is
silent: that SHIFT takes `TRAN_NUM` as it stands there is the model's choice (log 16). The controller is in the phase
`S_IDLE`; in another the write is refused (TimedOutControllerNeedsSetup). -/
def Obligations.TranWritesArmShift : Prop :=
  ∀ (s : State) (dev : Word) (go : Bool) (u : SpiUnit), s.spi[dev.toNat]? = some u →
    goBusy s.cfg u.ctl.tranCsr = false →
    u.ctl.sphase = .idle →
    exec (.tranRegrd dev go) s = .next { s with spi := (s.spi.set dev.toNat
      (u.tranWritten (tranWord s.cfg .regrd 0#3 go) go (freshXfer .regrd 1 u.ctl.tranNum.toNat))) } ∧
    exec (.tranRegwr dev go) s = .next { s with spi := (s.spi.set dev.toNat
      (u.tranWritten (tranWord s.cfg .regwr 0#3 go) go (freshXfer .regwr (1 + u.ctl.tranNum.toNat) 0))) } ∧
    ∀ n : BitVec 3, n = 3#3 ∨ n = 4#3 →
      exec (.tranDatard dev go n) s = .next { s with spi := (s.spi.set dev.toNat
        (u.tranWritten (tranWord s.cfg .datard n go) go (freshXfer .datard (1 + n.toNat) u.ctl.tranNum.toNat))) } ∧
      exec (.tranDatawr dev go n) s = .next { s with spi := (s.spi.set dev.toNat
        (u.tranWritten (tranWord s.cfg .datawr n go) go (freshXfer .datawr (1 + n.toNat + u.ctl.tranNum.toNat) 0))) } ∧
      exec (.tranErase dev go n) s = .next { s with spi := (s.spi.set dev.toNat
        (u.tranWritten (tranWord s.cfg .erase n go) go (freshXfer .erase (1 + n.toNat) 0))) }

/-- R41: writing TRAN_CSR while `GO_BUSY` is 1 has no meaning. -/
def Obligations.TranWriteWhileBusyIsRefused : Prop :=
  ∀ (s : State) (dev : Word) (go : Bool) (n : BitVec 3) (u : SpiUnit), s.spi[dev.toNat]? = some u →
    goBusy s.cfg u.ctl.tranCsr = true →
    exec (.tranRegrd dev go) s = .refused .tranBusy ∧ exec (.tranRegwr dev go) s = .refused .tranBusy ∧
      exec (.tranDatard dev go n) s = .refused .tranBusy ∧ exec (.tranDatawr dev go n) s = .refused .tranBusy ∧
      exec (.tranErase dev go n) s = .refused .tranBusy

/-- R184: whatever the schedule, a completed transaction delivers to the part exactly the command byte, the address
bytes most significant first and the payload, and returns exactly the bytes the part answered, in order; the controller
is idle again with an empty FIFO. -/
def Obligations.TransactionRecord : Prop :=
  ∀ (cfg : Config.Params) (d : Txn) (u v : SpiUnit) (rx : List Byte), d.Legal cfg → transact cfg d u = .ok rx v →
    rx.length = d.rxLen ∧ v.frames = u.frames ++ [⟨d.cmd :: (d.addrBytes ++ d.tx), rx⟩] ∧
      v.ctl.sphase = .idle ∧ v.ctl.fifo = [] ∧ goBusy cfg v.ctl.tranCsr = false ∧ v.ctl.xfer = none ∧
      v.ctl.tranCsr = d.word cfg false ∧ v.ctl.tranNum = BitVec.ofNat 32 (d.tx.length + d.rxLen) ∧
      v.board = u.board ∧ v.record = u.record

/-- R170, R175, R185, R222, R256: on a controller that is not idle every transaction is refused, and outside the phase
`S_IDLE` every write of TRAN_CSR too, until `NOR.SETUP` with the existing handle resets it. A transaction raises nothing
but `EFI_TIMEOUT`, with a budget, and leaves the controller in WAIT, not idle. A transaction whose SHIFT never steps
times out with a budget and never returns without one (log 2, log 11). That a FRAME row (here WREN and RDSR) is such a
transaction is the model's choice (log 15), and the refusal of a TRAN row outside `S_IDLE` its inference (log 16). -/
def Obligations.TimedOutControllerNeedsSetup : Prop :=
  ∀ (s : State) (h : Word) (u : SpiUnit), s.spi[h.toNat]? = some u →
    (u.idle s.cfg = false →
      (∀ d, transact s.cfg d u = .stop (.refuse .controllerNotIdle)) ∧
      exec (.wren h) s = .refused .controllerNotIdle ∧ exec (.rdsr h) s = .refused .controllerNotIdle ∧
      (u.record ≠ none → exec (.norGetid h) s = .refused .controllerNotIdle ∧
        ∃ t v, exec (.norSetup (some h)) s = .next t ∧ t.spi[h.toNat]? = some v ∧ v.idle s.cfg = true ∧
          v.record = u.record)) ∧
    (u.ctl.sphase ≠ .idle → goBusy s.cfg u.ctl.tranCsr = false → ∀ (go : Bool) (n : BitVec 3), n = 3#3 ∨ n = 4#3 →
      ∀ i ∈ [Instr.tranRegrd h go, .tranRegwr h go, .tranDatard h go n, .tranDatawr h go n, .tranErase h go n],
        exec i s = .refused .controllerNotIdle) ∧
    (∀ d st v, transact s.cfg d u = .raised st v →
      st = .timeout ∧ s.cfg.spiWaitBudget.isSome = true ∧ v.ctl.sphase = .wait ∧ v.idle s.cfg = false) ∧
    (u.idle s.cfg = true → u.live.shift = false → u.sched = [] → 8 ≤ s.cfg.fifoDepth →
      let stuck (v : SpiUnit) : Prop :=
        v.ctl.sphase = .wait ∧ v.idle s.cfg = false ∧ goBusy s.cfg v.ctl.tranCsr = true ∧
        v.ctl.fifo = [s.cfg.op .wren] ∧ v.frames = u.frames ∧ v.record = u.record ∧ Settles s.cfg u.part v.part
      (∀ n, s.cfg.spiWaitBudget = some n → ∃ v, stuck v ∧
        exec (.wren h) s = .next { s with spi := s.spi.set h.toNat v, status := .timeout }) ∧
      (s.cfg.spiWaitBudget = none → ∃ v, stuck v ∧
        exec (.wren h) s = .next { s with spi := s.spi.set h.toNat v, host := .spinning (.spi h.toNat) }))

/-- R179, R200, R201: `SPI.RDREG` of the ID (1 to 3 bytes) and of the status register on a ready part returns the bytes
the part answers and leaves the part as it is; `NOR.GETID` is the 3-byte ID read. With a command of the class REGWR,
for which R179 states nothing, the bytes returned are free, and so is what WRSR writes; the frame takes the command's
effect (R202 to R205, R209; log 43, log 36). -/
def Obligations.SpiRdregAndNorGetidReadRegisters : Prop :=
  ∀ (s : State) (dev : Word) (n : BitVec 2) (u : SpiUnit) (r : NorDevice), s.spi[dev.toNat]? = some u →
    u.record = some r → u.Available s.cfg → u.PartReady s.cfg → n ≠ 0#2 →
    let id3 := [u.board.jedecId.b0, u.board.jedecId.b1, u.board.jedecId.b2]
    let id := id3.take n.toNat
    let sr := List.replicate n.toNat u.part.sr
    (∃ v, exec (.spiRdreg dev (s.cfg.op .rdid) n) s = .next { s with
        spi := s.spi.set dev.toNat v, status := .success, buf := id } ∧
      u.Returned s.cfg v [⟨[s.cfg.op .rdid], id⟩] ∧ v.part = u.part ∧
      v.ctl = (registerTxn s.cfg .rdid [] n.toNat).doneCtl s.cfg) ∧
    (∃ v, exec (.spiRdreg dev (s.cfg.op .rdsr) n) s = .next { s with
        spi := s.spi.set dev.toNat v, status := .success, buf := sr } ∧
      u.Returned s.cfg v [⟨[s.cfg.op .rdsr], sr⟩] ∧ v.part = u.part ∧
          v.ctl = (registerTxn s.cfg .rdsr [] n.toNat).doneCtl s.cfg) ∧
    (∃ v, exec (.norGetid dev) s = .next { s with
        spi := s.spi.set dev.toNat v, status := .success, buf := id3 } ∧
      u.Returned s.cfg v [⟨[s.cfg.op .rdid], id3⟩] ∧ v.part = u.part ∧
        v.ctl = (registerTxn s.cfg .rdid [] 3).doneCtl s.cfg) ∧
    let drawn : Part := { u.part with draws := u.part.draws + n.toNat }
    let does (c : NorCmd) (q : Part) : Prop :=
      ∃ v rx, rx.length = n.toNat ∧ exec (.spiRdreg dev (s.cfg.op c) n) s = .next { s with
          spi := s.spi.set dev.toNat v, status := .success, buf := rx } ∧
        u.Returned s.cfg v [⟨[s.cfg.op c], rx⟩] ∧ Settles s.cfg q v.part ∧
        v.ctl = (⟨.regrd, s.cfg.op c, none, 0, [], n.toNat⟩ : Txn).doneCtl s.cfg
    does .wren { drawn with sr := setWel s.cfg u.part.sr } ∧ does .wrdi { drawn with sr := clearWel s.cfg u.part.sr } ∧
      does .en4b { drawn with mode4B := true } ∧
      does .ce (if wel s.cfg u.part.sr then partStart s.cfg drawn .eraseAll else drawn) ∧
      ∃ y : Byte, does .wrsr (if wel s.cfg u.part.sr then partStart s.cfg drawn.drawn (.statusWrite y) else drawn)

/-- R180, R202 to R205, R209: `SPI.WRREG` of each register-write command on a ready part: the latch set or cleared, the
4-byte mode entered, the status write or chip erase started if the part is write-enabled and ignored if it is not (log
13). With a payload R180 allows and the command does not have, whether the command takes effect or does nothing is a
free value `b`, and what WRSR writes a free value `y`; everything else is as without it (log 36). A command of another
class, for which R180 states nothing, is framed with its payload and the part executes the frame: RDID and RDSR do
nothing (R212), and any other does what the part makes of these bytes (log 43). -/
def Obligations.SpiWrregWritesRegisters : Prop :=
  ∀ (s : State) (dev : Word) (x : Byte) (u : SpiUnit) (r : NorDevice), s.spi[dev.toNat]? = some u →
    u.record = some r → u.Available s.cfg → u.PartReady s.cfg →
    let does (c : NorCmd) (n : BitVec 2) (payload : List Byte) (q : Part) : Prop :=
      ∃ v, exec (.spiWrreg dev (s.cfg.op c) n payload) s = .next { s with
          spi := s.spi.set dev.toNat v, status := .success, buf := payload } ∧
        u.Returned s.cfg v [⟨s.cfg.op c :: payload, []⟩] ∧ Settles s.cfg q v.part ∧
        v.ctl = (⟨.regwr, s.cfg.op c, none, 0, payload, 0⟩ : Txn).doneCtl s.cfg
    does .wren 0#2 [] { u.part with sr := setWel s.cfg u.part.sr } ∧
      does .wrdi 0#2 [] { u.part with sr := clearWel s.cfg u.part.sr } ∧
      does .en4b 0#2 [] { u.part with mode4B := true } ∧
      does .wrsr 1#2 [x] (if wel s.cfg u.part.sr then partStart s.cfg u.part (.statusWrite x) else u.part) ∧
      does .ce 0#2 [] (if wel s.cfg u.part.sr then partStart s.cfg u.part .eraseAll else u.part) ∧
      ∀ (n : BitVec 2) (payload : List Byte), payload.length = n.toNat →
        let drawn : Part := { u.part with draws := u.part.draws + 1 }
        (payload ≠ [] → ∃ b : Bool,
          does .wren n payload (if b then { drawn with sr := setWel s.cfg u.part.sr } else drawn) ∧
          does .wrdi n payload (if b then { drawn with sr := clearWel s.cfg u.part.sr } else drawn) ∧
          does .en4b n payload (if b then { drawn with mode4B := true } else drawn) ∧
          does .ce n payload (if b && wel s.cfg u.part.sr then partStart s.cfg drawn .eraseAll else drawn)) ∧
        (payload.length ≠ 1 → ∃ y : Byte,
          does .wrsr n payload (if wel s.cfg u.part.sr then partStart s.cfg drawn (.statusWrite y) else u.part)) ∧
        does .rdid n payload u.part ∧ does .rdsr n payload u.part ∧
        ∀ c q, partExecute s.cfg u.board u.part (s.cfg.op c :: payload) = .ok q → does c n payload q

/-- R181, R206: `SPI.XRD` inside one page returns the bytes of the flash and leaves the part as it is; the record need
only be resolved (log 31). With a length of 0, below the rule's bound, nothing is received (log 45). -/
def Obligations.SpiXrdReadsOnePage : Prop :=
  ∀ (s : State) (dev addr len : Word) (u : SpiUnit) (info : Config.FlashInfo), s.spi[dev.toNat]? = some u →
    u.Resolves s.cfg info → u.Available s.cfg → u.PartReady s.cfg →
    len.toNat ≤ info.pageSize - addr.toNat % info.pageSize →
    flashFits u.board.flashSize (resolve s.cfg info).addressByteCount addr.toNat (max len.toNat 1) = true →
    let g := resolve s.cfg info
    let rx := (List.range len.toNat).map fun j => flashRead s.cfg u.part.flash (addr.toNat + j)
    ∃ v, exec (.spiXrd dev addr len) s = .next { s with
        spi := s.spi.set dev.toNat v, status := .success, buf := rx } ∧
      u.Returned s.cfg v [⟨g.readOpcode :: addrBytes addr g.addressByteCount, rx⟩] ∧ v.part = u.part ∧
      v.ctl.tranNum = len

/-- R182, R207, R213: `SPI.XPP` inside one page frames the program; the part starts it if it is write-enabled and
ignores it if it is not (log 13); the record need only be resolved (log 31). With a length of 0, below the rule's bound,
whether the part starts a program of no byte or does nothing is free (log 45). -/
def Obligations.SpiXppStartsAProgram : Prop :=
  ∀ (s : State) (dev addr len : Word) (data : List Byte) (u : SpiUnit) (info : Config.FlashInfo),
    s.spi[dev.toNat]? = some u → u.Resolves s.cfg info → u.Available s.cfg → u.PartReady s.cfg →
    data.length = len.toNat → len.toNat ≤ info.pageSize - addr.toNat % info.pageSize →
    flashFits u.board.flashSize (resolve s.cfg info).addressByteCount addr.toNat (max len.toNat 1) = true →
    FifoRoom s.cfg (1 + (resolve s.cfg info).addressByteCount + len.toNat) →
    let g := resolve s.cfg info
    ∃ v, exec (.spiXpp dev addr len data) s = .next { s with
        spi := s.spi.set dev.toNat v, status := .success, buf := data } ∧
      u.Returned s.cfg v [⟨g.programOpcode :: (addrBytes addr g.addressByteCount ++ data), []⟩] ∧
      ProgramTaken s.cfg u.part info.pageSize addr.toNat data v.part ∧ v.ctl.tranNum = len

/-- R183, R208, R213: `SPI.XER` at any address of a unit in FLASH frames the erase at that address; the part starts it
if it is write-enabled and ignores it if it is not (log 13); the record need only be resolved (log 31). At an address
that is no multiple of the unit, where the rules state no unit but one "holding `addr`", where it starts is free (log
44). -/
def Obligations.SpiXerStartsAnErase : Prop :=
  ∀ (s : State) (dev addr : Word) (u : SpiUnit) (info : Config.FlashInfo), s.spi[dev.toNat]? = some u →
    u.Resolves s.cfg info → u.Available s.cfg → u.PartReady s.cfg →
    flashFits u.board.flashSize (resolve s.cfg info).addressByteCount
      (alignDown (resolve s.cfg info).granularity addr.toNat) (resolve s.cfg info).granularity = true →
    let g := resolve s.cfg info
    ∃ v, exec (.spiXer dev addr) s = .next { s with spi := s.spi.set dev.toNat v, status := .success } ∧
      u.Returned s.cfg v [⟨g.eraseOpcode :: addrBytes addr g.addressByteCount, []⟩] ∧
      EraseTaken s.cfg u.part g.granularity addr.toNat v.part ∧
      v.ctl.tranNum = 0#32

/-- R90, R210, R253, R256: wait-ready returns after status reads only, and what the part was executing is then complete.
On a part that never completes it times out with a budget, the controller idle again and the part as it was (R260), and
never returns without one (log 2, log 11). -/
def Obligations.NorWaitrdyWaitsForThePart : Prop :=
  ∀ (s : State) (dev : Word) (u : SpiUnit) (r : NorDevice), s.spi[dev.toNat]? = some u → u.record = some r →
    (u.Available s.cfg →
      ∃ v fs, exec (.norWaitrdy dev) s = .next { s with spi := s.spi.set dev.toNat v, status := .success } ∧
        u.Returned s.cfg v fs ∧ fs ≠ [] ∧ (∀ f ∈ fs, f.out = [s.cfg.op .rdsr]) ∧ v.part = partStep s.cfg u.part ∧
        wip s.cfg v.part.sr = false ∧ v.ctl = (registerTxn s.cfg .rdsr [] 1).doneCtl s.cfg) ∧
    (u.idle s.cfg = true → u.live = ⟨true, false⟩ → u.sched = [] → u.part.cut = false → 8 ≤ s.cfg.fifoDepth →
      wip s.cfg u.part.sr = true →
      let waited (v : SpiUnit) : Prop := v.idle s.cfg = true ∧ v.part = u.part ∧ v.record = u.record ∧
        ∃ fs, v.frames = u.frames ++ fs ∧ fs ≠ [] ∧ ∀ f ∈ fs, f = ⟨[s.cfg.op .rdsr], [u.part.sr]⟩
      (∀ n, s.cfg.readyPollBudget = some n → ∃ v, waited v ∧
        exec (.norWaitrdy dev) s = .next { s with spi := s.spi.set dev.toNat v, status := .timeout }) ∧
      (s.cfg.readyPollBudget = none → ∃ v, waited v ∧
        exec (.norWaitrdy dev) s = .next { s with
          spi := s.spi.set dev.toNat v, host := .spinning (.flashReady dev.toNat) }))

/-! ## NOR commands (43_nor_commands.md)

That a row of the FRAME format is one transaction carrying that frame, with BUF as its data, is the model's (log 15,
log 22). -/

/-- R200, R201: the frame `9F` on a ready part answers the ID and leaves the part as it is. The frame `05` is legal also
while the part is busy: it answers the status register as it is when the byte is clocked out, before or after the
part's own step, and changes nothing else of the part. -/
def Obligations.RdidAndRdsrFrames : Prop :=
  ∀ (s : State) (dev : Word) (u : SpiUnit), s.spi[dev.toNat]? = some u → u.Available s.cfg →
    let id := [u.board.jedecId.b0, u.board.jedecId.b1, u.board.jedecId.b2]
    (u.PartReady s.cfg →
      ∃ v, exec (.rdid dev) s = .next { s with spi := s.spi.set dev.toNat v, status := .success, buf := id } ∧
        u.Returned s.cfg v [⟨[s.cfg.op .rdid], id⟩] ∧ v.part = u.part ∧
            v.ctl = (registerTxn s.cfg .rdid [] 3).doneCtl s.cfg) ∧
    ∃ b v, exec (.rdsr dev) s = .next { s with spi := s.spi.set dev.toNat v, status := .success, buf := [b] } ∧
      u.Returned s.cfg v [⟨[s.cfg.op .rdsr], [b]⟩] ∧ v.ctl = (registerTxn s.cfg .rdsr [] 1).doneCtl s.cfg ∧
      (b = u.part.sr ∧ Settles s.cfg u.part v.part ∨ b = (partStep s.cfg u.part).sr ∧ v.part = partStep s.cfg u.part)

/-- R203 to R205: the frames `06`, `04` and `B7` on a ready part set the latch, clear it, and enter 4-byte mode. -/
def Obligations.LatchAndModeFrames : Prop :=
  ∀ (s : State) (dev : Word) (u : SpiUnit), s.spi[dev.toNat]? = some u → u.Available s.cfg → u.PartReady s.cfg →
    let does (i : Instr) (c : NorCmd) (q : Part) : Prop :=
      ∃ v, exec i s = .next { s with spi := s.spi.set dev.toNat v, status := .success } ∧
        u.Returned s.cfg v [⟨[s.cfg.op c], []⟩] ∧ v.part = q ∧ v.ctl = (registerTxn s.cfg c [] 0).doneCtl s.cfg
    does (.wren dev) .wren { u.part with sr := setWel s.cfg u.part.sr } ∧
      does (.wrdi dev) .wrdi { u.part with sr := clearWel s.cfg u.part.sr } ∧
      does (.en4b dev) .en4b { u.part with mode4B := true }

/-- R202, R209, R213: the frames `01 v` and `C7` on a ready part: started if it is write-enabled, ignored if not
(log 13). -/
def Obligations.StatusWriteAndChipEraseFrames : Prop :=
  ∀ (s : State) (dev : Word) (x : Byte) (u : SpiUnit), s.spi[dev.toNat]? = some u → u.Available s.cfg →
      u.PartReady s.cfg →
    (∃ v, exec (.wrsr dev x) s = .next { s with spi := s.spi.set dev.toNat v, status := .success, buf := [x] } ∧
      u.Returned s.cfg v [⟨[s.cfg.op .wrsr, x], []⟩] ∧ v.ctl = (registerTxn s.cfg .wrsr [x] 0).doneCtl s.cfg ∧
      Settles s.cfg (if wel s.cfg u.part.sr then partStart s.cfg u.part (.statusWrite x) else u.part) v.part) ∧
    ∃ v, exec (.ce dev) s = .next { s with spi := s.spi.set dev.toNat v, status := .success } ∧
      u.Returned s.cfg v [⟨[s.cfg.op .ce], []⟩] ∧ v.ctl = (registerTxn s.cfg .ce [] 0).doneCtl s.cfg ∧
      Settles s.cfg (if wel s.cfg u.part.sr then partStart s.cfg u.part .eraseAll else u.part) v.part

/-- R206: the frames `03` (3 address bytes, base mode) and `13` (4 address bytes, 4-byte mode) return the bytes of the
flash from the address on and leave the part as it is. With a length of 0, below R113's bound, nothing is received (log
45). -/
def Obligations.ReadFrames : Prop :=
  ∀ (s : State) (dev len : Word) (a3 : BitVec 24) (a4 : BitVec 32) (u : SpiUnit), s.spi[dev.toNat]? = some u →
    u.Available s.cfg → u.PartReady s.cfg →
    let rx (a : Nat) := (List.range len.toNat).map fun j => flashRead s.cfg u.part.flash (a + j)
    (u.part.mode4B = false → (len ≠ 0#32 → a3.toNat + len.toNat ≤ u.board.flashSize) →
      ∃ v, exec (.read dev a3 len) s = .next { s with
          spi := s.spi.set dev.toNat v, status := .success, buf := rx a3.toNat } ∧
        u.Returned s.cfg v [⟨s.cfg.op .read :: addrBytes3 a3, rx a3.toNat⟩] ∧ v.part = u.part ∧ v.ctl.tranNum = len) ∧
    (u.part.mode4B = true → (len ≠ 0#32 → a4.toNat + len.toNat ≤ u.board.flashSize) →
      ∃ v, exec (.read4b dev a4 len) s = .next { s with
          spi := s.spi.set dev.toNat v, status := .success, buf := rx a4.toNat } ∧
        u.Returned s.cfg v [⟨s.cfg.op .read4b :: addrBytes4 a4, rx a4.toNat⟩] ∧ v.part = u.part ∧ v.ctl.tranNum = len)

/-- R207, R213: the frames `02` and `12`, inside FLASH: started if the part is write-enabled, ignored if not (log 13).
"What a part does with data that runs past the page end is not in the source": what is then written is free (log 46).
Without data, below R113's bound, whether a program of no byte starts is free (log 45). Where the geometry table has no
entry for the part, the page has a free size (log 21). -/
def Obligations.PageProgramFrames : Prop :=
  ∀ (s : State) (dev : Word) (a3 : BitVec 24) (a4 : BitVec 32) (data : List Byte) (u : SpiUnit),
    s.spi[dev.toNat]? = some u → u.Available s.cfg → u.PartReady s.cfg → data.length < 2 ^ 32 →
    let does (i : Instr) (c : NorCmd) (addr : List Byte) (a page : Nat) : Prop :=
      ∃ v, exec i s = .next { s with spi := s.spi.set dev.toNat v, status := .success, buf := data } ∧
        u.Returned s.cfg v [⟨s.cfg.op c :: (addr ++ data), []⟩] ∧ ProgramTaken s.cfg u.part page a data v.part ∧
        v.ctl.tranNum = BitVec.ofNat 32 data.length
    let program (i : Instr) (c : NorCmd) (addr : List Byte) (a : Nat) : Prop :=
      FifoRoom s.cfg (1 + addr.length + data.length) → (data ≠ [] → a + data.length ≤ u.board.flashSize) →
        (∀ info, Config.norFlashGetInfo s.cfg u.board.jedecId = some info → 0 < info.pageSize →
          does i c addr a info.pageSize) ∧
        (Config.norFlashGetInfo s.cfg u.board.jedecId = none → ∃ page, 0 < page ∧ does i c addr a page)
    (u.part.mode4B = false → program (.pp dev a3 data) .pp (addrBytes3 a3) a3.toNat) ∧
      (u.part.mode4B = true → program (.pp4b dev a4 data) .pp4b (addrBytes4 a4) a4.toNat)

/-- R208, R213: the frames `20`, `21` (4 KB) and `D8`, `DC` (native sector of the part's geometry) at any address of a
unit in FLASH: started if the part is write-enabled, ignored if not (log 13). At an address that is no multiple of the
unit, where it starts is free (log 44). Where the geometry table has no entry for the part, the sector has a free size
(log 21). -/
def Obligations.EraseFrames : Prop :=
  ∀ (s : State) (dev : Word) (a3 : BitVec 24) (a4 : BitVec 32) (u : SpiUnit), s.spi[dev.toNat]? = some u →
    u.Available s.cfg → u.PartReady s.cfg →
    let does (i : Instr) (c : NorCmd) (addr : List Byte) (a n : Nat) : Prop :=
      ∃ v, exec i s = .next { s with spi := s.spi.set dev.toNat v, status := .success } ∧
        u.Returned s.cfg v [⟨s.cfg.op c :: addr, []⟩] ∧ EraseTaken s.cfg u.part n a v.part
    let block (i : Instr) (c : NorCmd) (addr : List Byte) (a n : Nat) : Prop :=
      0 < n → alignDown n a + n ≤ u.board.flashSize → does i c addr a n
    let sector (i : Instr) (c : NorCmd) (addr : List Byte) (a : Nat) : Prop :=
      (∀ info, Config.norFlashGetInfo s.cfg u.board.jedecId = some info → block i c addr a info.sectorSize) ∧
      (Config.norFlashGetInfo s.cfg u.board.jedecId = none → a < u.board.flashSize →
        ∃ n, 0 < n ∧ does i c addr a n)
    (u.part.mode4B = false →
      block (.be4k dev a3) .be4k (addrBytes3 a3) a3.toNat 4096 ∧
      sector (.se dev a3) .se (addrBytes3 a3) a3.toNat) ∧
    (u.part.mode4B = true →
      block (.be4k4b dev a4) .be4k4b (addrBytes4 a4) a4.toNat 4096 ∧
      sector (.se4b dev a4) .se4b (addrBytes4 a4) a4.toNat)

/-- R212, R217, R289: what the part refuses: an address length that does not match the command, an address-taking
command whose address length is not that of the part's mode, a data read while `WIP` is 1, and any other command but
RDSR while `WIP` is 1. -/
def Obligations.PartRefusesMismatchedFrames : Prop :=
  ∀ (cfg : Config.Params) (board : Config.SpiBoard) (p : Part) (args data : List Byte) (i : Nat), p.cut = false →
    let reads (c : NorCmd) (x : Refusal) : Prop := partReadByte cfg board p (cfg.op c :: args) i = .error (.refuse x)
    let executes (c : NorCmd) (bytes : List Byte) (x : Refusal) : Prop :=
      partExecute cfg board p (cfg.op c :: bytes) = .error (.refuse x)
    (∀ c, args.length ≠ c.addrLen → reads c .addressLength) ∧
    (args.length ≠ 3 → executes .be4k args .addressLength ∧ executes .se args .addressLength) ∧
    (args.length ≠ 4 → executes .be4k4b args .addressLength ∧ executes .se4b args .addressLength) ∧
    (args.length < 3 → executes .pp args .addressLength ∧ executes .read args .addressLength) ∧
    (args.length < 4 → executes .pp4b args .addressLength ∧ executes .read4b args .addressLength) ∧
    (args.length = 3 → p.mode4B = true →
      (∀ c ∈ [NorCmd.read, .pp, .be4k, .se], reads c .addressMode ∧ executes c args .addressMode) ∧
      executes .pp (args ++ data) .addressMode ∧ executes .read (args ++ data) .addressMode) ∧
    (args.length = 4 → p.mode4B = false →
      (∀ c ∈ [NorCmd.read4b, .pp4b, .be4k4b, .se4b], reads c .addressMode ∧ executes c args .addressMode) ∧
      executes .pp4b (args ++ data) .addressMode ∧ executes .read4b (args ++ data) .addressMode) ∧
    (wip cfg p.sr = true →
      (args.length = 3 → p.mode4B = false →
        (∀ c ∈ [NorCmd.read, .pp, .be4k, .se], reads c .partBusy ∧ executes c args .partBusy) ∧
        executes .pp (args ++ data) .partBusy ∧ executes .read (args ++ data) .partBusy) ∧
      (args.length = 4 → p.mode4B = true →
        (∀ c ∈ [NorCmd.read4b, .pp4b, .be4k4b, .se4b], reads c .partBusy ∧ executes c args .partBusy) ∧
        executes .pp4b (args ++ data) .partBusy ∧ executes .read4b (args ++ data) .partBusy) ∧
      (args = [] → ∀ c ∈ [NorCmd.rdid, .wren, .wrdi, .en4b, .wrsr, .ce], reads c .partBusy) ∧
      ∀ c ∈ [NorCmd.rdid, .wren, .wrdi, .en4b, .wrsr, .ce], executes c args .partBusy)

/-- R214, R215, R216: the part's completion step: nothing while `WIP` is 0; else what is pending is applied to the array
or the status bits, `WIP` and `WEL` are cleared and nothing is pending. -/
def Obligations.PartCompletesWhatIsPending : Prop :=
  ∀ (cfg : Config.Params) (p : Part), let q := partStep cfg p
    (wip cfg p.sr = false → q = p) ∧
    (wip cfg p.sr = true → Memory.wf cfg.erasedByte p.flash = true →
      wip cfg q.sr = false ∧ wel cfg q.sr = false ∧ q.pending = none ∧ q.mode4B = p.mode4B ∧
      (∀ a data, p.pending = some (.program a data) → q.sr = p.sr &&& ~~~cfg.srMask ∧
        ∀ x, flashRead cfg q.flash x = if h : a ≤ x ∧ x - a < data.length
          then flashRead cfg p.flash x &&& data[x - a]'h.2 else flashRead cfg p.flash x) ∧
      (∀ a u, p.pending = some (.eraseUnit a u) → q.sr = p.sr &&& ~~~cfg.srMask ∧
        ∀ x, flashRead cfg q.flash x = if a ≤ x ∧ x < a + u then cfg.erasedByte else flashRead cfg p.flash x) ∧
      (p.pending = some .eraseAll → q.sr = p.sr &&& ~~~cfg.srMask ∧
        ∀ x, flashRead cfg q.flash x = cfg.erasedByte) ∧
      ∀ v, p.pending = some (.statusWrite v) → q.flash = p.flash ∧ q.sr = v &&& ~~~cfg.srMask)

/-- R106, R211, R227: the five resolved fields of a device record, and the erase granularity they give; R12: the bytes
the opcodes are with the defaults. -/
def Obligations.SelectOpcodes : Prop :=
  ∀ (cfg : Config.Params) (info : Config.FlashInfo), let g := resolve cfg info
    g.addressByteCount = (if info.flag4B then 4 else 3) ∧
    g.readOpcode = cfg.op (if info.flag4B then .read4b else .read) ∧
    g.programOpcode = cfg.op (if info.flag4B then .pp4b else .pp) ∧
    g.eraseOpcode = cfg.op (if info.flagErase4K then (if info.flag4B then .be4k4b else .be4k)
      else (if info.flag4B then .se4b else .se)) ∧
    g.granularity = (if info.flagErase4K then 4096 else info.sectorSize) ∧
    NorCmd.all.map defaultParams.op = [0x9F#8, 0x05#8, 0x01#8, 0x06#8, 0x04#8, 0xB7#8, 0x03#8, 0x13#8, 0x02#8, 0x12#8,
      0x20#8, 0x21#8, 0xD8#8, 0xDC#8, 0xC7#8]

/-! ## NOR host operations (44_nor_operations.md) -/

/-- R221, R222, R252 (log 18): `NOR.SETUP`: a present record is reused as it is; else a free index gets a fresh record,
unless the allocation fails; the controller is reset where a handle is returned, and nothing but the status and the
environment's draws changes where none is. With no draw left the first free index is taken; a full table cannot
allocate. -/
def Obligations.NorSetupReusesOrAllocates : Prop :=
  ∀ (s : State) (handle : Option Word),
    (∀ h u, handle = some h → s.spi[h.toNat]? = some u → u.record ≠ none →
      exec (.norSetup handle) s = .next { s with
        spi := s.spi.set h.toNat (resetController u), outDev := h, status := .success }) ∧
    ((∀ h u, handle = some h → s.spi[h.toNat]? = some u → u.record = none) →
      (∀ k rest i u, s.allocs = .pick k :: rest → (freeIndices s.spi)[k % (freeIndices s.spi).length]? = some i →
        s.spi[i]? = some u →
        u.record = none ∧ exec (.norSetup handle) s = .next { s with
          allocs := rest, outDev := BitVec.ofNat 32 i, status := .success,
          spi := (s.spi.set i (resetController { u with record := (some
            { baseAddress := u.board.baseAddress, resolved := none, bounceBuffer := s.cfg.bounceSize,
              inited := false }) })) }) ∧
      (∀ i u, s.allocs = [] → (freeIndices s.spi).head? = some i → s.spi[i]? = some u →
        u.record = none ∧ exec (.norSetup handle) s = .next { s with
          outDev := BitVec.ofNat 32 i, status := .success,
          spi := (s.spi.set i (resetController { u with record := (some
            { baseAddress := u.board.baseAddress, resolved := none, bounceBuffer := s.cfg.bounceSize,
              inited := false }) })) }) ∧
      (∀ rest, s.allocs = .fail :: rest →
        exec (.norSetup handle) s = .next { s with allocs := rest, status := .outOfResources }) ∧
      ((∀ u ∈ s.spi, u.record ≠ none) →
        exec (.norSetup handle) s = .next { s with allocs := s.allocs.tail, status := .outOfResources }))

/-- R211, R224: `NOR.INIT` of a part the geometry table knows: the record's resolved fields are those of the table, it
is initialised, a 4-byte part has been put into 4-byte mode, and the part's status register holds the initial value with
nothing pending; the commands framed are those of the rule, in its order. -/
def Obligations.NorInitResolvesTheRecord : Prop :=
  ∀ (s : State) (dev : Word) (u : SpiUnit) (r : NorDevice) (info : Config.FlashInfo), s.spi[dev.toNat]? = some u →
    u.record = some r → u.Available s.cfg → u.PartReady s.cfg →
    Config.norFlashGetInfo s.cfg u.board.jedecId = some info → 0 < info.pageSize → 0 < info.sectorSize →
    ∃ v fs, exec (.norInit dev) s = .next { s with spi := s.spi.set dev.toNat v, status := .success } ∧
      SpiUnit.Returned s.cfg
        { u with record := some { r with resolved := some (resolve s.cfg info), inited := true } } v fs ∧
      v.part = { u.part with sr := s.cfg.srInit &&& ~~~s.cfg.srMask, pending := none,
                             mode4B := u.part.mode4B || info.flag4B } ∧
      v.ctl = (registerTxn s.cfg .wrdi [] 0).doneCtl s.cfg ∧
      commandsOf s.cfg fs = [[s.cfg.op .rdid]] ++ (if info.flag4B then [[s.cfg.op .en4b]] else []) ++
        [[s.cfg.op .wren], [s.cfg.op .wrsr, s.cfg.srInit], [s.cfg.op .wrdi]]

/-- R224, R254: an ID the geometry table does not know ends `NOR.INIT` with `EFI_NOT_FOUND`, the record and the part as
they were; only the ID read has happened. -/
def Obligations.NorInitUnknownPartNotFound : Prop :=
  ∀ (s : State) (dev : Word) (u : SpiUnit) (r : NorDevice), s.spi[dev.toNat]? = some u → u.record = some r →
    u.Available s.cfg → u.PartReady s.cfg → Config.norFlashGetInfo s.cfg u.board.jedecId = none →
    ∃ v, exec (.norInit dev) s = .next { s with spi := s.spi.set dev.toNat v, status := .notFound } ∧
      u.Returned s.cfg v [⟨[s.cfg.op .rdid], [u.board.jedecId.b0, u.board.jedecId.b1, u.board.jedecId.b2]⟩] ∧
      v.part = u.part ∧ v.ctl = (registerTxn s.cfg .rdid [] 3).doneCtl s.cfg

/-- R225, R230: `NOR.RD` returns the bytes of the flash and leaves the part as it is; it frames page-bounded reads and
nothing else. -/
def Obligations.NorRdReturnsTheBytes : Prop :=
  ∀ (s : State) (dev off len : Word) (u : SpiUnit) (info : Config.FlashInfo), s.spi[dev.toNat]? = some u →
    u.Initialised s.cfg info → u.Available s.cfg → u.PartReady s.cfg → len ≠ 0#32 →
    flashFits u.board.flashSize (resolve s.cfg info).addressByteCount off.toNat len.toNat = true →
    ∃ v fs, exec (.norRd dev off len) s = .next { s with
        spi := s.spi.set dev.toNat v, status := .success,
        buf := (List.range len.toNat).map fun j => flashRead s.cfg u.part.flash (off.toNat + j) } ∧
      u.Returned s.cfg v fs ∧ v.part = u.part ∧
      fs.map Frame.out = readCommands (resolve s.cfg info) len.toNat off.toNat len.toNat ∧
      ∀ f ∈ fs, ReadInPage (resolve s.cfg info) f

/-- R214, R226: `NOR.WR` makes every byte of the range its AND with the data (the data itself where the range was
erased), changes no other byte of the flash, and leaves the part idle and write-disabled; each page-bounded program is
bracketed by write-enable and wait-ready, with one write-disable at the end. -/
def Obligations.NorWrProgramsTheBytes : Prop :=
  ∀ (s : State) (dev off len : Word) (data : List Byte) (u : SpiUnit) (info : Config.FlashInfo),
    s.spi[dev.toNat]? = some u → u.Initialised s.cfg info → u.Available s.cfg → u.PartReady s.cfg → u.Inv s.cfg →
        len ≠ 0#32 →
    data.length = len.toNat →
    flashFits u.board.flashSize (resolve s.cfg info).addressByteCount off.toNat len.toNat = true →
    FifoRoom s.cfg (1 + (resolve s.cfg info).addressByteCount + min info.pageSize len.toNat) →
    ∃ v fs, exec (.norWr dev off len data) s = .next { s with
        spi := s.spi.set dev.toNat v, status := .success, buf := data } ∧
      u.Returned s.cfg v fs ∧ v.ctl = (registerTxn s.cfg .wrdi [] 0).doneCtl s.cfg ∧
      v.part.sr = clearWel s.cfg u.part.sr ∧ v.part.pending = none ∧ v.part.mode4B = u.part.mode4B ∧
      (∀ x, flashRead s.cfg v.part.flash x = if h : off.toNat ≤ x ∧ x - off.toNat < data.length
        then flashRead s.cfg u.part.flash x &&& data[x - off.toNat]'h.2 else flashRead s.cfg u.part.flash x) ∧
      commandsOf s.cfg fs = writeCommands s.cfg (resolve s.cfg info) len.toNat off.toNat data ++ [[s.cfg.op .wrdi]]

/-- R230, R288: no page program that `NOR.WR` issues spans two pages. -/
def Obligations.NorWrNeverCrossesAPage : Prop :=
  ∀ (s : State) (dev off len : Word) (data : List Byte) (u : SpiUnit) (info : Config.FlashInfo),
    s.spi[dev.toNat]? = some u → u.Initialised s.cfg info → u.Available s.cfg → u.PartReady s.cfg → len ≠ 0#32 →
    data.length = len.toNat →
    flashFits u.board.flashSize (resolve s.cfg info).addressByteCount off.toNat len.toNat = true →
    FifoRoom s.cfg (1 + (resolve s.cfg info).addressByteCount + min info.pageSize len.toNat) →
    ∃ t v fs, exec (.norWr dev off len data) s = .next t ∧ t.spi[dev.toNat]? = some v ∧ v.frames = u.frames ++ fs ∧
      (fs.filter fun f => f.out.head? = some (resolve s.cfg info).programOpcode).length =
        (off.toNat + len.toNat - 1) / info.pageSize - off.toNat / info.pageSize + 1 ∧
      ∀ f ∈ fs, f.out.head? = some (resolve s.cfg info).programOpcode → ProgramInPage (resolve s.cfg info) f

/-- R215, R227: `NOR.ER` at an aligned offset erases every unit up to and including the one of the last byte, changes no
other byte of the flash, and leaves the part idle and write-disabled; sector `i` is at `offset + i * granularity`, each
bracketed by write-enable and wait-ready, with one write-disable at the end. -/
def Obligations.NorErErasesTheUnits : Prop :=
  ∀ (s : State) (dev off len : Word) (u : SpiUnit) (info : Config.FlashInfo), s.spi[dev.toNat]? = some u →
    u.Initialised s.cfg info → u.Available s.cfg → u.PartReady s.cfg → len ≠ 0#32 →
    off.toNat % (resolve s.cfg info).granularity = 0 →
    flashFits u.board.flashSize (resolve s.cfg info).addressByteCount off.toNat len.toNat = true →
    off.toNat + sectorCount len.toNat (resolve s.cfg info).granularity * (resolve s.cfg info).granularity ≤
      u.board.flashSize →
    let n := sectorCount len.toNat (resolve s.cfg info).granularity
    ∃ v fs, exec (.norEr dev off len) s = .next { s with spi := s.spi.set dev.toNat v, status := .success } ∧
      u.Returned s.cfg v fs ∧ v.ctl = (registerTxn s.cfg .wrdi [] 0).doneCtl s.cfg ∧
      v.part.sr = clearWel s.cfg u.part.sr ∧ v.part.pending = none ∧ v.part.mode4B = u.part.mode4B ∧
      (∀ x, flashRead s.cfg v.part.flash x =
        if off.toNat ≤ x ∧ x < off.toNat + n * (resolve s.cfg info).granularity then s.cfg.erasedByte
        else flashRead s.cfg u.part.flash x) ∧
      commandsOf s.cfg fs = eraseCommands s.cfg (resolve s.cfg info) off.toNat (List.range n) ++ [[s.cfg.op .wrdi]]

/-- R215, R228: `NOR.ERCHIP` erases every byte of the flash and leaves the part idle and write-disabled. -/
def Obligations.NorErchipErasesEverything : Prop :=
  ∀ (s : State) (dev : Word) (u : SpiUnit) (info : Config.FlashInfo), s.spi[dev.toNat]? = some u →
    u.Initialised s.cfg info → u.Available s.cfg → u.PartReady s.cfg →
    ∃ v fs, exec (.norErchip dev) s = .next { s with spi := s.spi.set dev.toNat v, status := .success } ∧
      u.Returned s.cfg v fs ∧ v.ctl = (registerTxn s.cfg .wrdi [] 0).doneCtl s.cfg ∧
      v.part.sr = clearWel s.cfg u.part.sr ∧ v.part.pending = none ∧ v.part.mode4B = u.part.mode4B ∧
      (∀ x, flashRead s.cfg v.part.flash x = s.cfg.erasedByte) ∧
      commandsOf s.cfg fs = [[s.cfg.op .wren], [s.cfg.op .ce], [s.cfg.op .wrdi]]

/-- R229: `NOR.FREE` makes the entry absent and touches neither the controller nor the part. That it does so also on a
controller a timed-out wait left unusable (R185) is the model's choice (log 38). -/
def Obligations.NorFreeReleasesTheRecord : Prop :=
  ∀ (s : State) (dev : Word) (u : SpiUnit), s.spi[dev.toNat]? = some u → u.record ≠ none →
    exec (.norFree dev) s = .next { s with
      spi := (s.spi.set dev.toNat { u with record := none }), status := .success }

/-- R223, R227, R251: a zero length, and an erase offset that is not a multiple of the granularity, are invalid input:
nothing but the status changes. That this comes before a range outside FLASH (log 32), and on a controller a timed-out
wait left unusable too (log 38), is the model's reading. -/
def Obligations.ZeroLengthAndMisalignmentAreInvalid : Prop :=
  ∀ (s : State) (dev off len : Word) (u : SpiUnit) (info : Config.FlashInfo), s.spi[dev.toNat]? = some u →
    u.Initialised s.cfg info →
    exec (.norRd dev off 0#32) s = .next { s with status := .invalidParameter } ∧
    exec (.norWr dev off 0#32 []) s = .next { s with status := .invalidParameter } ∧
    exec (.norEr dev off 0#32) s = .next { s with status := .invalidParameter } ∧
    (off.toNat % (resolve s.cfg info).granularity ≠ 0 →
      exec (.norEr dev off len) s = .next { s with status := .invalidParameter })

/-- R220, R232: an operation on an absent device record is refused, `NOR.SETUP` apart, and so is a data operation on a
record that `NOR.INIT` has not completed, before any other operand is looked at (log 32). The FRAME and TRAN rows act on
the bus and the register and need no record (log 15, log 16). -/
def Obligations.AbsentOrUninitialisedIsRefused : Prop :=
  ∀ (s : State) (dev off len : Word) (data payload : List Byte) (cmd : Byte) (n : BitVec 2) (u : SpiUnit),
    s.spi[dev.toNat]? = some u → data.length = len.toNat → payload.length = n.toNat →
    (u.record = none → ∀ i ∈ [Instr.norInit dev, .norRd dev off len, .norWr dev off len data, .norEr dev off len,
        .norErchip dev, .norFree dev, .norWaitrdy dev, .norGetid dev, .spiRdreg dev cmd n, .spiWrreg dev cmd n payload,
        .spiXrd dev off len, .spiXpp dev off len data, .spiXer dev off], exec i s = .refused .absentDevice) ∧
    ∀ r, u.record = some r → r.inited = false → ∀ i ∈ [Instr.norRd dev off len, .norWr dev off len data,
        .norEr dev off len, .norErchip dev], exec i s = .refused .notInitialised

/-- R94, R95, R181 to R183 (log 20: the spec gives such requests no meaning, and the model stops): a word index or a
byte range outside the OTP array, and a flash request outside the part or beyond what the address bytes reach, fault by
name, an erase transaction whose unit does not lie in FLASH and a data transaction of no byte at an address outside it
(log 45) too; a data transaction over a page boundary is refused. -/
def Obligations.RequestsOutsideTheirBoundsStop : Prop :=
  (∀ (s : State) (bus w off cnt value : Word) (k : BitVec 5) (data : List Byte) (u : EfuseUnit),
    s.efuse[bus.toNat]? = some u → widthLegal u.ctl.addressBits = true →
    (u.words ≤ w.toNat → ∀ i ∈ [Instr.efuseRdw bus w, .efuseSetb bus w k, .efuseWrw bus w value],
      exec i s = .fault .otpRange) ∧
    (u.capacity < off.toNat + cnt.toNat → data.length = cnt.toNat →
      ∀ i ∈ [Instr.efuseRdb bus off cnt, .efuseWrb bus off cnt data], exec i s = .fault .otpRange)) ∧
  ∀ (s : State) (dev off len : Word) (data : List Byte) (u : SpiUnit) (info : Config.FlashInfo),
    s.spi[dev.toNat]? = some u → u.Resolves s.cfg info → data.length = len.toNat →
    (flashFits u.board.flashSize (resolve s.cfg info).addressByteCount off.toNat len.toNat = false →
      (u.Initialised s.cfg info → len ≠ 0#32 → ∀ i ∈ [Instr.norRd dev off len, .norWr dev off len data],
        exec i s = .fault .flashRange) ∧
      (u.Initialised s.cfg info → len ≠ 0#32 → off.toNat % (resolve s.cfg info).granularity = 0 →
        exec (.norEr dev off len) s = .fault .flashRange)) ∧
    (flashFits u.board.flashSize (resolve s.cfg info).addressByteCount off.toNat (max len.toNat 1) = false →
      len.toNat ≤ info.pageSize - off.toNat % info.pageSize →
      ∀ i ∈ [Instr.spiXrd dev off len, .spiXpp dev off len data], exec i s = .fault .flashRange) ∧
    (info.pageSize - off.toNat % info.pageSize < len.toNat →
      ∀ i ∈ [Instr.spiXrd dev off len, .spiXpp dev off len data], exec i s = .refused .pageCross) ∧
    (flashFits u.board.flashSize (resolve s.cfg info).addressByteCount
        (alignDown (resolve s.cfg info).granularity off.toNat) (resolve s.cfg info).granularity = false →
      exec (.spiXer dev off) s = .fault .flashRange)

/-- R231 (with the default `ERASED_BYTE`, R214): erase 4 KB, write 300 bytes, read 300 bytes: the read returns the
pattern; the erase is one unit at 0, the write frames exactly two programs, of 256 and 44 bytes, in pages 0 and 1, and
the read the same two chunks. -/
def Obligations.EraseWriteReadReturnsThePattern : Prop :=
  ∀ (s : State) (dev : Word) (pattern : List Byte) (u : SpiUnit) (info : Config.FlashInfo),
    s.spi[dev.toNat]? = some u → u.Initialised s.cfg info → u.Available s.cfg → u.PartReady s.cfg → u.Inv s.cfg →
    s.cfg.erasedByte = 0xFF#8 → info.flagErase4K = true → info.pageSize = 256 → pattern.length = 300 →
    flashFits u.board.flashSize (resolve s.cfg info).addressByteCount 0 4096 = true →
    FifoRoom s.cfg (1 + (resolve s.cfg info).addressByteCount + 256) →
    let g := resolve s.cfg info
    let at0 := addrBytes 0#32 g.addressByteCount
    let at256 := addrBytes 256#32 g.addressByteCount
    ∃ t1 t2 t3 v1 v2 v3 es ws rs, exec (.norEr dev 0#32 4096#32) s = .next t1 ∧ t1.status = .success ∧
      exec (.norWr dev 0#32 300#32 pattern) t1 = .next t2 ∧ t2.status = .success ∧
      exec (.norRd dev 0#32 300#32) t2 = .next t3 ∧ t3.status = .success ∧ t3.buf = pattern ∧
      t1.spi[dev.toNat]? = some v1 ∧ v1.frames = u.frames ++ es ∧
      commandsOf s.cfg es = [[s.cfg.op .wren], g.eraseOpcode :: at0, [s.cfg.op .wrdi]] ∧
      t2.spi[dev.toNat]? = some v2 ∧ v2.frames = v1.frames ++ ws ∧
      commandsOf s.cfg ws = [[s.cfg.op .wren], g.programOpcode :: (at0 ++ pattern.take 256),
        [s.cfg.op .wren], g.programOpcode :: (at256 ++ pattern.drop 256), [s.cfg.op .wrdi]] ∧
      t3.spi[dev.toNat]? = some v3 ∧ v3.frames = v2.frames ++ rs ∧
      commandsOf s.cfg rs = [g.readOpcode :: at0, g.readOpcode :: at256]
end

