-- ==== Sys2Proof/Laws/Params.lean ====
section
/-! SUPPORT. What a legal parameter set says (R9, R12): command bytes and commands name each other, the MODE commands
differ, the two status bits differ, the fields of a TRAN_CSR word are those it is built from. -/

namespace Sys2Proof

/-! ## Command bytes (R12) -/

theorem NorCmd.mem_all (c : NorCmd) : c ∈ NorCmd.all := by cases c <;> decide

/-- "The command bytes of one parameter set must be pairwise different" (R12). -/
theorem op_injective (cfg : Config.Params) {c d : NorCmd} (h : cfg.op c = cfg.op d) : c = d := by
  have hd := List.inj_on_of_nodup_map cfg.ops.distinct
  exact hd (NorCmd.mem_all c) (NorCmd.mem_all d) h

@[simp] theorem op_inj (cfg : Config.Params) (c d : NorCmd) : cfg.op c = cfg.op d ↔ c = d :=
  ⟨op_injective cfg, fun h => h ▸ rfl⟩

@[simp] theorem cmdOf_op (cfg : Config.Params) (c : NorCmd) : cfg.cmdOf (cfg.op c) = some c := by
  simp only [Config.Params.cmdOf, op_inj]
  cases c <;> rfl

/-- The command of a byte has that byte. -/
theorem op_of_cmdOf {cfg : Config.Params} {b : Byte} {c : NorCmd} (h : cfg.cmdOf b = some c) : cfg.op c = b := by
  simpa using List.find?_some h

/-- A byte outside the set has no command (R114 (d)). -/
theorem cmdOf_none {cfg : Config.Params} {b : Byte} (h : ∀ c, cfg.op c ≠ b) : cfg.cmdOf b = none := by
  simp only [Config.Params.cmdOf, List.find?_eq_none, decide_eq_true_eq]
  exact fun c _ => h c

/-! ## MODE commands (R9) -/

variable (cfg : Config.Params)

theorem mode_idle_ne_read : cfg.mode.idle ≠ cfg.mode.read := by
  have := cfg.mode.distinct; simp at this; exact this.1.1
theorem mode_idle_ne_write : cfg.mode.idle ≠ cfg.mode.write := by
  have := cfg.mode.distinct; simp at this; exact this.1.2
theorem mode_read_ne_write : cfg.mode.read ≠ cfg.mode.write := by
  have := cfg.mode.distinct; simp at this; exact this.2
@[simp] theorem mode_idle_masked : cfg.mode.idle &&& cfg.mode.mask = cfg.mode.idle := cfg.mode.inField.1
@[simp] theorem mode_read_masked : cfg.mode.read &&& cfg.mode.mask = cfg.mode.read := cfg.mode.inField.2.1
@[simp] theorem mode_write_masked : cfg.mode.write &&& cfg.mode.mask = cfg.mode.write := cfg.mode.inField.2.2

/-! ## Status bits (R12) -/

@[simp] theorem bitMask_getLsbD (k i : Fin 8) : (bitMask k).getLsbD i = decide (k = i) := by revert k i; decide

@[simp] theorem bitMask_getElem (k i : Fin 8) : (bitMask k)[i.val] = decide (k = i) := by revert k i; decide

theorem wel_ne_wip : cfg.srBits.wel ≠ cfg.srBits.wip := cfg.srBits.distinct.symm

/-! ## Words of TRAN_CSR (R107, R108) -/

theorem getLsbD_fieldAt {n : Nat} (p : Nat) (x : BitVec n) (i : Nat) :
    (fieldAt p x).getLsbD i = (decide (i < 32) && decide (p ≤ i) && x.getLsbD (i - p)) := by
  simp only [fieldAt, BitVec.getLsbD_shiftLeft, BitVec.getLsbD_setWidth]
  by_cases h1 : i < 32
  · by_cases h2 : p ≤ i
    · simp [h1, h2, show i - p < 32 by omega, Nat.not_lt.2 h2]
    · simp [h2, Nat.lt_of_not_le h2]
  · simp [h1]

/-- A field does not reach a bit outside it. -/
theorem fieldAt_outside {n p i : Nat} (x : BitVec n) (h : i < p ∨ p + n ≤ i) : (fieldAt p x).getLsbD i = false := by
  rw [getLsbD_fieldAt]
  rcases h with h | h
  · simp [show ¬ p ≤ i by omega]
  · simp [BitVec.getLsbD_of_ge x (i - p) (by omega)]

/-- A bit of a field is the bit put there. -/
theorem fieldAt_inside {n p k : Nat} (x : BitVec n) (h : p + k < 32) : (fieldAt p x).getLsbD (p + k) = x.getLsbD k := by
  rw [getLsbD_fieldAt]
  simp [h]

/-- The fields of TRAN_CSR lie in the register. -/
theorem tran_fits : cfg.tran.rx < 32 ∧ cfg.tran.tx < 32 ∧ cfg.tran.addrBytes + 2 < 32 ∧ cfg.tran.withCmd < 32 ∧
    cfg.tran.trgLvl + 1 < 32 ∧ cfg.tran.goBusy < 32 := by
  have h := cfg.tran.fits
  simp only [Config.TranPlaces.bits, List.forall_mem_cons] at h
  omega

/-- The fields of TRAN_CSR do not overlap. -/
theorem tran_apart : cfg.tran.rx ≠ cfg.tran.tx ∧ cfg.tran.rx ≠ cfg.tran.withCmd ∧ cfg.tran.rx ≠ cfg.tran.goBusy ∧
    cfg.tran.tx ≠ cfg.tran.withCmd ∧ cfg.tran.tx ≠ cfg.tran.goBusy ∧ cfg.tran.withCmd ≠ cfg.tran.goBusy ∧
    (∀ p ∈ [cfg.tran.rx, cfg.tran.tx, cfg.tran.withCmd, cfg.tran.goBusy],
      (p < cfg.tran.addrBytes ∨ cfg.tran.addrBytes + 3 ≤ p) ∧ (p < cfg.tran.trgLvl ∨ cfg.tran.trgLvl + 2 ≤ p)) ∧
    (cfg.tran.addrBytes + 3 ≤ cfg.tran.trgLvl ∨ cfg.tran.trgLvl + 2 ≤ cfg.tran.addrBytes) := by
  have h := cfg.tran.apart
  simp only [Config.TranPlaces.bits, List.nodup_cons, List.mem_cons, List.not_mem_nil, or_false, not_or] at h
  simp only [List.forall_mem_cons, List.not_mem_nil, false_imp_iff, implies_true, and_true]
  omega

variable (c : TranClass) (n : BitVec 3) (g : Bool)

@[simp] theorem goBusy_tranWord : goBusy cfg (tranWord cfg c n g) = g := by
  obtain ⟨h1, h2, h3, h4, h5, h6, h7, -⟩ := tran_apart cfg
  have hf := tran_fits cfg
  simp only [List.forall_mem_cons] at h7
  have e := fieldAt_inside (p := cfg.tran.goBusy) (k := 0) (BitVec.ofBool g) (by omega)
  simp only [Nat.add_zero] at e
  simp only [goBusy, tranWord, BitVec.getLsbD_or, e]
  rw [fieldAt_outside _ (by omega), fieldAt_outside _ (by omega), fieldAt_outside _ (by omega),
    fieldAt_outside _ (by omega), fieldAt_outside _ (by omega)]
  simp

theorem rx_tranWord : (tranWord cfg c n g).getLsbD cfg.tran.rx = c.rx := by
  obtain ⟨h1, h2, h3, h4, h5, h6, h7, -⟩ := tran_apart cfg
  have hf := tran_fits cfg
  simp only [List.forall_mem_cons] at h7
  have e := fieldAt_inside (p := cfg.tran.rx) (k := 0) (BitVec.ofBool c.rx) (by omega)
  simp only [Nat.add_zero] at e
  simp only [tranWord, BitVec.getLsbD_or, e]
  rw [fieldAt_outside _ (by omega), fieldAt_outside _ (by omega), fieldAt_outside _ (by omega),
    fieldAt_outside _ (by omega), fieldAt_outside _ (by omega)]
  simp

theorem tx_tranWord : (tranWord cfg c n g).getLsbD cfg.tran.tx = c.tx := by
  obtain ⟨h1, h2, h3, h4, h5, h6, h7, -⟩ := tran_apart cfg
  have hf := tran_fits cfg
  simp only [List.forall_mem_cons] at h7
  have e := fieldAt_inside (p := cfg.tran.tx) (k := 0) (BitVec.ofBool c.tx) (by omega)
  simp only [Nat.add_zero] at e
  simp only [tranWord, BitVec.getLsbD_or, e]
  rw [fieldAt_outside _ (by omega), fieldAt_outside _ (by omega), fieldAt_outside _ (by omega),
    fieldAt_outside _ (by omega), fieldAt_outside _ (by omega)]
  simp

theorem tranAddr_tranWord : tranAddr cfg (tranWord cfg c n g) = n := by
  obtain ⟨h1, h2, h3, h4, h5, h6, h7, h8⟩ := tran_apart cfg
  have hf := tran_fits cfg
  simp only [List.forall_mem_cons] at h7
  apply BitVec.eq_of_getLsbD_eq
  intro i hi
  have e := fieldAt_inside (p := cfg.tran.addrBytes) (k := i) n (by omega)
  simp only [tranAddr, tranWord, BitVec.getLsbD_extractLsb', BitVec.getLsbD_or, e]
  rw [fieldAt_outside _ (by omega), fieldAt_outside _ (by omega), fieldAt_outside _ (by omega),
    fieldAt_outside _ (by omega), fieldAt_outside _ (by omega)]
  simp [hi]

theorem trgLvl_tranWord : (tranWord cfg c n g).extractLsb' cfg.tran.trgLvl 2 = c.trgLvl cfg := by
  obtain ⟨h1, h2, h3, h4, h5, h6, h7, h8⟩ := tran_apart cfg
  have hf := tran_fits cfg
  simp only [List.forall_mem_cons] at h7
  apply BitVec.eq_of_getLsbD_eq
  intro i hi
  have e := fieldAt_inside (p := cfg.tran.trgLvl) (k := i) (c.trgLvl cfg) (by omega)
  simp only [tranWord, BitVec.getLsbD_extractLsb', BitVec.getLsbD_or, e]
  rw [fieldAt_outside _ (by omega), fieldAt_outside _ (by omega), fieldAt_outside _ (by omega),
    fieldAt_outside _ (by omega), fieldAt_outside _ (by omega)]
  simp [hi]

/-- The codes of the trigger levels differ (R41). -/
theorem trg_apart : cfg.tran.trg8 ≠ cfg.tran.trg1 ∧ cfg.tran.trg8 ≠ cfg.tran.trg2 ∧ cfg.tran.trg8 ≠ cfg.tran.trg4 := by
  have h := cfg.tran.levels
  simp at h
  exact ⟨fun e => h.1.2.2 e.symm, fun e => h.2.1.2 e.symm, fun e => h.2.2 e.symm⟩

/-- The words of TRAN_CSR are told apart by their class, their `ADDR_BYTES` and their `GO_BUSY`. -/
@[simp] theorem tranWord_inj (d : TranClass) (m : BitVec 3) (k : Bool) :
    tranWord cfg c n g = tranWord cfg d m k ↔ c = d ∧ n = m ∧ g = k := by
  refine ⟨fun e => ?_, fun ⟨h1, h2, h3⟩ => by rw [h1, h2, h3]⟩
  have e1 : c.rx = d.rx := by rw [← rx_tranWord cfg c n g, e, rx_tranWord]
  have e2 : c.tx = d.tx := by rw [← tx_tranWord cfg c n g, e, tx_tranWord]
  have e3 : c.trgLvl cfg = d.trgLvl cfg := by rw [← trgLvl_tranWord cfg c n g, e, trgLvl_tranWord]
  have := (trg_apart cfg).1
  refine ⟨?_, by rw [← tranAddr_tranWord cfg c n g, e, tranAddr_tranWord],
    by rw [← goBusy_tranWord cfg c n g, e, goBusy_tranWord]⟩
  cases c <;> cases d <;> first | rfl | simp_all [TranClass.rx, TranClass.tx, TranClass.trgLvl]

end Sys2Proof
end

