-- ==== Sys2Proof/Laws/Flags.lean ====
section
/-! SUPPORT. The laws of the flags: what setting or clearing one says of each, and the words of the five transaction
classes. -/

namespace Sys2Proof.Machine

open Sys2Proof

/-! ## The part's status register -/

variable (cfg : Config.Params) (a b : Byte)

@[simp] theorem wip_setWip : wip cfg (setWip cfg b) = true := by simp [wip, setWip]
@[simp] theorem wel_setWip : wel cfg (setWip cfg b) = wel cfg b := by simp [wel, setWip, (wel_ne_wip cfg).symm]
@[simp] theorem wip_setWel : wip cfg (setWel cfg b) = wip cfg b := by simp [wip, setWel, wel_ne_wip cfg]
@[simp] theorem wel_setWel : wel cfg (setWel cfg b) = true := by simp [wel, setWel]
@[simp] theorem wip_clearWel : wip cfg (clearWel cfg b) = wip cfg b := by simp [wip, clearWel, wel_ne_wip cfg]
@[simp] theorem wel_clearWel : wel cfg (clearWel cfg b) = false := by simp [wel, clearWel]
@[simp] theorem wip_clearBusy : wip cfg (clearBusy cfg b) = false := by
  simp [wip, clearBusy, Config.Params.srMask]
@[simp] theorem wel_clearBusy : wel cfg (clearBusy cfg b) = false := by
  simp [wel, clearBusy, Config.Params.srMask]

@[simp] theorem putWel_true : putWel cfg b true = setWel cfg b := rfl
@[simp] theorem putWel_false : putWel cfg b false = clearWel cfg b := rfl

@[simp] theorem wip_putWel (x : Bool) : wip cfg (putWel cfg b x) = wip cfg b := by cases x <;> simp

@[simp] theorem wel_putWel (x : Bool) : wel cfg (putWel cfg b x) = x := by cases x <;> simp

/-- Clearing a bit that is clear. -/
theorem and_not_bitMask {k : Fin 8} (h : b.getLsbD k = false) : b &&& ~~~bitMask k = b := by
  apply BitVec.eq_of_getLsbD_eq
  intro i hi
  have e := bitMask_getLsbD k ⟨i, hi⟩
  simp only at e
  simp only [BitVec.getLsbD_and, BitVec.getLsbD_not, e, hi, decide_true, Bool.true_and]
  by_cases hk : k = ⟨i, hi⟩
  · subst hk; simpa using h
  · simp [hk]

theorem clearWel_of_not_wel (h : wel cfg b = false) : clearWel cfg b = b := and_not_bitMask b h

theorem clearBusy_setWip_setWel (h : wip cfg b = false) :
    clearBusy cfg (setWip cfg (setWel cfg b)) = clearWel cfg b := by
  conv_rhs => rw [← and_not_bitMask b h]
  simp only [clearBusy, setWip, setWel, clearWel, Config.Params.srMask]
  apply BitVec.eq_of_getLsbD_eq
  intro i hi
  simp only [BitVec.getLsbD_and, BitVec.getLsbD_not, BitVec.getLsbD_or, hi, decide_true, Bool.true_and]
  cases b.getLsbD i <;> cases (bitMask cfg.srBits.wip).getLsbD i <;> cases (bitMask cfg.srBits.wel).getLsbD i <;> rfl

theorem wip_statusMerge : wip cfg (statusMerge cfg a b) = wip cfg a := by
  simp [wip, statusMerge, Config.Params.srMask]

/-- A written status register, once the write has completed: the bits of `v` other than `WIP` and `WEL` (R216). -/
theorem clearBusy_statusMerge : clearBusy cfg (statusMerge cfg a b) = b &&& ~~~cfg.srMask := by
  simp only [clearBusy, statusMerge]
  apply BitVec.eq_of_getLsbD_eq
  intro i hi
  simp only [BitVec.getLsbD_and, BitVec.getLsbD_not, BitVec.getLsbD_or, hi, decide_true, Bool.true_and]
  cases b.getLsbD i <;> cases a.getLsbD i <;> cases cfg.srMask.getLsbD i <;> rfl

/-! ## TRAN_CSR and INT_STS -/

theorem regBit_getLsbD (p i : Nat) : (regBit p).getLsbD i = (decide (i < 32) && decide (i = p)) := by
  simp only [regBit, BitVec.getLsbD_shiftLeft, BitVec.getLsbD_one]
  by_cases h1 : i < 32 <;> by_cases h2 : i = p <;> simp [h1, h2]
  omega

/-! ## MODE (R34, R38) -/

/-- MODE shows the busy flag: what is read is ready while the macro is not busy and its command field is idle, and not
while it is busy with a command there; in a view with a flag of its own the command field does not matter. -/
theorem efuseReady_modeValue (x : Bool) (v : Word) : efuseReady cfg (modeValue cfg x v) =
    match cfg.mode.view with
    | .command => decide (v &&& cfg.mode.mask = cfg.mode.idle)
    | .flag _ _ _ => !x := by
  unfold efuseReady modeValue
  split
  · next h => simp only [h]
  · next bit y c h =>
    simp only [h, BitVec.getLsbD_or, BitVec.getLsbD_and, BitVec.getLsbD_not, regBit_getLsbD, bit.isLt]
    cases x <;> cases y <;> simp [regBit_getLsbD, bit.isLt]

@[simp] theorem efuseReady_idle : efuseReady cfg (modeValue cfg false cfg.mode.idle) = true := by
  rw [efuseReady_modeValue]; split <;> simp

@[simp] theorem efuseReady_left (v : Word) : efuseReady cfg (modeValue cfg false (modeLeft cfg v)) = true := by
  rw [efuseReady_modeValue]; unfold modeLeft; split <;> simp [*]

@[simp] theorem efuseReady_read : efuseReady cfg (modeValue cfg true cfg.mode.read) = false := by
  rw [efuseReady_modeValue]; split <;> simp [(mode_idle_ne_read cfg).symm]

@[simp] theorem efuseReady_write : efuseReady cfg (modeValue cfg true cfg.mode.write) = false := by
  rw [efuseReady_modeValue]; split <;> simp [(mode_idle_ne_write cfg).symm]

@[simp] theorem goBusy_clearGo (v : Word) : goBusy cfg (clearGo cfg v) = false := by
  simp [goBusy, clearGo, regBit_getLsbD]

@[simp] theorem goBusy_zero : goBusy cfg 0#32 = false := by simp [goBusy]

@[simp] theorem tranDone_zero : tranDone cfg 0#32 = false := by simp [tranDone]

@[simp] theorem rdFifo_zero : rdFifo cfg 0#32 = false := by simp [rdFifo]

@[simp] theorem tranDone_setTranDone (v : Word) : tranDone cfg (setTranDone cfg v) = true := by
  simp [tranDone, setTranDone, regBit_getLsbD, cfg.intSts.fits.1]

@[simp] theorem rdFifo_setTranDone (v : Word) : rdFifo cfg (setTranDone cfg v) = rdFifo cfg v := by
  simp [rdFifo, setTranDone, regBit_getLsbD, cfg.intSts.apart.symm]

theorem tranDone_putRdFifo (v : Word) (x : Bool) : tranDone cfg (putRdFifo cfg v x) = tranDone cfg v := by
  have h := cfg.intSts.fits.1
  have e : (regBit cfg.intSts.rdFifo).getLsbD cfg.intSts.tranDone = false := by
    rw [regBit_getLsbD]; simp [cfg.intSts.apart]
  cases x <;> simp only [tranDone, putRdFifo, BitVec.getLsbD_or, BitVec.getLsbD_and, BitVec.getLsbD_not, e, h,
    Bool.false_eq_true, if_false, if_true, decide_true, Bool.not_false, Bool.and_true, BitVec.getLsbD_zero,
    Bool.or_false]

theorem rdFifo_putRdFifo (v : Word) (x : Bool) : rdFifo cfg (putRdFifo cfg v x) = x := by
  have h := cfg.intSts.fits.2
  cases x <;> simp [rdFifo, putRdFifo, regBit_getLsbD, h]

/-- Setting a field of INT_STS leaves its other bits (R45). -/
theorem setTranDone_reserved (v : Word) : setTranDone cfg v &&& ~~~intMask cfg = v &&& ~~~intMask cfg := by
  apply BitVec.eq_of_getLsbD_eq
  intro i hi
  simp only [setTranDone, intMask, BitVec.getLsbD_and, BitVec.getLsbD_not, BitVec.getLsbD_or, hi, decide_true,
    Bool.true_and]
  cases v.getLsbD i <;> cases (regBit cfg.intSts.tranDone).getLsbD i <;>
    cases (regBit cfg.intSts.rdFifo).getLsbD i <;> rfl

theorem putRdFifo_reserved (v : Word) (x : Bool) :
    putRdFifo cfg v x &&& ~~~intMask cfg = v &&& ~~~intMask cfg := by
  apply BitVec.eq_of_getLsbD_eq
  intro i hi
  cases x <;>
  · simp only [putRdFifo, intMask, BitVec.getLsbD_and, BitVec.getLsbD_not, BitVec.getLsbD_or, hi, decide_true,
      Bool.true_and, if_true, Bool.false_eq_true, if_false, BitVec.getLsbD_zero]
    cases v.getLsbD i <;> cases (regBit cfg.intSts.tranDone).getLsbD i <;>
      cases (regBit cfg.intSts.rdFifo).getLsbD i <;> rfl

theorem refreshRdFifo_reserved (c : SpiCtl) :
    (refreshRdFifo cfg c).intSts &&& ~~~intMask cfg = c.intSts &&& ~~~intMask cfg :=
  putRdFifo_reserved cfg _ _

@[simp] theorem rdFifo_refreshRdFifo (c : SpiCtl) : rdFifo cfg (refreshRdFifo cfg c).intSts = rdFifoCond cfg c :=
  rdFifo_putRdFifo cfg _ _

@[simp] theorem tranDone_refreshRdFifo (c : SpiCtl) :
    tranDone cfg (refreshRdFifo cfg c).intSts = tranDone cfg c.intSts :=
  tranDone_putRdFifo cfg _ _

/-- Once `TRAN_DONE` alone is set, clearing `RD_FIFO` changes nothing. -/
theorem putRdFifo_done : putRdFifo cfg (setTranDone cfg 0#32) false = setTranDone cfg 0#32 := by
  apply BitVec.eq_of_getLsbD_eq
  intro i hi
  have ha := cfg.intSts.apart
  simp only [putRdFifo, setTranDone, BitVec.getLsbD_and, BitVec.getLsbD_not, BitVec.getLsbD_or, regBit_getLsbD, hi,
    decide_true, Bool.true_and, Bool.false_eq_true, if_false, BitVec.getLsbD_zero, Bool.false_or, Bool.or_false]
  by_cases h : i = cfg.intSts.tranDone
  · simp [h, ha]
  · simp [h]

@[simp] theorem refreshRdFifo_tranCsr (c : SpiCtl) : (refreshRdFifo cfg c).tranCsr = c.tranCsr := rfl
@[simp] theorem refreshRdFifo_tranNum (c : SpiCtl) : (refreshRdFifo cfg c).tranNum = c.tranNum := rfl
@[simp] theorem refreshRdFifo_fifo (c : SpiCtl) : (refreshRdFifo cfg c).fifo = c.fifo := rfl
@[simp] theorem refreshRdFifo_rxLeft (c : SpiCtl) : (refreshRdFifo cfg c).rxLeft = c.rxLeft := rfl
@[simp] theorem refreshRdFifo_sphase (c : SpiCtl) : (refreshRdFifo cfg c).sphase = c.sphase := rfl
@[simp] theorem refreshRdFifo_xfer (c : SpiCtl) : (refreshRdFifo cfg c).xfer = c.xfer := rfl

/-! ## Words of the classes (R107, R108) -/

/-- `GO_BUSY` cleared in a word of a class is the word of that class without it. -/
@[simp] theorem clearGo_tranWord (cls : TranClass) (n : BitVec 3) (g : Bool) :
    clearGo cfg (tranWord cfg cls n g) = tranWord cfg cls n false := by
  apply BitVec.eq_of_getLsbD_eq
  intro i hi
  by_cases h : i = cfg.tran.goBusy
  · subst h
    have e1 := goBusy_clearGo cfg (tranWord cfg cls n g)
    have e2 := goBusy_tranWord cfg cls n false
    simp only [goBusy] at e1 e2
    rw [e1, e2]
  · have e : ∀ b : Bool, (fieldAt cfg.tran.goBusy (BitVec.ofBool b)).getLsbD i = false :=
      fun b => fieldAt_outside _ (by omega)
    simp only [clearGo, tranWord, BitVec.getLsbD_and, BitVec.getLsbD_not, BitVec.getLsbD_or, regBit_getLsbD, h, hi, e,
      decide_true, decide_false, Bool.and_false, Bool.not_false, Bool.and_true, Bool.or_false]

@[simp] theorem tranAddrBytes_tranWord (cls : TranClass) (n : BitVec 3) (g : Bool) :
    tranAddrBytes cfg (tranWord cfg cls n g) = n.toNat := by rw [tranAddrBytes, tranAddr_tranWord]

/-- The classes that receive. -/
theorem tranRx_tranWord (cls : TranClass) (n : BitVec 3) (g : Bool) :
    tranRx cfg (tranWord cfg cls n g) = decide (cls = .regrd ∨ cls = .datard) := by
  rw [tranRx, rx_tranWord]; cases cls <;> rfl

/-- The classes that transmit. -/
theorem tranTx_tranWord (cls : TranClass) (n : BitVec 3) (g : Bool) :
    tranTx cfg (tranWord cfg cls n g) = decide (cls = .regwr ∨ cls = .datawr) := by
  rw [tranTx, tx_tranWord]; cases cls <;> rfl

/-- The trigger level is 1 byte for the register classes and 8 for the others (R107). -/
theorem triggerLevel_tranWord (cls : TranClass) (n : BitVec 3) (g : Bool) :
    triggerLevel cfg (tranWord cfg cls n g) = if cls = .regrd ∨ cls = .regwr then 1 else 8 := by
  obtain ⟨h1, h2, h3⟩ := trg_apart cfg
  simp only [triggerLevel, trgLvl_tranWord]
  cases cls <;> simp [TranClass.trgLvl, h1, h2, h3]

/-- A word of a class is one of that class where its `ADDR_BYTES` is legal, and of none else. -/
theorem tranClassOf_tranWord (cls : TranClass) (n : BitVec 3) (g : Bool) :
    tranClassOf cfg (tranWord cfg cls n g) = if cls.admits n then some cls else none := by
  simp only [tranClassOf, tranAddr_tranWord, goBusy_tranWord, tranWord_inj]
  cases cls <;> simp [List.find?, TranClass.admits] <;> split <;> simp_all

/-- What has a class is the word of that class, its own `ADDR_BYTES` and its own `GO_BUSY`. -/
theorem tranClassOf_some {v : Word} {cls : TranClass} (h : tranClassOf cfg v = some cls) :
    cls.admits (tranAddr cfg v) = true ∧ v = tranWord cfg cls (tranAddr cfg v) (goBusy cfg v) := by
  simpa using List.find?_some h

@[simp] theorem tranClassOf_clearGo (v : Word) (h : (tranClassOf cfg v).isSome = true) :
    tranClassOf cfg (clearGo cfg v) = tranClassOf cfg v := by
  obtain ⟨cls, e⟩ := Option.isSome_iff_exists.1 h
  obtain ⟨ha, hv⟩ := tranClassOf_some cfg e
  rw [e, hv, clearGo_tranWord, tranClassOf_tranWord, if_pos ha]

/-- A register-class word is legal without address bytes. -/
theorem tranClassOf_register (cls : TranClass) (g : Bool) (h : cls = .regrd ∨ cls = .regwr) :
    tranClassOf cfg (tranWord cfg cls 0#3 g) = some cls := by
  obtain rfl | rfl := h <;> simp [tranClassOf_tranWord, TranClass.admits]

/-- A data or erase word is legal with 3 or 4 address bytes. -/
theorem tranClassOf_address (cls : TranClass) (n : BitVec 3) (g : Bool) (h : ¬ (cls = .regrd ∨ cls = .regwr))
    (hn : addrBytesLegal n = true) : tranClassOf cfg (tranWord cfg cls n g) = some cls := by
  cases cls <;> first | exact absurd (.inl rfl) h | exact absurd (.inr rfl) h |
    simp [tranClassOf_tranWord, TranClass.admits, hn]

end Sys2Proof.Machine
end

