-- ==== Sys2Proof/Laws/Memory.lean ====
section
/-! SUPPORT. The laws of the byte memories: what a read gives after a write, a clear, a page program, a programmed bit;
every operation keeps the canonical form. -/

namespace Sys2Proof.Machine

open Sys2Proof

/-! ## The canonical form -/

theorem memWfFrom_cons (d : Byte) (lo : Nat) (c : Host.Cell) (t : Memory) :
    memWfFrom d lo (c :: t) = true ↔ lo ≤ c.1 ∧ c.2 ≠ d ∧ memWfFrom d (c.1 + 1) t = true := by
  simp [memWfFrom, and_assoc]

theorem memWfFrom_mono {d : Byte} {lo hi : Nat} {m : Memory} (h : memWfFrom d hi m = true) (hl : lo ≤ hi) :
    memWfFrom d lo m = true := by
  cases m with
  | nil => rfl
  | cons c t => rw [memWfFrom_cons] at *; exact ⟨le_trans hl h.1, h.2⟩

/-- Below the first address of a canonical memory every byte is unlisted. -/
theorem memRead_below {d : Byte} {lo a : Nat} {m : Memory} (h : memWfFrom d lo m = true) (ha : a < lo) :
    memRead d m a = d := by
  induction m generalizing lo with
  | nil => rfl
  | cons c t ih =>
    rw [memWfFrom_cons] at h
    rw [memRead, if_neg (by omega)]
    exact ih h.2.2 (by omega)

theorem memWfFrom_memWrite {d : Byte} {lo a : Nat} {b : Byte} {m : Memory} (h : memWfFrom d lo m = true)
    (ha : lo ≤ a) : memWfFrom d lo (memWrite d m a b) = true := by
  induction m generalizing lo with
  | nil =>
    by_cases hb : b = d
    · simp [memWrite, hb, memWfFrom]
    · simp [memWrite, hb, memWfFrom, ha]
  | cons c t ih =>
    rw [memWfFrom_cons] at h
    rw [memWrite]
    split_ifs with h1 h2 h3 h4
    · exact (memWfFrom_cons ..).2 ⟨h.1, h.2.1, ih h.2.2 (by omega)⟩
    · exact memWfFrom_mono h.2.2 (by omega)
    · exact (memWfFrom_cons ..).2 ⟨ha, h3, h2 ▸ h.2.2⟩
    · exact (memWfFrom_cons ..).2 h
    · exact (memWfFrom_cons ..).2 ⟨ha, h4, (memWfFrom_cons ..).2 ⟨show a + 1 ≤ c.1 by omega, h.2⟩⟩

theorem memRead_memWrite_from {d : Byte} {lo a : Nat} {b : Byte} {m : Memory} (h : memWfFrom d lo m = true)
    (x : Nat) : memRead d (memWrite d m a b) x = if x = a then b else memRead d m x := by
  induction m generalizing lo with
  | nil =>
    by_cases hb : b = d
    · simp [memWrite, hb, memRead]
    · simp [memWrite, hb, memRead, eq_comm]
  | cons c t ih =>
    rw [memWfFrom_cons] at h
    have ih := ih h.2.2
    have hlow : x ≤ c.1 → memRead d t x = d := fun hx => memRead_below h.2.2 (by omega)
    rw [memWrite]
    by_cases h1 : c.1 < a
    · rw [if_pos h1, memRead, ih, memRead]
      by_cases hx : x = a
      · rw [hx, if_neg (by omega), if_pos rfl, if_pos rfl]
      · rw [if_neg hx, if_neg hx]
    rw [if_neg h1]
    by_cases h2 : c.1 = a
    · rw [if_pos h2]
      by_cases hx : x = a
      · rw [if_pos hx]
        by_cases hb : b = d
        · rw [if_pos hb, hlow (by omega), hb]
        · rw [if_neg hb, memRead, if_pos hx.symm]
      · have hc : memRead d (c :: t) x = memRead d t x := by rw [memRead, if_neg (by omega)]
        rw [if_neg hx, hc]
        split
        · rfl
        · rw [memRead, if_neg (fun e => hx e.symm)]
    · rw [if_neg h2]
      have hc : x = a → memRead d (c :: t) x = d := by
        intro hx; rw [memRead, if_neg (by omega)]; exact hlow (by omega)
      by_cases hx : x = a
      · rw [if_pos hx]
        by_cases hb : b = d
        · rw [if_pos hb, hc hx, hb]
        · rw [if_neg hb, memRead, if_pos hx.symm]
      · rw [if_neg hx]
        split
        · rfl
        · rw [memRead, if_neg (fun e => hx e.symm)]

theorem memClear_wf {d : Byte} {lo n k : Nat} {m : Memory} (h : memWfFrom d k m = true) :
    memWfFrom d k (memClear m lo n) = true := by
  induction m generalizing k with
  | nil => rfl
  | cons c t ih =>
    rw [memWfFrom_cons] at h
    have ih := ih h.2.2
    simp only [memClear, List.filter_cons] at *
    split
    · exact (memWfFrom_cons ..).2 ⟨h.1, h.2.1, ih⟩
    · exact memWfFrom_mono ih (by omega)

/-- What a byte reads as after a block erase (R215). -/
theorem memRead_memClear (d : Byte) (m : Memory) (lo n x : Nat) :
    memRead d (memClear m lo n) x = if lo ≤ x ∧ x < lo + n then d else memRead d m x := by
  induction m with
  | nil => simp [memClear, memRead]
  | cons c t ih =>
    simp only [memClear, List.filter_cons] at *
    by_cases hc : lo ≤ c.1 ∧ c.1 < lo + n
    · simp only [hc, decide_true, Bool.and_self, Bool.not_true, Bool.false_eq_true, if_false, ih, memRead]
      by_cases hx : lo ≤ x ∧ x < lo + n
      · simp [hx]
      · rw [if_neg hx, if_neg hx, if_neg (by rintro rfl; exact hx hc)]
    · have : (!(decide (lo ≤ c.1) && decide (c.1 < lo + n))) = true := by
        simp only [Bool.not_eq_true', Bool.and_eq_false_iff, decide_eq_false_iff_not]; omega
      simp only [this, if_true, memRead, ih]
      by_cases hx : c.1 = x
      · subst hx; simp [hc]
      · simp [hx]

/-! ## In terms of `Memory.wf` -/

theorem memWrite_wf {d : Byte} {m : Memory} (h : Memory.wf d m = true) (a : Nat) (b : Byte) :
    Memory.wf d (memWrite d m a b) = true := memWfFrom_memWrite h (Nat.zero_le a)

/-- A read after a write: the byte written at its address, every other byte as before. -/
theorem memRead_memWrite {d : Byte} {m : Memory} (h : Memory.wf d m = true) (a : Nat) (b : Byte) (x : Nat) :
    memRead d (memWrite d m a b) x = if x = a then b else memRead d m x := memRead_memWrite_from h x

theorem flashProgram_wf {cfg : Config.Params} {m : Memory} (h : Memory.wf cfg.erasedByte m = true) (a : Nat)
    (data : List Byte) :
    Memory.wf cfg.erasedByte (flashProgram cfg m a data) = true := by
  induction data generalizing m a with
  | nil => exact h
  | cons b t ih => exact ih (memWrite_wf h ..) _

/-- What a byte of `FLASH` reads as after a page program (R214). -/
theorem flashRead_flashProgram {cfg : Config.Params} {m : Memory} (h : Memory.wf cfg.erasedByte m = true) (a : Nat)
    (data : List Byte)
    (x : Nat) : flashRead cfg (flashProgram cfg m a data) x =
      if a ≤ x ∧ x < a + data.length then flashRead cfg m x &&& data.getD (x - a) 0#8 else flashRead cfg m x := by
  induction data generalizing m a with
  | nil => rw [if_neg (by simp)]; rfl
  | cons b t ih =>
    rw [flashProgram, ih (memWrite_wf h ..)]
    simp only [flashRead, memRead_memWrite h, List.length_cons]
    by_cases hx : x = a
    · subst hx; simp
    · by_cases hr : a ≤ x ∧ x < a + (t.length + 1)
      · have e : x - a = (x - (a + 1)) + 1 := by omega
        rw [if_pos hr, if_pos (by omega), if_neg hx, e, List.getD_cons_succ]
      · rw [if_neg hr, if_neg (by omega), if_neg hx]

theorem memClear_memory_wf {d : Byte} {m : Memory} (h : Memory.wf d m = true) (lo n : Nat) :
    Memory.wf d (memClear m lo n) = true := memClear_wf h

theorem otpSetBit_wf {m : Memory} (h : Memory.wf Config.freshOtpByte m = true) (w k : Nat) :
    Memory.wf Config.freshOtpByte (otpSetBit m w k) = true := memWrite_wf h ..

/-- What a byte of OTP reads as after a bit is programmed (R132): that bit 1 as well, every other byte as before. -/
theorem otpByte_otpSetBit {m : Memory} (h : Memory.wf Config.freshOtpByte m = true) (w k o : Nat) :
    otpByte (otpSetBit m w k) o =
      if o = 4 * w + k / 8 then otpByte m o ||| (1#8 <<< (k % 8)) else otpByte m o := by
  rw [otpByte, otpSetBit, memRead_memWrite h]
  split
  · next e => subst e; rfl
  · rfl

theorem memWf_nil (d : Byte) : Memory.wf d [] = true := rfl

end Sys2Proof.Machine
end

