-- ==== Sys2Proof/Laws/Operands.lean ====
section
/-! SUPPORT. The laws of the operand forms: fields of a composed address, byte lanes of a word, the head/body/tail
split, address bytes, page chunks. -/

namespace Sys2Proof.Machine

open Sys2Proof

/-! ## ComposeAddr (R101) -/

theorem composeAddr_toNat {a w : Nat} (k : BitVec 5) (ha : a ≤ 27) (hw : w < 2 ^ a) :
    (composeAddr a (BitVec.ofNat 32 w) k).toNat = w + k.toNat * 2 ^ a := by
  have hp : 2 ^ a ≤ 2 ^ 27 := Nat.pow_le_pow_right (by omega) ha
  have hk := k.isLt
  have h1 : k.toNat * 2 ^ a < 2 ^ 32 := by
    calc k.toNat * 2 ^ a < 2 ^ 5 * 2 ^ a := Nat.mul_lt_mul_of_pos_right hk (Nat.two_pow_pos a)
      _ = 2 ^ (5 + a) := by rw [← Nat.pow_add]
      _ ≤ 2 ^ 32 := Nat.pow_le_pow_right (by omega) (by omega)
  simp only [composeAddr, BitVec.toNat_or, BitVec.toNat_ofNat, BitVec.toNat_shiftLeft, BitVec.toNat_setWidth]
  rw [Nat.mod_eq_of_lt (show w < 2 ^ 32 by omega), Nat.mod_eq_of_lt (show k.toNat < 2 ^ 32 by omega),
    Nat.shiftLeft_eq, Nat.mod_eq_of_lt h1, Nat.or_comm, Nat.mul_comm, Nat.add_comm]
  exact (Nat.two_pow_add_eq_or_of_lt hw k.toNat).symm

/-- The word field of a composed address is the word index (R101, R132). -/
theorem addrWord_composeAddr {a w : Nat} (k : BitVec 5) (ha : a ≤ 27) (hw : w < 2 ^ a) :
    addrWord a (composeAddr a (BitVec.ofNat 32 w) k) = w := by
  rw [addrWord, composeAddr_toNat k ha hw, Nat.add_mul_mod_self_right, Nat.mod_eq_of_lt hw]

/-- The bit field of a composed address is the bit index (R101, R132). -/
theorem addrBit_composeAddr {a w : Nat} (k : BitVec 5) (ha : a ≤ 27) (hw : w < 2 ^ a) :
    addrBit a (composeAddr a (BitVec.ofNat 32 w) k) = k.toNat := by
  rw [addrBit, composeAddr_toNat k ha hw, Nat.add_mul_div_right _ _ (Nat.two_pow_pos a), Nat.div_eq_of_lt hw,
    Nat.zero_add, Nat.mod_eq_of_lt (by have := k.isLt; omega)]

/-! ## Byte lanes (R75) -/

theorem lane_getLsbD (v : Word) (l j : Nat) : (lane v l).getLsbD j = (decide (j < 8) && v.getLsbD (8 * l + j)) := by
  simp [lane]

/-- Lane `l` of a word of OTP is its byte `4w + l` (R75). -/
theorem lane_otpWord (m : Memory) (w l : Nat) (hl : l < 4) : lane (otpWord m w) l = otpByte m (4 * w + l) := by
  apply BitVec.eq_of_getLsbD_eq
  intro j hj
  have hl : l = 0 ∨ l = 1 ∨ l = 2 ∨ l = 3 := by omega
  obtain rfl | rfl | rfl | rfl := hl <;>
    simp [lane, otpWord, unle32, hj] <;> grind

/-- Two words with the same lanes are equal. -/
theorem word_ext_lane {v w : Word} (h : ∀ l, l < 4 → lane v l = lane w l) : v = w := by
  apply BitVec.eq_of_getLsbD_eq
  intro i hi
  have := congrArg (fun b => b.getLsbD (i % 8)) (h (i / 8) (by omega))
  simp only [lane_getLsbD, show i % 8 < 8 by omega, decide_true, Bool.true_and] at this
  rwa [show 8 * (i / 8) + i % 8 = i by omega] at this

theorem lane_or (v w : Word) (l : Nat) : lane (v ||| w) l = lane v l ||| lane w l := by
  apply BitVec.eq_of_getLsbD_eq
  intro j hj
  simp only [lane_getLsbD, BitVec.getLsbD_or, hj, decide_true, Bool.true_and]

@[simp] theorem lane_zero (l : Nat) : lane 0#32 l = 0#8 := by
  apply BitVec.eq_of_getLsbD_eq
  intro j hj
  simp only [lane_getLsbD, BitVec.getLsbD_zero, Bool.and_false]

theorem lane_shift_byte (b : Byte) (l i : Nat) (hi : i < 4) :
    lane (b.setWidth 32 <<< (8 * l)) i = if i = l then b else 0#8 := by
  apply BitVec.eq_of_getLsbD_eq
  intro j hj
  rw [lane_getLsbD]
  simp only [BitVec.getLsbD_shiftLeft, BitVec.getLsbD_setWidth, hj, decide_true, Bool.true_and]
  split
  · next h =>
    subst h
    have : 8 * i + j < 32 := by omega
    simp [this]
    omega
  · next h =>
    simp only [BitVec.getLsbD_zero]
    by_cases hlt : 8 * i + j < 8 * l
    · simp [hlt]
    · have : 8 ≤ 8 * i + j - 8 * l := by omega
      simp [BitVec.getLsbD_of_ge b _ this]

/-- The bytes of a write segment stand in their lanes, zeros elsewhere (R152). -/
theorem lane_placeBytes (l : Nat) (bytes : List Byte) (i : Nat) (hi : i < 4) :
    lane (placeBytes l bytes) i = if l ≤ i then bytes.getD (i - l) 0#8 else 0#8 := by
  induction bytes generalizing l with
  | nil => simp [placeBytes]
  | cons b t ih =>
    rw [placeBytes, lane_or, ih, lane_shift_byte _ _ _ hi]
    by_cases h : i = l
    · subst h; simp
    · by_cases h2 : l ≤ i
      · have e : i - l = (i - (l + 1)) + 1 := by omega
        rw [if_neg h, if_pos h2, if_pos (by omega), e, List.getD_cons_succ]
        simp
      · rw [if_neg h, if_neg h2, if_neg (by omega)]; simp

/-! ## Split (R150) -/

/-- What a read of the segments gives, byte by byte, when word `w` reads as the four bytes `f (4w) ..`. -/
def readOut (f : Nat → Byte) (gs : List Segment) : List Byte :=
  gs.flatMap fun g => (List.range g.n).map fun i => f (4 * g.word + g.lane + i)

theorem readOut_splitBody (f : Nat → Byte) (fuel off cnt ptr : Nat) (ho : off % 4 = 0) (hf : cnt ≤ fuel) :
    readOut f (splitBody fuel off cnt ptr) = (List.range cnt).map fun j => f (off + j) := by
  induction fuel generalizing off cnt ptr with
  | zero =>
    obtain rfl : cnt = 0 := by omega
    rfl
  | succ n ih =>
    rw [splitBody]
    split
    · next h =>
      have e : cnt = 4 + (cnt - 4) := by omega
      have he : 4 * (off / 4) + 0 = off := by omega
      have := ih (off + 4) (cnt - 4) (ptr + 4) (by omega) (by omega)
      simp only [readOut, List.flatMap_cons] at this ⊢
      rw [this, he, e, List.range_add, List.map_append, List.map_map]
      congr 1
      simp only [Nat.add_sub_cancel_left]
      apply List.map_congr_left
      intro j _
      simp only [Function.comp_apply]
      congr 1
      omega
    · split
      · have he : 4 * (off / 4) + 0 = off := by omega
        simp [readOut, he]
      · obtain rfl : cnt = 0 := by omega
        rfl

/-- The segments of a range read exactly its bytes, in order (R150, R156). -/
theorem readOut_split (f : Nat → Byte) (off cnt : Nat) :
    readOut f (split off cnt) = (List.range cnt).map fun j => f (off + j) := by
  unfold split
  split
  · next h =>
    generalize hn : min (4 - off % 4) cnt = n
    dsimp only
    have hle : n ≤ cnt := by omega
    by_cases hc : cnt = n
    · have hb : splitBody cnt (off + n) (cnt - n) n = [] := by
        have : cnt - n = 0 := by omega
        rw [this]
        cases cnt <;> simp [splitBody]
      have he : 4 * (off / 4) + off % 4 = off := by omega
      rw [hb, ← hc]
      simp only [readOut, List.flatMap_cons, List.flatMap_nil, List.append_nil, he]
    · have hm : (off + n) % 4 = 0 := by omega
      have := readOut_splitBody f cnt (off + n) (cnt - n) n hm (by omega)
      have he : 4 * (off / 4) + off % 4 = off := by omega
      simp only [readOut, List.flatMap_cons] at this ⊢
      rw [this, he]
      conv_rhs => rw [show cnt = n + (cnt - n) by omega, List.range_add, List.map_append, List.map_map]
      congr 1
      apply List.map_congr_left
      intro j _
      simp only [Function.comp_apply]
      congr 1
      omega
  · next h =>
    by_cases hc : cnt = 0
    · subst hc; simp [readOut, splitBody]
    · exact readOut_splitBody f cnt off cnt 0 (by omega) le_rfl

/-- The byte the segments of `gs` put at offset `o` of the OTP space, for the buffer `data`. -/
def placed (data : List Byte) (gs : List Segment) (o : Nat) : Byte :=
  gs.foldr (fun g acc => (if o / 4 = g.word then lane (placeBytes g.lane (segmentData g data)) (o % 4) else 0#8) ||| acc)
    0#8

theorem segmentData_getD (g : Segment) (data : List Byte) (i : Nat) :
    (segmentData g data).getD i 0#8 = if i < g.n then data.getD (g.ptr + i) 0#8 else 0#8 := by
  simp only [segmentData, List.getD_eq_getElem?_getD, List.getElem?_take]
  split
  · rw [List.getElem?_drop]
  · rfl

/-- What one segment puts at an offset. -/
theorem placed_one (data : List Byte) (g : Segment) (o : Nat) (hg : g.lane + g.n ≤ 4) :
    (if o / 4 = g.word then lane (placeBytes g.lane (segmentData g data)) (o % 4) else 0#8) =
      if 4 * g.word + g.lane ≤ o ∧ o < 4 * g.word + g.lane + g.n
      then data.getD (g.ptr + (o - (4 * g.word + g.lane))) 0#8 else 0#8 := by
  by_cases hw : o / 4 = g.word
  · rw [if_pos hw, lane_placeBytes _ _ _ (by omega)]
    by_cases hl : g.lane ≤ o % 4
    · rw [if_pos hl, segmentData_getD]
      by_cases hn : o % 4 - g.lane < g.n
      · rw [if_pos hn, if_pos (by omega)]
        congr 2
        omega
      · rw [if_neg hn, if_neg (by omega)]
    · rw [if_neg hl, if_neg (by omega)]
  · rw [if_neg hw, if_neg (by omega)]

theorem placed_splitBody (data : List Byte) (fuel off cnt ptr o : Nat) (ho : off % 4 = 0) (hf : cnt ≤ fuel) :
    placed data (splitBody fuel off cnt ptr) o =
      if off ≤ o ∧ o < off + cnt then data.getD (ptr + (o - off)) 0#8 else 0#8 := by
  induction fuel generalizing off cnt ptr with
  | zero => rw [if_neg (by omega)]; rfl
  | succ n ih =>
    rw [splitBody]
    have he : 4 * (off / 4) + 0 = off := by omega
    split
    · next h =>
      have := ih (off + 4) (cnt - 4) (ptr + 4) (by omega) (by omega)
      simp only [placed, List.foldr_cons] at this ⊢
      rw [this, placed_one data ⟨off / 4, 0, 4, ptr⟩ o (by simp)]
      simp only [he]
      by_cases h1 : off ≤ o ∧ o < off + 4
      · rw [if_pos h1, if_neg (by omega), if_pos (by omega)]; simp
      · rw [if_neg h1]
        by_cases h2 : off + 4 ≤ o ∧ o < off + 4 + (cnt - 4)
        · rw [if_pos h2, if_pos (by omega), BitVec.zero_or]; congr 1; omega
        · rw [if_neg h2, if_neg (by omega), BitVec.zero_or]
    · split
      · simp only [placed, List.foldr_cons, List.foldr_nil]
        rw [placed_one data ⟨off / 4, 0, cnt, ptr⟩ o (by simp; omega)]
        simp only [he, BitVec.or_zero]
      · rw [if_neg (by omega)]; rfl

/-- The segments of a range put exactly the buffer's bytes at its offsets (R150, R156). -/
theorem placed_split (data : List Byte) (off cnt o : Nat) :
    placed data (split off cnt) o = if off ≤ o ∧ o < off + cnt then data.getD (o - off) 0#8 else 0#8 := by
  unfold split
  split
  · next h =>
    generalize hn : min (4 - off % 4) cnt = n
    dsimp only
    have he : 4 * (off / 4) + off % 4 = off := by omega
    have hb : placed data (splitBody cnt (off + n) (cnt - n) n) o =
        if off + n ≤ o ∧ o < off + n + (cnt - n) then data.getD (n + (o - (off + n))) 0#8 else 0#8 := by
      by_cases hc : cnt = n
      · have hb : splitBody cnt (off + n) (cnt - n) n = [] := by
          have : cnt - n = 0 := by omega
          rw [this]
          cases cnt <;> simp [splitBody]
        rw [hb, if_neg (by omega)]; rfl
      · exact placed_splitBody data cnt (off + n) (cnt - n) n o (by omega) (by omega)
    have h1 := placed_one data ⟨off / 4, off % 4, n, 0⟩ o (by simp; omega)
    simp only [placed, List.foldr_cons] at hb ⊢
    rw [hb, h1]
    simp only [he, Nat.zero_add]
    by_cases h2 : off ≤ o ∧ o < off + n
    · rw [if_pos h2, if_neg (by omega), if_pos (by omega)]; simp
    · rw [if_neg h2]
      by_cases h3 : off + n ≤ o ∧ o < off + n + (cnt - n)
      · rw [if_pos h3, if_pos (by omega), BitVec.zero_or]; congr 1; omega
      · rw [if_neg h3, if_neg (by omega), BitVec.zero_or]
  · next h =>
    by_cases hc : cnt = 0
    · subst hc; rw [if_neg (by omega)]; rfl
    · simpa using placed_splitBody data cnt off cnt 0 o (by omega) le_rfl

/-- Every segment of a range lies in one word of the array that holds the range (R94, R150). -/
theorem split_bounds {off cnt words : Nat} (h : off + cnt ≤ 4 * words) :
    ∀ g ∈ split off cnt, g.word < words ∧ g.lane + g.n ≤ 4 := by
  have body : ∀ fuel off cnt ptr, off % 4 = 0 → off + cnt ≤ 4 * words →
      ∀ g ∈ splitBody fuel off cnt ptr, g.word < words ∧ g.lane + g.n ≤ 4 := by
    intro fuel
    induction fuel with
    | zero => intro off cnt ptr _ _ g hg; simp [splitBody] at hg
    | succ n ih =>
      intro off cnt ptr ho hc g hg
      rw [splitBody] at hg
      split at hg
      · obtain rfl | hg := List.mem_cons.1 hg
        · exact ⟨by dsimp only; omega, by simp⟩
        · exact ih (off + 4) (cnt - 4) (ptr + 4) (by omega) (by omega) g hg
      · split at hg
        · obtain rfl := List.mem_singleton.1 hg
          exact ⟨by dsimp only; omega, by dsimp only; omega⟩
        · simp at hg
  intro g hg
  unfold split at hg
  split at hg
  · next hs =>
    dsimp only at hg
    obtain rfl | hg := List.mem_cons.1 hg
    · exact ⟨by dsimp only; omega, by dsimp only; omega⟩
    · generalize hn : min (4 - off % 4) cnt = n at hg
      by_cases hc : cnt = n
      · have : splitBody cnt (off + n) (cnt - n) n = [] := by
          have : cnt - n = 0 := by omega
          rw [this]
          cases cnt <;> simp [splitBody]
        rw [this] at hg; simp at hg
      · exact body _ _ _ _ (by omega) (by omega) g hg
  · next hs =>
    by_cases hc : cnt = 0
    · subst hc; simp [splitBody] at hg
    · exact body _ _ _ _ (by omega) h g hg

/-! ## Address bytes (R105) -/

theorem addrBytes_length (a : Word) (n : Nat) : (addrBytes a n).length = n := by
  induction n with
  | zero => rfl
  | succ k ih => simp [addrBytes, ih]

theorem addrNumber_fold (bytes : List Byte) (x : Nat) :
    bytes.foldl (fun acc b => acc * 256 + b.toNat) x = x * 256 ^ bytes.length + addrNumber bytes := by
  induction bytes generalizing x with
  | nil => simp [addrNumber]
  | cons b t ih =>
    have h0 : addrNumber (b :: t) = b.toNat * 256 ^ t.length + addrNumber t := by
      rw [addrNumber, List.foldl_cons, ih, Nat.zero_mul, Nat.zero_add]
    rw [List.foldl_cons, ih, h0, List.length_cons, Nat.pow_succ]
    ring

/-- The part reads from the address bytes the number they were made from (R105, R212). -/
theorem addrNumber_addrBytes (a : Word) (n : Nat) : addrNumber (addrBytes a n) = a.toNat % 256 ^ n := by
  induction n with
  | zero => simp [addrBytes, addrNumber, Nat.mod_one]
  | succ k ih =>
    rw [addrBytes, addrNumber, List.foldl_cons, addrNumber_fold, addrBytes_length, ih]
    have h8 : (256 : Nat) ^ k = 2 ^ (8 * k) := by rw [Nat.pow_mul]
    simp only [BitVec.toNat_setWidth, BitVec.toNat_ushiftRight, Nat.shiftRight_eq_div_pow, ← h8]
    rw [show 256 ^ (k + 1) = 256 ^ k * 256 from Nat.pow_succ .., Nat.mod_mul, Nat.add_comm, Nat.mul_comm]
    norm_num

/-! ## Chunks (R106) -/

theorem chunkLen_pos {p addr rem : Nat} (hp : 0 < p) (hr : 0 < rem) : 0 < chunkLen p addr rem := by
  have := Nat.mod_lt addr hp
  simp only [chunkLen]
  omega

theorem chunkLen_le {p addr rem : Nat} : chunkLen p addr rem ≤ rem := Nat.min_le_right ..

theorem chunkLen_page {p addr rem : Nat} : chunkLen p addr rem ≤ p - addr % p := Nat.min_le_left ..

end Sys2Proof.Machine
end

