-- ==== Sys2Proof/Laws/State.lean ====
section
/-! SUPPORT. What each named update of the state leaves in each field: one lemma per field and update, true by
definition, so that no later proof unfolds an update. -/

namespace Sys2Proof.Machine

open Sys2Proof

/-! `EfuseUnit.done` -/

@[simp] theorem EfuseUnit.done_ctl (cfg : Config.Params) (u : EfuseUnit) : (u.done cfg).ctl = u.ctl := rfl
@[simp] theorem EfuseUnit.done_wordsSet (cfg : Config.Params) (u : EfuseUnit) : (u.done cfg).wordsSet = u.wordsSet :=
    rfl
@[simp] theorem EfuseUnit.done_mode (cfg : Config.Params) (u : EfuseUnit) : (u.done cfg).mode = modeLeft cfg u.mode :=
    rfl
@[simp] theorem EfuseUnit.done_addr (cfg : Config.Params) (u : EfuseUnit) : (u.done cfg).addr = u.addr := rfl
@[simp] theorem EfuseUnit.done_rdData (cfg : Config.Params) (u : EfuseUnit) : (u.done cfg).rdData = u.rdData := rfl
@[simp] theorem EfuseUnit.done_busy (cfg : Config.Params) (u : EfuseUnit) : (u.done cfg).busy = false := rfl
@[simp] theorem EfuseUnit.done_ephase (cfg : Config.Params) (u : EfuseUnit) : (u.done cfg).ephase = .idle := rfl
@[simp] theorem EfuseUnit.done_otp (cfg : Config.Params) (u : EfuseUnit) : (u.done cfg).otp = u.otp := rfl
@[simp] theorem EfuseUnit.done_work (cfg : Config.Params) (u : EfuseUnit) : (u.done cfg).work = u.work := rfl
@[simp] theorem EfuseUnit.done_sched (cfg : Config.Params) (u : EfuseUnit) : (u.done cfg).sched = u.sched := rfl
@[simp] theorem EfuseUnit.done_live (cfg : Config.Params) (u : EfuseUnit) : (u.done cfg).live = u.live := rfl
@[simp] theorem EfuseUnit.done_draws (cfg : Config.Params) (u : EfuseUnit) : (u.done cfg).draws = u.draws := rfl
@[simp] theorem EfuseUnit.done_trace (cfg : Config.Params) (u : EfuseUnit) : (u.done cfg).trace = u.trace := rfl

/-! `EfuseUnit.load` -/

@[simp] theorem EfuseUnit.load_ctl (b : List Byte) (u : EfuseUnit) : (u.load b).ctl = u.ctl := rfl
@[simp] theorem EfuseUnit.load_wordsSet (b : List Byte) (u : EfuseUnit) : (u.load b).wordsSet = u.wordsSet := rfl
@[simp] theorem EfuseUnit.load_mode (b : List Byte) (u : EfuseUnit) : (u.load b).mode = u.mode := rfl
@[simp] theorem EfuseUnit.load_addr (b : List Byte) (u : EfuseUnit) : (u.load b).addr = u.addr := rfl
@[simp] theorem EfuseUnit.load_rdData (b : List Byte) (u : EfuseUnit) : (u.load b).rdData = u.rdData := rfl
@[simp] theorem EfuseUnit.load_busy (b : List Byte) (u : EfuseUnit) : (u.load b).busy = u.busy := rfl
@[simp] theorem EfuseUnit.load_ephase (b : List Byte) (u : EfuseUnit) : (u.load b).ephase = u.ephase := rfl
@[simp] theorem EfuseUnit.load_otp (b : List Byte) (u : EfuseUnit) : (u.load b).otp = u.otp := rfl
@[simp] theorem EfuseUnit.load_work (b : List Byte) (u : EfuseUnit) : (u.load b).work = { u.work with buf := b } := rfl
@[simp] theorem EfuseUnit.load_sched (b : List Byte) (u : EfuseUnit) : (u.load b).sched = u.sched := rfl
@[simp] theorem EfuseUnit.load_live (b : List Byte) (u : EfuseUnit) : (u.load b).live = u.live := rfl
@[simp] theorem EfuseUnit.load_draws (b : List Byte) (u : EfuseUnit) : (u.load b).draws = u.draws := rfl
@[simp] theorem EfuseUnit.load_trace (b : List Byte) (u : EfuseUnit) : (u.load b).trace = u.trace := rfl

/-! `EfuseUnit.retire` -/

@[simp] theorem EfuseUnit.retire_ctl (u : EfuseUnit) : u.retire.ctl = u.ctl := rfl
@[simp] theorem EfuseUnit.retire_wordsSet (u : EfuseUnit) : u.retire.wordsSet = u.wordsSet := rfl
@[simp] theorem EfuseUnit.retire_mode (u : EfuseUnit) : u.retire.mode = u.mode := rfl
@[simp] theorem EfuseUnit.retire_addr (u : EfuseUnit) : u.retire.addr = u.addr := rfl
@[simp] theorem EfuseUnit.retire_rdData (u : EfuseUnit) : u.retire.rdData = u.rdData := rfl
@[simp] theorem EfuseUnit.retire_busy (u : EfuseUnit) : u.retire.busy = u.busy := rfl
@[simp] theorem EfuseUnit.retire_ephase (u : EfuseUnit) : u.retire.ephase = u.ephase := rfl
@[simp] theorem EfuseUnit.retire_otp (u : EfuseUnit) : u.retire.otp = u.otp := rfl
@[simp] theorem EfuseUnit.retire_sched (u : EfuseUnit) : u.retire.sched = u.sched := rfl
@[simp] theorem EfuseUnit.retire_live (u : EfuseUnit) : u.retire.live = u.live := rfl
@[simp] theorem EfuseUnit.retire_draws (u : EfuseUnit) : u.retire.draws = u.draws + 4 := rfl
@[simp] theorem EfuseUnit.retire_trace (u : EfuseUnit) : u.retire.trace = u.trace := rfl

/-! `EfuseUnit.start` -/

@[simp] theorem EfuseUnit.start_ctl (o c : Word) (b : List Byte) (u : EfuseUnit) : (u.start o c b).ctl = u.ctl := rfl
@[simp] theorem EfuseUnit.start_wordsSet (o c : Word) (b : List Byte) (u : EfuseUnit) :
    (u.start o c b).wordsSet = u.wordsSet := rfl
@[simp] theorem EfuseUnit.start_mode (o c : Word) (b : List Byte) (u : EfuseUnit) : (u.start o c b).mode = u.mode := rfl
@[simp] theorem EfuseUnit.start_addr (o c : Word) (b : List Byte) (u : EfuseUnit) : (u.start o c b).addr = u.addr := rfl
@[simp] theorem EfuseUnit.start_rdData (o c : Word) (b : List Byte) (u : EfuseUnit) :
    (u.start o c b).rdData = u.rdData := rfl
@[simp] theorem EfuseUnit.start_busy (o c : Word) (b : List Byte) (u : EfuseUnit) : (u.start o c b).busy = u.busy := rfl
@[simp] theorem EfuseUnit.start_ephase (o c : Word) (b : List Byte) (u : EfuseUnit) :
    (u.start o c b).ephase = u.ephase := rfl
@[simp] theorem EfuseUnit.start_otp (o c : Word) (b : List Byte) (u : EfuseUnit) : (u.start o c b).otp = u.otp := rfl
@[simp] theorem EfuseUnit.start_work (o c : Word) (b : List Byte) (u : EfuseUnit) :
    (u.start o c b).work = { u.work with off := o, cnt := c, ptr := 0#32, buf := b } := rfl
@[simp] theorem EfuseUnit.start_sched (o c : Word) (b : List Byte) (u : EfuseUnit) : (u.start o c b).sched = u.sched :=
    rfl
@[simp] theorem EfuseUnit.start_live (o c : Word) (b : List Byte) (u : EfuseUnit) : (u.start o c b).live = u.live := rfl
@[simp] theorem EfuseUnit.start_draws (o c : Word) (b : List Byte) (u : EfuseUnit) : (u.start o c b).draws = u.draws :=
    rfl
@[simp] theorem EfuseUnit.start_trace (o c : Word) (b : List Byte) (u : EfuseUnit) : (u.start o c b).trace = u.trace :=
    rfl

/-! `SpiUnit.setPhase` -/

@[simp] theorem SpiUnit.setPhase_board (p : SPhase) (u : SpiUnit) : (u.setPhase p).board = u.board := rfl
@[simp] theorem SpiUnit.setPhase_ctl (p : SPhase) (u : SpiUnit) : (u.setPhase p).ctl = { u.ctl with sphase := p } := rfl
@[simp] theorem SpiUnit.setPhase_part (p : SPhase) (u : SpiUnit) : (u.setPhase p).part = u.part := rfl
@[simp] theorem SpiUnit.setPhase_record (p : SPhase) (u : SpiUnit) : (u.setPhase p).record = u.record := rfl
@[simp] theorem SpiUnit.setPhase_work (p : SPhase) (u : SpiUnit) : (u.setPhase p).work = u.work := rfl
@[simp] theorem SpiUnit.setPhase_sched (p : SPhase) (u : SpiUnit) : (u.setPhase p).sched = u.sched := rfl
@[simp] theorem SpiUnit.setPhase_live (p : SPhase) (u : SpiUnit) : (u.setPhase p).live = u.live := rfl
@[simp] theorem SpiUnit.setPhase_draws (p : SPhase) (u : SpiUnit) : (u.setPhase p).draws = u.draws := rfl
@[simp] theorem SpiUnit.setPhase_trace (p : SPhase) (u : SpiUnit) : (u.setPhase p).trace = u.trace := rfl
@[simp] theorem SpiUnit.setPhase_frames (p : SPhase) (u : SpiUnit) : (u.setPhase p).frames = u.frames := rfl

/-! `SpiUnit.load` -/

@[simp] theorem SpiUnit.load_board (b : List Byte) (u : SpiUnit) : (u.load b).board = u.board := rfl
@[simp] theorem SpiUnit.load_ctl (b : List Byte) (u : SpiUnit) : (u.load b).ctl = u.ctl := rfl
@[simp] theorem SpiUnit.load_part (b : List Byte) (u : SpiUnit) : (u.load b).part = u.part := rfl
@[simp] theorem SpiUnit.load_record (b : List Byte) (u : SpiUnit) : (u.load b).record = u.record := rfl
@[simp] theorem SpiUnit.load_work (b : List Byte) (u : SpiUnit) : (u.load b).work = { u.work with buf := b } := rfl
@[simp] theorem SpiUnit.load_sched (b : List Byte) (u : SpiUnit) : (u.load b).sched = u.sched := rfl
@[simp] theorem SpiUnit.load_live (b : List Byte) (u : SpiUnit) : (u.load b).live = u.live := rfl
@[simp] theorem SpiUnit.load_draws (b : List Byte) (u : SpiUnit) : (u.load b).draws = u.draws := rfl
@[simp] theorem SpiUnit.load_trace (b : List Byte) (u : SpiUnit) : (u.load b).trace = u.trace := rfl
@[simp] theorem SpiUnit.load_frames (b : List Byte) (u : SpiUnit) : (u.load b).frames = u.frames := rfl

/-! `SpiUnit.retire` -/

@[simp] theorem SpiUnit.retire_board (u : SpiUnit) : u.retire.board = u.board := rfl
@[simp] theorem SpiUnit.retire_ctl (u : SpiUnit) : u.retire.ctl = u.ctl := rfl
@[simp] theorem SpiUnit.retire_part (u : SpiUnit) : u.retire.part = u.part := rfl
@[simp] theorem SpiUnit.retire_record (u : SpiUnit) : u.retire.record = u.record := rfl
@[simp] theorem SpiUnit.retire_sched (u : SpiUnit) : u.retire.sched = u.sched := rfl
@[simp] theorem SpiUnit.retire_live (u : SpiUnit) : u.retire.live = u.live := rfl
@[simp] theorem SpiUnit.retire_draws (u : SpiUnit) : u.retire.draws = u.draws + 9 := rfl
@[simp] theorem SpiUnit.retire_trace (u : SpiUnit) : u.retire.trace = u.trace := rfl
@[simp] theorem SpiUnit.retire_frames (u : SpiUnit) : u.retire.frames = u.frames := rfl

/-! `SpiUnit.bounce` -/

@[simp] theorem SpiUnit.bounce_board (b : List Byte) (u : SpiUnit) : (u.bounce b).board = u.board := rfl
@[simp] theorem SpiUnit.bounce_ctl (b : List Byte) (u : SpiUnit) : (u.bounce b).ctl = u.ctl := rfl
@[simp] theorem SpiUnit.bounce_part (b : List Byte) (u : SpiUnit) : (u.bounce b).part = u.part := rfl
@[simp] theorem SpiUnit.bounce_record (b : List Byte) (u : SpiUnit) : (u.bounce b).record = u.record := rfl
@[simp] theorem SpiUnit.bounce_work (b : List Byte) (u : SpiUnit) :
    (u.bounce b).work = { u.work with bounce := b ++ u.work.bounce.drop b.length } := rfl
@[simp] theorem SpiUnit.bounce_sched (b : List Byte) (u : SpiUnit) : (u.bounce b).sched = u.sched := rfl
@[simp] theorem SpiUnit.bounce_live (b : List Byte) (u : SpiUnit) : (u.bounce b).live = u.live := rfl
@[simp] theorem SpiUnit.bounce_draws (b : List Byte) (u : SpiUnit) : (u.bounce b).draws = u.draws := rfl
@[simp] theorem SpiUnit.bounce_trace (b : List Byte) (u : SpiUnit) : (u.bounce b).trace = u.trace := rfl
@[simp] theorem SpiUnit.bounce_frames (b : List Byte) (u : SpiUnit) : (u.bounce b).frames = u.frames := rfl

/-! `SpiUnit.setResolved` -/

@[simp] theorem SpiUnit.setResolved_board (g : Resolved) (u : SpiUnit) : (u.setResolved g).board = u.board := rfl
@[simp] theorem SpiUnit.setResolved_ctl (g : Resolved) (u : SpiUnit) : (u.setResolved g).ctl = u.ctl := rfl
@[simp] theorem SpiUnit.setResolved_part (g : Resolved) (u : SpiUnit) : (u.setResolved g).part = u.part := rfl
@[simp] theorem SpiUnit.setResolved_record (g : Resolved) (u : SpiUnit) :
    (u.setResolved g).record = u.record.map (fun r => { r with resolved := some g, inited := false }) := rfl
@[simp] theorem SpiUnit.setResolved_work (g : Resolved) (u : SpiUnit) : (u.setResolved g).work = u.work := rfl
@[simp] theorem SpiUnit.setResolved_sched (g : Resolved) (u : SpiUnit) : (u.setResolved g).sched = u.sched := rfl
@[simp] theorem SpiUnit.setResolved_live (g : Resolved) (u : SpiUnit) : (u.setResolved g).live = u.live := rfl
@[simp] theorem SpiUnit.setResolved_draws (g : Resolved) (u : SpiUnit) : (u.setResolved g).draws = u.draws := rfl
@[simp] theorem SpiUnit.setResolved_trace (g : Resolved) (u : SpiUnit) : (u.setResolved g).trace = u.trace := rfl
@[simp] theorem SpiUnit.setResolved_frames (g : Resolved) (u : SpiUnit) : (u.setResolved g).frames = u.frames := rfl

/-! `SpiUnit.setInited` -/

@[simp] theorem SpiUnit.setInited_board (u : SpiUnit) : u.setInited.board = u.board := rfl
@[simp] theorem SpiUnit.setInited_ctl (u : SpiUnit) : u.setInited.ctl = u.ctl := rfl
@[simp] theorem SpiUnit.setInited_part (u : SpiUnit) : u.setInited.part = u.part := rfl
@[simp] theorem SpiUnit.setInited_record (u : SpiUnit) :
    u.setInited.record = u.record.map (fun r => { r with inited := true }) := rfl
@[simp] theorem SpiUnit.setInited_work (u : SpiUnit) : u.setInited.work = u.work := rfl
@[simp] theorem SpiUnit.setInited_sched (u : SpiUnit) : u.setInited.sched = u.sched := rfl
@[simp] theorem SpiUnit.setInited_live (u : SpiUnit) : u.setInited.live = u.live := rfl
@[simp] theorem SpiUnit.setInited_draws (u : SpiUnit) : u.setInited.draws = u.draws := rfl
@[simp] theorem SpiUnit.setInited_trace (u : SpiUnit) : u.setInited.trace = u.trace := rfl
@[simp] theorem SpiUnit.setInited_frames (u : SpiUnit) : u.setInited.frames = u.frames := rfl

/-! `SpiUnit.atChunk` -/

@[simp] theorem SpiUnit.atChunk_board (p a r i : Nat) (u : SpiUnit) : (u.atChunk p a r i).board = u.board := rfl
@[simp] theorem SpiUnit.atChunk_ctl (p a r i : Nat) (u : SpiUnit) : (u.atChunk p a r i).ctl = u.ctl := rfl
@[simp] theorem SpiUnit.atChunk_part (p a r i : Nat) (u : SpiUnit) : (u.atChunk p a r i).part = u.part := rfl
@[simp] theorem SpiUnit.atChunk_record (p a r i : Nat) (u : SpiUnit) : (u.atChunk p a r i).record = u.record := rfl
@[simp] theorem SpiUnit.atChunk_sched (p a r i : Nat) (u : SpiUnit) : (u.atChunk p a r i).sched = u.sched := rfl
@[simp] theorem SpiUnit.atChunk_live (p a r i : Nat) (u : SpiUnit) : (u.atChunk p a r i).live = u.live := rfl
@[simp] theorem SpiUnit.atChunk_draws (p a r i : Nat) (u : SpiUnit) : (u.atChunk p a r i).draws = u.draws := rfl
@[simp] theorem SpiUnit.atChunk_trace (p a r i : Nat) (u : SpiUnit) : (u.atChunk p a r i).trace = u.trace := rfl
@[simp] theorem SpiUnit.atChunk_frames (p a r i : Nat) (u : SpiUnit) : (u.atChunk p a r i).frames = u.frames := rfl
@[simp] theorem SpiUnit.atChunk_work_buf (p a r i : Nat) (u : SpiUnit) : (u.atChunk p a r i).work.buf = u.work.buf :=
    rfl

/-! `SpiUnit.pastChunks` -/

@[simp] theorem SpiUnit.pastChunks_board (a i : Nat) (u : SpiUnit) : (u.pastChunks a i).board = u.board := rfl
@[simp] theorem SpiUnit.pastChunks_ctl (a i : Nat) (u : SpiUnit) : (u.pastChunks a i).ctl = u.ctl := rfl
@[simp] theorem SpiUnit.pastChunks_part (a i : Nat) (u : SpiUnit) : (u.pastChunks a i).part = u.part := rfl
@[simp] theorem SpiUnit.pastChunks_record (a i : Nat) (u : SpiUnit) : (u.pastChunks a i).record = u.record := rfl
@[simp] theorem SpiUnit.pastChunks_sched (a i : Nat) (u : SpiUnit) : (u.pastChunks a i).sched = u.sched := rfl
@[simp] theorem SpiUnit.pastChunks_live (a i : Nat) (u : SpiUnit) : (u.pastChunks a i).live = u.live := rfl
@[simp] theorem SpiUnit.pastChunks_draws (a i : Nat) (u : SpiUnit) : (u.pastChunks a i).draws = u.draws := rfl
@[simp] theorem SpiUnit.pastChunks_trace (a i : Nat) (u : SpiUnit) : (u.pastChunks a i).trace = u.trace := rfl
@[simp] theorem SpiUnit.pastChunks_frames (a i : Nat) (u : SpiUnit) : (u.pastChunks a i).frames = u.frames := rfl
@[simp] theorem SpiUnit.pastChunks_work_buf (a i : Nat) (u : SpiUnit) : (u.pastChunks a i).work.buf = u.work.buf := rfl

/-! `SpiUnit.atSector` -/

@[simp] theorem SpiUnit.atSector_board (o g n i : Nat) (u : SpiUnit) : (u.atSector o g n i).board = u.board := rfl
@[simp] theorem SpiUnit.atSector_ctl (o g n i : Nat) (u : SpiUnit) : (u.atSector o g n i).ctl = u.ctl := rfl
@[simp] theorem SpiUnit.atSector_part (o g n i : Nat) (u : SpiUnit) : (u.atSector o g n i).part = u.part := rfl
@[simp] theorem SpiUnit.atSector_record (o g n i : Nat) (u : SpiUnit) : (u.atSector o g n i).record = u.record := rfl
@[simp] theorem SpiUnit.atSector_sched (o g n i : Nat) (u : SpiUnit) : (u.atSector o g n i).sched = u.sched := rfl
@[simp] theorem SpiUnit.atSector_live (o g n i : Nat) (u : SpiUnit) : (u.atSector o g n i).live = u.live := rfl
@[simp] theorem SpiUnit.atSector_draws (o g n i : Nat) (u : SpiUnit) : (u.atSector o g n i).draws = u.draws := rfl
@[simp] theorem SpiUnit.atSector_trace (o g n i : Nat) (u : SpiUnit) : (u.atSector o g n i).trace = u.trace := rfl
@[simp] theorem SpiUnit.atSector_frames (o g n i : Nat) (u : SpiUnit) : (u.atSector o g n i).frames = u.frames := rfl
@[simp] theorem SpiUnit.atSector_work_buf (o g n i : Nat) (u : SpiUnit) : (u.atSector o g n i).work.buf = u.work.buf :=
    rfl

/-! `resetController` -/

@[simp] theorem resetController_board (u : SpiUnit) : (resetController u).board = u.board := rfl
@[simp] theorem resetController_ctl (u : SpiUnit) : (resetController u).ctl = SpiCtl.reset := rfl
@[simp] theorem resetController_part (u : SpiUnit) :
    (resetController u).part = { u.part with cut := u.part.cut || u.cutting } := rfl
@[simp] theorem resetController_record (u : SpiUnit) : (resetController u).record = u.record := rfl
@[simp] theorem resetController_work (u : SpiUnit) : (resetController u).work = u.work := rfl
@[simp] theorem resetController_sched (u : SpiUnit) : (resetController u).sched = u.sched := rfl
@[simp] theorem resetController_live (u : SpiUnit) : (resetController u).live = u.live := rfl
@[simp] theorem resetController_draws (u : SpiUnit) : (resetController u).draws = u.draws := rfl
@[simp] theorem resetController_trace (u : SpiUnit) : (resetController u).trace = u.trace := rfl
@[simp] theorem resetController_frames (u : SpiUnit) : (resetController u).frames = u.frames := rfl

/-! `State.answer` -/

@[simp] theorem State.answer_cfg (st : Status) (u : State) : (u.answer st).cfg = u.cfg := rfl
@[simp] theorem State.answer_efuse (st : Status) (u : State) : (u.answer st).efuse = u.efuse := rfl
@[simp] theorem State.answer_spi (st : Status) (u : State) : (u.answer st).spi = u.spi := rfl
@[simp] theorem State.answer_host (st : Status) (u : State) : (u.answer st).host = u.host := rfl
@[simp] theorem State.answer_calls (st : Status) (u : State) : (u.answer st).calls = u.calls := rfl
@[simp] theorem State.answer_status (st : Status) (u : State) : (u.answer st).status = st := rfl
@[simp] theorem State.answer_buf (st : Status) (u : State) : (u.answer st).buf = u.buf := rfl
@[simp] theorem State.answer_outWord (st : Status) (u : State) : (u.answer st).outWord = u.outWord := rfl
@[simp] theorem State.answer_outDev (st : Status) (u : State) : (u.answer st).outDev = u.outDev := rfl
@[simp] theorem State.answer_outInfo (st : Status) (u : State) : (u.answer st).outInfo = u.outInfo := rfl
@[simp] theorem State.answer_outTotal (st : Status) (u : State) : (u.answer st).outTotal = u.outTotal := rfl
@[simp] theorem State.answer_allocs (st : Status) (u : State) : (u.answer st).allocs = u.allocs := rfl

/-! `State.putE` -/

@[simp] theorem State.putE_cfg (b : Nat) (v : EfuseUnit) (u : State) : (u.putE b v).cfg = u.cfg := rfl
@[simp] theorem State.putE_efuse (b : Nat) (v : EfuseUnit) (u : State) : (u.putE b v).efuse = u.efuse.set b v.retire :=
    rfl
@[simp] theorem State.putE_spi (b : Nat) (v : EfuseUnit) (u : State) : (u.putE b v).spi = u.spi := rfl
@[simp] theorem State.putE_host (b : Nat) (v : EfuseUnit) (u : State) : (u.putE b v).host = u.host := rfl
@[simp] theorem State.putE_calls (b : Nat) (v : EfuseUnit) (u : State) : (u.putE b v).calls = u.calls := rfl
@[simp] theorem State.putE_status (b : Nat) (v : EfuseUnit) (u : State) : (u.putE b v).status = u.status := rfl
@[simp] theorem State.putE_buf (b : Nat) (v : EfuseUnit) (u : State) : (u.putE b v).buf = v.work.buf := rfl
@[simp] theorem State.putE_outWord (b : Nat) (v : EfuseUnit) (u : State) : (u.putE b v).outWord = u.outWord := rfl
@[simp] theorem State.putE_outDev (b : Nat) (v : EfuseUnit) (u : State) : (u.putE b v).outDev = u.outDev := rfl
@[simp] theorem State.putE_outInfo (b : Nat) (v : EfuseUnit) (u : State) : (u.putE b v).outInfo = u.outInfo := rfl
@[simp] theorem State.putE_outTotal (b : Nat) (v : EfuseUnit) (u : State) : (u.putE b v).outTotal = u.outTotal := rfl
@[simp] theorem State.putE_allocs (b : Nat) (v : EfuseUnit) (u : State) : (u.putE b v).allocs = u.allocs := rfl

/-! `State.putS` -/

@[simp] theorem State.putS_cfg (d : Nat) (v : SpiUnit) (u : State) : (u.putS d v).cfg = u.cfg := rfl
@[simp] theorem State.putS_efuse (d : Nat) (v : SpiUnit) (u : State) : (u.putS d v).efuse = u.efuse := rfl
@[simp] theorem State.putS_spi (d : Nat) (v : SpiUnit) (u : State) : (u.putS d v).spi = u.spi.set d v.retire := rfl
@[simp] theorem State.putS_host (d : Nat) (v : SpiUnit) (u : State) : (u.putS d v).host = u.host := rfl
@[simp] theorem State.putS_calls (d : Nat) (v : SpiUnit) (u : State) : (u.putS d v).calls = u.calls := rfl
@[simp] theorem State.putS_status (d : Nat) (v : SpiUnit) (u : State) : (u.putS d v).status = u.status := rfl
@[simp] theorem State.putS_buf (d : Nat) (v : SpiUnit) (u : State) : (u.putS d v).buf = v.work.buf := rfl
@[simp] theorem State.putS_outWord (d : Nat) (v : SpiUnit) (u : State) : (u.putS d v).outWord = u.outWord := rfl
@[simp] theorem State.putS_outDev (d : Nat) (v : SpiUnit) (u : State) : (u.putS d v).outDev = u.outDev := rfl
@[simp] theorem State.putS_outInfo (d : Nat) (v : SpiUnit) (u : State) : (u.putS d v).outInfo = u.outInfo := rfl
@[simp] theorem State.putS_outTotal (d : Nat) (v : SpiUnit) (u : State) : (u.putS d v).outTotal = u.outTotal := rfl
@[simp] theorem State.putS_allocs (d : Nat) (v : SpiUnit) (u : State) : (u.putS d v).allocs = u.allocs := rfl

/-! `wordResult` -/

@[simp] theorem wordResult_cfg (v : Word) (u : State) : (wordResult v u).cfg = u.cfg := rfl
@[simp] theorem wordResult_efuse (v : Word) (u : State) : (wordResult v u).efuse = u.efuse := rfl
@[simp] theorem wordResult_spi (v : Word) (u : State) : (wordResult v u).spi = u.spi := rfl
@[simp] theorem wordResult_host (v : Word) (u : State) : (wordResult v u).host = u.host := rfl
@[simp] theorem wordResult_calls (v : Word) (u : State) : (wordResult v u).calls = u.calls := rfl
@[simp] theorem wordResult_status (v : Word) (u : State) : (wordResult v u).status = u.status := rfl
@[simp] theorem wordResult_buf (v : Word) (u : State) : (wordResult v u).buf = u.buf := rfl
@[simp] theorem wordResult_outWord (v : Word) (u : State) : (wordResult v u).outWord = v := rfl
@[simp] theorem wordResult_outDev (v : Word) (u : State) : (wordResult v u).outDev = u.outDev := rfl
@[simp] theorem wordResult_outInfo (v : Word) (u : State) : (wordResult v u).outInfo = u.outInfo := rfl
@[simp] theorem wordResult_outTotal (v : Word) (u : State) : (wordResult v u).outTotal = u.outTotal := rfl
@[simp] theorem wordResult_allocs (v : Word) (u : State) : (wordResult v u).allocs = u.allocs := rfl

@[simp] theorem noResult_eq {α : Type} (a : α) (s : State) : noResult a s = s := rfl

end Sys2Proof.Machine
end

