-- ==== Sys2Proof/Laws/Efuse.lean ====
section
/-! SUPPORT. What the operations of engine E do on a unit whose macro is ready and fair, whatever the schedule: one
lemma per shared operation, from the wait up to the byte engine. -/

namespace Sys2Proof.Machine

open Sys2Proof

@[simp] theorem Res.bind_ok {σ α β : Type} (a : α) (u : σ) (f : α → σ → Res σ β) :
    (Res.ok a u).bind f = f a u := rfl
@[simp] theorem Res.bind_raised {σ α β : Type} (st : Status) (u : σ) (f : α → σ → Res σ β) :
    (Res.raised st u).bind f = .raised st u := rfl
@[simp] theorem Res.bind_hang {σ α β : Type} (k : HangKind) (u : σ) (f : α → σ → Res σ β) :
    (Res.hang k u).bind f = .hang k u := rfl
@[simp] theorem Res.bind_stop {σ α β : Type} (x : Stop) (f : α → σ → Res σ β) :
    (Res.stop x).bind f = .stop x := rfl
@[simp] theorem Res.access_ok {σ : Type} (u : σ) : Res.access (.ok u) = .ok () u := rfl
@[simp] theorem Res.access_error {σ : Type} (x : Stop) : Res.access (.error x : Except Stop σ) = .stop x := rfl

theorem Res.bind_assoc {σ α β γ : Type} (r : Res σ α) (f : α → σ → Res σ β) (g : β → σ → Res σ γ) :
    (r.bind f).bind g = r.bind fun a u => (f a u).bind g := by cases r <;> rfl

/-! ## Waits -/

/-- The delays still in a schedule, as a fair wait can leave them. -/
def Shorter (cfg : Config.Params) (t : List Bool) : Prop := cfg.efuseWaitBudget = none ∨ t = []

theorem pollCount_pos (budget : Option Nat) (n : Nat) : ∃ m, pollCount budget n = m + 1 := by
  cases budget with
  | none => exact ⟨n + 1, rfl⟩
  | some b => exact ⟨max b 1 - 1, by simp only [pollCount]; omega⟩

theorem emacStep_sched (cfg : Config.Params) (u : EfuseUnit) (t : List Bool) :
    emacStep cfg { u with sched := t } = (emacStep cfg u).map fun v => { v with sched := t } := by
  have hw : EfuseUnit.words { u with sched := t } = u.words := rfl
  simp only [emacStep, hw]
  by_cases hb : u.busy = true
  · by_cases hl : widthLegal u.ctl.addressBits = false
    · simp [hb, hl, Except.map]
    · by_cases h : addrWord u.ctl.addressBits u.addr < u.words
      · simp only [hb, hl, h, if_true]
        cases u.ephase <;> rfl
      · simp only [hb, hl, h, if_true, if_false]
        rfl
  · rw [if_neg hb, if_neg hb]
    rfl

/-- A word read completes (R132). -/
theorem emacStep_read {cfg : Config.Params} {u : EfuseUnit} {w : Nat} (hl : widthLegal u.ctl.addressBits = true)
    (hb : u.busy = true) (he : u.ephase = .cmdRead)
    (ha : addrWord u.ctl.addressBits u.addr = w) (hw : w < u.words) :
    emacStep cfg u = .ok { u.done cfg with rdData := otpWord u.otp w } := by
  rw [emacStep, if_pos hb, if_neg (by simp [hl]), ha, if_pos hw, he]

/-- A bit program completes (R132). -/
theorem emacStep_write {cfg : Config.Params} {u : EfuseUnit} {w k : Nat} (hl : widthLegal u.ctl.addressBits = true)
    (hb : u.busy = true) (he : u.ephase = .cmdWrite)
    (ha : addrWord u.ctl.addressBits u.addr = w) (hk : addrBit u.ctl.addressBits u.addr = k) (hw : w < u.words) :
    emacStep cfg u = .ok { u.done cfg with
      otp := otpSetBit u.otp w k, rdData := u.draw 0, draws := u.draws + 1 } := by
  rw [emacStep, if_pos hb, if_neg (by simp [hl]), ha, hk, if_pos hw, he]

theorem emacStep_idle {cfg : Config.Params} {u : EfuseUnit} (h : u.busy = false) : emacStep cfg u = .ok u := by
    simp [emacStep, h]

/-- A wait on a macro that is ready sees it at the first poll (R131). -/
theorem eWait_ready (cfg : Config.Params) {u : EfuseUnit} (hb : u.busy = false)
    (hm : efuseReady cfg (eRead cfg .mode u) = true) : eWait cfg u = .ok () { u with sched := u.sched.tail } := by
  obtain ⟨m, hp⟩ := pollCount_pos cfg.efuseWaitBudget u.sched.length
  have hpoint : ePoint cfg u = .ok { u with sched := u.sched.tail } := by
    unfold ePoint
    split
    · next t hs => rw [emacStep_sched, emacStep_idle hb, hs]; rfl
    · next t hs => rw [hs]; rfl
    · next hs =>
      have e : { u with sched := u.sched.tail } = u := by cases u; simp only at hs; subst hs; rfl
      rw [e]; split
      · exact emacStep_idle hb
      · rfl
  rw [eWait, waitFlag, hp, pollUntil, hpoint]
  simp only [show eRead cfg .mode { u with sched := u.sched.tail } = eRead cfg .mode u from rfl, hm, if_true]

/-- A fair wait on a busy macro ends when the macro has stepped (R131, R132). -/
theorem eWait_busy (cfg : Config.Params) {u w : EfuseUnit} (hf : u.Fair cfg)
    (hm : efuseReady cfg (eRead cfg .mode u) = false) (hw : emacStep cfg u = .ok w)
    (hr : efuseReady cfg (eRead cfg .mode w) = true) :
    ∃ t, Shorter cfg t ∧ eWait cfg u = .ok () { w with sched := t } := by
  obtain ⟨hl, hb⟩ := hf
  have shows : ∀ (x : EfuseUnit) (l : List Bool), eRead cfg .mode { x with sched := l } = eRead cfg .mode x :=
    fun _ _ => rfl
  have run : ∀ n (l : List Bool), l.length < n → (l = [] ∨ cfg.efuseWaitBudget = none) → ∃ t, Shorter cfg t ∧
      pollUntil (ePoint cfg) (fun v => efuseReady cfg (eRead cfg .mode v)) n { u with sched := l } =
        .ok (true, { w with sched := t }) := by
    intro n
    induction n with
    | zero => intro l h; omega
    | succ m ih =>
      intro l hlen hbud
      match l with
      | [] =>
        refine ⟨[], .inr rfl, ?_⟩
        rw [pollUntil]
        have : ePoint cfg { u with sched := [] } = .ok { w with sched := [] } := by
          show (if u.live = true then emacStep cfg { u with sched := [] } else _) = _
          rw [if_pos hl, emacStep_sched, hw]; rfl
        rw [this]
        simp only [shows, hr, if_true]
      | true :: t =>
        refine ⟨t, .inl (hbud.resolve_left (by simp)), ?_⟩
        rw [pollUntil]
        have : ePoint cfg { u with sched := true :: t } = .ok { w with sched := t } := by
          show emacStep cfg { u with sched := t } = _
          rw [emacStep_sched, hw]; rfl
        rw [this]
        simp only [shows, hr, if_true]
      | false :: t =>
        obtain ⟨t', ht', e⟩ := ih t (by simp at hlen; omega) (.inr (hbud.resolve_left (by simp)))
        refine ⟨t', ht', ?_⟩
        rw [pollUntil]
        have : ePoint cfg { u with sched := false :: t } = .ok { u with sched := t } := rfl
        rw [this]
        simp only [shows, hm, Bool.false_eq_true, if_false]
        exact e
  obtain ⟨t, ht, e⟩ := run (pollCount cfg.efuseWaitBudget u.sched.length) u.sched
    (by
      obtain hb | hb := hb
      · rw [hb]; simp only [pollCount]; omega
      · rw [hb]; obtain ⟨m, hp⟩ := pollCount_pos cfg.efuseWaitBudget 0
        simp only [List.length_nil]; omega)
    (hb.symm)
  refine ⟨t, ht, ?_⟩
  rw [eWait, waitFlag, e]

/-! ## Primitives -/

/-- The macro after a completed command `c`: idle and ready (R132). -/
def EfuseUnit.after (cfg : Config.Params) (u : EfuseUnit) (c addr rdData : Word) (otp : Memory) (draws : Nat)
    (t : List Bool)
    (tr : List EAccess) : EfuseUnit :=
  { u with mode := modeLeft cfg c, addr := addr, rdData := rdData, busy := false, ephase := .idle, otp := otp,
           sched := t, draws := draws, trace := u.trace ++ tr }

theorem EfuseUnit.words_lt {u : EfuseUnit} {w : Nat} (h : w < u.words) : w < 2 ^ u.ctl.addressBits :=
  lt_of_lt_of_le h (Nat.min_le_left ..)

theorem widthLegal_le {a : Nat} (h : widthLegal a = true) : a ≤ 27 := by
  simp only [widthLegal, decide_eq_true_eq] at h; exact h.2

theorem addrWord_address {cfg : Config.Params} {u : EfuseUnit} {w : Nat} (k : Nat) (hr : u.Ready cfg)
    (h : w < u.words) :
    addrWord u.ctl.addressBits (u.address w k) = w :=
  addrWord_composeAddr _ (widthLegal_le hr.1) (EfuseUnit.words_lt h)

theorem addrBit_address {cfg : Config.Params} {u : EfuseUnit} {w k : Nat} (hr : u.Ready cfg) (h : w < u.words)
    (hk : k < 32) :
    addrBit u.ctl.addressBits (u.address w k) = k := by
  rw [EfuseUnit.address, addrBit_composeAddr _ (widthLegal_le hr.1) (EfuseUnit.words_lt h)]
  simp only [BitVec.toNat_ofNat]; omega

theorem EfuseUnit.after_ready {cfg : Config.Params} {u : EfuseUnit} {c a d : Word} {o : Memory} {n : Nat}
    {t : List Bool}
    {tr : List EAccess} (h : u.Ready cfg) : (u.after cfg c a d o n t tr).Ready cfg :=
  ⟨h.1, rfl, efuseReady_left cfg c⟩

theorem EfuseUnit.after_fair {cfg : Config.Params} {u : EfuseUnit} {c a d : Word} {o : Memory} {n : Nat}
    {t : List Bool} {tr : List EAccess} (h : u.Fair cfg) (ht : Shorter cfg t) :
    (u.after cfg c a d o n t tr).Fair cfg := ⟨h.1, ht⟩

theorem eCheck_none {cfg : Config.Params} {u : EfuseUnit} {w : Nat} (hr : u.Ready cfg) (h : w < u.words) :
    eCheck w u = none := by
  simp [eCheck, hr.1, h]

/-- `embeddedRead` on a ready and fair macro (R133): the word of the array, read with four register accesses. -/
theorem embeddedRead_fair (cfg : Config.Params) {u : EfuseUnit} {w : Nat} (hr : u.Ready cfg) (hf : u.Fair cfg)
    (hw : w < u.words) :
    ∃ t, Shorter cfg t ∧ embeddedRead cfg w u = .ok (otpWord u.otp w)
      (u.after cfg cfg.mode.read (u.address w 0) (otpWord u.otp w) u.otp u.draws t
        [.write .mode cfg.mode.idle, .write .addr (u.address w 0), .write .mode cfg.mode.read,
         .readData (otpWord u.otp w)]) := by
  obtain ⟨h1, h2, h3⟩ := hr
  let u1 : EfuseUnit := { u with mode := cfg.mode.idle, ephase := .idle, trace := u.trace ++
      [.write .mode cfg.mode.idle] }
  let u2 : EfuseUnit := { u1 with sched := u.sched.tail }
  let u3 : EfuseUnit := { u2 with addr := u.address w 0, trace := u2.trace ++ [.write .addr (u.address w 0)] }
  let u4 : EfuseUnit := { u3 with mode := cfg.mode.read, busy := true, ephase := .cmdRead,
                                  trace := u3.trace ++ [.write .mode cfg.mode.read] }
  have e1 : eWrite cfg .mode cfg.mode.idle u = .ok u1 := by simp [eWrite, h2, u1]
  have e2 : eWait cfg u1 = .ok () u2 := eWait_ready cfg h2 (by simp [u1, eRead, h2])
  have e3 : writeAddress cfg w 0 u2 = .ok () u3 := by
    simp [writeAddress, eWrite, u2, u1, h2, u3, EfuseUnit.address]
  have e4 : eWrite cfg .mode cfg.mode.read u3 = .ok u4 := by
    simp [eWrite, u4, u3, u2, u1, h2, (mode_idle_ne_read cfg).symm]
  have hs : emacStep cfg u4 = .ok { u4.done cfg with rdData := otpWord u.otp w } :=
    emacStep_read (u := u4) h1 rfl rfl (addrWord_address (u := u) 0 ⟨h1, h2, h3⟩ hw) hw
  obtain ⟨t, ht, e5⟩ := eWait_busy cfg (u := u4) (w := { u4.done cfg with rdData := otpWord u.otp w })
    ⟨hf.1, hf.2.imp id fun h => by simp [u4, u3, u2, h]⟩
    (by simp [u4, eRead]) hs
    (by simp [EfuseUnit.done, eRead])
  refine ⟨t, ht, ?_⟩
  rw [embeddedRead, eCheck_none ⟨h1, h2, h3⟩ hw]
  simp only [readWordSteps, e1, Res.access_ok, Res.bind_ok, e2, e3, e4, e5]
  simp [readData, eRead, EfuseUnit.after, EfuseUnit.done, u4, u3, u2, u1]

/-- `setBit` on a ready and fair macro (R134): that bit becomes 1, with two register accesses. -/
theorem embeddedSetBit_fair (cfg : Config.Params) {u : EfuseUnit} {w k : Nat} (hr : u.Ready cfg) (hf : u.Fair cfg)
    (hw : w < u.words) (hk : k < 32) :
    ∃ t, Shorter cfg t ∧ embeddedSetBit cfg w k u = .ok ()
      (u.after cfg cfg.mode.write (u.address w k) (u.draw 0) (otpSetBit u.otp w k) (u.draws + 1) t
        [.write .addr (u.address w k), .write .mode cfg.mode.write]) := by
  obtain ⟨h1, h2, h3⟩ := hr
  let u1 : EfuseUnit := { u with addr := u.address w k, trace := u.trace ++ [.write .addr (u.address w k)] }
  let u2 : EfuseUnit := { u1 with mode := cfg.mode.write, busy := true, ephase := .cmdWrite,
                                  trace := u1.trace ++ [.write .mode cfg.mode.write] }
  have e1 : writeAddress cfg w k u = .ok () u1 := by simp [writeAddress, eWrite, u1, h2, EfuseUnit.address]
  have e2 : eWrite cfg .mode cfg.mode.write u1 = .ok u2 := by
    simp [eWrite, u2, u1, h2, (mode_idle_ne_write cfg).symm, (mode_read_ne_write cfg).symm]
  have hs : emacStep cfg u2 = .ok { u2.done cfg with
      otp := otpSetBit u.otp w k, rdData := u.draw 0, draws := u.draws + 1 } :=
    emacStep_write (u := u2) h1 rfl rfl (addrWord_address (u := u) k ⟨h1, h2, h3⟩ hw)
      (addrBit_address (u := u) ⟨h1, h2, h3⟩ hw hk) hw
  obtain ⟨t, ht, e3⟩ := eWait_busy cfg (u := u2) (w := { u2.done cfg with
      otp := otpSetBit u.otp w k, rdData := u.draw 0, draws := u.draws + 1 })
    ⟨hf.1, hf.2⟩
    (by simp [u2, eRead]) hs
    (by simp [EfuseUnit.done, eRead])
  refine ⟨t, ht, ?_⟩
  rw [embeddedSetBit, eCheck_none ⟨h1, h2, h3⟩ hw]
  simp only [setBitSteps, e1, Res.access_ok, Res.bind_ok, e2, e3]
  simp [EfuseUnit.after, EfuseUnit.done, u2, u1]

/-! ## Word writes and the byte engine -/

/-- What the operations of engine E leave of a unit: its controller, what lets it take the next operation, and `BUF`. -/
structure EKept (cfg : Config.Params) (u v : EfuseUnit) : Prop where
  ctl : v.ctl = u.ctl
  wordsSet : v.wordsSet = u.wordsSet
  live : v.live = u.live
  ready : v.Ready cfg
  mode : v.mode = u.mode ∨ v.mode = modeLeft cfg cfg.mode.read ∨ v.mode = modeLeft cfg cfg.mode.write
  fair : v.Fair cfg
  ephase : v.ephase = .idle ∨ v.ephase = u.ephase

theorem EKept.words {cfg : Config.Params} {u v : EfuseUnit} (h : EKept cfg u v) : v.words = u.words := by
  simp only [EfuseUnit.words, h.ctl, h.wordsSet]

theorem EKept.refl {cfg : Config.Params} {u : EfuseUnit} (hr : u.Ready cfg) (hf : u.Fair cfg) : EKept cfg u u :=
  ⟨rfl, rfl, rfl, hr, .inl rfl, hf, .inr rfl⟩

theorem EKept.trans {cfg : Config.Params} {u v w : EfuseUnit} (h : EKept cfg u v) (k : EKept cfg v w) :
    EKept cfg u w :=
  ⟨k.ctl.trans h.ctl, k.wordsSet.trans h.wordsSet, k.live.trans h.live, k.ready,
    k.mode.elim (fun e => h.mode.imp e.trans (.imp e.trans e.trans)) .inr, k.fair,
    k.ephase.elim .inl fun e => h.ephase.imp e.trans e.trans⟩

theorem EfuseUnit.after_kept {cfg : Config.Params} {u : EfuseUnit} {c a d : Word} {o : Memory} {n : Nat}
    {t : List Bool} {tr : List EAccess} (hr : u.Ready cfg) (hf : u.Fair cfg) (ht : Shorter cfg t)
    (hc : c = cfg.mode.read ∨ c = cfg.mode.write) : EKept cfg u (u.after cfg c a d o n t tr) :=
  ⟨rfl, rfl, rfl, EfuseUnit.after_ready hr, .inr (hc.imp (congrArg (modeLeft cfg)) (congrArg (modeLeft cfg))),
    EfuseUnit.after_fair hf ht, .inl rfl⟩

theorem setTrace_congr {cfg : Config.Params} {u v : EfuseUnit} (h : v.ctl = u.ctl) (w : Nat) (value : Word)
    (ks : List Nat) :
    setTrace cfg v w value ks = setTrace cfg u w value ks := by simp only [setTrace, EfuseUnit.address, h]

theorem otpBit_otpSetBit {m : Memory} (h : Memory.wf Config.freshOtpByte m = true) (w k o j : Nat) (hj : j < 8) :
    otpBit (otpSetBit m w k) o j = (otpBit m o j || decide (8 * o + j = 32 * w + k)) := by
  rw [otpBit, otpByte_otpSetBit h]
  split
  · next e =>
    subst e
    simp only [BitVec.getLsbD_or, otpBit]
    congr 1
    rw [BitVec.getLsbD_shiftLeft]
    by_cases hx : j = k % 8
    · subst hx
      simp [hj]; omega
    · have : ¬ (8 * (4 * w + k / 8) + j = 32 * w + k) := by omega
      simp only [this, decide_false, BitVec.getLsbD_one, hj, decide_true, Bool.true_and]
      simp; omega
  · next e =>
    have : ¬ (8 * o + j = 32 * w + k) := by omega
    simp [otpBit, this]

/-- The bits of a value set one by one (R135). -/
theorem setBits_fair (cfg : Config.Params) (w : Nat) (value : Word) (ks : List Nat) (hks : ∀ k ∈ ks, k < 32)
    {u : EfuseUnit} (hr : u.Ready cfg) (hf : u.Fair cfg) (hw : w < u.words)
    (hm : Memory.wf Config.freshOtpByte u.otp = true) :
    ∃ v, setBits cfg w value ks u = .ok () v ∧ EKept cfg u v ∧ v.work = u.work ∧
      Memory.wf Config.freshOtpByte v.otp = true ∧ v.trace = u.trace ++ setTrace cfg u w value ks ∧
      ∀ o j, j < 8 → otpBit v.otp o j =
        (otpBit u.otp o j || ks.any fun k => value.getLsbD k && decide (8 * o + j = 32 * w + k)) := by
  induction ks generalizing u with
  | nil => exact ⟨u, rfl, EKept.refl hr hf, rfl, hm, by simp [setTrace], by simp⟩
  | cons k t ih =>
    rw [setBits]
    by_cases hv : value.getLsbD k = true
    · obtain ⟨t', ht', e⟩ := embeddedSetBit_fair cfg hr hf hw (hks k (by simp))
      rw [if_pos hv, e, Res.bind_ok]
      obtain ⟨v, e1, k1, k2, k3, k4, k5⟩ := ih (fun k hk => hks k (by simp [hk]))
        (u := u.after cfg cfg.mode.write (u.address w k) (u.draw 0) (otpSetBit u.otp w k) (u.draws + 1) t'
          [.write .addr (u.address w k), .write .mode cfg.mode.write])
        (EfuseUnit.after_ready hr) (EfuseUnit.after_fair hf ht') hw (otpSetBit_wf hm w k)
      refine ⟨v, e1, (EfuseUnit.after_kept hr hf ht' (.inr rfl)).trans k1, k2, k3, ?_, ?_⟩
      · rw [k4]
        simp only [setTrace, EfuseUnit.address, List.filter_cons, hv, if_true, List.flatMap_cons, EfuseUnit.after,
            List.append_assoc]
      · intro o j hj
        rw [k5 o j hj]
        simp only [EfuseUnit.after, otpBit_otpSetBit hm _ _ _ _ hj, List.any_cons, hv, Bool.true_and, Bool.or_assoc]
    · rw [if_neg hv]
      obtain ⟨v, e1, k1, k2, k3, k4, k5⟩ := ih (fun k hk => hks k (by simp [hk])) hr hf hw hm
      refine ⟨v, e1, k1, k2, k3, ?_, ?_⟩
      · rw [k4]; simp only [setTrace, List.filter_cons, hv, Bool.false_eq_true, if_false]
      · intro o j hj
        rw [k5 o j hj]; simp [hv]

/-- What a word write does to a byte of the array (R135): the value is OR-ed into the word, nothing else changes. -/
def orWord (m : Memory) (w : Nat) (value : Word) (o : Nat) : Byte :=
  if o / 4 = w then otpByte m o ||| lane value (o % 4) else otpByte m o

/-- `embeddedWrite` on a ready and fair macro (R135). -/
theorem embeddedWrite_fair (cfg : Config.Params) (w : Nat) (value : Word) {u : EfuseUnit} (hr : u.Ready cfg)
    (hf : u.Fair cfg) (hw : w < u.words) (hm : Memory.wf Config.freshOtpByte u.otp = true) :
    ∃ v, embeddedWrite cfg w value u = .ok () v ∧ EKept cfg u v ∧ v.work = u.work ∧
      Memory.wf Config.freshOtpByte v.otp = true ∧ v.trace = u.trace ++ setTrace cfg u w value (List.range 32) ∧
      ∀ o, otpByte v.otp o = orWord u.otp w value o := by
  obtain ⟨v, e, k1, k2, k3, k4, k5⟩ :=
    setBits_fair cfg w value (List.range 32) (fun k hk => List.mem_range.1 hk) hr hf hw hm
  refine ⟨v, by rw [embeddedWrite, eCheck_none hr hw]; exact e, k1, k2, k3, k4, fun o => ?_⟩
  apply BitVec.eq_of_getLsbD_eq
  intro j hj
  have h := k5 o j hj
  simp only [otpBit] at h
  rw [h, orWord]
  have hany : ((List.range 32).any fun k => value.getLsbD k && decide (8 * o + j = 32 * w + k)) =
      (decide (o / 4 = w) && value.getLsbD (8 * (o % 4) + j)) := by
    rw [Bool.eq_iff_iff]
    simp only [List.any_eq_true, List.mem_range, Bool.and_eq_true, decide_eq_true_eq]
    constructor
    · rintro ⟨k, hk, hv, e⟩
      refine ⟨by omega, ?_⟩
      rwa [show 8 * (o % 4) + j = k by omega]
    · rintro ⟨e, hv⟩
      exact ⟨8 * (o % 4) + j, by omega, hv, by omega⟩
  rw [hany]
  split
  · next e => simp only [e, decide_true, Bool.true_and, BitVec.getLsbD_or, lane_getLsbD, hj]
  · next e => simp [e]

/-- A word read back after a word write: the old word OR the value (R135). -/
theorem otpWord_of_orWord {m n : Memory} {w : Nat} {value : Word} (h : ∀ o, otpByte n o = orWord m w value o) :
    otpWord n w = otpWord m w ||| value := by
  apply word_ext_lane
  intro l hl
  rw [lane_otpWord _ _ _ hl, h, orWord, if_pos (by omega), lane_or, lane_otpWord _ _ _ hl]
  congr 2; omega

/-- The loop of `EfuseReadBytes` on a ready and fair macro (R151). -/
theorem readSegments_fair (cfg : Config.Params) (total : Nat) (gs : List Segment) {u : EfuseUnit} (hr : u.Ready cfg)
    (hf : u.Fair cfg) (hw : ∀ g ∈ gs, g.word < u.words ∧ g.lane + g.n ≤ 4) :
    ∃ v, readSegments cfg total gs u = .ok () v ∧ EKept cfg u v ∧ v.otp = u.otp ∧
      v.work.buf = u.work.buf ++ readOut (otpByte u.otp) gs ∧ v.trace = u.trace ++ readTrace cfg u gs := by
  induction gs generalizing u with
  | nil => exact ⟨u, rfl, EKept.refl hr hf, rfl, by simp [readOut], by simp [readTrace]⟩
  | cons g t ih =>
    have hg := hw g (by simp)
    obtain ⟨l, hl, e⟩ := embeddedRead_fair cfg hr hf hg.1
    rw [readSegments, e, Res.bind_ok]
    have hs : segmentBytes g (otpWord u.otp g.word) =
        (List.range g.n).map fun i => otpByte u.otp (4 * g.word + g.lane + i) := by
      apply List.map_congr_left
      intro i hi
      rw [lane_otpWord _ _ _ (by have := List.mem_range.1 hi; omega), Nat.add_assoc]
    have hkept : EKept cfg u { u.after cfg cfg.mode.read (u.address g.word 0) (otpWord u.otp g.word) u.otp u.draws l
        [.write .mode cfg.mode.idle, .write .addr (u.address g.word 0), .write .mode cfg.mode.read,
         .readData (otpWord u.otp g.word)] with
        work := { u.work.advance total g (otpWord u.otp g.word) with
          buf := u.work.buf ++ segmentBytes g (otpWord u.otp g.word) } } :=
      ⟨rfl, rfl, rfl, ⟨hr.1, rfl, efuseReady_left cfg _⟩, .inr (.inl rfl), ⟨hf.1, hl⟩, .inl rfl⟩
    obtain ⟨v, e1, k1, k2, k3, k4⟩ :=
        ih (u := { u.after cfg cfg.mode.read (u.address g.word 0) (otpWord u.otp g.word) u.otp u.draws l
        [.write .mode cfg.mode.idle, .write .addr (u.address g.word 0), .write .mode cfg.mode.read,
         .readData (otpWord u.otp g.word)] with
        work := { u.work.advance total g (otpWord u.otp g.word) with
          buf := u.work.buf ++ segmentBytes g (otpWord u.otp g.word) } })
      ⟨hr.1, rfl, efuseReady_left cfg _⟩ ⟨hf.1, hl⟩ (fun x hx => hw x (by simp [hx]))
    refine ⟨v, e1, hkept.trans k1, k2, ?_, ?_⟩
    · rw [k3]; simp only [readOut, List.flatMap_cons, hs, List.append_assoc]; rfl
    · rw [k4]; simp [readTrace, wordTrace, EfuseUnit.after, EfuseUnit.address]

/-- `EfuseReadBytes` on a ready and fair macro (R151). -/
theorem efuseReadBytes_fair (cfg : Config.Params) (off cnt : Word) {u : EfuseUnit} (hr : u.Ready cfg)
    (hf : u.Fair cfg) (hc : off.toNat + cnt.toNat ≤ u.capacity) :
    ∃ v, efuseReadBytes cfg off cnt u = .ok () v ∧ EKept cfg u v ∧ v.otp = u.otp ∧
      v.work.buf = ((List.range cnt.toNat).map fun j => otpByte u.otp (off.toNat + j)) ∧
      v.trace = u.trace ++ readTrace cfg u (split off.toNat cnt.toNat) := by
  obtain ⟨v, e, k1, k2, k3, k4⟩ := readSegments_fair cfg cnt.toNat (split off.toNat cnt.toNat)
    (u := u.start off cnt []) hr hf (split_bounds hc)
  refine ⟨v, ?_, ⟨k1.ctl, k1.wordsSet, k1.live, k1.ready, k1.mode, k1.fair, k1.ephase⟩, k2, ?_, k4⟩
  · simp [efuseReadBytes, eRangeCheck, hr.1, hc, e]
  · rw [k3, readOut_split]; rfl

theorem writeTrace_congr {cfg : Config.Params} {u v : EfuseUnit} (h : v.ctl = u.ctl) (data : List Byte)
    (gs : List Segment) :
    writeTrace cfg v data gs = writeTrace cfg u data gs := by simp only [writeTrace, setTrace_congr h]

/-- The loop of `EfuseWriteBytes` on a ready and fair macro (R152): every byte the segments cover is OR-ed in. -/
theorem writeSegments_fair (cfg : Config.Params) (total : Nat) (gs : List Segment) {u : EfuseUnit} (hr : u.Ready cfg)
    (hf : u.Fair cfg) (hw : ∀ g ∈ gs, g.word < u.words ∧ g.lane + g.n ≤ 4)
    (hm : Memory.wf Config.freshOtpByte u.otp = true) :
    ∃ v, writeSegments cfg total gs u = .ok () v ∧ EKept cfg u v ∧ v.work.buf = u.work.buf ∧
      Memory.wf Config.freshOtpByte v.otp = true ∧ v.trace = u.trace ++ writeTrace cfg u u.work.buf gs ∧
      ∀ o, otpByte v.otp o = otpByte u.otp o ||| placed u.work.buf gs o := by
  induction gs generalizing u with
  | nil => exact ⟨u, rfl, EKept.refl hr hf, rfl, hm, by simp [writeTrace], by simp [placed]⟩
  | cons g t ih =>
    have hg := hw g (by simp)
    rw [writeSegments]
    generalize hv : placeBytes g.lane (segmentData g u.work.buf) = value
    obtain ⟨x, e, j1, j2, j3, j4, j5⟩ := embeddedWrite_fair cfg g.word value
      (u := { u with work := u.work.advance total g value }) hr hf hg.1 hm
    rw [e, Res.bind_ok]
    have hx : x.words = u.words := j1.words
    obtain ⟨v, e1, k1, k2, k3, k4, k5⟩ := ih j1.ready j1.fair
      (fun y hy => by rw [hx]; exact hw y (by simp [hy])) j3
    have hb : x.work.buf = u.work.buf := by rw [j2]; rfl
    refine ⟨v, e1, EKept.trans ⟨j1.ctl, j1.wordsSet, j1.live, j1.ready, j1.mode, j1.fair, j1.ephase⟩ k1, k2.trans hb,
        k3, ?_, ?_⟩
    · rw [k4, j4, hb, writeTrace_congr j1.ctl, List.append_assoc]
      simp only [writeTrace, List.flatMap_cons, hv]
      rfl
    · intro o
      rw [k5, j5, hb, orWord]
      simp only [placed, List.foldr_cons, hv]
      split <;> simp [BitVec.or_assoc]

/-- `EfuseWriteBytes` on a ready and fair macro (R152, R155): the buffer's bytes are OR-ed into the range, every other
byte stays. -/
theorem efuseWriteBytes_fair (cfg : Config.Params) (off cnt : Word) (data : List Byte) {u : EfuseUnit}
    (hr : u.Ready cfg) (hf : u.Fair cfg) (hc : off.toNat + cnt.toNat ≤ u.capacity)
    (hm : Memory.wf Config.freshOtpByte u.otp = true) :
    ∃ v, efuseWriteBytes cfg off cnt data u = .ok () v ∧ EKept cfg u v ∧ v.work.buf = data ∧
      Memory.wf Config.freshOtpByte v.otp = true ∧
      v.trace = u.trace ++ writeTrace cfg u data (split off.toNat cnt.toNat) ∧
      ∀ o, otpByte v.otp o = otpByte u.otp o |||
        (if off.toNat ≤ o ∧ o < off.toNat + cnt.toNat then data.getD (o - off.toNat) 0#8 else 0#8) := by
  obtain ⟨v, e, k1, k2, k3, k4, k5⟩ := writeSegments_fair cfg cnt.toNat (split off.toNat cnt.toNat)
    (u := u.start off cnt data) hr hf (split_bounds hc) hm
  refine ⟨v, ?_, ⟨k1.ctl, k1.wordsSet, k1.live, k1.ready, k1.mode, k1.fair, k1.ephase⟩, k2, k3, ?_, fun o => ?_⟩
  · simp [efuseWriteBytes, eRangeCheck, hr.1, hc, e]
  · rw [k4]; rfl
  · rw [k5, EfuseUnit.start_otp, ← placed_split]; rfl

end Sys2Proof.Machine
end

