-- ==== Sys2Proof/Laws/Transact.lean ====
section
/-! SUPPORT. What a transaction does, said once (R170 to R178, R184). `TInv` holds between ARM and the last pop,
whatever the schedule; from it follow the record of a transaction under every schedule, and that a transaction
completes, with the part's answers, under every fair one. -/

namespace Sys2Proof.Machine

open Sys2Proof

/-! ## Up to ARM -/

/-- The unit after a byte string is pushed. -/
def SpiUnit.pushed (u : SpiUnit) (bs : List Byte) : SpiUnit :=
  { u with ctl := { u.ctl with fifo := u.ctl.fifo ++ bs }, trace := u.trace ++ bs.map .push }

theorem fifoPush_eq {cfg : Config.Params} {b : Byte} {u v : SpiUnit} (h : fifoPush cfg b u = .ok v) :
    v = u.pushed [b] := by
  unfold fifoPush at h
  split at h
  · cases h
  · cases h; rfl

theorem SpiUnit.pushed_append (u : SpiUnit) (as bs : List Byte) :
    (u.pushed as).pushed bs = u.pushed (as ++ bs) := by simp [SpiUnit.pushed]

@[simp] theorem SpiUnit.pushed_nil (u : SpiUnit) : u.pushed [] = u := by simp [SpiUnit.pushed]

theorem fifoPushAll_eq {cfg : Config.Params} {bs : List Byte} {u v : SpiUnit} (h : fifoPushAll cfg bs u = .ok v) :
    v = u.pushed bs := by
  induction bs generalizing u with
  | nil => cases h; simp
  | cons b t ih =>
    rw [fifoPushAll] at h
    split at h
    · cases h
    · next w hw => rw [ih h, fifoPush_eq hw, SpiUnit.pushed_append]; rfl

theorem fifoPushAll_room {cfg : Config.Params} {bs : List Byte} {u : SpiUnit}
    (h : cfg.strictFifo = true → u.ctl.fifo.length + bs.length ≤ cfg.fifoDepth) :
    fifoPushAll cfg bs u = .ok (u.pushed bs) := by
  induction bs generalizing u with
  | nil => simp [fifoPushAll]
  | cons b t ih =>
    have hb : fifoPush cfg b u = .ok (u.pushed [b]) := by
      unfold fifoPush
      rw [if_neg]
      · rfl
      · intro hc
        simp only [Bool.and_eq_true, decide_eq_true_eq] at hc
        have := h hc.1
        simp only [List.length_cons] at this
        omega
    rw [fifoPushAll, hb]
    dsimp only
    rw [ih, SpiUnit.pushed_append]
    · rfl
    · intro hs
      have := h hs
      simp only [SpiUnit.pushed, List.length_append, List.length_cons, List.length_nil] at *
      omega

/-- The unit with another value of `x[XCNT]`. -/
def SpiUnit.setXcnt (u : SpiUnit) (x : Word) : SpiUnit := { u with work := { u.work with xcnt := x } }

theorem pushBursts_eq {cfg : Config.Params} (fuel : Nat) (tx : List Byte) (u : SpiUnit) :
    (∃ e, pushBursts cfg fuel tx u = .stop e) ∨
      ∃ x, pushBursts cfg fuel tx u = .ok () ((u.pushed tx).setXcnt x) := by
  induction fuel generalizing tx u with
  | zero =>
    rw [pushBursts]
    cases h : fifoPushAll cfg tx u with
    | error e => exact .inl ⟨e, rfl⟩
    | ok v => exact .inr ⟨u.work.xcnt, by rw [fifoPushAll_eq h]; rfl⟩
  | succ f ih =>
    rw [pushBursts]
    split
    · next h => subst h; exact .inr ⟨u.work.xcnt, by simp; rfl⟩
    · dsimp only
      cases h : fifoPushAll cfg (tx.take (min cfg.fifoDepth tx.length)) u with
      | error e => exact .inl ⟨e, rfl⟩
      | ok v =>
        rw [Res.access_ok, Res.bind_ok, fifoPushAll_eq h]
        obtain ⟨e, h2⟩ | ⟨x, h2⟩ := ih (tx.drop (min cfg.fifoDepth tx.length))
          (((u.pushed (tx.take (min cfg.fifoDepth tx.length)))).setXcnt
            (BitVec.ofNat 32 (tx.length - min cfg.fifoDepth tx.length)))
        · exact .inl ⟨e, h2⟩
        · refine .inr ⟨x, h2.trans ?_⟩
          have : ∀ (w : SpiUnit) y as, ((w.setXcnt y).pushed as).setXcnt x = (w.pushed as).setXcnt x := fun _ _ _ => rfl
          rw [this, SpiUnit.pushed_append, List.take_append_drop]

theorem pushBursts_room {cfg : Config.Params} (fuel : Nat) (tx : List Byte) (u : SpiUnit)
    (h : cfg.strictFifo = true → u.ctl.fifo.length + tx.length ≤ cfg.fifoDepth) (e : Stop) :
    pushBursts cfg fuel tx u ≠ .stop e := by
  induction fuel generalizing tx u with
  | zero => rw [pushBursts, fifoPushAll_room h]; simp
  | succ f ih =>
    rw [pushBursts]
    split
    · simp
    · dsimp only
      rw [fifoPushAll_room, Res.access_ok, Res.bind_ok]
      · apply ih
        intro hs
        have := h hs
        simp only [SpiUnit.pushed, List.length_append, List.length_take, List.length_drop] at *
        omega
      · intro hs
        have := h hs
        simp only [List.length_take]
        omega

theorem pushData_eq {cfg : Config.Params} (d : Txn) (u : SpiUnit) :
    (∃ e, pushData cfg d u = .stop e ∧
        ¬ (cfg.strictFifo = true → u.ctl.fifo.length + d.tx.length ≤ cfg.fifoDepth)) ∨
      ∃ p x, pushData cfg d u = .ok () (((u.setPhase p).pushed d.tx).setXcnt x) := by
  unfold pushData
  split
  · next h => exact .inr ⟨u.ctl.sphase, u.work.xcnt, by rw [h, SpiUnit.pushed_nil]; rfl⟩
  · obtain ⟨e, h⟩ | ⟨x, h⟩ := pushBursts_eq (cfg := cfg) d.tx.length d.tx
      { u.setPhase .pushData with work := { u.work with xcnt := BitVec.ofNat 32 d.tx.length } }
    · exact .inl ⟨e, h, fun hr => by refine absurd h (pushBursts_room _ _ _ ?_ e); exact hr⟩
    · exact .inr ⟨.pushData, x, h⟩

/-- The start of a transaction: CONFIGURE, FRAME, PUSH_DATA, ARM (R171 to R174). -/
def start (cfg : Config.Params) (d : Txn) (u : SpiUnit) : Res SpiUnit Unit :=
  (configure cfg d u).bind fun _ u => (frame cfg d u).bind fun _ u => (pushData cfg d u).bind fun _ u => arm cfg d u

/-- What ARM leaves in SHIFT: the whole frame to send, the data to receive (R174). -/
def Txn.armed (d : Txn) : Xfer := ⟨d.cls, d.out.length, d.rxLen, 0, [], []⟩

/-- The controller after ARM (R174). -/
def Txn.armCtl (cfg : Config.Params) (d : Txn) : SpiCtl :=
  { tranCsr := d.word cfg true, tranNum := BitVec.ofNat 32 (d.tx.length + d.rxLen), intSts := 0#32, fifo := d.out,
    rxLeft := d.rxLen, sphase := .arm, xfer := some d.armed }

theorem Txn.addrBytes_length (d : Txn) : d.addrBytes.length = d.addrCount := by
  unfold Txn.addrBytes Txn.addrCount
  split
  · rfl
  · exact Machine.addrBytes_length ..

theorem Txn.armed_eq {cfg : Config.Params} {d : Txn} (h : d.Legal cfg) :
    Machine.armed cfg d.cls (d.word cfg true) (BitVec.ofNat 32 (d.tx.length + d.rxLen)) = d.armed := by
  obtain ⟨_, h2, h3, h4, h5⟩ := h
  have hn : (BitVec.ofNat 32 (d.tx.length + d.rxLen)).toNat = d.tx.length + d.rxLen := by
    simp only [BitVec.toNat_ofNat]; omega
  have ha : (BitVec.ofNat 3 d.addrCount).toNat = d.addrCount := by
    simp only [BitVec.toNat_ofNat]; omega
  simp only [Machine.armed, Txn.armed, Txn.word, tranAddrBytes_tranWord, tranTx_tranWord, tranRx_tranWord, hn, ha,
    decide_eq_true_eq, Txn.out, List.length_cons, List.length_append, Txn.addrBytes_length]
  congr 1
  · by_cases ht : d.cls = .regwr ∨ d.cls = .datawr
    · have : d.rxLen = 0 := by
        have := mt h5 (by obtain e | e := ht <;> simp [e])
        omega
      rw [if_pos ht, this]; omega
    · have : d.tx = [] := by by_contra hc; exact ht (h4 hc)
      rw [if_neg ht, this]; simp; omega
  · by_cases ht : d.cls = .regrd ∨ d.cls = .datard
    · have : d.tx = [] := by
        by_contra hc
        obtain e | e := h4 hc <;> simp [e] at ht
      rw [if_pos ht, this]; simp
    · rw [if_neg ht]
      have := mt h5 ht
      omega

/-- The start of a transaction on an idle controller stops (a full strict FIFO) or leaves it armed (R170 to R174). -/
theorem start_eq {cfg : Config.Params} {d : Txn} {u : SpiUnit} (hd : d.Legal cfg) (hi : u.idle cfg = true) :
    (∃ e, start cfg d u = .stop e ∧ ¬ FifoRoom cfg d.out.length) ∨
      ∃ x tr, start cfg d u = .ok () { u.setXcnt x with ctl := d.armCtl cfg, trace := tr } := by
  simp only [SpiUnit.idle, Bool.and_eq_true, Bool.not_eq_true', decide_eq_true_eq] at hi
  obtain ⟨⟨_, hg⟩, hf⟩ := hi
  have hcls := hd.1
  have hcls' : tranClassOf cfg (d.word cfg true) = some d.cls := by
    rw [Txn.word, tranClassOf_tranWord] at hcls ⊢; exact hcls
  let u1 : SpiUnit := { u.setPhase .configure with
    ctl := { (u.setPhase .configure).ctl with
      intSts := 0#32, tranNum := BitVec.ofNat 32 (d.tx.length + d.rxLen), tranCsr := d.word cfg false },
    trace := u.trace ++ [.write .intSts 0#32] ++ [.write .tranNum (BitVec.ofNat 32 (d.tx.length + d.rxLen))] ++
      [.write .tranCsr (d.word cfg false)] }
  have e1 : configure cfg d u = .ok () u1 := by
    have hgo : goBusy cfg (d.word cfg false) = false := by simp [Txn.word]
    simp [configure, sWrite, hg, hcls, hgo, u1]
  have last : ∀ w : SpiUnit, goBusy cfg w.ctl.tranCsr = false →
      w.ctl.tranNum = BitVec.ofNat 32 (d.tx.length + d.rxLen) →
      arm cfg d w = .ok () { w with
        ctl := { w.ctl with sphase := .arm, tranCsr := d.word cfg true, xfer := some d.armed, rxLeft := d.rxLen },
        trace := w.trace ++ [.write .tranCsr (d.word cfg true)] } := by
    intro w hw hn
    have hgo : goBusy cfg (d.word cfg true) = true := by simp [Txn.word]
    have hr : d.armed.toRecv = d.rxLen := rfl
    simp only [arm, sWrite, SpiUnit.setPhase_ctl, hw, Bool.false_eq_true, if_false, hcls', hgo, if_true, hn,
      Txn.armed_eq hd, hr, Res.access_ok]
    rfl
  have hlen : d.out.length = (d.cmd :: d.addrBytes).length + d.tx.length := by simp [Txn.out]; omega
  have hg1 : goBusy cfg (d.word cfg false) = false := by simp [Txn.word]
  simp only [start, e1, Res.bind_ok, frame]
  cases h2 : fifoPushAll cfg (d.cmd :: d.addrBytes) (u1.setPhase .frame) with
  | error e =>
    refine .inl ⟨e, rfl, fun hr => ?_⟩
    rw [fifoPushAll_room] at h2
    · cases h2
    · intro hs
      have := hr hs
      have h0 : (u1.setPhase .frame).ctl.fifo = [] := hf
      rw [h0, List.length_nil]
      omega
  | ok w =>
    have hw := fifoPushAll_eq h2
    rw [Res.access_ok, Res.bind_ok]
    have h0 : w.ctl.fifo = d.cmd :: d.addrBytes := by rw [hw]; simp [SpiUnit.pushed, u1, hf]
    obtain ⟨e, h3, h4⟩ | ⟨p, x, h3⟩ := pushData_eq (cfg := cfg) d w
    · refine .inl ⟨e, by rw [h3]; rfl, fun hr => h4 fun hs => ?_⟩
      have := hr hs
      rw [h0]; omega
    · refine .inr ⟨x, w.trace ++ d.tx.map .push ++ [.write .tranCsr (d.word cfg true)], ?_⟩
      rw [h3, Res.bind_ok, last _ (by rw [hw]; exact hg1) (by rw [hw]; rfl), hw]
      simp [SpiUnit.pushed, SpiUnit.setXcnt, Txn.armCtl, Txn.out, u1, hf]

/-- With room in the FIFO the start does not stop (R47, R173). -/
theorem start_room {cfg : Config.Params} {d : Txn} {u : SpiUnit} (hd : d.Legal cfg) (hi : u.idle cfg = true)
    (hr : FifoRoom cfg d.out.length) :
    ∃ x tr, start cfg d u = .ok () { u.setXcnt x with ctl := d.armCtl cfg, trace := tr } :=
  (start_eq (cfg := cfg) hd hi).resolve_left fun ⟨_, _, h⟩ => h hr

/-! ## Between ARM and the last pop -/

/-- What is known of the part in a transaction: `J l` while it has answered `l`, `R l` once the frame is executed. Both
survive PART's own step. -/
structure Contract (cfg : Config.Params) (board : Config.SpiBoard) (d : Txn) (J R : List Byte → Part → Prop) :
    Prop where
  stay : ∀ l q, J l q → J l (partStep cfg q)
  settle : ∀ l q, R l q → R l (partStep cfg q)
  recv : ∀ l q b r, J l q → l.length < d.rxLen → partReadByte cfg board q d.out l.length = .ok (b, r) → J (l ++ [b]) r
  exec : ∀ l q r, J l q → l.length = d.rxLen → partExecute cfg board q d.out = .ok r → R l r

/-- The part answers every byte and executes the frame. -/
structure Answers (cfg : Config.Params) (board : Config.SpiBoard) (d : Txn) (J : List Byte → Part → Prop) : Prop where
  byte : ∀ l q, J l q → l.length < d.rxLen → ∃ b r, partReadByte cfg board q d.out l.length = .ok (b, r)
  frame : ∀ l q, J l q → l.length = d.rxLen → ∃ r, partExecute cfg board q d.out = .ok r

/-- Knowledge of the part survives its power cycle. -/
def PowerProof (cfg : Config.Params) (J R : List Byte → Part → Prop) : Prop :=
  (∀ l q, J l q → J l (partPowerCycle cfg q)) ∧ ∀ l q, R l q → R l (partPowerCycle cfg q)

/-- What a transaction leaves alone. -/
structure SKept (u v : SpiUnit) : Prop where
  board : v.board = u.board
  record : v.record = u.record
  live : v.live = u.live
  draws : v.draws = u.draws
  work : ∃ x, v.work = { u.work with xcnt := x }

/-- Where SHIFT is (R178): sending the frame, receiving, or done. `popped` are the bytes HOST has taken so far. -/
inductive Progress (cfg : Config.Params) (d : Txn) (F : List Frame) (J R : List Byte → Part → Prop) (popped : List Byte)
    (u : SpiUnit) : Prop where
  | sending (x : Xfer) (hx : u.ctl.xfer = some x) (hcsr : u.ctl.tranCsr = d.word cfg true)
      (hs : x.toSend = u.ctl.fifo.length) (hne : u.ctl.fifo ≠ []) (ho : x.out ++ u.ctl.fifo = d.out)
      (hr : x.toRecv = d.rxLen) (hd : x.recvd = 0) (hi : x.inp = []) (hp : popped = [])
      (ht : tranDone cfg u.ctl.intSts = false) (hf : rdFifo cfg u.ctl.intSts = false) (hj : J [] u.part)
      (hF : u.frames = F) (hl : u.ctl.rxLeft = d.rxLen)
  | receiving (x : Xfer) (hx : u.ctl.xfer = some x) (hcsr : u.ctl.tranCsr = d.word cfg true) (hs : x.toSend = 0)
      (ho : x.out = d.out) (hpos : 0 < x.toRecv) (hr : x.toRecv + x.recvd = d.rxLen)
      (hi : x.inp.length = x.recvd) (hp : popped ++ u.ctl.fifo = x.inp) (ht : tranDone cfg u.ctl.intSts = false)
      (hf : rdFifo cfg u.ctl.intSts = rdFifoCond cfg u.ctl) (hj : J x.inp u.part) (hF : u.frames = F)
      (hl : u.ctl.rxLeft = d.rxLen - popped.length)
  | done (hx : u.ctl.xfer = none) (hcsr : u.ctl.tranCsr = d.word cfg false)
      (hp : (popped ++ u.ctl.fifo).length = d.rxLen) (ht : tranDone cfg u.ctl.intSts = true)
      (hf : rdFifo cfg u.ctl.intSts = rdFifoCond cfg u.ctl) (hj : R (popped ++ u.ctl.fifo) u.part)
      (hF : u.frames = F ++ [⟨d.out, popped ++ u.ctl.fifo⟩]) (hl : u.ctl.rxLeft = d.rxLen - popped.length)

/-- The invariant of a running transaction that started from `u0`. -/
structure TInv (cfg : Config.Params) (d : Txn) (u0 : SpiUnit) (J R : List Byte → Part → Prop) (popped : List Byte)
    (u : SpiUnit) : Prop where
  kept : SKept u0 u
  num : u.ctl.tranNum = BitVec.ofNat 32 (d.tx.length + d.rxLen)
  bits : u.ctl.intSts &&& ~~~intMask cfg = 0#32
  progress : Progress cfg d u0.frames J R popped u

section Running
variable {cfg : Config.Params} {d : Txn} {u0 : SpiUnit} {J R : List Byte → Part → Prop} {popped : List Byte}

theorem shiftComplete_inv {u v : SpiUnit} {x : Xfer} (h : shiftComplete cfg u x = .ok v)
    (hc : Contract cfg u0.board d J R) (hk : SKept u0 u)
    (hn : u.ctl.tranNum = BitVec.ofNat 32 (d.tx.length + d.rxLen)) (hb : u.ctl.intSts &&& ~~~intMask cfg = 0#32)
    (hcsr : u.ctl.tranCsr = d.word cfg true) (ho : x.out = d.out) (hlen : x.inp.length = d.rxLen)
    (hp : popped ++ u.ctl.fifo = x.inp) (hf : rdFifo cfg u.ctl.intSts = rdFifoCond cfg u.ctl) (hj : J x.inp u.part)
    (hF : u.frames = u0.frames) (hl : u.ctl.rxLeft = d.rxLen - popped.length) :
    TInv cfg d u0 J R popped v := by
  unfold shiftComplete at h
  split at h
  · cases h
  · next p hp' =>
    cases h
    refine ⟨⟨hk.board, hk.record, hk.live, hk.draws, hk.work⟩, hn, ?_, ?_⟩
    · rw [← hb]; exact setTranDone_reserved _ _
    · refine .done rfl ?_ ?_ ?_ ?_ ?_ ?_ hl
      · simp [hcsr, Txn.word]
      · show (popped ++ u.ctl.fifo).length = _; rw [hp, hlen]
      · simp
      · have hcond : rdFifoCond cfg { u.ctl with
            intSts := setTranDone cfg u.ctl.intSts, tranCsr := clearGo cfg u.ctl.tranCsr, xfer := none } =
              rdFifoCond cfg u.ctl := by
          have : triggerLevel cfg (clearGo cfg u.ctl.tranCsr) = triggerLevel cfg u.ctl.tranCsr := by
            rw [hcsr]; simp [Txn.word, triggerLevel_tranWord]
          simp [rdFifoCond, this]
        rw [hcond, ← hf]; simp
      · show R (popped ++ u.ctl.fifo) p
        rw [hp]
        rw [hk.board, ho] at hp'
        exact hc.exec _ _ _ hj hlen hp'
      · show u.frames ++ [⟨x.out, x.inp⟩] = _
        rw [hF, ho, ← hp]

theorem shiftStep_inv (hc : Contract cfg u0.board d J R) {u v : SpiUnit} (hi : TInv cfg d u0 J R popped u)
    (h : shiftStep cfg u = .ok v) : TInv cfg d u0 J R popped v := by
  obtain ⟨hk, hn, hb, hp⟩ := hi
  unfold shiftStep at h
  split at h
  · cases hp with
    | done hx => rw [hx] at h; cases h; exact ⟨hk, hn, hb, .done hx ‹_› ‹_› ‹_› ‹_› ‹_› ‹_› ‹_›⟩
    | sending x hx hcsr hs hne ho hr hd hin hp ht hf hj hF hl =>
      rw [hx] at h
      dsimp only at h
      obtain ⟨b, t, hfifo⟩ : ∃ b t, u.ctl.fifo = b :: t := List.exists_cons_of_ne_nil hne
      rw [if_pos (by rw [hs, hfifo]; simp), hfifo] at h
      dsimp only [shiftSend] at h
      rw [hfifo] at hs ho
      have hout : (x.out ++ [b]) ++ t = d.out := by rw [List.append_assoc]; exact ho
      have hcond : ∀ c : SpiCtl, c.fifo = [] → rdFifoCond cfg c = false := fun c hc => by simp [rdFifoCond, hc]
      split at h
      · next hz =>
        have htn : t = [] := by
          simp only [List.length_cons] at hs
          exact List.length_eq_zero_iff.1 (by omega)
        subst htn
        refine shiftComplete_inv h hc ⟨hk.board, hk.record, hk.live, hk.draws, hk.work⟩ hn hb hcsr ?_ ?_ ?_ ?_ ?_ hF ?_
        · simpa using hout
        · simp only [hin, List.length_nil]; omega
        · simp [hp, hin]
        · rw [hcond _ rfl]; exact hf
        · rw [hin]; exact hj
        · simp [hp, hl]
      · next hz =>
        cases h
        refine ⟨⟨hk.board, hk.record, hk.live, hk.draws, hk.work⟩, hn, hb, ?_⟩
        simp only [List.length_cons] at hs
        by_cases htn : t = []
        · subst htn
          simp only [List.length_nil] at hs
          refine .receiving _ rfl hcsr ?_ ?_ ?_ ?_ ?_ ?_ ht ?_ ?_ hF ?_
          · dsimp only; omega
          · simpa using hout
          · dsimp only; omega
          · dsimp only; omega
          · dsimp only; rw [hin, hd]; rfl
          · simp [hp, hin]
          · rw [hcond _ rfl]; exact hf
          · dsimp only; rw [hin]; exact hj
          · simp [hp, hl]
        · exact .sending _ rfl hcsr (by dsimp only; omega) htn hout hr hd hin hp ht hf hj hF hl
    | receiving x hx hcsr hs ho hpos hr hin hp ht hf hj hF hl =>
      rw [hx] at h
      dsimp only at h
      rw [if_neg (by omega)] at h
      unfold shiftRecv at h
      split at h
      · cases h
      · next b r hread =>
        rw [hk.board, ho, ← hin] at hread
        have hlt : x.inp.length < d.rxLen := by omega
        have hj' := hc.recv _ _ _ _ hj hlt hread
        dsimp only at h
        have hp' : popped ++ (u.ctl.fifo ++ [b]) = x.inp ++ [b] := by rw [← List.append_assoc, hp]
        split at h
        · next hz =>
          refine shiftComplete_inv h hc ⟨hk.board, hk.record, hk.live, hk.draws,
              hk.work⟩ hn ?_ hcsr ?_ ?_ hp' ?_ hj' hF hl
          · exact (refreshRdFifo_reserved _ _).trans hb
          · exact ho
          · simp only [List.length_append, List.length_cons, List.length_nil]; omega
          · exact rdFifo_refreshRdFifo _ _
        · next hz =>
          cases h
          refine ⟨⟨hk.board, hk.record, hk.live, hk.draws, hk.work⟩, hn, (refreshRdFifo_reserved _ _).trans hb, ?_⟩
          refine .receiving _ rfl hcsr hs ho ?_ ?_ ?_ hp' ?_ (rdFifo_refreshRdFifo _ _) hj' hF hl
          · simp only at hz ⊢; omega
          · dsimp only; omega
          · simp [hin]
          · exact (tranDone_refreshRdFifo _ _).trans ht
  · cases h; exact ⟨hk, hn, hb, hp⟩

theorem TInv.setPart {u : SpiUnit} {f : Part → Part} (hi : TInv cfg d u0 J R popped u) (hJ : ∀ l q, J l q → J l (f q))
    (hR : ∀ l q, R l q → R l (f q)) : TInv cfg d u0 J R popped { u with part := f u.part } := by
  obtain ⟨⟨k1, k2, k3, k4, k5⟩, hn, hb, hp⟩ := hi
  refine ⟨⟨k1, k2, k3, k4, k5⟩, hn, hb, ?_⟩
  cases hp with
  | sending x hx hcsr hs hne ho hr hd hin hp ht hf hj hF hl =>
    exact .sending x hx hcsr hs hne ho hr hd hin hp ht hf (hJ _ _ hj) hF hl
  | receiving x hx hcsr hs ho hpos hr hin hp ht hf hj hF hl =>
    exact .receiving x hx hcsr hs ho hpos hr hin hp ht hf (hJ _ _ hj) hF hl
  | done hx hcsr hp ht hf hj hF hl => exact .done hx hcsr hp ht hf (hR _ _ hj) hF hl

/-- The invariant reads neither the schedule nor the phase, nor `x[XCNT]`. -/
theorem TInv.congr {u v : SpiUnit} (hi : TInv cfg d u0 J R popped u) (hk : SKept u v)
    (hc : { v.ctl with sphase := u.ctl.sphase } = u.ctl) (hp : v.part = u.part) (hF : v.frames = u.frames) :
    TInv cfg d u0 J R popped v := by
  obtain ⟨⟨k1, k2, k3, k4, x, k5⟩, hn, hb, hpr⟩ := hi
  have c1 : v.ctl.xfer = u.ctl.xfer := by rw [← hc]
  have c2 : v.ctl.tranCsr = u.ctl.tranCsr := by rw [← hc]
  have c3 : v.ctl.fifo = u.ctl.fifo := by rw [← hc]
  have c4 : v.ctl.intSts = u.ctl.intSts := by rw [← hc]
  have c5 : v.ctl.rxLeft = u.ctl.rxLeft := by rw [← hc]
  have c6 : v.ctl.tranNum = u.ctl.tranNum := by rw [← hc]
  have c7 : rdFifoCond cfg v.ctl = rdFifoCond cfg u.ctl := by simp only [rdFifoCond, c2, c3, c5]
  obtain ⟨y, hy⟩ := hk.work
  refine ⟨⟨hk.board.trans k1, hk.record.trans k2, hk.live.trans k3, hk.draws.trans k4, y, by rw [hy, k5]⟩,
    c6.trans hn, by rw [c4]; exact hb, ?_⟩
  cases hpr with
  | sending x hx hcsr hs hne ho hr hd hin hp' ht hf hj hF' hl =>
    exact .sending x (c1.trans hx) (c2.trans hcsr) (by rw [c3]; exact hs) (by rw [c3]; exact hne)
      (by rw [c3]; exact ho) hr hd hin hp' (by rw [c4]; exact ht) (by rw [c4]; exact hf) (by rw [hp]; exact hj)
      (hF.trans hF') (c5.trans hl)
  | receiving x hx hcsr hs ho hpos hr hin hp' ht hf hj hF' hl =>
    exact .receiving x (c1.trans hx) (c2.trans hcsr) hs ho hpos hr hin (by rw [c3]; exact hp') (by rw [c4]; exact ht)
      (by rw [c4, c7]; exact hf) (by rw [hp]; exact hj) (hF.trans hF') (c5.trans hl)
  | done hx hcsr hp' ht hf hj hF' hl =>
    exact .done (c1.trans hx) (c2.trans hcsr) (by rw [c3]; exact hp') (by rw [c4]; exact ht)
      (by rw [c4, c7]; exact hf) (by rw [c3, hp]; exact hj) (by rw [c3, hF]; exact hF') (c5.trans hl)

theorem SKept.refl (u : SpiUnit) : SKept u u := ⟨rfl, rfl, rfl, rfl, u.work.xcnt, rfl⟩

theorem SKept.trans {u v w : SpiUnit} (h : SKept u v) (k : SKept v w) : SKept u w := by
  obtain ⟨x, hx⟩ := h.work
  obtain ⟨y, hy⟩ := k.work
  exact ⟨k.board.trans h.board, k.record.trans h.record, k.live.trans h.live, k.draws.trans h.draws, y,
    by rw [hy, hx]⟩

theorem sAgentStep_inv (hc : Contract cfg u0.board d J R) (a : SAgent) (ha : a = .power → PowerProof cfg J R)
    {u v : SpiUnit}
    (hi : TInv cfg d u0 J R popped u) (h : sAgentStep cfg a u = .ok v) : TInv cfg d u0 J R popped v := by
  cases a with
  | shift => exact shiftStep_inv hc hi h
  | part => cases h; exact hi.setPart hc.stay hc.settle
  | power => cases h; exact hi.setPart (ha rfl).1 (ha rfl).2

theorem sBatch_inv (hc : Contract cfg u0.board d J R) (as : List SAgent) (ha : SAgent.power ∈ as → PowerProof cfg J R)
    {u v : SpiUnit} (hi : TInv cfg d u0 J R popped u) (h : sBatch cfg as u = .ok v) : TInv cfg d u0 J R popped v := by
  induction as generalizing u with
  | nil => cases h; exact hi
  | cons a t ih =>
    rw [sBatch] at h
    split at h
    · cases h
    · next w hw =>
      exact ih (fun hm => ha (by simp [hm])) (sAgentStep_inv hc a (fun e => ha (by simp [e])) hi hw) h

theorem shiftRun_inv (hc : Contract cfg u0.board d J R) (n : Nat) {u v : SpiUnit} (hi : TInv cfg d u0 J R popped u)
    (h : shiftRun cfg n u = .ok v) : TInv cfg d u0 J R popped v := by
  induction n generalizing u with
  | zero => cases h; exact hi
  | succ m ih =>
    rw [shiftRun] at h
    split at h
    · split at h
      · cases h
      · next w hw => exact ih (shiftStep_inv hc hi hw) h
    · cases h; exact hi

theorem partLive_inv (hc : Contract cfg u0.board d J R) {u : SpiUnit} (hi : TInv cfg d u0 J R popped u) :
    TInv cfg d u0 J R popped (partLive cfg u) := by
  unfold partLive
  split
  · exact hi.setPart hc.stay hc.settle
  · exact hi

/-- No entry of a schedule takes the part's power away. -/
def NoPower (s : List (List SAgent)) : Prop := ∀ b ∈ s, SAgent.power ∉ b

theorem sPoint_inv (hc : Contract cfg u0.board d J R) {u v : SpiUnit} (ha : NoPower u.sched ∨ PowerProof cfg J R)
    (hi : TInv cfg d u0 J R popped u) (h : sPoint cfg u = .ok v) : TInv cfg d u0 J R popped v := by
  unfold sPoint at h
  split at h
  · next as t hs =>
    refine sBatch_inv hc as (fun hm => ha.resolve_left fun hn => hn as (by rw [hs]; simp) hm) ?_ h
    exact hi.congr (SKept.refl u |> fun k => ⟨k.board, k.record, k.live, k.draws, k.work⟩) rfl rfl rfl
  · split at h
    · exact shiftRun_inv hc _ (partLive_inv hc hi) h
    · cases h; exact partLive_inv hc hi

/-! ## The schedule -/

theorem shiftComplete_sched {u v : SpiUnit} {x : Xfer} (h : shiftComplete cfg u x = .ok v) : v.sched = u.sched := by
  unfold shiftComplete at h
  split at h <;> cases h
  rfl

theorem shiftStep_sched {u v : SpiUnit} (h : shiftStep cfg u = .ok v) : v.sched = u.sched := by
  unfold shiftStep at h
  split at h
  · split at h
    · cases h; rfl
    · split at h
      · split at h
        · cases h; rfl
        · dsimp only [shiftSend] at h
          split at h
          · have := shiftComplete_sched h; exact this
          · cases h; rfl
      · unfold shiftRecv at h
        split at h
        · cases h
        · dsimp only at h
          split at h
          · have := shiftComplete_sched h; exact this
          · cases h; rfl
  · cases h; rfl

theorem sBatch_sched (as : List SAgent) {u v : SpiUnit} (h : sBatch cfg as u = .ok v) : v.sched = u.sched := by
  induction as generalizing u with
  | nil => cases h; rfl
  | cons a t ih =>
    rw [sBatch] at h
    split at h
    · cases h
    · next w hw =>
      refine (ih h).trans ?_
      cases a with
      | shift => exact shiftStep_sched hw
      | part => cases hw; rfl
      | power => cases hw; rfl

theorem shiftRun_sched (n : Nat) {u v : SpiUnit} (h : shiftRun cfg n u = .ok v) : v.sched = u.sched := by
  induction n generalizing u with
  | zero => cases h; rfl
  | succ m ih =>
    rw [shiftRun] at h
    split at h
    · split at h
      · cases h
      · next w hw => exact (ih h).trans (shiftStep_sched hw)
    · cases h; rfl

theorem partLive_sched (cfg : Config.Params) (u : SpiUnit) : (partLive cfg u).sched = u.sched := by
  unfold partLive; split <;> rfl

/-- A schedule point takes one entry off the schedule. -/
theorem sPoint_sched {u v : SpiUnit} (h : sPoint cfg u = .ok v) : v.sched = u.sched.tail := by
  unfold sPoint at h
  split at h
  · next as t hs => rw [sBatch_sched as h, hs]; rfl
  · next hs =>
    split at h
    · rw [shiftRun_sched _ h, partLive_sched, hs]; rfl
    · cases h; rw [partLive_sched, hs]; rfl

/-! ## Progress -/

theorem shiftStep_ok (hc : Contract cfg u0.board d J R) (ha : Answers cfg u0.board d J) {u : SpiUnit}
    (hi : TInv cfg d u0 J R popped u) : ∃ v, shiftStep cfg u = .ok v := by
  obtain ⟨hk, hn, hb, hp⟩ := hi
  unfold shiftStep
  split
  · cases hp with
    | done hx => rw [hx]; exact ⟨u, rfl⟩
    | sending x hx hcsr hs hne ho hr hd hin hp ht hf hj hF hl =>
      rw [hx]
      dsimp only
      obtain ⟨b, t, hfifo⟩ : ∃ b t, u.ctl.fifo = b :: t := List.exists_cons_of_ne_nil hne
      rw [if_pos (by rw [hs, hfifo]; simp), hfifo]
      dsimp only [shiftSend]
      rw [hfifo] at hs ho
      split
      · next hz =>
        have htn : t = [] := by
          simp only [List.length_cons] at hs
          exact List.length_eq_zero_iff.1 (by omega)
        subst htn
        obtain ⟨r, hr'⟩ := ha.frame [] u.part hj (by simp only [List.length_nil]; omega)
        exact ⟨_, by simp only [shiftComplete, ho, hk.board, hr']; rfl⟩
      · exact ⟨_, rfl⟩
    | receiving x hx hcsr hs ho hpos hr hin hp ht hf hj hF hl =>
      rw [hx]
      dsimp only
      rw [if_neg (by omega)]
      have hlt : x.inp.length < d.rxLen := by omega
      obtain ⟨b, p, hread⟩ := ha.byte _ _ hj hlt
      have hj' := hc.recv _ _ _ _ hj hlt hread
      unfold shiftRecv
      rw [ho, hk.board, ← hin, hread]
      dsimp only
      split
      · next hz =>
        obtain ⟨r, hr'⟩ := ha.frame _ _ hj'
          (by simp only [List.length_append, List.length_cons, List.length_nil]; omega)
        exact ⟨_, by simp only [shiftComplete, hr']; rfl⟩
      · exact ⟨_, rfl⟩
  · exact ⟨u, rfl⟩

theorem sBatch_ok (hc : Contract cfg u0.board d J R) (ha : Answers cfg u0.board d J) (as : List SAgent)
    (hn : SAgent.power ∉ as) {u : SpiUnit} (hi : TInv cfg d u0 J R popped u) : ∃ v, sBatch cfg as u = .ok v := by
  induction as generalizing u with
  | nil => exact ⟨u, rfl⟩
  | cons a t ih =>
    rw [sBatch]
    obtain ⟨w, hw⟩ : ∃ w, sAgentStep cfg a u = .ok w := by
      cases a with
      | shift => exact shiftStep_ok hc ha hi
      | part => exact ⟨_, rfl⟩
      | power => exact ⟨_, rfl⟩
    rw [hw]
    exact ih (fun hm => hn (by simp [hm])) (sAgentStep_inv hc a (fun e => absurd (by simp [e]) hn) hi hw)

theorem shiftRun_ok (hc : Contract cfg u0.board d J R) (ha : Answers cfg u0.board d J) (n : Nat) {u : SpiUnit}
    (hi : TInv cfg d u0 J R popped u) : ∃ v, shiftRun cfg n u = .ok v := by
  induction n generalizing u with
  | zero => exact ⟨u, rfl⟩
  | succ m ih =>
    rw [shiftRun]
    split
    · obtain ⟨w, hw⟩ := shiftStep_ok hc ha hi
      rw [hw]
      exact ih (shiftStep_inv hc hi hw)
    · exact ⟨u, rfl⟩

theorem sPoint_ok (hc : Contract cfg u0.board d J R) (ha : Answers cfg u0.board d J) {u : SpiUnit}
    (hn : NoPower u.sched) (hi : TInv cfg d u0 J R popped u) : ∃ v, sPoint cfg u = .ok v := by
  unfold sPoint
  split
  · next as t hs =>
    refine sBatch_ok hc ha as (hn as (by rw [hs]; simp)) (popped := popped) ?_
    exact hi.congr ⟨rfl, rfl, rfl, rfl, u.work.xcnt, rfl⟩ rfl rfl rfl
  · split
    · exact shiftRun_ok hc ha _ (partLive_inv hc hi)
    · exact ⟨_, rfl⟩

/-- An enabled step of SHIFT leaves fewer bytes to move. -/
theorem shiftStep_less {u v : SpiUnit} (he : shiftEnabled cfg u = true) (h : shiftStep cfg u = .ok v) :
    v.inFlight < u.inFlight := by
  have hcomp : ∀ {u v : SpiUnit} {x : Xfer}, shiftComplete cfg u x = .ok v → v.inFlight = 0 := by
    intro u v x h
    unfold shiftComplete at h
    split at h <;> cases h
    rfl
  unfold shiftStep at h
  rw [if_pos he] at h
  simp only [shiftEnabled, Bool.and_eq_true] at he
  split at h
  · next hx => rw [hx] at he; simp at he
  · next x hx =>
    have hu : u.inFlight = x.toSend + x.toRecv := by simp [SpiUnit.inFlight, hx]
    rw [hx] at he
    split at h
    · next hpos =>
      split at h
      · next hf => rw [hf] at he; simp [hpos] at he
      · dsimp only [shiftSend] at h
        split at h
        · rw [hcomp h]; omega
        · cases h
          rw [hu]
          show x.toSend - 1 + x.toRecv < _
          omega
    · next hpos =>
      simp only [hpos, if_false, Bool.and_eq_true, decide_eq_true_eq] at he
      unfold shiftRecv at h
      split at h
      · cases h
      · dsimp only at h
        split at h
        · rw [hcomp h]; omega
        · cases h
          rw [hu]
          show x.toSend + (x.toRecv - 1) < _
          omega

theorem shiftEnabled_inFlight {u : SpiUnit} (he : shiftEnabled cfg u = true) : 0 < u.inFlight := by
  simp only [shiftEnabled, Bool.and_eq_true] at he
  unfold SpiUnit.inFlight
  split at he
  · simp at he
  · next x hx =>
    split at he
    · omega
    · simp only [Bool.and_eq_true, decide_eq_true_eq] at he; omega

/-- SHIFT run on to the end stalls. -/
theorem shiftRun_stall (n : Nat) {u v : SpiUnit} (hn : u.inFlight ≤ n) (h : shiftRun cfg n u = .ok v) :
    shiftEnabled cfg v = false := by
  induction n generalizing u with
  | zero =>
    cases h
    by_contra hc
    have := shiftEnabled_inFlight (Bool.not_eq_false _ ▸ hc)
    omega
  | succ m ih =>
    rw [shiftRun] at h
    split at h
    · next he =>
      split at h
      · cases h
      · next w hw => exact ih (by have := shiftStep_less he hw; omega) h
    · next he => cases h; simpa using he

/-- The flag a WAIT polls (R175). -/
def waitFlagOf (cfg : Config.Params) (forRead : Bool) (u : SpiUnit) : Bool :=
  if forRead then rdFifo cfg (sRead cfg .intSts u) else tranDone cfg (sRead cfg .intSts u)

/-- Where SHIFT stalls, the flag HOST waits for is up (R36, R175). -/
theorem stall_flag (hd : 8 ≤ cfg.fifoDepth) {u : SpiUnit} (hi : TInv cfg d u0 J R popped u)
    (he : shiftEnabled cfg u = false) (hpop : 0 < d.rxLen → popped.length < d.rxLen) :
    waitFlagOf cfg (decide (0 < d.rxLen)) u = true := by
  obtain ⟨hk, hn, hb, hp⟩ := hi
  have htrig : ∀ g, triggerLevel cfg (d.word cfg g) ≤ 8 := by
    intro g; rw [Txn.word, triggerLevel_tranWord]; split <;> omega
  have hgo : ∀ g, goBusy cfg (d.word cfg g) = g := by intro g; simp [Txn.word]
  cases hp with
  | sending x hx hcsr hs hne ho hr hd hin hp ht hf hj hF hl =>
    have hpos : 0 < x.toSend := by rw [hs]; exact List.length_pos_iff.2 hne
    simp [shiftEnabled, hx, hcsr, hgo, hpos, hne] at he
  | receiving x hx hcsr hs ho hpos hr hin hp ht hf hj hF hl =>
    have hfull : cfg.fifoDepth ≤ u.ctl.fifo.length := by
      simp only [shiftEnabled, hx, hcsr, hgo, hs, Nat.lt_irrefl, if_false, Bool.true_and, hpos, decide_true,
        decide_eq_false_iff_not, Nat.not_lt] at he
      exact he
    have hrx : 0 < d.rxLen := by omega
    have := htrig true
    simp only [waitFlagOf, hrx, decide_true, if_true, sRead, hf, rdFifoCond, hcsr, Bool.and_eq_true,
      decide_eq_true_eq]
    omega
  | done hx hcsr hp ht hf hj hF hl =>
    by_cases hrx : 0 < d.rxLen
    · have := hpop hrx
      simp only [List.length_append] at hp
      simp only [waitFlagOf, hrx, decide_true, if_true, sRead, hf, rdFifoCond, Bool.and_eq_true, decide_eq_true_eq]
      omega
    · simpa [waitFlagOf, hrx, sRead] using ht

/-! ## WAIT -/

/-- SHIFT always steps in the end, and in time for every wait: `Fair` without the part's own step. -/
def SpiUnit.ShiftFair (cfg : Config.Params) (u : SpiUnit) : Prop :=
  u.live.shift = true ∧
    (u.sched = [] ∨ cfg.spiWaitBudget = none ∧ cfg.readyPollBudget = none ∧ ∀ b ∈ u.sched, SAgent.power ∉ b)

theorem SpiUnit.Fair.shiftFair {u : SpiUnit} (h : u.Fair cfg) : u.ShiftFair cfg := ⟨by rw [h.1], h.2⟩

theorem SpiUnit.ShiftFair.noPower {u : SpiUnit} (h : u.ShiftFair cfg) : NoPower u.sched := by
  obtain h | h := h.2
  · rw [h]; intro b hb; simp at hb
  · exact h.2.2

theorem SpiUnit.ShiftFair.next {u v : SpiUnit} (h : u.ShiftFair cfg) (hl : v.live = u.live) {k : Nat}
    (hs : v.sched = u.sched.drop k) : v.ShiftFair cfg := by
  refine ⟨by rw [hl]; exact h.1, ?_⟩
  obtain h | ⟨h1, h2, h3⟩ := h.2
  · exact .inl (by rw [hs, h, List.drop_nil])
  · exact .inr ⟨h1, h2, fun b hb => h3 b (List.mem_of_mem_drop (by rw [← hs]; exact hb))⟩

theorem SpiUnit.Fair.next {u v : SpiUnit} (h : u.Fair cfg) (hl : v.live = u.live) {k : Nat}
    (hs : v.sched = u.sched.drop k) : v.Fair cfg := ⟨hl.trans h.1, (h.shiftFair.next hl hs).2⟩

theorem TInv.setPhase {u : SpiUnit} (hi : TInv cfg d u0 J R popped u) (p : SPhase) :
    TInv cfg d u0 J R popped (u.setPhase p) :=
  hi.congr ⟨rfl, rfl, rfl, rfl, u.work.xcnt, rfl⟩ rfl rfl rfl

/-- Under a fair schedule a WAIT ends with its flag up (R175). -/
theorem sWait_ok (hc : Contract cfg u0.board d J R) (ha : Answers cfg u0.board d J) (hd : 8 ≤ cfg.fifoDepth)
    {u : SpiUnit} (hf : u.ShiftFair cfg) (hi : TInv cfg d u0 J R popped u)
    (hpop : 0 < d.rxLen → popped.length < d.rxLen) :
    ∃ k v, sWait cfg (decide (0 < d.rxLen)) u = .ok () v ∧ TInv cfg d u0 J R popped v ∧
      waitFlagOf cfg (decide (0 < d.rxLen)) v = true ∧ v.sched = u.sched.drop (k + 1) := by
  have loop : ∀ n (w : SpiUnit), w.sched.length < n → w.live.shift = true → NoPower w.sched →
      TInv cfg d u0 J R popped w → ∃ k v,
        pollUntil (sPoint cfg) (waitFlagOf cfg (decide (0 < d.rxLen))) n w = .ok (true, v) ∧
        TInv cfg d u0 J R popped v ∧ waitFlagOf cfg (decide (0 < d.rxLen)) v = true ∧
        v.sched = w.sched.drop (k + 1) := by
    intro n
    induction n with
    | zero => intro w h; omega
    | succ m ih =>
      intro w hlen hl hn hw
      obtain ⟨v, hv⟩ := sPoint_ok hc ha hn hw
      have hv' := sPoint_inv hc (.inl hn) hw hv
      have hs := sPoint_sched hv
      rw [pollUntil, hv]
      dsimp only
      by_cases hflag : waitFlagOf cfg (decide (0 < d.rxLen)) v = true
      · rw [if_pos hflag]
        exact ⟨0, v, rfl, hv', hflag, by rw [hs, List.drop_one]⟩
      · rw [if_neg hflag]
        cases hsch : w.sched with
        | nil =>
          exfalso
          apply hflag
          refine stall_flag hd hv' ?_ hpop
          have hpl : (partLive cfg w).live = w.live := by unfold partLive; split <;> rfl
          simp only [sPoint, hsch, hl, if_true] at hv
          exact shiftRun_stall _ le_rfl hv
        | cons b t =>
          rw [hsch] at hs hlen hn
          obtain ⟨k, v2, e, i2, f2, s2⟩ := ih v (by rw [hs]; simp at hlen ⊢; omega)
            (by rw [hv'.kept.live, ← hw.kept.live]; exact hl)
            (by rw [hs]; exact fun b' hb' => hn b' (by simp at hb'; simp [hb']))
            hv'
          exact ⟨k + 1, v2, e, i2, f2, by rw [s2, hs]; rfl⟩
  obtain ⟨k, v, e, i1, f1, s1⟩ := loop (pollCount cfg.spiWaitBudget u.sched.length) (u.setPhase .wait)
    (by
      obtain h | h := hf.2
      · obtain ⟨m, hm⟩ := pollCount_pos cfg.spiWaitBudget u.sched.length
        simp only [SpiUnit.setPhase_sched, h, List.length_nil] at hm ⊢
        omega
      · rw [h.1]; simp only [pollCount, SpiUnit.setPhase_sched]; omega)
    hf.1 hf.noPower (hi.setPhase .wait)
  refine ⟨k, v, ?_, i1, f1, s1⟩
  have : sWait cfg (decide (0 < d.rxLen)) u = waitFlag cfg.spiWaitBudget u.sched.length (sPoint cfg)
      (waitFlagOf cfg (decide (0 < d.rxLen))) (u.setPhase .wait) := rfl
  rw [this, waitFlag, e]

/-- A WAIT that goes on keeps the invariant, with its flag up (R175). -/
theorem sWait_inv (hc : Contract cfg u0.board d J R) (hpp : PowerProof cfg J R) (forRead : Bool) {u v : SpiUnit}
    (hi : TInv cfg d u0 J R popped u) (h : sWait cfg forRead u = .ok () v) :
    TInv cfg d u0 J R popped v ∧ waitFlagOf cfg forRead v = true := by
  have loop : ∀ n (w x : SpiUnit), TInv cfg d u0 J R popped w →
      pollUntil (sPoint cfg) (waitFlagOf cfg forRead) n w = .ok (true, x) →
        TInv cfg d u0 J R popped x ∧ waitFlagOf cfg forRead x = true := by
    intro n
    induction n with
    | zero => intro w x _ h; simp [pollUntil] at h
    | succ m ih =>
      intro w x hw h
      rw [pollUntil] at h
      split at h
      · cases h
      · next y hy =>
        have hy' := sPoint_inv hc (.inr hpp) hw hy
        split at h
        · next hflag => cases h; exact ⟨hy', hflag⟩
        · exact ih y x hy' h
  have e : sWait cfg forRead u = waitFlag cfg.spiWaitBudget u.sched.length (sPoint cfg) (waitFlagOf cfg forRead)
      (u.setPhase .wait) := rfl
  rw [e, waitFlag] at h
  split at h
  · cases h
  · next w hw => cases h; exact loop _ _ _ (hi.setPhase .wait) hw
  · unfold waitFailed at h
    split at h
    · cases h
    · split at h <;> cases h

/-! ## DRAIN -/

/-- SHIFT has sent the whole frame. -/
def Sent (u : SpiUnit) : Prop := ∀ x, u.ctl.xfer = some x → x.toSend = 0

theorem TInv.sent_of_rdFifo {u : SpiUnit} (hi : TInv cfg d u0 J R popped u) (h : rdFifo cfg u.ctl.intSts = true) :
    Sent u := by
  intro x hx
  cases hi.progress with
  | sending y hy hcsr hs hne ho hr hd hin hp ht hf => rw [hf] at h; cases h
  | receiving y hy hcsr hs => rw [hx] at hy; cases hy; exact hs
  | done hy => rw [hx] at hy; cases hy

/-- The FIFO then holds a byte to pop (R36). -/
theorem TInv.fifo_of_rdFifo {u : SpiUnit} (hi : TInv cfg d u0 J R popped u) (h : rdFifo cfg u.ctl.intSts = true) :
    u.ctl.fifo ≠ [] := by
  have hcond : rdFifoCond cfg u.ctl = true := by
    cases hi.progress with
    | sending y hy hcsr hs hne ho hr hd hin hp ht hf => rw [hf] at h; cases h
    | receiving y hy hcsr hs ho hpos hr hin hp ht hf => rw [← hf]; exact h
    | done hy hcsr hp ht hf => rw [← hf]; exact h
  intro hf
  simp [rdFifoCond, hf] at hcond

theorem fifoPop_inv {u v : SpiUnit} {b : Byte} (hi : TInv cfg d u0 J R popped u) (hsent : Sent u)
    (h : fifoPop cfg u = .ok b v) :
    TInv cfg d u0 J R (popped ++ [b]) v ∧ Sent v ∧ u.ctl.fifo = b :: v.ctl.fifo ∧ v.sched = u.sched := by
  obtain ⟨hk, hn, hb, hp⟩ := hi
  unfold fifoPop at h
  split at h
  · cases h
  · next b' t hfifo =>
    cases h
    refine ⟨⟨⟨hk.board, hk.record, hk.live, hk.draws, hk.work⟩, hn, (refreshRdFifo_reserved _ _).trans hb, ?_⟩,
      hsent, hfifo, rfl⟩
    cases hp with
    | sending y hy hcsr hs hne =>
      have := hsent y hy
      rw [hfifo] at hs
      simp only [List.length_cons] at hs
      omega
    | receiving x hx hcsr hs ho hpos hr hin hp ht hf hj hF hl =>
      rw [hfifo] at hp
      refine .receiving x hx hcsr hs ho hpos hr hin ?_ ((tranDone_refreshRdFifo _ _).trans ht)
        (rdFifo_refreshRdFifo _ _) hj hF ?_
      · simpa using hp
      · simp only [refreshRdFifo_rxLeft, hl, List.length_append, List.length_cons, List.length_nil]; omega
    | done hx hcsr hp ht hf hj hF hl =>
      rw [hfifo] at hp hj hF
      have hap : (popped ++ [b]) ++ t = popped ++ b :: t := by simp
      refine .done hx hcsr ?_ ((tranDone_refreshRdFifo _ _).trans ht) (rdFifo_refreshRdFifo _ _) ?_ ?_ ?_
      · simp only [refreshRdFifo_fifo, hap]; exact hp
      · simp only [refreshRdFifo_fifo, hap]; exact hj
      · simp only [refreshRdFifo_fifo, hap]; exact hF
      · simp only [refreshRdFifo_rxLeft, hl, List.length_append, List.length_cons, List.length_nil]; omega

/-- `k` pops take the first `k` bytes of the FIFO. -/
theorem fifoPopN_ok (k : Nat) {u : SpiUnit} (hi : TInv cfg d u0 J R popped u) (hsent : Sent u)
    (hk : k ≤ u.ctl.fifo.length) :
    ∃ bs v, fifoPopN cfg k u = .ok bs v ∧ bs.length = k ∧ TInv cfg d u0 J R (popped ++ bs) v ∧ Sent v ∧
        v.sched = u.sched := by
  induction k generalizing popped u with
  | zero => exact ⟨[], u, rfl, rfl, by simpa using hi, hsent, rfl⟩
  | succ j ih =>
    cases hfifo : u.ctl.fifo with
    | nil => rw [hfifo] at hk; simp at hk
    | cons b t =>
      obtain ⟨v, hv⟩ : ∃ v, fifoPop cfg u = .ok b v := by unfold fifoPop; rw [hfifo]; exact ⟨_, rfl⟩
      obtain ⟨i1, s1, f1, c1⟩ := fifoPop_inv hi hsent hv
      rw [f1] at hfifo
      obtain ⟨bs, w, e, hl, i2, s2, c2⟩ := ih i1 s1 (by
        rw [f1] at hk; simp only [List.length_cons] at hk; omega)
      exact ⟨b :: bs, w, by rw [fifoPopN, hv, Res.bind_ok, e, Res.bind_ok], by simp [hl], by simpa using i2, s2,
        c2.trans c1⟩

theorem TInv.setXcnt {u : SpiUnit} (hi : TInv cfg d u0 J R popped u) (x : Word) :
    TInv cfg d u0 J R popped (u.setXcnt x) :=
  hi.congr ⟨rfl, rfl, rfl, rfl, x, rfl⟩ rfl rfl rfl

/-- Under a fair schedule DRAIN takes every byte (R176). -/
theorem drain_ok (hc : Contract cfg u0.board d J R) (ha : Answers cfg u0.board d J) (hd : 8 ≤ cfg.fifoDepth)
    (hrx : 0 < d.rxLen) (fuel left : Nat) (hfuel : left ≤ fuel) (hleft : 0 < left) {u : SpiUnit} (hf : u.ShiftFair cfg)
    (hi : TInv cfg d u0 J R popped u) (hflag : rdFifo cfg u.ctl.intSts = true) (hpl : popped.length + left = d.rxLen) :
    ∃ rx v k, drain cfg fuel left u = .ok rx v ∧ rx.length = left ∧ TInv cfg d u0 J R (popped ++ rx) v ∧
      v.sched = u.sched.drop k := by
  induction fuel generalizing left popped u with
  | zero => omega
  | succ f ih =>
    have hne := hi.fifo_of_rdFifo hflag
    have hpos := List.length_pos_iff.2 hne
    generalize hk : min cfg.fifoDepth (min left u.ctl.fifo.length) = k
    have hk1 : 0 < k := by omega
    have hk2 : k ≤ left := by omega
    obtain ⟨bs, v, e, hl, i1, s1, c1⟩ := fifoPopN_ok k (hi.setPhase .drain) (u := u.setPhase .drain)
      (fun x hx => hi.sent_of_rdFifo hflag x hx) (by simp only [SpiUnit.setPhase_ctl]; omega)
    rw [drain, hk, e, Res.bind_ok]
    have i2 := i1.setXcnt (BitVec.ofNat 32 (left - k))
    have hw : ({ v with work := { v.work with xcnt := BitVec.ofNat 32 (left - k) } } : SpiUnit) =
        v.setXcnt (BitVec.ofNat 32 (left - k)) := rfl
    dsimp only
    rw [hw]
    split
    · next hz => exact ⟨bs, _, 0, rfl, by omega, i2, by rw [List.drop_zero]; exact c1⟩
    · next hz =>
      have hfv : (v.setXcnt (BitVec.ofNat 32 (left - k))).ShiftFair cfg :=
        hf.next (k := 0) (i2.kept.live.trans hi.kept.live.symm) (by rw [List.drop_zero]; exact c1)
      obtain ⟨j, w, ew, iw, fw, sw⟩ := sWait_ok hc ha hd hfv i2
        (fun _ => by simp only [List.length_append, hl]; omega)
      simp only [hrx, decide_true] at ew fw
      rw [ew, Res.bind_ok]
      obtain ⟨rx, x, k', ex, lx, ix, sx⟩ := ih (left - k) (by omega) (by omega)
        (hfv.next (iw.kept.live.trans i2.kept.live.symm) sw) iw (by simpa [waitFlagOf, sRead] using fw)
        (by simp only [List.length_append, hl]; omega)
      refine ⟨bs ++ rx, x, j + 1 + k', by rw [ex, Res.bind_ok], by simp only [List.length_append]; omega,
        by simpa using ix, ?_⟩
      rw [sx, sw, List.drop_drop]
      congr 1

/-- A DRAIN that goes on has taken every byte (R176). -/
theorem drain_inv (hc : Contract cfg u0.board d J R) (hpp : PowerProof cfg J R) (fuel left : Nat) {u v : SpiUnit}
    {rx : List Byte} (hi : TInv cfg d u0 J R popped u) (hsent : Sent u) (hpl : popped.length + left = d.rxLen)
    (h : drain cfg fuel left u = .ok rx v) : TInv cfg d u0 J R (popped ++ rx) v ∧ rx.length = left := by
  induction fuel generalizing left popped u rx with
  | zero => cases h
  | succ f ih =>
    generalize hk : min cfg.fifoDepth (min left u.ctl.fifo.length) = k
    obtain ⟨bs, w, e, hl, i1, s1, c1⟩ := fifoPopN_ok k (hi.setPhase .drain) (u := u.setPhase .drain)
      (fun x hx => hsent x hx) (by simp only [SpiUnit.setPhase_ctl]; omega)
    rw [drain, hk, e, Res.bind_ok] at h
    have i2 := i1.setXcnt (BitVec.ofNat 32 (left - k))
    have hw : ({ w with work := { w.work with xcnt := BitVec.ofNat 32 (left - k) } } : SpiUnit) =
        w.setXcnt (BitVec.ofNat 32 (left - k)) := rfl
    dsimp only at h
    rw [hw] at h
    split at h
    · next hz => cases h; exact ⟨i2, by omega⟩
    · next hz =>
      cases hsw : sWait cfg true (w.setXcnt (BitVec.ofNat 32 (left - k))) with
      | raised st y => rw [hsw] at h; cases h
      | hang q y => rw [hsw] at h; cases h
      | stop q => rw [hsw] at h; cases h
      | ok a y =>
        rw [hsw, Res.bind_ok] at h
        obtain ⟨iy, fy⟩ := sWait_inv hc hpp true i2 hsw
        have sy : Sent y := iy.sent_of_rdFifo (by simpa [waitFlagOf, sRead] using fy)
        cases hdr : drain cfg f (left - k) y with
        | raised st z => rw [hdr] at h; cases h
        | hang q z => rw [hdr] at h; cases h
        | stop q => rw [hdr] at h; cases h
        | ok rest z =>
          rw [hdr, Res.bind_ok] at h
          cases h
          obtain ⟨iz, lz⟩ := ih (left - k) iy sy (by simp only [List.length_append]; omega) hdr
          exact ⟨by simpa using iz, by simp only [List.length_append]; omega⟩

/-! ## The end -/

/-- A value of INT_STS in which `TRAN_DONE` alone is set. -/
theorem intSts_done {v : Word} (h1 : tranDone cfg v = true) (h2 : rdFifo cfg v = false)
    (h3 : v &&& ~~~intMask cfg = 0#32) : v = setTranDone cfg 0#32 := by
  apply BitVec.eq_of_getLsbD_eq
  intro i hi
  have h := congrArg (fun b => b.getLsbD i) h3
  simp only [tranDone, rdFifo] at h1 h2
  simp only [intMask, setTranDone, BitVec.getLsbD_and, BitVec.getLsbD_not, BitVec.getLsbD_or, regBit_getLsbD, hi,
    decide_true, Bool.true_and, BitVec.getLsbD_zero, Bool.false_or] at h ⊢
  by_cases e1 : i = cfg.intSts.tranDone
  · subst e1; simpa using h1
  · by_cases e2 : i = cfg.intSts.rdFifo
    · subst e2; simpa [e1] using h2
    · simpa [e1, e2] using h

/-- The transaction whose bytes are all popped is over: what its record, its controller and its part are (R177,
R184). -/
theorem TInv.finished {u : SpiUnit} (hi : TInv cfg d u0 J R popped u) (hlen : popped.length = d.rxLen)
    (hdone : d.rxLen = 0 → tranDone cfg u.ctl.intSts = true) :
    { u.ctl with sphase := .idle } = d.doneCtl cfg ∧ R popped u.part ∧ u.frames = u0.frames ++ [⟨d.out, popped⟩] := by
  obtain ⟨hk, hn, hb, hp⟩ := hi
  cases hp with
  | sending x hx hcsr hs hne ho hr hd hin hp ht hf hj hF hl =>
    subst hp
    rw [hdone hlen.symm] at ht
    cases ht
  | receiving x hx hcsr hs ho hpos hr hin hp ht hf hj hF hl =>
    have := congrArg List.length hp
    simp only [List.length_append] at this
    omega
  | done hx hcsr hp ht hf hj hF hl =>
    have h0 : u.ctl.fifo = [] := by
      simp only [List.length_append] at hp
      exact List.length_eq_zero_iff.1 (by omega)
    rw [h0, List.append_nil] at hj hF
    have hint : u.ctl.intSts = setTranDone cfg 0#32 := intSts_done ht (by rw [hf]; simp [rdFifoCond, h0]) hb
    refine ⟨?_, hj, hF⟩
    simp only [Txn.doneCtl, SpiCtl.mk.injEq]
    exact ⟨hcsr, hn, hint, h0, by rw [hl]; omega, trivial, hx⟩

end Running

/-! ## Transact (R170) -/

theorem transact_start (cfg : Config.Params) (d : Txn) {u : SpiUnit} (h : u.idle cfg = true) :
    transact cfg d u = (start cfg d u).bind fun _ u => (sWait cfg (decide (0 < d.rxLen)) u).bind fun _ u =>
      (drainAll cfg d u).bind fun rx u => resetPointer cfg rx u := by
  simp only [transact, h, if_true, start, Res.bind_assoc]

/-- The unit as ARM leaves it meets the invariant, for whatever part is known there. -/
theorem armed_inv {d : Txn} {u : SpiUnit} {J R : List Byte → Part → Prop} {p : Part} (hJ : J [] p) (x : Word)
    (tr : List SAccess) : TInv cfg d u J R [] { u.setXcnt x with ctl := d.armCtl cfg, trace := tr, part := p } := by
  refine ⟨⟨rfl, rfl, rfl, rfl, x, rfl⟩, rfl, (by simp : 0#32 &&& ~~~intMask cfg = 0#32), ?_⟩
  refine .sending d.armed rfl rfl rfl ?_ rfl rfl rfl rfl rfl ?_ ?_ hJ rfl rfl
  · simp [Txn.armCtl, Txn.out]
  · simp [Txn.armCtl, tranDone]
  · simp [Txn.armCtl, rdFifo]

theorem partStep_idem (cfg : Config.Params) (p : Part) : partStep cfg (partStep cfg p) = partStep cfg p := by
  by_cases h : wip cfg p.sr = true
  · have : wip cfg (partStep cfg p).sr = false := by rw [partStep, if_pos h]; simp
    rw [partStep, this]; rfl
  · have e : partStep cfg p = p := by rw [partStep, if_neg h]
    rw [e, e]

theorem sPoint_live {cfg : Config.Params} {u : SpiUnit} (hs : u.sched = []) (hl : u.live = ⟨true, true⟩) :
    sPoint cfg u = shiftRun cfg (partLive cfg u).inFlight (partLive cfg u) := by
  unfold sPoint
  rw [hs, hl]
  rfl

/-- With nothing left of the schedule PART steps before the first poll, so that a WAIT is the same from the part as its
own step leaves it. -/
theorem sWait_settled (cfg : Config.Params) (f : Bool) {w : SpiUnit} (hs : w.sched = []) (hl : w.live = ⟨true, true⟩) :
    sWait cfg f w = sWait cfg f { w with part := partStep cfg w.part } := by
  have hp : sPoint cfg (w.setPhase .wait) =
      sPoint cfg (({ w with part := partStep cfg w.part } : SpiUnit).setPhase .wait) := by
    have : partLive cfg (w.setPhase .wait) =
        partLive cfg (({ w with part := partStep cfg w.part } : SpiUnit).setPhase .wait) := by
      simp only [partLive, SpiUnit.setPhase_live, hl, if_true, SpiUnit.setPhase_part, partStep_idem]
      rfl
    rw [sPoint_live (by exact hs) (by exact hl), sPoint_live (by exact hs) (by exact hl), this]
  simp only [sWait, waitFlag]
  obtain ⟨m, hm⟩ := pollCount_pos cfg.spiWaitBudget w.sched.length
  rw [hm, pollUntil, pollUntil, hp]

theorem resetPointer_eq (rx : List Byte) (u : SpiUnit) :
    ∃ tr, resetPointer cfg rx u =
      .ok rx { u with ctl := { u.ctl with fifo := [], sphase := .idle }, trace := tr } := by
  exact ⟨_, by simp only [resetPointer, sWrite, if_true, Res.access_ok, Res.bind_ok]; rfl⟩

/-- A transaction under a fair schedule completes (R170, R184, R298): it returns what the part answered, the part has
executed the frame, the controller is idle again, and the transaction is recorded. `p` is the part the transaction
starts from: as it stands, or, where nothing is left of the schedule, after its own step. -/
theorem transact_from {cfg : Config.Params} {d : Txn} {u : SpiUnit} {J R : List Byte → Part → Prop} {p : Part}
    (hd : d.Legal cfg) (hi : u.idle cfg = true) (hf : u.ShiftFair cfg) (hdep : 8 ≤ cfg.fifoDepth)
    (hroom : FifoRoom cfg d.out.length) (hc : Contract cfg u.board d J R)
    (ha : Answers cfg u.board d J) (hp : p = u.part ∨ u.sched = [] ∧ u.live = ⟨true, true⟩ ∧ p = partStep cfg u.part)
        (hJ : J [] p) :
    ∃ rx v k, transact cfg d u = .ok rx v ∧ rx.length = d.rxLen ∧ R rx v.part ∧ v.ctl = d.doneCtl cfg ∧
      v.frames = u.frames ++ [⟨d.out, rx⟩] ∧ SKept u v ∧ v.sched = u.sched.drop (k + 1) := by
  obtain ⟨x, tr, e1⟩ := start_room hd hi hroom
  have i1 : TInv cfg d u J R [] { u.setXcnt x with ctl := d.armCtl cfg, trace := tr, part := p } := armed_inv hJ x tr
  obtain ⟨k, w, e2', i2, f2, s2⟩ := sWait_ok hc ha hdep
    (u := { u.setXcnt x with ctl := d.armCtl cfg, trace := tr, part := p }) hf i1 (fun h => h)
  have e2 : sWait cfg (decide (0 < d.rxLen)) { u.setXcnt x with ctl := d.armCtl cfg, trace := tr } = .ok () w := by
    obtain rfl | ⟨hs, hl, rfl⟩ := hp
    · exact e2'
    · rw [sWait_settled cfg _ (by exact hs) (by exact hl)]; exact e2'
  rw [transact_start cfg d hi, e1, Res.bind_ok, e2, Res.bind_ok]
  by_cases hrx : d.rxLen = 0
  · obtain ⟨c1, p1, r1⟩ := i2.finished (by simp [hrx]) (fun _ => by simpa [waitFlagOf, hrx, sRead] using f2)
    obtain ⟨tr', e3⟩ := resetPointer_eq [] w
    rw [drainAll, if_pos hrx, Res.bind_ok, e3]
    refine ⟨[], _, k, rfl, by simp [hrx], p1, ?_, r1, ⟨i2.kept.board, i2.kept.record, i2.kept.live, i2.kept.draws,
      i2.kept.work⟩, s2⟩
    rw [← c1]
    have : w.ctl.fifo = [] := by have := congrArg SpiCtl.fifo c1; exact this
    simp [this]
  · have hpos : 0 < d.rxLen := by omega
    simp only [waitFlagOf, hpos, decide_true, if_true, sRead] at f2
    have i2' := i2.setXcnt (BitVec.ofNat 32 d.rxLen)
    obtain ⟨rx, y, k', e3, l3, i3, s3⟩ := drain_ok hc ha hdep hpos d.rxLen d.rxLen le_rfl hpos
      (u := w.setXcnt (BitVec.ofNat 32 d.rxLen))
      (hf.next (i2.kept.live) (k := k + 1) s2) i2' f2 (by simp)
    obtain ⟨c1, p1, r1⟩ := i3.finished l3 (fun h => absurd h hrx)
    obtain ⟨tr', e4⟩ := resetPointer_eq rx y
    rw [drainAll, if_neg hrx]
    have e3' : drain cfg d.rxLen d.rxLen { w with work := { w.work with xcnt := BitVec.ofNat 32 d.rxLen } } =
        .ok rx y := e3
    rw [e3', Res.bind_ok, e4]
    refine ⟨rx, _, k + k', rfl, l3, p1, ?_, r1, ⟨i3.kept.board, i3.kept.record, i3.kept.live, i3.kept.draws,
      i3.kept.work⟩, ?_⟩
    · rw [← c1]
      have : y.ctl.fifo = [] := by have := congrArg SpiCtl.fifo c1; exact this
      simp [this]
    · show y.sched = _
      rw [s3, show (w.setXcnt (BitVec.ofNat 32 d.rxLen)).sched = w.sched from rfl, s2, List.drop_drop]
      congr 1; omega

/-- A transaction that goes on, whatever the schedule (R184): its record, and what it leaves of the unit. -/
theorem transact_record {cfg : Config.Params} {d : Txn} {u v : SpiUnit} {rx : List Byte} (hd : d.Legal cfg)
    (h : transact cfg d u = .ok rx v) :
    rx.length = d.rxLen ∧ v.ctl = d.doneCtl cfg ∧ v.frames = u.frames ++ [⟨d.out, rx⟩] ∧ SKept u v := by
  have hi : u.idle cfg = true := by
    by_contra hc
    rw [transact, if_neg hc] at h
    cases h
  have hc : Contract cfg u.board d (fun _ _ => True) (fun _ _ => True) :=
    ⟨fun _ _ _ => trivial, fun _ _ _ => trivial, fun _ _ _ _ _ _ _ => trivial, fun _ _ _ _ _ _ => trivial⟩
  have hpp : PowerProof cfg (fun _ _ => True) (fun _ _ => True) := ⟨fun _ _ _ => trivial, fun _ _ _ => trivial⟩
  rw [transact_start cfg d hi] at h
  obtain ⟨e, he, _⟩ | ⟨x, tr, e1⟩ := start_eq (cfg := cfg) hd hi
  · rw [he] at h; cases h
  · have i1 : TInv cfg d u (fun _ _ => True) (fun _ _ => True) []
        { u.setXcnt x with ctl := d.armCtl cfg, trace := tr } :=
      armed_inv trivial x tr
    rw [e1, Res.bind_ok] at h
    cases hw : sWait cfg (decide (0 < d.rxLen)) { u.setXcnt x with ctl := d.armCtl cfg, trace := tr } with
    | raised st y => rw [hw] at h; cases h
    | hang q y => rw [hw] at h; cases h
    | stop q => rw [hw] at h; cases h
    | ok a w =>
      rw [hw, Res.bind_ok] at h
      obtain ⟨i2, f2⟩ := sWait_inv hc hpp _ i1 hw
      by_cases hrx : d.rxLen = 0
      · rw [drainAll, if_pos hrx, Res.bind_ok] at h
        obtain ⟨tr', e3⟩ := resetPointer_eq [] w
        rw [e3] at h
        cases h
        obtain ⟨c1, _, r1⟩ := i2.finished (by simp [hrx]) (fun _ => by simpa [waitFlagOf, hrx, sRead] using f2)
        refine ⟨by simp [hrx], ?_, r1, ⟨i2.kept.board, i2.kept.record, i2.kept.live, i2.kept.draws, i2.kept.work⟩⟩
        rw [← c1]
        have : w.ctl.fifo = [] := by have := congrArg SpiCtl.fifo c1; exact this
        simp [this]
      · have hpos : 0 < d.rxLen := by omega
        simp only [waitFlagOf, hpos, decide_true, if_true, sRead] at f2
        rw [drainAll, if_neg hrx] at h
        have hx : ({ w with work := { w.work with xcnt := BitVec.ofNat 32 d.rxLen } } : SpiUnit) =
          w.setXcnt (BitVec.ofNat 32 d.rxLen) := rfl
        rw [hx] at h
        cases hdr : drain cfg d.rxLen d.rxLen (w.setXcnt (BitVec.ofNat 32 d.rxLen)) with
        | raised st y => rw [hdr] at h; cases h
        | hang q y => rw [hdr] at h; cases h
        | stop q => rw [hdr] at h; cases h
        | ok bs y =>
          rw [hdr, Res.bind_ok] at h
          obtain ⟨tr', e4⟩ := resetPointer_eq bs y
          rw [e4] at h
          cases h
          obtain ⟨i3, l3⟩ := drain_inv hc hpp d.rxLen d.rxLen (i2.setXcnt (BitVec.ofNat 32 d.rxLen))
            (i2.sent_of_rdFifo f2) (by simp) hdr
          obtain ⟨c1, _, r1⟩ := i3.finished l3 (fun h => absurd h hrx)
          refine ⟨l3, ?_, r1, ⟨i3.kept.board, i3.kept.record, i3.kept.live, i3.kept.draws, i3.kept.work⟩⟩
          rw [← c1]
          have : y.ctl.fifo = [] := by have := congrArg SpiCtl.fifo c1; exact this
          simp [this]

end Sys2Proof.Machine
end

