-- ==== Sys2Proof/Laws/Part.lean ====
section
/-! SUPPORT. What the part does with each frame: what it answers, what it has executed at chip-select release, what its
own step completes (R200 to R216). -/

namespace Sys2Proof.Machine

open Sys2Proof

variable {cfg : Config.Params} {board : Config.SpiBoard} {p : Part}

/-! ## PART's step -/

theorem partStep_ready {p : Part} (h : wip cfg p.sr = false) : partStep cfg p = p := by
  rw [partStep, if_neg (by rw [h]; simp)]

@[simp] theorem wip_partStep (p : Part) : wip cfg (partStep cfg p).sr = false := by
  by_cases h : wip cfg p.sr = true
  · rw [partStep, if_pos h]; simp
  · rw [partStep, if_neg h]; simpa using h

theorem applyPending_cut (p : Part) (x : Pending) : (applyPending cfg p x).cut = p.cut := by cases x <;> rfl

theorem partStep_cut (p : Part) : (partStep cfg p).cut = p.cut := by
  unfold partStep
  split
  · show (applyPending? cfg p).cut = p.cut
    unfold applyPending?
    split
    · rfl
    · exact applyPending_cut ..
  · rfl

theorem applyPending_mode4B (p : Part) (x : Pending) : (applyPending cfg p x).mode4B = p.mode4B := by cases x <;> rfl

theorem partStep_mode4B (p : Part) : (partStep cfg p).mode4B = p.mode4B := by
  unfold partStep
  split
  · show (applyPending? cfg p).mode4B = p.mode4B
    unfold applyPending?
    split
    · rfl
    · exact applyPending_mode4B ..
  · rfl

theorem Settles.step {r q : Part} (h : Settles cfg r q) : Settles cfg r (partStep cfg q) := by
  obtain rfl | rfl := h
  · exact .inr rfl
  · exact .inr (partStep_idem cfg r)

theorem Settles.ready {r q : Part} (h : Settles cfg r q) (hr : wip cfg r.sr = false) : q = r := by
  obtain rfl | rfl := h
  · rfl
  · exact partStep_ready hr

theorem Settles.partStep {r q : Part} (h : Settles cfg r q) : partStep cfg q = Machine.partStep cfg r := by
  obtain rfl | rfl := h
  · rfl
  · exact partStep_idem cfg r

/-! ## Frames -/

theorem partStep_program (p : Part) (a : Nat) (data : List Byte) :
    partStep cfg (partStart cfg p (.program a data)) = p.rest (flashProgram cfg p.flash a data)
        (clearBusy cfg (setWip cfg p.sr)) := by
  rw [partStep, if_pos (by simp [partStart])]
  rfl

theorem partStep_eraseUnit (p : Part) (a u : Nat) :
    partStep cfg (partStart cfg p (.eraseUnit a u)) = p.rest (memClear p.flash a u) (clearBusy cfg (setWip cfg p.sr)) :=
        by
  rw [partStep, if_pos (by simp [partStart])]
  rfl

theorem partStep_eraseAll (p : Part) :
    partStep cfg (partStart cfg p .eraseAll) = p.rest [] (clearBusy cfg (setWip cfg p.sr)) := by
  rw [partStep, if_pos (by simp [partStart])]
  rfl

theorem partStep_statusWrite (p : Part) (v : Byte) :
    partStep cfg (partStart cfg p (.statusWrite v)) = p.rest p.flash (v &&& ~~~cfg.srMask) := by
  rw [partStep, if_pos (by simp [partStart])]
  simp only [applyPending?, partStart, applyPending, clearBusy_statusMerge]
  rfl

theorem commandAddr_none {c : NorCmd} (h : c.addrLen = 0) : commandAddr c p [] = .ok 0 := by simp [commandAddr, h]

theorem partReadByte_rdid (hc : p.cut = false) (hw : wip cfg p.sr = false) (i : Nat) :
    partReadByte cfg board p [cfg.op .rdid] i = .ok (jedecByte board i, p) := by
  simp [partReadByte, hc, hw, commandAddr_none (c := .rdid) rfl, partAnswer]

theorem partReadByte_rdsr (hc : p.cut = false) (i : Nat) :
    partReadByte cfg board p [cfg.op .rdsr] i = .ok (p.sr, p) := by
  simp [partReadByte, hc, commandAddr_none (c := .rdsr) rfl, partAnswer]

/-- A command of the class REGWR answers a read with free bytes (R179, R212; log 43). -/
theorem partReadByte_regwr {c : NorCmd} (h : c.cls = .regwr) (hc : p.cut = false) (hw : wip cfg p.sr = false)
    (i : Nat) :
    partReadByte cfg board p [cfg.op c] i = .ok (Config.freeByte board.baseAddress p.draws, p.drawn) := by
  have h0 : c.addrLen = 0 := by cases c <;> first | rfl | cases h
  simp only [partReadByte, hc, Bool.false_eq_true, if_false, cmdOf_op, commandAddr_none h0, hw, Bool.false_and]
  cases c <;> first | rfl | cases h

/-- The read command of an address width (R211). -/
def readCmd (n : Nat) : NorCmd := if n = 4 then .read4b else .read
/-- The program command of an address width (R211). -/
def programCmd (n : Nat) : NorCmd := if n = 4 then .pp4b else .pp

/-- The frame address a part reads (R212). -/
theorem frameAddr_ok {n : Nat} {args : List Byte} (hl : args.length = n) (hm : p.mode4B = decide (n = 4)) :
    frameAddr p n args = .ok (addrNumber args) := by
  rw [frameAddr, if_neg (by omega), if_neg (fun h => h hm)]

theorem partReadByte_read {n a i : Nat} {args : List Byte} (hn : n = 3 ∨ n = 4) (hc : p.cut = false)
    (hw : wip cfg p.sr = false) (hm : p.mode4B = decide (n = 4)) (hl : args.length = n) (ha : addrNumber args = a)
    (hi : a + i < board.flashSize) :
    partReadByte cfg board p (cfg.op (readCmd n) :: args) i = .ok (flashRead cfg p.flash (a + i), p) := by
  simp only [partReadByte, hc, Bool.false_eq_true, if_false, cmdOf_op]
  obtain rfl | rfl := hn <;>
    simp [readCmd, commandAddr, NorCmd.addrLen, frameAddr_ok hl hm, partAnswer, hw, ha, hi]

theorem partExecute_rdsr (hc : p.cut = false) (args : List Byte) :
    partExecute cfg board p (cfg.op .rdsr :: args) = .ok p := by simp [partExecute, hc]

theorem partExecute_rdid (hc : p.cut = false) (hw : wip cfg p.sr = false) (args : List Byte) :
    partExecute cfg board p (cfg.op .rdid :: args) = .ok p := by simp [partExecute, hc, partSent, hw]

theorem partExecute_read {n : Nat} {args : List Byte} (hn : n = 3 ∨ n = 4) (hc : p.cut = false)
    (hw : wip cfg p.sr = false) (hm : p.mode4B = decide (n = 4)) (hl : args.length = n) :
    partExecute cfg board p (cfg.op (readCmd n) :: args) = .ok p := by
  have key : partSent cfg p n args = .ok p := by
    have h0 : n ≠ 0 := by omega
    rw [partSent, if_neg h0, show args.take n = args by rw [← hl, List.take_length], frameAddr_ok hl hm]
    simp [hw]
  simp only [partExecute, hc, Bool.false_eq_true, if_false, cmdOf_op]
  obtain rfl | rfl := hn <;> exact key

theorem partExecute_wren (hc : p.cut = false) (hw : wip cfg p.sr = false) :
    partExecute cfg board p [cfg.op .wren] = .ok { p with sr := setWel cfg p.sr } := by
  simp [partExecute, hc, partSimple, hw, Part.putWel]

theorem partExecute_wrdi (hc : p.cut = false) (hw : wip cfg p.sr = false) :
    partExecute cfg board p [cfg.op .wrdi] = .ok { p with sr := clearWel cfg p.sr } := by
  simp [partExecute, hc, partSimple, hw, Part.putWel]

theorem partExecute_en4b (hc : p.cut = false) (hw : wip cfg p.sr = false) :
    partExecute cfg board p [cfg.op .en4b] = .ok { p with mode4B := true } := by
  simp [partExecute, hc, partSimple, hw, Part.enterMode4B]

theorem partExecute_ce (hc : p.cut = false) (hw : wip cfg p.sr = false) :
    partExecute cfg board p [cfg.op .ce] = .ok (if wel cfg p.sr then partStart cfg p .eraseAll else p) := by
  simp [partExecute, hc, partSimple, hw, Part.eraseChip]

/-- A command without data that arrives with payload bytes: whether it has its effect or none is free, and no other
outcome there is (R180, R205, R213, log 36). -/
theorem partExecute_payload {args : List Byte} (hc : p.cut = false) (hw : wip cfg p.sr = false) (ha : args ≠ []) :
    ∃ b : Bool, partExecute cfg board p (cfg.op .wren :: args) = .ok (if b then p.drawn.putWel cfg true else p.drawn) ∧
      partExecute cfg board p (cfg.op .wrdi :: args) = .ok (if b then p.drawn.putWel cfg false else p.drawn) ∧
      partExecute cfg board p (cfg.op .en4b :: args) = .ok (if b then p.drawn.enterMode4B else p.drawn) ∧
      partExecute cfg board p (cfg.op .ce :: args) = .ok (if b then p.drawn.eraseChip cfg else p.drawn) := by
  refine ⟨Config.freeBit board.baseAddress p.draws, ?_⟩
  simp [partExecute, hc, partSimple, hw, ha, Part.perhaps]

/-- What perhaps has an effect keeps what the effect keeps. -/
theorem Part.perhaps_mode4B {f : Part → Part} (hf : ∀ r : Part, r.mode4B = true → (f r).mode4B = true)
    (h4 : p.mode4B = true) : (p.perhaps board f).mode4B = true := by
  unfold Part.perhaps
  split
  · exact hf _ h4
  · exact h4

/-- A command without address or data does not leave 4-byte mode, if its effect does not. -/
theorem partSimple_mode4B {q : Part} {args : List Byte} {f : Part → Part}
    (hf : ∀ r : Part, r.mode4B = true → (f r).mode4B = true) (h4 : p.mode4B = true)
    (h : partSimple cfg board p args f = .ok q) : q.mode4B = true := by
  unfold partSimple at h
  split at h
  · cases h
  · split at h
    · cases h; exact hf p h4
    · cases h; exact Part.perhaps_mode4B hf h4

/-- A program, erase or status write keeps the address mode, if what it starts does. -/
theorem partBegin_mode4B {q : Part} {go : Except Stop (Part × Pending)}
    (hg : ∀ r x, go = .ok (r, x) → r.mode4B = p.mode4B) (h : partBegin cfg p go = .ok q) : q.mode4B = p.mode4B := by
  unfold partBegin at h
  split at h
  · cases h
  · split at h
    · cases h; rfl
    · split at h
      · cases h
      · next r x => cases h; exact hg r x rfl

theorem partSent_eq {q : Part} {n : Nat} {args : List Byte} (h : partSent cfg p n args = .ok q) : q = p := by
  unfold partSent at h
  split at h
  · cases h
  · split at h <;> cases h
    rfl

theorem partProgram_mode4B {q : Part} {n : Nat} {args : List Byte} (h4 : p.mode4B = true)
    (h : partProgram cfg board p n args = .ok q) : q.mode4B = true := by
  unfold partProgram at h
  split at h
  · cases h
  · split at h
    · split at h <;> cases h
      refine Part.perhaps_mode4B (fun r hr => ?_) h4
      unfold Part.programNothing
      split <;> exact hr
    · refine (partBegin_mode4B (fun r x he => ?_) h).trans h4
      split at he
      · cases he
      · simp only [programStart] at he
        split at he <;> cases he <;> rfl

theorem partErase_mode4B {q : Part} {n : Nat} {args : List Byte} {unit : Nat → Except Stop Nat}
    (h : partErase cfg board p n args unit = .ok q) : q.mode4B = p.mode4B := by
  unfold partErase at h
  split at h
  · cases h
  · refine partBegin_mode4B (fun r x he => ?_) h
    split at he
    · cases he
    · simp only [eraseStart] at he
      split at he <;> cases he <;> rfl

/-- "There is no command in the set that leaves 4-byte mode" (R205), whatever its payload. -/
theorem partExecute_mode4B {q : Part} {out : List Byte} (h4 : p.mode4B = true)
    (h : partExecute cfg board p out = .ok q) : q.mode4B = true := by
  unfold partExecute at h
  split at h
  · cases h
  · split at h
    · cases h
    · split at h
      · cases h
      · rw [partSent_eq h]; exact h4
      · cases h; exact h4
      · rw [partSent_eq h]; exact h4
      · rw [partSent_eq h]; exact h4
      · refine (partBegin_mode4B ?_ h).trans h4
        intro r x he; split at he <;> cases he <;> rfl
      · exact partSimple_mode4B (f := Part.putWel cfg true) (fun _ hr => hr) h4 h
      · exact partSimple_mode4B (f := Part.putWel cfg false) (fun _ hr => hr) h4 h
      · exact partSimple_mode4B (fun _ _ => rfl) h4 h
      · refine partSimple_mode4B (fun r hr => ?_) h4 h
        unfold Part.eraseChip
        split <;> exact hr
      all_goals first
        | exact partProgram_mode4B h4 h
        | exact (partErase_mode4B h).trans h4

/-- What a program, erase or status write does to a part that is not busy (R213). -/
theorem partBegin_ready {q : Part} {x : Pending} (hw : wip cfg p.sr = false) :
    partBegin cfg p (.ok (q, x)) = .ok (if wel cfg p.sr then partStart cfg q x else p) := by
  rw [partBegin, hw]
  by_cases h : wel cfg p.sr = true <;> simp [h]

theorem partExecute_wrsr (hc : p.cut = false) (hw : wip cfg p.sr = false) (v : Byte) :
    partExecute cfg board p [cfg.op .wrsr, v] =
      .ok (if wel cfg p.sr then partStart cfg p (.statusWrite v) else p) := by
  simp only [partExecute, hc, Bool.false_eq_true, if_false, cmdOf_op, partStatusWrite]
  exact partBegin_ready hw

/-- A status write without exactly one payload byte: the value written is a free value (R180, log 36). -/
theorem partExecute_wrsr_payload {args : List Byte} (hc : p.cut = false) (hw : wip cfg p.sr = false)
    (ha : args.length ≠ 1) : ∃ y, partExecute cfg board p (cfg.op .wrsr :: args) =
      .ok (if wel cfg p.sr then partStart cfg p.drawn (.statusWrite y) else p) := by
  have key : partStatusWrite cfg board p args = .ok (if wel cfg p.sr then partStart cfg p.drawn
      (.statusWrite (Config.freeByte board.baseAddress p.draws)) else p) := by
    match args with
    | [] => exact partBegin_ready hw
    | [_] => exact absurd rfl ha
    | _ :: _ :: _ => exact partBegin_ready hw
  refine ⟨Config.freeByte board.baseAddress p.draws, ?_⟩
  simp only [partExecute, hc, Bool.false_eq_true, if_false, cmdOf_op]
  exact key

theorem partPage_listed {info : Config.FlashInfo} (h : Config.norFlashGetInfo cfg board.jedecId = some info) :
    partPage cfg board = info.pageSize := by simp only [partPage, h]

/-- The page of a part whose geometry is not known has some size (log 21). -/
theorem partPage_unlisted (h : Config.norFlashGetInfo cfg board.jedecId = none) : 0 < partPage cfg board := by
  simp only [partPage, h]; exact Nat.succ_pos _

/-- The part a page program leaves: the program started, or the part as it was without write-enable (R207, R213);
without data, either, as it may be (log 45). -/
def Part.programTaken (cfg : Config.Params) (board : Config.SpiBoard) (p : Part) (a : Nat) (data : List Byte) : Part :=
  if data = [] then p.perhaps board (Part.programNothing cfg a)
  else if wel cfg p.sr then
    partStart cfg (programStart cfg board p a data).1 (programStart cfg board p a data).2
  else p

/-- A program inside its page (R207). -/
theorem Part.programTaken_inPage {a : Nat} {data : List Byte} (hd : data ≠ [])
    (hp : a % partPage cfg board + data.length ≤ partPage cfg board) :
    p.programTaken cfg board a data = if wel cfg p.sr then partStart cfg p (.program a data) else p := by
  simp only [Part.programTaken, hd, if_false, programStart, hp, if_true]

/-- What a page program does, in its page, past its end and without data. -/
theorem Part.programTaken_spec {a : Nat} {data : List Byte} {q : Part}
    (h : Settles cfg (p.programTaken cfg board a data) q) : ProgramTaken cfg p (partPage cfg board) a data q := by
  unfold ProgramTaken
  unfold Part.programTaken at h
  split at h
  · next hd =>
    rw [if_pos hd]
    refine ⟨Config.freeBit board.baseAddress p.draws, ?_⟩
    simp only [Part.perhaps, Part.programNothing] at h
    cases hb : Config.freeBit board.baseAddress p.draws
    · simpa [hb] using h
    · simpa only [hb, if_true, Bool.true_and, show p.drawn.sr = p.sr from rfl] using h
  · next hd =>
    rw [if_neg hd]
    split at h
    · next hw =>
      rw [if_pos hw]
      simp only [programStart] at h
      split at h
      · next hp => rwa [if_pos hp]
      · next hp => rw [if_neg hp]; exact ⟨_, by simp, h⟩
    · next hw => rwa [if_neg hw]

theorem partExecute_pp {n a : Nat} {args data : List Byte} (hn : n = 3 ∨ n = 4) (hc : p.cut = false)
    (hw : wip cfg p.sr = false) (hm : p.mode4B = decide (n = 4)) (hl : args.length = n) (ha : addrNumber args = a)
    (hp : 0 < partPage cfg board) (hf : data ≠ [] → a + data.length ≤ board.flashSize) :
    partExecute cfg board p (cfg.op (programCmd n) :: (args ++ data)) = .ok (p.programTaken cfg board a data) := by
  have key : partProgram cfg board p n (args ++ data) = .ok (p.programTaken cfg board a data) := by
    have h1 : (args ++ data).take n = args := by rw [← hl, List.take_left]
    have h2 : (args ++ data).drop n = data := by rw [← hl, List.drop_left]
    simp only [partProgram, h1, h2, frameAddr_ok hl hm, ha, Part.programTaken]
    split
    · rw [if_neg (by simp [hw])]
    · next hd =>
      have := hf hd
      rw [programCheck, if_neg (by omega), if_neg (by omega)]
      exact partBegin_ready hw
  simp only [partExecute, hc, Bool.false_eq_true, if_false, cmdOf_op]
  obtain rfl | rfl := hn <;> exact key

theorem eraseUnitAt_ok {u a : Nat} (hu : 0 < u) (hf : alignDown u a + u ≤ board.flashSize) :
    eraseUnitAt board u a = .ok u := by
  rw [eraseUnitAt, if_neg (by omega), if_neg (by omega)]

/-- The part an erase command leaves: the erase started, or the part as it was without write-enable (R208, R213). -/
def Part.eraseTaken (cfg : Config.Params) (board : Config.SpiBoard) (p : Part) (u a : Nat) : Part :=
  if wel cfg p.sr then partStart cfg (eraseStart board p u a).1 (eraseStart board p u a).2 else p

theorem Part.eraseTaken_aligned {u a : Nat} (h : a % u = 0) :
    p.eraseTaken cfg board u a = if wel cfg p.sr then partStart cfg p (.eraseUnit a u) else p := by
  simp only [Part.eraseTaken, eraseStart, h, if_true]

/-- An erase starts at its address, or, where that is no multiple of the unit, at some place from which the unit holds
it (log 44). -/
theorem Part.eraseTaken_spec {u a : Nat} {q : Part} (hu : 0 < u) (h : Settles cfg (p.eraseTaken cfg board u a) q) :
    EraseTaken cfg p u a q := by
  unfold EraseTaken
  by_cases hw : wel cfg p.sr = true
  · rw [if_pos hw]
    simp only [Part.eraseTaken, hw, if_true, eraseStart] at h
    split at h
    · next ha => rwa [if_pos ha]
    · next ha =>
      rw [if_neg ha]
      have := Nat.mod_lt (Config.freeOffset board.baseAddress p.draws) hu
      exact ⟨_, Nat.sub_le _ _, by omega, h⟩
  · rw [if_neg hw]
    simpa [Part.eraseTaken, hw] using h

theorem partErase_ok {n a u : Nat} {args : List Byte} {unit : Nat → Except Stop Nat}
    (hw : wip cfg p.sr = false) (hm : p.mode4B = decide (n = 4)) (hl : args.length = n) (ha : addrNumber args = a)
    (hu : unit a = .ok u) : partErase cfg board p n args unit = .ok (p.eraseTaken cfg board u a) := by
  simp only [partErase, frameAddr_ok hl hm, ha, hu]
  exact partBegin_ready hw

/-- The erase command of a granularity and address width (R211). -/
def eraseCmd (e4K : Bool) (n : Nat) : NorCmd :=
  if e4K then (if n = 4 then .be4k4b else .be4k) else (if n = 4 then .se4b else .se)

/-- The size of the unit an erase command erases at an address (R208). -/
def eraseUnitOf (cfg : Config.Params) (board : Config.SpiBoard) (e4K : Bool) : Nat → Except Stop Nat :=
  if e4K then eraseUnitAt board Config.erase4K else eraseSectorAt cfg board

theorem partExecute_erase_unit {n a u : Nat} {args : List Byte} {e4K : Bool} (hn : n = 3 ∨ n = 4)
    (hc : p.cut = false) (hw : wip cfg p.sr = false) (hm : p.mode4B = decide (n = 4)) (hl : args.length = n)
    (ha : addrNumber args = a) (hu : eraseUnitOf cfg board e4K a = .ok u) :
    partExecute cfg board p (cfg.op (eraseCmd e4K n) :: args) = .ok (p.eraseTaken cfg board u a) := by
  simp only [partExecute, hc, Bool.false_eq_true, if_false, cmdOf_op]
  cases e4K <;> obtain rfl | rfl := hn <;> exact partErase_ok hw hm hl ha hu

theorem partExecute_erase {n a u : Nat} {args : List Byte} {info : Config.FlashInfo} {e4K : Bool} (hn : n = 3 ∨ n = 4)
    (hc : p.cut = false) (hw : wip cfg p.sr = false) (hm : p.mode4B = decide (n = 4)) (hl : args.length = n)
    (ha : addrNumber args = a) (hg : Config.norFlashGetInfo cfg board.jedecId = some info)
    (hu : u = if e4K then Config.erase4K else info.sectorSize) (hpos : 0 < u)
    (hf : alignDown u a + u ≤ board.flashSize) :
    partExecute cfg board p (cfg.op (eraseCmd e4K n) :: args) = .ok (p.eraseTaken cfg board u a) := by
  refine partExecute_erase_unit hn hc hw hm hl ha ?_
  cases e4K
  · have hu : u = info.sectorSize := by simpa using hu
    simp only [eraseUnitOf, Bool.false_eq_true, if_false, eraseSectorAt, hg]
    rw [← hu]; exact eraseUnitAt_ok hpos hf
  · have hu : u = Config.erase4K := by simpa using hu
    simp only [eraseUnitOf, if_true]
    rw [← hu]; exact eraseUnitAt_ok hpos hf

/-- The sector of a part whose geometry is not known has some size (log 21). -/
theorem eraseSectorAt_unlisted {a : Nat} (hg : Config.norFlashGetInfo cfg board.jedecId = none)
    (ha : a < board.flashSize) : ∃ u, 0 < u ∧ eraseSectorAt cfg board a = .ok u :=
  ⟨_, Nat.succ_pos _, by simp only [eraseSectorAt, hg]; rw [if_neg (by omega)]⟩

/-! ## Transactions on a ready part -/

/-- A transaction on a part that is not busy (R178, R184): the part answers from the state it is in, `g i` before its
byte `i`, and executes the frame. -/
theorem transact_through {d : Txn} {u : SpiUnit} {f : Nat → Byte} (g : Nat → Part) {r : Part} (hd : d.Legal cfg)
    (hu : u.Available cfg) (h0 : g 0 = u.part) (hw : ∀ i, wip cfg (g i).sr = false) (hroom : FifoRoom cfg d.out.length)
    (hread : ∀ i, i < d.rxLen → partReadByte cfg u.board (g i) d.out i = .ok (f i, g (i + 1)))
    (hexec : partExecute cfg u.board (g d.rxLen) d.out = .ok r) :
    ∃ v k, transact cfg d u = .ok ((List.range d.rxLen).map f) v ∧ Settles cfg r v.part ∧ v.ctl = d.doneCtl cfg ∧
      v.frames = u.frames ++ [⟨d.out, (List.range d.rxLen).map f⟩] ∧ SKept u v ∧ v.sched = u.sched.drop (k + 1) := by
  obtain ⟨hi, hf, _, hdep⟩ := hu
  have hc : Contract cfg u.board d (fun l q => q = g l.length ∧ l = (List.range l.length).map f)
      (fun l q => Settles cfg r q ∧ l = (List.range l.length).map f) := by
    refine ⟨fun l q h => ⟨by rw [h.1, partStep_ready (hw _)], h.2⟩, fun l q h => ⟨h.1.step, h.2⟩, ?_, ?_⟩
    · rintro l q b y ⟨rfl, hl⟩ hlt e
      rw [hread _ hlt] at e
      cases e
      refine ⟨by simp, ?_⟩
      rw [List.length_append, List.length_singleton, List.range_succ, List.map_append, ← hl]
      rfl
    · rintro l q x ⟨rfl, hl⟩ hlen e
      rw [hlen, hexec] at e
      cases e
      exact ⟨.inl rfl, hl⟩
  obtain ⟨rx, v, k, e, hl, ⟨h1, h2⟩, h3, h4, h5, h6⟩ := transact_from hd hi hf.shiftFair hdep hroom hc
    ⟨fun l q h hlt => ⟨f l.length, _, h.1 ▸ hread _ hlt⟩, fun l q h hlen => ⟨r, by rw [h.1, hlen]; exact hexec⟩⟩
    (.inl rfl) ⟨h0.symm, rfl⟩
  rw [hl] at h2
  subst h2
  exact ⟨v, k, e, h1, h3, h4, h5, h6⟩

/-- As `transact_through`, where the part does not change until it executes the frame. -/
theorem transact_ready {d : Txn} {u : SpiUnit} {f : Nat → Byte} {r : Part} (hd : d.Legal cfg) (hu : u.Available cfg)
    (hw : u.PartReady cfg) (hroom : FifoRoom cfg d.out.length)
    (hread : ∀ i, i < d.rxLen → partReadByte cfg u.board u.part d.out i = .ok (f i, u.part))
    (hexec : partExecute cfg u.board u.part d.out = .ok r) :
    ∃ v k, transact cfg d u = .ok ((List.range d.rxLen).map f) v ∧ Settles cfg r v.part ∧ v.ctl = d.doneCtl cfg ∧
      v.frames = u.frames ++ [⟨d.out, (List.range d.rxLen).map f⟩] ∧ SKept u v ∧ v.sched = u.sched.drop (k + 1) :=
  transact_through (fun _ => u.part) hd hu rfl (fun _ => hw) hroom hread hexec

theorem doneCtl_idle {d : Txn} {v : SpiUnit} (h : v.ctl = d.doneCtl cfg) : v.idle cfg = true := by
  simp [SpiUnit.idle, h, Txn.doneCtl, Txn.word]

end Sys2Proof.Machine
end

