-- ==== Sys2Proof/Laws/Nor.lean ====
section
/-! SUPPORT. What the SPI primitives and the NOR host operations do on an available unit whose part is ready, under
every fair schedule: one lemma per shared operation. -/

namespace Sys2Proof.Machine

open Sys2Proof

variable {cfg : Config.Params}

/-- What an operation of engine S leaves of a unit: idle, fair, with the frames `fs` recorded. -/
structure SAfter (cfg : Config.Params) (u v : SpiUnit) (fs : List Frame) : Prop where
  board : v.board = u.board
  record : v.record = u.record
  live : v.live = u.live
  draws : v.draws = u.draws
  buf : v.work.buf = u.work.buf
  idle : v.idle cfg = true
  fair : v.Fair cfg
  sched : v.sched.length ≤ u.sched.length
  frames : v.frames = u.frames ++ fs

theorem SAfter.of {u v : SpiUnit} {d : Txn} {fs : List Frame} {k : Nat} (hf : u.Fair cfg) (hk : SKept u v)
    (hc : v.ctl = d.doneCtl cfg) (hF : v.frames = u.frames ++ fs) (hs : v.sched = u.sched.drop (k + 1)) :
    SAfter cfg u v fs := by
  obtain ⟨x, hx⟩ := hk.work
  exact ⟨hk.board, hk.record, hk.live, hk.draws, by rw [hx], doneCtl_idle hc, hf.next hk.live hs,
    by rw [hs, List.length_drop]; omega, hF⟩

theorem SAfter.trans {u v w : SpiUnit} {fs gs : List Frame} (h : SAfter cfg u v fs) (k : SAfter cfg v w gs) :
    SAfter cfg u w (fs ++ gs) :=
  ⟨k.board.trans h.board, k.record.trans h.record, k.live.trans h.live, k.draws.trans h.draws, k.buf.trans h.buf,
    k.idle, k.fair, k.sched.trans h.sched, by rw [k.frames, h.frames, List.append_assoc]⟩

/-- Working registers other than `BUF` do not matter to what comes before. -/
theorem SAfter.pre {u u' v : SpiUnit} {fs : List Frame} (h : SAfter cfg u' v fs)
    (e : u' = { u with work := u'.work }) (hb : u'.work.buf = u.work.buf) : SAfter cfg u v fs := by
  have := h
  rw [e] at this
  exact ⟨this.board, this.record, this.live, this.draws, by rw [h.buf, hb], this.idle, this.fair, this.sched,
      this.frames⟩

theorem SAfter.available {u v : SpiUnit} {fs : List Frame} (h : SAfter cfg u v fs) (hu : u.Available cfg)
    (hc : v.part.cut = false) : v.Available cfg := ⟨h.idle, h.fair, hc, hu.2.2.2⟩

/-! ## Register transactions -/

/-- The transaction of `SPI.WRREG` (R180). -/
def wrTxn (cfg : Config.Params) (c : NorCmd) (payload : List Byte) : Txn := ⟨.regwr, cfg.op c, none, 0, payload, 0⟩
/-- The transaction of `SPI.RDREG` (R179). -/
def rdTxn (cfg : Config.Params) (c : NorCmd) (n : Nat) : Txn := ⟨.regrd, cfg.op c, none, 0, [], n⟩

theorem wrTxn_legal (c : NorCmd) {payload : List Byte} (h : payload.length ≤ 3) : (wrTxn cfg c payload).Legal cfg := by
  refine ⟨tranClassOf_register _ .regwr false (.inr rfl), by simp [wrTxn, Txn.addrCount], ?_, ?_, ?_⟩
  · simp only [wrTxn]; omega
  · intro _; exact .inl rfl
  · simp [wrTxn]

theorem rdTxn_legal (c : NorCmd) {n : Nat} (h0 : 0 < n) (h : n ≤ 3) : (rdTxn cfg c n).Legal cfg := by
  refine ⟨tranClassOf_register _ .regrd false (.inl rfl), by simp [rdTxn, Txn.addrCount], ?_, ?_, ?_⟩
  · simp only [rdTxn, List.length_nil]; omega
  · intro hn; exact absurd rfl hn
  · simp [rdTxn, h0]

/-- `SPI.WRREG` of any command on a ready part (R180; log 43). -/
theorem writeRegister_ready {u : SpiUnit} {c : NorCmd} {payload : List Byte} {r : Part} {n : NorDevice}
    (hrec : u.record = some n) (hlen : payload.length ≤ 3) (hu : u.Available cfg) (hw : u.PartReady cfg)
    (hexec : partExecute cfg u.board u.part (cfg.op c :: payload) = .ok r) :
    ∃ v, writeRegister cfg (cfg.op c) payload u = .ok [] v ∧ Settles cfg r v.part ∧
      SAfter cfg u v [⟨cfg.op c :: payload, []⟩] ∧ v.ctl = (wrTxn cfg c payload).doneCtl cfg := by
  have hroom : FifoRoom cfg (wrTxn cfg c payload).out.length := by
    intro _
    have := hu.2.2.2
    simp only [wrTxn, Txn.out, Txn.addrBytes, List.nil_append, List.length_cons]
    omega
  obtain ⟨v, k, e, hr, hc, hF, hk, hs⟩ := transact_ready (cfg := cfg) (f := fun _ => 0#8) (wrTxn_legal c hlen)
    (u := u.bounce payload) hu hw hroom (fun i hi => absurd hi (by simp [wrTxn])) hexec
  refine ⟨v, ?_, hr, (SAfter.of (u := u.bounce payload) hu.2.1 hk hc hF hs).pre rfl rfl, hc⟩
  simp only [writeRegister, withRecord, hrec, cmdOf_op, reduceCtorEq, if_false, show ¬ 3 < payload.length by omega]
  exact e

/-- `SPI.RDREG` of any command on a ready part (R179; log 43), which is `g i` before its byte `i`. -/
theorem readRegister_through {u : SpiUnit} {c : NorCmd} {m : Nat} {f : Nat → Byte} (g : Nat → Part) {n : NorDevice}
    {r : Part} (hrec : u.record = some n) (h0 : 0 < m) (hm : m ≤ 3) (hu : u.Available cfg) (hg : g 0 = u.part)
    (hw : ∀ i, wip cfg (g i).sr = false)
    (hread : ∀ i, i < m → partReadByte cfg u.board (g i) [cfg.op c] i = .ok (f i, g (i + 1)))
    (hexec : partExecute cfg u.board (g m) [cfg.op c] = .ok r) :
    ∃ v, readRegister cfg (cfg.op c) m u = .ok ((List.range m).map f) v ∧ Settles cfg r v.part ∧
      SAfter cfg u v [⟨[cfg.op c], (List.range m).map f⟩] ∧ v.ctl = (rdTxn cfg c m).doneCtl cfg := by
  have hroom : FifoRoom cfg (rdTxn cfg c m).out.length := by
    intro _
    have := hu.2.2.2
    simp only [rdTxn, Txn.out, Txn.addrBytes, List.nil_append, List.length_cons, List.length_nil]
    omega
  obtain ⟨v, k, e, hr, hc', hF, hk, hs⟩ := transact_through (cfg := cfg) (f := f) g (rdTxn_legal c h0 hm)
    (u := u) hu hg hw hroom hread hexec
  have hv := SAfter.of hu.2.1 hk hc' hF hs
  refine ⟨v.bounce ((List.range m).map f), ?_, hr,
    ⟨hv.board, hv.record, hv.live, hv.draws, hv.buf, hv.idle, hv.fair, hv.sched, hv.frames⟩, hc'⟩
  have hn : ¬ (m = 0 ∨ 3 < m) := by omega
  simp only [readRegister, withRecord, hrec, cmdOf_op, reduceCtorEq, if_false, hn]
  have : (⟨.regrd, cfg.op c, none, 0, [], m⟩ : Txn) = rdTxn cfg c m := rfl
  rw [this, e]
  rfl

/-- `SPI.RDREG` of the ID or the status on a ready part (R179). -/
theorem readRegister_ready {u : SpiUnit} {c : NorCmd} {m : Nat} {f : Nat → Byte} {n : NorDevice}
    (hrec : u.record = some n) (hc : c = .rdid ∨ c = .rdsr) (h0 : 0 < m) (hm : m ≤ 3)
    (hu : u.Available cfg) (hw : u.PartReady cfg)
    (hread : ∀ i, i < m → partReadByte cfg u.board u.part [cfg.op c] i = .ok (f i, u.part)) :
    ∃ v, readRegister cfg (cfg.op c) m u = .ok ((List.range m).map f) v ∧ v.part = u.part ∧
      SAfter cfg u v [⟨[cfg.op c], (List.range m).map f⟩] ∧ v.ctl = (rdTxn cfg c m).doneCtl cfg := by
  obtain ⟨v, e, h1, h2, h3⟩ := readRegister_through (cfg := cfg) (c := c) (fun _ => u.part) hrec h0 hm hu rfl
    (fun _ => hw) hread (r := u.part) (by
      obtain rfl | rfl := hc
      · exact partExecute_rdid hu.2.2.1 hw _
      · exact partExecute_rdsr hu.2.2.1 _)
  exact ⟨v, e, h1.ready hw, h2, h3⟩

/-! ## Status polls -/

/-- A status read of a part that may be busy (R201, R210): it answers the status before or after the part's own step,
and after it where nothing is left of the schedule. -/
theorem statusFrame {u : SpiUnit} {p : Part} (hu : u.Available cfg) (hp : u.part = p) :
    ∃ b v, transact cfg (rdTxn cfg .rdsr 1) u = .ok [b] v ∧
      SAfter cfg u v [⟨[cfg.op .rdsr], [b]⟩] ∧ (u.sched ≠ [] → v.sched.length < u.sched.length) ∧
      v.ctl = (rdTxn cfg .rdsr 1).doneCtl cfg ∧
      (b = p.sr ∧ Settles cfg p v.part ∧ u.sched ≠ [] ∨ b = (partStep cfg p).sr ∧ v.part = partStep cfg p) := by
  obtain ⟨hi, hf, hcut, hdep⟩ := hu
  subst hp
  have hout : (rdTxn cfg .rdsr 1).out = [cfg.op .rdsr] := rfl
  have hcut' : ∀ q, Settles cfg u.part q → q.cut = false := by
    rintro q (rfl | rfl)
    · exact hcut
    · rw [partStep_cut]; exact hcut
  have hc : Contract cfg u.board (rdTxn cfg .rdsr 1)
      (fun l q => l = [] ∧ (Settles cfg u.part q ∧ u.sched ≠ [] ∨ q = partStep cfg u.part) ∨
        l = [u.part.sr] ∧ Settles cfg u.part q ∧ u.sched ≠ [] ∨ l = [(partStep cfg u.part).sr] ∧
            q = partStep cfg u.part)
      (fun l q => l = [u.part.sr] ∧ Settles cfg u.part q ∧ u.sched ≠ [] ∨
        l = [(partStep cfg u.part).sr] ∧ q = partStep cfg u.part) := by
    refine ⟨?_, ?_, ?_, ?_⟩
    · rintro l q (⟨rfl, ⟨h, h'⟩ | rfl⟩ | ⟨rfl, h, h'⟩ | ⟨rfl, rfl⟩)
      · exact .inl ⟨rfl, .inl ⟨h.step, h'⟩⟩
      · exact .inl ⟨rfl, .inr (partStep_idem cfg _)⟩
      · exact .inr (.inl ⟨rfl, h.step, h'⟩)
      · exact .inr (.inr ⟨rfl, partStep_idem cfg _⟩)
    · rintro l q (⟨rfl, h, h'⟩ | ⟨rfl, rfl⟩)
      · exact .inl ⟨rfl, h.step, h'⟩
      · exact .inr ⟨rfl, partStep_idem cfg _⟩
    · rintro l q b y hj hlt e
      have hl : l = [] := by
        simp only [rdTxn] at hlt
        exact List.length_eq_zero_iff.1 (by omega)
      subst hl
      obtain ⟨_, h⟩ | ⟨h, _⟩ | ⟨h, _⟩ := hj
      · rw [hout, partReadByte_rdsr (hcut' q (h.elim (fun h => h.1) .inr))] at e
        cases e
        obtain ⟨h | h, h'⟩ | h := h
        · exact .inr (.inl ⟨by rw [h]; rfl, .inl h, h'⟩)
        · exact .inr (.inr ⟨by rw [h]; rfl, h⟩)
        · exact .inr (.inr ⟨by rw [h]; rfl, h⟩)
      · cases h
      · cases h
    · rintro l q r hj hlen e
      obtain ⟨rfl, h⟩ | ⟨rfl, h⟩ | ⟨rfl, rfl⟩ := hj
      · simp [rdTxn] at hlen
      · rw [hout, partExecute_rdsr (hcut' q h.1)] at e
        cases e
        exact .inl ⟨rfl, h⟩
      · rw [hout, partExecute_rdsr (hcut' _ (.inr rfl))] at e
        cases e
        exact .inr ⟨rfl, rfl⟩
  have ha : Answers cfg u.board (rdTxn cfg .rdsr 1)
      (fun l q => l = [] ∧ (Settles cfg u.part q ∧ u.sched ≠ [] ∨ q = partStep cfg u.part) ∨
        l = [u.part.sr] ∧ Settles cfg u.part q ∧ u.sched ≠ [] ∨ l = [(partStep cfg u.part).sr] ∧
            q = partStep cfg u.part) := by
    have hs : ∀ {l q}, (l = [] ∧ (Settles cfg u.part q ∧ u.sched ≠ [] ∨ q = partStep cfg u.part) ∨
        l = [u.part.sr] ∧ Settles cfg u.part q ∧ u.sched ≠ [] ∨ l = [(partStep cfg u.part).sr] ∧
            q = partStep cfg u.part) →
        q.cut = false := by
      rintro l q (⟨_, ⟨h, _⟩ | h⟩ | ⟨_, h, _⟩ | ⟨_, h⟩)
      · exact hcut' q h
      · exact hcut' q (.inr h)
      · exact hcut' q h
      · exact hcut' q (.inr h)
    exact ⟨fun l q h _ => ⟨_, q, partReadByte_rdsr (hs h) _⟩, fun l q h _ => ⟨q, partExecute_rdsr (hs h) []⟩⟩
  have hroom : FifoRoom cfg (rdTxn cfg .rdsr 1).out.length := fun _ => by rw [hout]; simp; omega
  have hstart : ∃ p, (p = u.part ∨ u.sched = [] ∧ u.live = ⟨true, true⟩ ∧ p = partStep cfg u.part) ∧
      (Settles cfg u.part p ∧ u.sched ≠ [] ∨ p = partStep cfg u.part) := by
    by_cases h : u.sched = []
    · exact ⟨_, .inr ⟨h, hf.1, rfl⟩, .inr rfl⟩
    · exact ⟨_, .inl rfl, .inl ⟨.inl rfl, h⟩⟩
  obtain ⟨p, hp1, hp2⟩ := hstart
  obtain ⟨rx, v, k, e, hl, h1, h3, h4, h5, h6⟩ :=
      transact_from (rdTxn_legal .rdsr (by omega) (by omega)) hi hf.shiftFair hdep
    hroom hc ha hp1 (.inl ⟨rfl, hp2⟩)
  have hv := SAfter.of hf h5 h3 h4 h6
  obtain ⟨b, rfl⟩ : ∃ b, rx = [b] := List.length_eq_one_iff.1 hl
  refine ⟨b, v, e, hv, fun hne => ?_, h3, ?_⟩
  · show v.sched.length < _
    rw [h6, List.length_drop]
    have := List.length_pos_iff.2 hne
    omega
  · obtain ⟨hb, h⟩ | ⟨hb, h⟩ := h1
    · exact .inl ⟨List.singleton_inj.1 hb, h⟩
    · exact .inr ⟨List.singleton_inj.1 hb, h⟩

/-- One status poll of wait-ready (R210). -/
theorem statusPoll {u : SpiUnit} {p : Part} {n : NorDevice} (hrec : u.record = some n) (hu : u.Available cfg)
    (hp : u.part = p) :
    ∃ b v, readRegister cfg (cfg.op .rdsr) 1 u = .ok [b] v ∧
      SAfter cfg u v [⟨[cfg.op .rdsr], [b]⟩] ∧ (u.sched ≠ [] → v.sched.length < u.sched.length) ∧
      v.ctl = (rdTxn cfg .rdsr 1).doneCtl cfg ∧
      (b = p.sr ∧ Settles cfg p v.part ∧ u.sched ≠ [] ∨ b = (partStep cfg p).sr ∧ v.part = partStep cfg p) := by
  obtain ⟨b, v, e, hv, hs, hc, hb⟩ := statusFrame hu hp
  refine ⟨b, v.bounce [b], ?_, ⟨hv.board, hv.record, hv.live, hv.draws, hv.buf, hv.idle, hv.fair, hv.sched, hv.frames⟩,
    hs, hc, hb⟩
  simp only [readRegister, withRecord, hrec, cmdOf_op]
  have : (⟨.regrd, cfg.op .rdsr, none, 0, [], 1⟩ : Txn) = rdTxn cfg .rdsr 1 := rfl
  rw [this, e]
  rfl

/-- Frames that are status polls. -/
def Polls (cfg : Config.Params) (fs : List Frame) : Prop := ∀ f ∈ fs, f.out = [cfg.op .rdsr]

theorem commandsOf_polls {fs : List Frame} (h : Polls cfg fs) : commandsOf cfg fs = [] := by
  simp only [commandsOf, List.filter_eq_nil_iff, List.mem_map, decide_eq_true_eq, not_not]
  rintro o ⟨f, hf, rfl⟩
  exact h f hf

theorem commandsOf_append (fs gs : List Frame) : commandsOf cfg (fs ++ gs) = commandsOf cfg fs ++ commandsOf cfg gs :=
    by
  simp [commandsOf]

theorem readyPolls_fair (n : Nat) {u : SpiUnit} {q : NorDevice} (hrec : u.record = some q) (hu : u.Available cfg)
    (hn : u.sched.length < n) :
    ∃ v fs, readyPolls cfg n u = .ok true v ∧ v.part = partStep cfg u.part ∧ SAfter cfg u v fs ∧ Polls cfg fs ∧
        fs ≠ [] ∧
      v.ctl = (rdTxn cfg .rdsr 1).doneCtl cfg := by
  induction n generalizing u with
  | zero => omega
  | succ m ih =>
    obtain ⟨b, v, e, hv, hs, hc, hb⟩ := statusPoll hrec hu rfl
    rw [readyPolls, e, Res.bind_ok]
    have hb' : ([b] : List Byte).headD 0#8 = b := rfl
    rw [hb']
    by_cases hw : wip cfg b = true
    · rw [if_pos hw]
      obtain ⟨_, h, hne⟩ | ⟨h, _⟩ := hb
      · have hcv : v.part.cut = false := by
          obtain h | h := h <;> rw [h]
          · exact hu.2.2.1
          · rw [partStep_cut]; exact hu.2.2.1
        obtain ⟨w, fs, e2, p2, h2, hp2, _, c2⟩ := ih (hv.record.trans hrec) (hv.available hu hcv)
          (by have := hs hne; omega)
        refine ⟨w, _, e2, ?_, hv.trans h2, ?_, by simp, c2⟩
        · rw [p2, h.partStep]
        · intro f hf
          obtain hf | hf := List.mem_append.1 hf
          · rw [List.mem_singleton.1 hf]
          · exact hp2 f hf
      · rw [h, wip_partStep] at hw; cases hw
    · rw [if_neg hw]
      refine ⟨v, _, rfl, ?_, hv, fun f hf => by rw [List.mem_singleton.1 hf], by simp, hc⟩
      obtain ⟨hb, h, _⟩ | ⟨_, h⟩ := hb
      · subst hb
        have hr : wip cfg u.part.sr = false := by simpa using hw
        rw [partStep_ready hr]
        exact h.ready hr
      · exact h

/-- Wait-ready under a fair schedule (R210): the part's pending operation has completed. -/
theorem waitReady_fair {u : SpiUnit} {q : NorDevice} (hrec : u.record = some q) (hu : u.Available cfg) :
    ∃ v fs, waitReady cfg u = .ok () v ∧ v.part = partStep cfg u.part ∧ SAfter cfg u v fs ∧ Polls cfg fs ∧ fs ≠ [] ∧
      v.ctl = (rdTxn cfg .rdsr 1).doneCtl cfg := by
  have hn : u.sched.length < pollCount cfg.readyPollBudget u.sched.length := by
    obtain h | ⟨_, h, _⟩ := hu.2.1.2
    · obtain ⟨m, hm⟩ := pollCount_pos cfg.readyPollBudget u.sched.length
      rw [hm, h]; simp
    · rw [h]; simp only [pollCount]; omega
  obtain ⟨v, fs, e, h⟩ := readyPolls_fair _ hrec hu hn
  exact ⟨v, fs, by rw [waitReady, e, Res.bind_ok, if_pos rfl], h⟩

/-! ## Data transactions -/

theorem resolve_n (cfg : Config.Params) (info : Config.FlashInfo) : (resolve cfg info).addressByteCount = 3 ∨
    (resolve cfg info).addressByteCount = 4 := by
  simp only [resolve]; split <;> simp

theorem resolve_read (cfg : Config.Params) (info : Config.FlashInfo) :
    (resolve cfg info).readOpcode = cfg.op (readCmd (resolve cfg info).addressByteCount) := by
  simp only [resolve, readCmd]; split <;> simp

theorem resolve_program (cfg : Config.Params) (info : Config.FlashInfo) :
    (resolve cfg info).programOpcode = cfg.op (programCmd (resolve cfg info).addressByteCount) := by
  simp only [resolve, programCmd]; split <;> simp

theorem resolve_erase (cfg : Config.Params) (info : Config.FlashInfo) :
    (resolve cfg info).eraseOpcode = cfg.op (eraseCmd info.flagErase4K (resolve cfg info).addressByteCount) := by
  obtain ⟨_, _, a, b⟩ := info
  cases a <;> cases b <;> rfl

theorem SpiUnit.Resolves.mode {u : SpiUnit} {info : Config.FlashInfo} (h : u.Resolves cfg info) :
    u.part.mode4B = decide ((resolve cfg info).addressByteCount = 4) := by
  rw [h.2.2.2.2]
  show info.flag4B = decide ((if info.flag4B then 4 else 3) = 4)
  by_cases h4 : info.flag4B = true <;> simp [h4]

theorem withResolved_eq {α : Type} {u : SpiUnit} {info : Config.FlashInfo} (h : u.Resolves cfg info)
    (f : Resolved → Res SpiUnit α) : withResolved u f = f (resolve cfg info) := by
  obtain ⟨⟨r, h1, h2⟩, _, h3, h4, _⟩ := h
  simp only [withResolved, withRecord, h1, h2]
  rw [if_neg]
  simp only [resolve]
  omega

theorem withInited_eq {α : Type} {u : SpiUnit} {info : Config.FlashInfo} (h : u.Initialised cfg info)
    (f : Resolved → Res SpiUnit α) : withInited u f = f (resolve cfg info) := by
  obtain ⟨h1, r, h2, h3⟩ := h
  simp only [withInited, withRecord, h2, h3, if_true]
  exact withResolved_eq h1 f

theorem SpiUnit.Resolves.keep {u v : SpiUnit} {info : Config.FlashInfo} (h : u.Resolves cfg info)
    (hr : v.record = u.record) (hb : v.board = u.board) (hm : v.part.mode4B = u.part.mode4B) :
    v.Resolves cfg info := by
  obtain ⟨⟨r, h1, h2⟩, h3, h4, h5, h6⟩ := h
  exact ⟨⟨r, hr.trans h1, h2⟩, by rw [hb]; exact h3, h4, h5, by rw [hm]; exact h6⟩

theorem flashFits_split {size n addr len a l : Nat} (h : flashFits size n addr len = true) (_ : addr ≤ a)
    (h2 : a + l ≤ addr + len) : flashFits size n a l = true := by
  simp only [flashFits, decide_eq_true_eq] at *; omega

/-- The part reads back the address the engine framed (R105, R212). -/
theorem addrNumber_framed {size n a l : Nat} (hn : n = 3 ∨ n = 4) (hf : flashFits size n a l = true) (hl : 0 < l) :
    addrNumber (addrBytes (BitVec.ofNat 32 a) n) = a := by
  simp only [flashFits, decide_eq_true_eq] at hf
  rw [addrNumber_addrBytes, BitVec.toNat_ofNat]
  obtain rfl | rfl := hn
  · norm_num at hf ⊢; omega
  · norm_num at hf ⊢; omega

/-- The descriptor of a data read (R181). -/
def readTxn (g : Resolved) (addr len : Nat) : Txn :=
  ⟨.datard, g.readOpcode, some (BitVec.ofNat 32 addr), g.addressByteCount, [], len⟩
/-- The descriptor of a page program (R182). -/
def programTxn (g : Resolved) (addr : Nat) (payload : List Byte) : Txn :=
  ⟨.datawr, g.programOpcode, some (BitVec.ofNat 32 addr), g.addressByteCount, payload, 0⟩
/-- The descriptor of an erase (R183). -/
def eraseTxn (g : Resolved) (addr : Nat) : Txn :=
  ⟨.erase, g.eraseOpcode, some (BitVec.ofNat 32 addr), g.addressByteCount, [], 0⟩

theorem addrTxn_legal {cls : TranClass} {cmd : Byte} {a : Word} {n rx : Nat} {tx : List Byte} (hn : n = 3 ∨ n = 4)
    (hcls : cls = .datard ∧ tx = [] ∨ cls = .datawr ∧ rx = 0 ∨ cls = .erase ∧ tx = [] ∧ rx = 0)
    (hlen : tx.length + rx < 2 ^ 32) : (⟨cls, cmd, some a, n, tx, rx⟩ : Txn).Legal cfg := by
  refine ⟨?_, by simp only [Txn.addrCount]; omega, hlen, ?_, ?_⟩
  · refine tranClassOf_address _ cls (BitVec.ofNat 3 n) false ?_ ?_
    · obtain ⟨rfl, _⟩ | ⟨rfl, _⟩ | ⟨rfl, _⟩ := hcls <;> simp
    · obtain rfl | rfl := hn <;> rfl
  · intro ht
    obtain ⟨_, h⟩ | ⟨h, _⟩ | ⟨_, h, _⟩ := hcls
    · exact absurd h ht
    · exact .inr h
    · exact absurd h ht
  · obtain ⟨rfl, _⟩ | ⟨rfl, h⟩ | ⟨rfl, _, h⟩ := hcls <;> simp [*]

/-- A data read transaction on a ready part (R181, R206). -/
theorem readTransaction_ready {u : SpiUnit} {info : Config.FlashInfo} {addr len : Nat} (hr : u.Resolves cfg info)
    (hu : u.Available cfg) (hw : u.PartReady cfg) (hlen : len < 2 ^ 32)
    (hpage : len ≤ info.pageSize - addr % info.pageSize)
    (hf : flashFits u.board.flashSize (resolve cfg info).addressByteCount addr (max len 1) = true) :
    ∃ v, readTransaction cfg addr len u = .ok ((List.range len).map fun i => flashRead cfg u.part.flash (addr + i)) v ∧
      v.part = u.part ∧ SAfter cfg u v [⟨(readTxn (resolve cfg info) addr len).out,
        (List.range len).map fun i => flashRead cfg u.part.flash (addr + i)⟩] ∧
      v.ctl = (readTxn (resolve cfg info) addr len).doneCtl cfg := by
  have hn := resolve_n cfg info
  have hout : (readTxn (resolve cfg info) addr len).out = cfg.op (readCmd (resolve cfg info).addressByteCount) ::
      addrBytes (BitVec.ofNat 32 addr) (resolve cfg info).addressByteCount := by
    simp [readTxn, Txn.out, Txn.addrBytes, resolve_read]
  have ha := addrNumber_framed hn hf (by omega)
  have hfit := hf
  simp only [flashFits, decide_eq_true_eq] at hfit
  have hroom : FifoRoom cfg (readTxn (resolve cfg info) addr len).out.length := by
    intro _
    have := hu.2.2.2
    rw [hout, List.length_cons, addrBytes_length]
    omega
  obtain ⟨v, k, e, h1, h2, h3, h4, h5⟩ := transact_ready (cfg := cfg) (d := readTxn (resolve cfg info) addr len)
    (f := fun i => flashRead cfg u.part.flash (addr + i)) (r := u.part)
    (addrTxn_legal hn (.inl ⟨rfl, rfl⟩) (by simpa using hlen)) hu hw hroom
    (fun i hi => by
      rw [hout]
      exact partReadByte_read hn hu.2.2.1 hw hr.mode (addrBytes_length _ _) ha (by
        have : i < len := hi
        omega))
    (by
      rw [hout]
      exact partExecute_read hn hu.2.2.1 hw hr.mode (addrBytes_length _ _))
  refine ⟨v, ?_, h1.ready hw, SAfter.of hu.2.1 h4 h2 h3 h5, h2⟩
  rw [readTransaction, withResolved_eq hr, dataCheck, if_neg (by simp only [resolve]; omega), if_pos hf]
  exact e

/-- A page-program transaction on a ready part (R182, R207): the part takes it if it is write-enabled. -/
theorem programTransaction_ready {u : SpiUnit} {info : Config.FlashInfo} {addr : Nat} {data : List Byte}
    (hr : u.Resolves cfg info) (hu : u.Available cfg) (hw : u.PartReady cfg)
    (hlen : data.length < 2 ^ 32) (hpage : data.length ≤ info.pageSize - addr % info.pageSize)
    (hf : flashFits u.board.flashSize (resolve cfg info).addressByteCount addr (max data.length 1) = true)
    (hroom : FifoRoom cfg (1 + (resolve cfg info).addressByteCount + data.length)) :
    ∃ v, programTransaction cfg addr data u = .ok [] v ∧
      Settles cfg (u.part.programTaken cfg u.board addr data) v.part ∧
      SAfter cfg u v [⟨(programTxn (resolve cfg info) addr data).out, []⟩] ∧
      v.ctl = (programTxn (resolve cfg info) addr data).doneCtl cfg := by
  have hn := resolve_n cfg info
  have hout : (programTxn (resolve cfg info) addr data).out = cfg.op (programCmd (resolve cfg info).addressByteCount) ::
      (addrBytes (BitVec.ofNat 32 addr) (resolve cfg info).addressByteCount ++ data) := by
    simp [programTxn, Txn.out, Txn.addrBytes, resolve_program]
  have ha := addrNumber_framed hn hf (by omega)
  have hfit := hf
  simp only [flashFits, decide_eq_true_eq] at hfit
  have hmod := Nat.mod_lt addr hr.2.2.1
  have hroom' : FifoRoom cfg (programTxn (resolve cfg info) addr data).out.length := by
    intro hs
    have := hroom hs
    rw [hout, List.length_cons, List.length_append, addrBytes_length]
    omega
  obtain ⟨v, k, e, h1, h2, h3, h4, h5⟩ := transact_ready (cfg := cfg) (d := programTxn (resolve cfg info) addr data)
    (f := fun _ => 0#8) (addrTxn_legal hn (.inr (.inl ⟨rfl, rfl⟩)) (by simpa using hlen)) hu hw hroom'
    (fun i hi => absurd hi (by simp [programTxn]))
    (by
      rw [hout]
      exact partExecute_pp hn hu.2.2.1 hw hr.mode (addrBytes_length _ _) ha
        (by rw [partPage_listed hr.2.1]; exact hr.2.2.1) (fun _ => by omega))
  refine ⟨v, ?_, h1, SAfter.of hu.2.1 h4 h2 h3 h5, h2⟩
  rw [programTransaction, withResolved_eq hr, dataCheck, if_neg (by simp only [resolve]; omega), if_pos hf]
  exact e

/-- The unit that holds an address lies in FLASH, and so does the address. -/
theorem flashFits_held {size n u a : Nat} (hu : 0 < u) (h : flashFits size n (alignDown u a) u = true) :
    flashFits size n a 1 = true := by
  have h1 := Nat.mod_lt a hu
  have h2 := Nat.mod_le a u
  simp only [flashFits, decide_eq_true_eq] at h ⊢
  exact ⟨by have := h.1; unfold alignDown at this; omega, h.2⟩

/-- An erase transaction on a ready part (R183, R208), at any address of a unit in FLASH: the part takes it if it is
write-enabled. -/
theorem eraseTransaction_held {u : SpiUnit} {info : Config.FlashInfo} {addr : Nat}
    (hr : u.Resolves cfg info) (hu : u.Available cfg) (hw : u.PartReady cfg)
    (hf : flashFits u.board.flashSize (resolve cfg info).addressByteCount
      (alignDown (resolve cfg info).granularity addr) (resolve cfg info).granularity = true) :
    ∃ v, eraseTransaction cfg addr u = .ok [] v ∧
      Settles cfg (u.part.eraseTaken cfg u.board (resolve cfg info).granularity addr) v.part ∧
      SAfter cfg u v [⟨(eraseTxn (resolve cfg info) addr).out, []⟩] ∧
      v.ctl = (eraseTxn (resolve cfg info) addr).doneCtl cfg := by
  have hn := resolve_n cfg info
  have hg : (resolve cfg info).granularity = if info.flagErase4K then Config.erase4K else info.sectorSize := by
    rfl
  have hpos : 0 < (resolve cfg info).granularity := by
    rw [hg]; split
    · simp [Config.erase4K]
    · exact hr.2.2.2.1
  have hout : (eraseTxn (resolve cfg info) addr).out =
      cfg.op (eraseCmd info.flagErase4K (resolve cfg info).addressByteCount) ::
      addrBytes (BitVec.ofNat 32 addr) (resolve cfg info).addressByteCount := by
    simp [eraseTxn, Txn.out, Txn.addrBytes, resolve_erase]
  have ha := addrNumber_framed hn (flashFits_held hpos hf) Nat.one_pos
  have hfit := hf
  simp only [flashFits, decide_eq_true_eq] at hfit
  have hroom : FifoRoom cfg (eraseTxn (resolve cfg info) addr).out.length := by
    intro _
    have := hu.2.2.2
    rw [hout, List.length_cons, addrBytes_length]
    omega
  obtain ⟨v, k, e, h1, h2, h3, h4, h5⟩ := transact_ready (cfg := cfg) (d := eraseTxn (resolve cfg info) addr)
    (f := fun _ => 0#8) (addrTxn_legal hn (.inr (.inr ⟨rfl, rfl, rfl⟩)) (by simp)) hu hw hroom
    (fun i hi => absurd hi (by simp [eraseTxn]))
    (by
      rw [hout]
      exact partExecute_erase hn hu.2.2.1 hw hr.mode (addrBytes_length _ _) ha hr.2.1 hg hpos hfit.1)
  refine ⟨v, ?_, h1, SAfter.of hu.2.1 h4 h2 h3 h5, h2⟩
  rw [eraseTransaction, withResolved_eq hr, eraseCheck, if_pos hf]
  exact e

/-- At the start of a unit. -/
theorem eraseTransaction_ready {u : SpiUnit} {info : Config.FlashInfo} {addr : Nat}
    (hr : u.Resolves cfg info) (hu : u.Available cfg) (hw : u.PartReady cfg)
    (hal : addr % (resolve cfg info).granularity = 0)
    (hf : flashFits u.board.flashSize (resolve cfg info).addressByteCount addr (resolve cfg info).granularity = true) :
    ∃ v, eraseTransaction cfg addr u = .ok [] v ∧
      Settles cfg (if wel cfg u.part.sr then partStart cfg u.part (.eraseUnit addr (resolve cfg info).granularity)
        else u.part) v.part ∧
      SAfter cfg u v [⟨(eraseTxn (resolve cfg info) addr).out, []⟩] ∧
      v.ctl = (eraseTxn (resolve cfg info) addr).doneCtl cfg := by
  rw [← Part.eraseTaken_aligned (board := u.board) hal]
  exact eraseTransaction_held hr hu hw (by rwa [alignDown, hal, Nat.sub_zero])

end Sys2Proof.Machine
end

