-- ==== Sys2Proof/Laws/Host.lean ====
section
/-! SUPPORT. What the NOR host operations do on an available, initialised unit whose part is ready, under every fair
schedule (R224 to R228): the bytes read, programmed and erased, and the commands the part received. -/

namespace Sys2Proof.Machine

open Sys2Proof

variable {cfg : Config.Params}

/-! ## Chains over the array -/

theorem flashProgram_append (m : Memory) (a : Nat) (xs ys : List Byte) :
    flashProgram cfg (flashProgram cfg m a xs) (a + xs.length) ys = flashProgram cfg m a (xs ++ ys) := by
  induction xs generalizing m a with
  | nil => rfl
  | cons b t ih =>
    rw [List.cons_append, flashProgram, flashProgram, ← ih, List.length_cons, Nat.add_assoc a 1, Nat.add_comm 1]

theorem memClear_append (m : Memory) (a x y : Nat) :
    memClear (memClear m a x) (a + x) y = memClear m a (x + y) := by
  simp only [memClear, List.filter_filter]
  apply List.filter_congr
  intro c _
  rw [Bool.eq_iff_iff]
  simp only [Bool.and_eq_true, Bool.not_eq_true', Bool.and_eq_false_iff, decide_eq_false_iff_not]
  omega

theorem memClear_zero (m : Memory) (a : Nat) : memClear m a 0 = m := by
  simp only [memClear]
  apply List.filter_eq_self.2
  intro c _
  simp only [Bool.not_eq_true', Bool.and_eq_false_iff, decide_eq_false_iff_not]
  omega

theorem Part.rest_rest (p : Part) (m n : Memory) (s t : Byte) : (p.rest m s).rest n t = p.rest n t := rfl

/-! ## Commands -/

@[simp] theorem commandsOf_nil (cfg : Config.Params) : commandsOf cfg [] = [] := rfl

theorem commandsOf_one {o rx : List Byte} (h : o ≠ [cfg.op .rdsr]) : commandsOf cfg [⟨o, rx⟩] = [o] := by
  simp [commandsOf, h]

/-- Write-enable on a ready part (R203). -/
theorem writeEnable_ready {u : SpiUnit} {n : NorDevice} (hrec : u.record = some n) (hu : u.Available cfg)
    (hw : u.PartReady cfg) :
    ∃ v, writeEnable cfg u = .ok [] v ∧ v.part = { u.part with sr := setWel cfg u.part.sr } ∧
      SAfter cfg u v [⟨[cfg.op .wren], []⟩] ∧ v.ctl = (wrTxn cfg .wren []).doneCtl cfg := by
  obtain ⟨v, e, h1, h2, h3⟩ := writeRegister_ready hrec (c := .wren) (by simp) hu hw
    (partExecute_wren hu.2.2.1 hw)
  refine ⟨v, e, h1.ready ?_, h2, h3⟩
  rw [wip_setWel]; exact hw

/-- Write-disable on a ready part (R204). -/
theorem writeDisable_ready {u : SpiUnit} {n : NorDevice} (hrec : u.record = some n) (hu : u.Available cfg)
    (hw : u.PartReady cfg) :
    ∃ v, writeDisable cfg u = .ok [] v ∧ v.part = { u.part with sr := clearWel cfg u.part.sr } ∧
      SAfter cfg u v [⟨[cfg.op .wrdi], []⟩] ∧ v.ctl = (wrTxn cfg .wrdi []).doneCtl cfg := by
  obtain ⟨v, e, h1, h2, h3⟩ := writeRegister_ready hrec (c := .wrdi) (by simp) hu hw
    (partExecute_wrdi hu.2.2.1 hw)
  refine ⟨v, e, h1.ready ?_, h2, h3⟩
  rw [wip_clearWel]; exact hw

theorem clearWel_clearWel (b : Byte) : clearWel cfg (clearWel cfg b) = clearWel cfg b :=
    clearWel_of_not_wel _ _ (wel_clearWel ..)

theorem not_rdsr_of_length {o : List Byte} (h : 1 < o.length) : o ≠ [cfg.op .rdsr] := by
  rintro rfl; simp at h

/-! ## ReadData (R225) -/

theorem div_page {p a k : Nat} (hp : 0 < p) (hk : 0 < k) (h : k ≤ p - a % p) : a / p = (a + k - 1) / p := by
  have hm := Nat.mod_lt a hp
  have e : a + k - 1 = (a % p + k - 1) + p * (a / p) := by have := Nat.mod_add_div a p; omega
  rw [e, Nat.add_mul_div_left _ _ hp, Nat.div_eq_of_lt (show a % p + k - 1 < p by omega), Nat.zero_add]

theorem readChunks_ready {info : Config.FlashInfo} (fuel addr rem ptr : Nat) {u : SpiUnit} (hr : u.Resolves cfg info)
    (hu : u.Available cfg) (hw : u.PartReady cfg) (hfuel : rem ≤ fuel) (h32 : rem < 2 ^ 32)
    (hf : flashFits u.board.flashSize (resolve cfg info).addressByteCount addr rem = true) :
    ∃ v fs, readChunks cfg info.pageSize fuel addr rem ptr u = .ok () v ∧ v.part = u.part ∧
      v.board = u.board ∧ v.record = u.record ∧ v.live = u.live ∧ v.draws = u.draws ∧ v.idle cfg = true ∧ v.Fair cfg ∧
      v.frames = u.frames ++ fs ∧
      commandsOf cfg fs = readCommands (resolve cfg info) fuel addr rem ∧
      (∀ f ∈ fs, ReadInPage (resolve cfg info) f) ∧
      (v.work.buf = u.work.buf ++ (List.range rem).map fun i => flashRead cfg u.part.flash (addr + i)) ∧
      (0 < rem ∨ u.ctl.xfer = none → v.ctl.xfer = none) := by
  induction fuel generalizing addr rem ptr u with
  | zero =>
    obtain rfl : rem = 0 := by omega
    exact ⟨_, [], rfl, rfl, rfl, rfl, rfl, rfl, hu.1, hu.2.1, by simp, rfl, by simp, by simp,
      fun h => h.resolve_left (by omega)⟩
  | succ f ih =>
    rw [readChunks, readCommands]
    by_cases h0 : rem = 0
    · rw [if_pos h0, if_pos h0]
      subst h0
      exact ⟨_, [], rfl, rfl, rfl, rfl, rfl, rfl, hu.1, hu.2.1, by simp, rfl, by simp, by simp,
      fun h => h.resolve_left (by omega)⟩
    rw [if_neg h0, if_neg h0]
    have hp := hr.2.2.1
    have k1 := chunkLen_pos (p := info.pageSize) (addr := addr) hp (show 0 < rem by omega)
    have k2 := chunkLen_le (p := info.pageSize) (addr := addr) (rem := rem)
    have k3 := chunkLen_page (p := info.pageSize) (addr := addr) (rem := rem)
    have hpg : (resolve cfg info).pageSize = info.pageSize := rfl
    rw [hpg]
    generalize chunkLen info.pageSize addr rem = k at *
    obtain ⟨v, e, p1, a1, c1⟩ := readTransaction_ready (cfg := cfg) (u := u.atChunk info.pageSize addr rem ptr)
      (info := info) (addr := addr) (len := k) hr hu hw (by omega) k3
      (by rw [Nat.max_eq_left k1]; exact flashFits_split hf le_rfl (by omega))
    dsimp only
    rw [e, Res.bind_ok]
    obtain ⟨w, fs, e2, p2, b2, r2, l2, d2, i2, f2, fr2, c2, pg2, buf2, x2⟩ := ih (addr + k) (rem - k) (ptr + k)
      (u := { v with work := { v.work with
        buf := v.work.buf ++ (List.range k).map fun i => flashRead cfg u.part.flash (addr + i) } })
      (hr.keep a1.record a1.board (by show v.part.mode4B = _; rw [p1]; rfl))
      ⟨a1.idle, a1.fair, by show v.part.cut = false; rw [p1]; exact hu.2.2.1, hu.2.2.2⟩
      (by show wip cfg v.part.sr = false; rw [p1]; exact hw) (by omega) (by omega)
      (by show flashFits v.board.flashSize _ _ _ = true; rw [a1.board]; exact flashFits_split hf (by omega) (by omega))
    refine ⟨w, _, e2, p2.trans p1, b2.trans a1.board, r2.trans a1.record, l2.trans a1.live, d2.trans a1.draws, i2, f2,
      by rw [fr2]; show v.frames ++ fs = _; rw [a1.frames, List.append_assoc]; rfl, ?_, ?_, ?_,
      fun _ => x2 (.inr (by show v.ctl.xfer = none; rw [c1]; rfl))⟩
    · have hn := resolve_n cfg info
      rw [commandsOf_append, commandsOf_one, c2]
      · simp [readTxn, Txn.out, Txn.addrBytes]
      · apply not_rdsr_of_length
        simp only [readTxn, Txn.out, Txn.addrBytes, List.append_nil, List.length_cons, addrBytes_length]
        omega
    · intro y hy
      obtain hy | hy := List.mem_append.1 hy
      · rw [List.mem_singleton.1 hy]
        refine ⟨addr, by simp only [flashFits, decide_eq_true_eq] at hf; omega, by simp [readTxn, Txn.out,
            Txn.addrBytes], by simpa using k1, ?_⟩
        simp only [List.length_map, List.length_range]
        exact div_page hp k1 k3
      · exact pg2 y hy
    · rw [buf2]
      have hb : v.work.buf = u.work.buf := a1.buf
      have hpart : v.part.flash = u.part.flash := by rw [p1]; rfl
      simp only [hb, hpart, List.append_assoc]
      congr 1
      conv_rhs => rw [show rem = k + (rem - k) by omega, List.range_add, List.map_append, List.map_map]
      congr 1
      apply List.map_congr_left
      intro i _
      simp only [Function.comp_apply, Nat.add_assoc]

/-- `ReadData` (R225). -/
theorem norRead_ready {info : Config.FlashInfo} {off len : Nat} {u : SpiUnit} (hr : u.Initialised cfg info)
    (hu : u.Available cfg) (hw : u.PartReady cfg) (h0 : 0 < len) (h32 : len < 2 ^ 32)
    (hf : flashFits u.board.flashSize (resolve cfg info).addressByteCount off len = true) :
    ∃ v fs, norRead cfg off len u = .ok () v ∧ v.part = u.part ∧ v.board = u.board ∧ v.record = u.record ∧
      v.live = u.live ∧ v.draws = u.draws ∧ v.idle cfg = true ∧ v.Fair cfg ∧ v.frames = u.frames ++ fs ∧
      commandsOf cfg fs = readCommands (resolve cfg info) len off len ∧ (∀ f ∈ fs, ReadInPage (resolve cfg info) f) ∧
      v.work.buf = ((List.range len).map fun i => flashRead cfg u.part.flash (off + i)) ∧ v.ctl.xfer = none := by
  obtain ⟨v, fs, e, h1, h2, h3, h4, h5, h6, h7, h8, h9, h10, h11, h12⟩ := readChunks_ready (cfg := cfg)
      (info := info) len off len 0 (u := u.load [])
    hr.1 hu hw le_rfl h32 hf
  refine ⟨v, fs, ?_, h1, h2, h3, h4, h5, h6, h7, h8, h9, h10, h11, h12 (.inl h0)⟩
  rw [norRead, withInited_eq hr, nonZero, if_neg (by omega), inFlash, if_pos hf]
  exact e

/-! ## WriteData (R226) -/

theorem writeChunks_ready {info : Config.FlashInfo} (fuel addr rem ptr : Nat) {u : SpiUnit} (hr : u.Resolves cfg info)
    (hu : u.Available cfg) (hw : u.PartReady cfg) (hfuel : rem ≤ fuel) (h32 : rem < 2 ^ 32)
    (hf : flashFits u.board.flashSize (resolve cfg info).addressByteCount addr rem = true)
    (hbuf : u.work.buf.length = ptr + rem)
    (hroom : FifoRoom cfg (1 + (resolve cfg info).addressByteCount + min info.pageSize rem)) :
    ∃ v fs, writeChunks cfg info.pageSize fuel addr rem ptr u = .ok () v ∧
      v.part = (if rem = 0 then u.part
        else u.part.rest (flashProgram cfg u.part.flash addr (u.work.buf.drop ptr)) (clearWel cfg u.part.sr)) ∧
      v.board = u.board ∧ v.record = u.record ∧ v.live = u.live ∧ v.draws = u.draws ∧ v.idle cfg = true ∧ v.Fair cfg ∧
      v.work.buf = u.work.buf ∧ v.frames = u.frames ++ fs ∧
      commandsOf cfg fs = writeCommands cfg (resolve cfg info) fuel addr (u.work.buf.drop ptr) := by
  induction fuel generalizing addr rem ptr u with
  | zero =>
    obtain rfl : rem = 0 := by omega
    exact ⟨_, [], rfl, rfl, rfl, rfl, rfl, rfl, hu.1, hu.2.1, rfl, by simp, rfl⟩
  | succ f ih =>
    have hlen : (u.work.buf.drop ptr).length = rem := by rw [List.length_drop]; omega
    rw [writeChunks, writeCommands]
    by_cases h0 : rem = 0
    · rw [if_pos h0, if_pos h0, if_pos (List.length_eq_zero_iff.1 (by omega))]
      exact ⟨_, [], rfl, rfl, rfl, rfl, rfl, rfl, hu.1, hu.2.1, rfl, by simp, rfl⟩
    have hne : u.work.buf.drop ptr ≠ [] := by intro h; rw [h] at hlen; simp at hlen; omega
    rw [if_neg h0, if_neg h0, if_neg hne, hlen]
    have hp := hr.2.2.1
    have k1 := chunkLen_pos (p := info.pageSize) (addr := addr) hp (show 0 < rem by omega)
    have k2 := chunkLen_le (p := info.pageSize) (addr := addr) (rem := rem)
    have k3 := chunkLen_page (p := info.pageSize) (addr := addr) (rem := rem)
    have hpg : (resolve cfg info).pageSize = info.pageSize := rfl
    rw [hpg]
    generalize chunkLen info.pageSize addr rem = k at *
    obtain ⟨⟨n, hrec, _⟩, _⟩ := id hr
    obtain ⟨v1, e1, p1, a1, _⟩ := writeEnable_ready (cfg := cfg) (u := u.atChunk info.pageSize addr rem ptr) hrec hu hw
    have w1 : v1.PartReady cfg := by
      show wip cfg v1.part.sr = false
      rw [p1]; exact (wip_setWel ..).trans hw
    have av1 := a1.available (cfg := cfg) hu (by rw [p1]; exact hu.2.2.1)
    have r1 : v1.Resolves cfg info := hr.keep a1.record a1.board (by rw [p1]; rfl)
    have hb1 : v1.work.buf = u.work.buf := a1.buf
    have hd : ((u.work.buf.drop ptr).take k).length = k := by rw [List.length_take]; omega
    obtain ⟨v2, e2, p2, a2, _⟩ := programTransaction_ready (cfg := cfg) (u := v1) (info := info) (addr := addr)
      (data := (u.work.buf.drop ptr).take k) r1 av1 w1 (by omega) (by omega)
      (by rw [hd, Nat.max_eq_left k1, a1.board]; exact flashFits_split hf le_rfl (by omega))
      (fun hs => by have := hroom hs; omega)
    have acc : wel cfg v1.part.sr = true := by rw [p1]; exact wel_setWel ..
    rw [Part.programTaken_inPage (by intro h; rw [h] at hd; simp at hd; omega)
      (by rw [partPage_listed r1.2.1, hd]; have := Nat.mod_lt addr hp; omega), if_pos acc] at p2
    have c2 : v2.part.cut = false := by
      obtain h | h := p2
      · rw [h]; exact av1.2.2.1
      · rw [h, partStep_cut]; exact av1.2.2.1
    have hrec2 : v2.record = some n := a2.record.trans (a1.record.trans hrec)
    obtain ⟨v3, fs3, e3, p3, a3, polls, _⟩ := waitReady_fair (cfg := cfg) hrec2 (a2.available av1 c2)
    have part3 : v3.part = u.part.rest (flashProgram cfg u.part.flash addr ((u.work.buf.drop ptr).take k))
        (clearWel cfg u.part.sr) := by
      rw [p3, p2.partStep, partStep_program, p1]
      show u.part.rest _ (clearBusy cfg (setWip cfg (setWel cfg u.part.sr))) = _
      rw [clearBusy_setWip_setWel _ _ hw]
      rfl
    have hb3 : v3.work.buf = u.work.buf := a3.buf.trans (a2.buf.trans hb1)
    obtain ⟨w, fs, e4, p4, b4, r4, l4, d4, i4, f4, buf4, fr4, c4⟩ := ih (addr + k) (rem - k) (ptr + k) (u := v3)
      (hr.keep (a3.record.trans (a2.record.trans a1.record)) (a3.board.trans (a2.board.trans a1.board))
        (by rw [part3]; rfl))
      (a3.available (a2.available av1 c2) (by rw [part3]; exact hu.2.2.1))
      (by show wip cfg v3.part.sr = false; rw [part3]; exact (wip_clearWel ..).trans hw) (by omega) (by omega)
      (by rw [a3.board, a2.board, a1.board]; exact flashFits_split hf (by omega) (by omega))
      (by rw [hb3]; omega) (fun hs => by have := hroom hs; omega)
    rw [e1, Res.bind_ok, hb1, e2, Res.bind_ok, e3, Res.bind_ok, e4]
    have hfr : v3.frames = u.frames ++ ([⟨[cfg.op .wren], []⟩] ++
        [⟨(programTxn (resolve cfg info) addr ((u.work.buf.drop ptr).take k)).out, []⟩] ++ fs3) := by
      rw [a3.frames, a2.frames, a1.frames]; simp
    refine ⟨w, _, rfl, ?_, b4.trans (a3.board.trans (a2.board.trans a1.board)),
      r4.trans (a3.record.trans (a2.record.trans a1.record)), l4.trans (a3.live.trans (a2.live.trans a1.live)),
      d4.trans (a3.draws.trans (a2.draws.trans a1.draws)), i4, f4, buf4.trans hb3,
      by rw [fr4, hfr, List.append_assoc], ?_⟩
    · rw [p4, part3, hb3]
      by_cases hz : rem - k = 0
      · rw [if_pos hz]
        have : (u.work.buf.drop ptr).take k = u.work.buf.drop ptr := List.take_of_length_le (by omega)
        rw [this]
      · rw [if_neg hz, Part.rest_rest]
        have h1 : flashProgram cfg (u.part.rest (flashProgram cfg u.part.flash addr ((u.work.buf.drop ptr).take k))
            (clearWel cfg u.part.sr)).flash (addr + k) (u.work.buf.drop (ptr + k)) =
            flashProgram cfg u.part.flash addr (u.work.buf.drop ptr) := by
          have := flashProgram_append (cfg := cfg) u.part.flash addr ((u.work.buf.drop ptr).take k)
              ((u.work.buf.drop ptr).drop k)
          rw [hd, List.take_append_drop, List.drop_drop] at this
          exact this
        have h2 : clearWel cfg (u.part.rest (flashProgram cfg u.part.flash addr ((u.work.buf.drop ptr).take k))
            (clearWel cfg u.part.sr)).sr = clearWel cfg u.part.sr := clearWel_clearWel _
        rw [h1, h2]
    · have hn := resolve_n cfg info
      rw [commandsOf_append, commandsOf_append, commandsOf_append, commandsOf_polls polls, c4, hb3,
        commandsOf_one (by simp), commandsOf_one, List.drop_drop]
      · simp [programTxn, Txn.out, Txn.addrBytes]
      · apply not_rdsr_of_length
        simp only [programTxn, Txn.out, Txn.addrBytes, List.length_append, List.length_cons, addrBytes_length]
        omega

/-- `WriteData` (R226): every byte of the range becomes its AND with the byte given (R214). -/
theorem norWrite_ready {info : Config.FlashInfo} {off len : Nat} {data : List Byte} {u : SpiUnit}
    (hr : u.Initialised cfg info) (hu : u.Available cfg) (hw : u.PartReady cfg) (h0 : 0 < len) (h32 : len < 2 ^ 32)
    (hdata : data.length = len)
    (hf : flashFits u.board.flashSize (resolve cfg info).addressByteCount off len = true)
    (hroom : FifoRoom cfg (1 + (resolve cfg info).addressByteCount + min info.pageSize len)) :
    ∃ v fs, norWrite cfg off len data u = .ok () v ∧
      v.part = u.part.rest (flashProgram cfg u.part.flash off data) (clearWel cfg u.part.sr) ∧
      v.board = u.board ∧ v.record = u.record ∧ v.live = u.live ∧ v.draws = u.draws ∧ v.idle cfg = true ∧ v.Fair cfg ∧
      v.work.buf = data ∧ v.frames = u.frames ++ fs ∧
      commandsOf cfg fs = writeCommands cfg (resolve cfg info) len off data ++ [[cfg.op .wrdi]] ∧
      v.ctl = (wrTxn cfg .wrdi []).doneCtl cfg := by
  obtain ⟨v, fs, e, p1, b1, r1, l1, d1, i1, f1, buf1, fr1, c1⟩ := writeChunks_ready (cfg := cfg) (info := info) len off
    len 0 (u := u.load data) hr.1 hu hw le_rfl h32 hf (by simpa using hdata) hroom
  rw [if_neg (by omega)] at p1
  obtain ⟨⟨n, hrec, _⟩, _⟩ := id hr.1
  have hwv : v.PartReady cfg := by
    show wip cfg v.part.sr = false
    rw [p1]; exact (wip_clearWel ..).trans hw
  obtain ⟨w, e2, p2, a2, x2⟩ := writeDisable_ready (cfg := cfg) (u := v) (r1.trans hrec)
    ⟨i1, f1, by rw [p1]; exact hu.2.2.1, hu.2.2.2⟩ hwv
  refine ⟨w, fs ++ [⟨[cfg.op .wrdi], []⟩], ?_, ?_, a2.board.trans b1, a2.record.trans r1, a2.live.trans l1,
    a2.draws.trans d1, a2.idle, a2.fair, a2.buf.trans buf1, ?_, ?_, x2⟩
  · rw [norWrite, withInited_eq hr, nonZero, if_neg (by omega), inFlash, if_pos hf]
    have : (resolve cfg info).pageSize = info.pageSize := rfl
    rw [this, e, Res.bind_ok, e2]
    rfl
  · rw [p2, p1]
    show u.part.rest _ (clearWel cfg (clearWel cfg u.part.sr)) = _
    rw [clearWel_clearWel]
    rfl
  · rw [a2.frames, fr1, List.append_assoc]; rfl
  · rw [commandsOf_append, c1, commandsOf_one (by simp)]; rfl

/-! ## Erase (R227) and EraseChip (R228) -/

theorem eraseSectors_ready {info : Config.FlashInfo} (off nsec : Nat) (cnt start : Nat) {u : SpiUnit}
    (hr : u.Resolves cfg info) (hu : u.Available cfg) (hw : u.PartReady cfg)
    (hal : off % (resolve cfg info).granularity = 0)
    (hf : flashFits u.board.flashSize (resolve cfg info).addressByteCount off
      ((start + cnt) * (resolve cfg info).granularity) = true) :
    ∃ v fs, eraseSectors cfg off (resolve cfg info).granularity nsec (List.range' start cnt) u = .ok () v ∧
      v.part = (if cnt = 0 then u.part
        else u.part.rest (memClear u.part.flash (off + start * (resolve cfg info).granularity)
          (cnt * (resolve cfg info).granularity)) (clearWel cfg u.part.sr)) ∧
      v.board = u.board ∧ v.record = u.record ∧ v.live = u.live ∧ v.draws = u.draws ∧ v.idle cfg = true ∧ v.Fair cfg ∧
      v.work.buf = u.work.buf ∧ v.frames = u.frames ++ fs ∧
      commandsOf cfg fs = eraseCommands cfg (resolve cfg info) off (List.range' start cnt) := by
  generalize hgr : (resolve cfg info).granularity = g at *
  induction cnt generalizing start u with
  | zero => exact ⟨_, [], rfl, rfl, rfl, rfl, rfl, rfl, hu.1, hu.2.1, rfl, by simp, rfl⟩
  | succ c ih =>
    rw [List.range'_succ, eraseSectors, if_neg (by omega)]
    obtain ⟨⟨n, hrec, _⟩, _⟩ := id hr
    obtain ⟨v1, e1, p1, a1, _⟩ := writeEnable_ready (cfg := cfg) (u := u.atSector off g nsec start) hrec hu hw
    have w1 : v1.PartReady cfg := by
      show wip cfg v1.part.sr = false
      rw [p1]; exact (wip_setWel ..).trans hw
    have av1 := a1.available (cfg := cfg) hu (by rw [p1]; exact hu.2.2.1)
    have r1 : v1.Resolves cfg info := hr.keep a1.record a1.board (by rw [p1]; rfl)
    have hmul : (start + (c + 1)) * g = start * g + g + c * g := by ring
    obtain ⟨v2, e2, p2, a2, _⟩ := eraseTransaction_ready (cfg := cfg) (u := v1) (info := info)
      (addr := off + start * g) r1 av1 w1
      (by rw [hgr, Nat.add_mul_mod_self_right]; exact hal)
      (by
        rw [hgr, a1.board]
        exact flashFits_split hf (by omega) (by rw [hmul]; omega))
    have acc : wel cfg v1.part.sr = true := by rw [p1]; exact wel_setWel ..
    rw [if_pos acc, hgr] at p2
    have c2 : v2.part.cut = false := by
      obtain h | h := p2
      · rw [h]; exact av1.2.2.1
      · rw [h, partStep_cut]; exact av1.2.2.1
    have hrec2 : v2.record = some n := a2.record.trans (a1.record.trans hrec)
    obtain ⟨v3, fs3, e3, p3, a3, polls, _⟩ := waitReady_fair (cfg := cfg) hrec2 (a2.available av1 c2)
    have part3 : v3.part = u.part.rest (memClear u.part.flash (off + start * g) g) (clearWel cfg u.part.sr) := by
      rw [p3, p2.partStep, partStep_eraseUnit, p1]
      show u.part.rest _ (clearBusy cfg (setWip cfg (setWel cfg u.part.sr))) = _
      rw [clearBusy_setWip_setWel _ _ hw]
      rfl
    obtain ⟨w, fs, e4, p4, b4, r4, l4, d4, i4, f4, buf4, fr4, c4⟩ := ih (start + 1) (u := v3)
      (hr.keep (a3.record.trans (a2.record.trans a1.record)) (a3.board.trans (a2.board.trans a1.board))
        (by rw [part3]; rfl))
      (a3.available (a2.available av1 c2) (by rw [part3]; exact hu.2.2.1))
      (by show wip cfg v3.part.sr = false; rw [part3]; exact (wip_clearWel ..).trans hw)
      (by rw [a3.board, a2.board, a1.board, show start + 1 + c = start + (c + 1) by omega]; exact hf)
    rw [e1, Res.bind_ok, e2, Res.bind_ok, e3, Res.bind_ok, e4]
    have hfr : v3.frames = u.frames ++ ([⟨[cfg.op .wren], []⟩] ++
        [⟨(eraseTxn (resolve cfg info) (off + start * g)).out, []⟩] ++ fs3) := by
      rw [a3.frames, a2.frames, a1.frames]; simp
    refine ⟨w, _, rfl, ?_, b4.trans (a3.board.trans (a2.board.trans a1.board)),
      r4.trans (a3.record.trans (a2.record.trans a1.record)), l4.trans (a3.live.trans (a2.live.trans a1.live)),
      d4.trans (a3.draws.trans (a2.draws.trans a1.draws)), i4, f4,
      buf4.trans (a3.buf.trans (a2.buf.trans a1.buf)), by rw [fr4, hfr, List.append_assoc], ?_⟩
    · rw [p4, part3]
      by_cases hz : c = 0
      · subst hz; rw [if_pos rfl, Nat.zero_add, Nat.one_mul]
      · rw [if_neg hz, Part.rest_rest]
        have h1 := memClear_append u.part.flash (off + start * g) g (c * g)
        have e5 : off + (start + 1) * g = off + start * g + g := by ring
        have e6 : (c + 1) * g = g + c * g := by ring
        rw [e5, e6, ← h1]
        have h2 : clearWel cfg (u.part.rest (memClear u.part.flash (off + start * g) g) (clearWel cfg u.part.sr)).sr =
          clearWel cfg u.part.sr := clearWel_clearWel _
        rw [h2]
        rfl
    · have hn := resolve_n cfg info
      rw [commandsOf_append, commandsOf_append, commandsOf_append, commandsOf_polls polls, c4,
        commandsOf_one (by simp), commandsOf_one]
      · simp [eraseTxn, Txn.out, Txn.addrBytes, eraseCommands, hgr]
      · apply not_rdsr_of_length
        simp only [eraseTxn, Txn.out, Txn.addrBytes, List.append_nil, List.length_cons, addrBytes_length]
        omega

/-- `Erase` (R227): every byte of the units that cover the range reads as erased (R215). -/
theorem norErase_ready {info : Config.FlashInfo} {off len : Nat} {u : SpiUnit}
    (hr : u.Initialised cfg info) (hu : u.Available cfg) (hw : u.PartReady cfg) (h0 : 0 < len)
    (hal : off % (resolve cfg info).granularity = 0)
    (hf : flashFits u.board.flashSize (resolve cfg info).addressByteCount off len = true)
    (hunits : off + sectorCount len (resolve cfg info).granularity * (resolve cfg info).granularity ≤
      u.board.flashSize) :
    ∃ v fs, norErase cfg off len u = .ok () v ∧
      v.part = u.part.rest (memClear u.part.flash off
        (sectorCount len (resolve cfg info).granularity * (resolve cfg info).granularity)) (clearWel cfg u.part.sr) ∧
      v.board = u.board ∧ v.record = u.record ∧ v.live = u.live ∧ v.draws = u.draws ∧ v.idle cfg = true ∧ v.Fair cfg ∧
      v.work.buf = u.work.buf ∧ v.frames = u.frames ++ fs ∧
      commandsOf cfg fs =
        eraseCommands cfg (resolve cfg info) off (List.range (sectorCount len (resolve cfg info).granularity)) ++
        [[cfg.op .wrdi]] ∧ v.ctl = (wrTxn cfg .wrdi []).doneCtl cfg := by
  have hg : 0 < (resolve cfg info).granularity := by
    show 0 < if info.flagErase4K then Config.erase4K else info.sectorSize
    split
    · simp [Config.erase4K]
    · exact hr.1.2.2.2.1
  have hcnt : 0 < sectorCount len (resolve cfg info).granularity := by
    rw [sectorCount]; exact Nat.div_pos (by omega) hg
  have hfit : flashFits u.board.flashSize (resolve cfg info).addressByteCount off
      ((0 + sectorCount len (resolve cfg info).granularity) * (resolve cfg info).granularity) = true := by
    simp only [flashFits, decide_eq_true_eq, Nat.zero_add] at *
    exact ⟨hunits, hf.2⟩
  obtain ⟨v, fs, e, p1, b1, r1, l1, d1, i1, f1, buf1, fr1, c1⟩ := eraseSectors_ready (cfg := cfg) (info := info) off
    (sectorCount len (resolve cfg info).granularity)
        (sectorCount len (resolve cfg info).granularity) 0 hr.1 hu hw hal hfit
  rw [if_neg (by omega), Nat.zero_mul, Nat.add_zero] at p1
  rw [← List.range_eq_range'] at e c1
  obtain ⟨⟨n, hrec, _⟩, _⟩ := id hr.1
  have hwv : v.PartReady cfg := by
    show wip cfg v.part.sr = false
    rw [p1]; exact (wip_clearWel ..).trans hw
  obtain ⟨w, e2, p2, a2, x2⟩ := writeDisable_ready (cfg := cfg) (u := v) (r1.trans hrec)
    ⟨i1, f1, by rw [p1]; exact hu.2.2.1, hu.2.2.2⟩ hwv
  refine ⟨w, fs ++ [⟨[cfg.op .wrdi], []⟩], ?_, ?_, a2.board.trans b1, a2.record.trans r1, a2.live.trans l1,
    a2.draws.trans d1, a2.idle, a2.fair, a2.buf.trans buf1, ?_, ?_, x2⟩
  · rw [norErase, withInited_eq hr, nonZero, if_neg (by omega), if_neg (by omega), inFlash, if_pos hf, e, Res.bind_ok,
      e2]
    rfl
  · rw [p2, p1]
    show u.part.rest _ (clearWel cfg (clearWel cfg u.part.sr)) = _
    rw [clearWel_clearWel]
    rfl
  · rw [a2.frames, fr1, List.append_assoc]
  · rw [commandsOf_append, c1, commandsOf_one (by simp)]

/-- `EraseChip` (R228): every byte of FLASH reads as erased (R215). -/
theorem norEraseChip_ready {info : Config.FlashInfo} {u : SpiUnit} (hr : u.Initialised cfg info)
    (hu : u.Available cfg) (hw : u.PartReady cfg) :
    ∃ v fs, norEraseChip cfg u = .ok () v ∧ v.part = u.part.rest [] (clearWel cfg u.part.sr) ∧
      SAfter cfg u v fs ∧
      commandsOf cfg fs = [[cfg.op .wren], [cfg.op .ce], [cfg.op .wrdi]] ∧
      v.ctl = (wrTxn cfg .wrdi []).doneCtl cfg := by
  obtain ⟨⟨n, hrec, _⟩, _⟩ := id hr.1
  obtain ⟨v1, e1, p1, a1, _⟩ := writeEnable_ready (cfg := cfg) hrec hu hw
  have w1 : v1.PartReady cfg := by
    show wip cfg v1.part.sr = false
    rw [p1]; exact (wip_setWel ..).trans hw
  have av1 := a1.available (cfg := cfg) hu (by rw [p1]; exact hu.2.2.1)
  obtain ⟨v2, e2, p2, a2, _⟩ := writeRegister_ready (cfg := cfg) (u := v1) (c := .ce) (payload := [])
    (a1.record.trans hrec) (by simp) av1 w1 (partExecute_ce av1.2.2.1 w1)
  have acc : wel cfg v1.part.sr = true := by rw [p1]; exact wel_setWel ..
  rw [if_pos acc] at p2
  have c2 : v2.part.cut = false := by
    obtain h | h := p2
    · rw [h]; exact av1.2.2.1
    · rw [h, partStep_cut]; exact av1.2.2.1
  obtain ⟨v3, fs3, e3, p3, a3, polls, _⟩ := waitReady_fair (cfg := cfg) (a2.record.trans (a1.record.trans hrec))
    (a2.available av1 c2)
  have part3 : v3.part = u.part.rest [] (clearWel cfg u.part.sr) := by
    rw [p3, p2.partStep, partStep_eraseAll, p1]
    show u.part.rest _ (clearBusy cfg (setWip cfg (setWel cfg u.part.sr))) = _
    rw [clearBusy_setWip_setWel _ _ hw]
  have av3 := a3.available (a2.available av1 c2) (by rw [part3]; exact hu.2.2.1)
  obtain ⟨w, e4, p4, a4, x4⟩ := writeDisable_ready (cfg := cfg) (u := v3)
    (a3.record.trans (a2.record.trans (a1.record.trans hrec))) av3
    (by show wip cfg v3.part.sr = false; rw [part3]; exact (wip_clearWel ..).trans hw)
  refine ⟨w, _, ?_, ?_, ((a1.trans a2).trans a3).trans a4, ?_, x4⟩
  · rw [norEraseChip, withInited_eq hr, e1, Res.bind_ok, e2, Res.bind_ok, e3, Res.bind_ok, e4]
    rfl
  · rw [p4, part3]
    show u.part.rest _ (clearWel cfg (clearWel cfg u.part.sr)) = _
    rw [clearWel_clearWel]
    rfl
  · rw [commandsOf_append, commandsOf_append, commandsOf_append, commandsOf_polls polls,
      commandsOf_one (by simp), commandsOf_one (by simp),
      commandsOf_one (by simp)]
    rfl

/-! ## Init (R224) -/

theorem initStatus_ready {u : SpiUnit} {n : NorDevice} (hrec : u.record = some n) (hu : u.Available cfg)
    (hw : u.PartReady cfg) :
    ∃ v fs, initStatus cfg u = .ok () v ∧ v.part = u.part.rest u.part.flash (cfg.srInit &&& ~~~cfg.srMask) ∧
      SAfter cfg u v fs ∧
      commandsOf cfg fs = [[cfg.op .wren], [cfg.op .wrsr, cfg.srInit], [cfg.op .wrdi]] ∧
      v.ctl = (wrTxn cfg .wrdi []).doneCtl cfg := by
  obtain ⟨v1, e1, p1, a1, _⟩ := writeEnable_ready (cfg := cfg) hrec hu hw
  have w1 : v1.PartReady cfg := by
    show wip cfg v1.part.sr = false
    rw [p1]; exact (wip_setWel ..).trans hw
  have av1 := a1.available (cfg := cfg) hu (by rw [p1]; exact hu.2.2.1)
  obtain ⟨v2, e2, p2, a2, _⟩ := writeRegister_ready (cfg := cfg) (u := v1) (c := .wrsr) (payload := [cfg.srInit])
    (a1.record.trans hrec) (by simp) av1 w1 (partExecute_wrsr av1.2.2.1 w1 _)
  have acc : wel cfg v1.part.sr = true := by rw [p1]; exact wel_setWel ..
  rw [if_pos acc] at p2
  have c2 : v2.part.cut = false := by
    obtain h | h := p2
    · rw [h]; exact av1.2.2.1
    · rw [h, partStep_cut]; exact av1.2.2.1
  obtain ⟨v3, fs3, e3, p3, a3, polls, _⟩ := waitReady_fair (cfg := cfg) (a2.record.trans (a1.record.trans hrec))
    (a2.available av1 c2)
  have part3 : v3.part = u.part.rest u.part.flash (cfg.srInit &&& ~~~cfg.srMask) := by
    rw [p3, p2.partStep, partStep_statusWrite, p1]
    rfl
  have hw3 : wip cfg (cfg.srInit &&& ~~~cfg.srMask) = false := wip_clearBusy ..
  have av3 := a3.available (a2.available av1 c2) (by rw [part3]; exact hu.2.2.1)
  obtain ⟨w, e4, p4, a4, x4⟩ := writeDisable_ready (cfg := cfg) (u := v3)
    (a3.record.trans (a2.record.trans (a1.record.trans hrec))) av3
    (by show wip cfg v3.part.sr = false; rw [part3]; exact hw3)
  refine ⟨w, _, ?_, ?_, ((a1.trans a2).trans a3).trans a4, ?_, x4⟩
  · rw [initStatus, e1, Res.bind_ok, e2, Res.bind_ok, e3, Res.bind_ok, e4]
    rfl
  · rw [p4, part3]
    show u.part.rest _ (clearWel cfg (clearBusy cfg cfg.srInit)) = _
    rw [clearWel_of_not_wel _ _ (wel_clearBusy ..)]
    rfl
  · rw [commandsOf_append, commandsOf_append, commandsOf_append, commandsOf_polls polls,
      commandsOf_one (by simp), commandsOf_one (by simp),
      commandsOf_one (by simp)]
    rfl

/-- The ID read on a ready part (R200). -/
theorem getId_ready {u : SpiUnit} {n : NorDevice} (hrec : u.record = some n) (hu : u.Available cfg)
    (hw : u.PartReady cfg) :
    ∃ v, getId cfg u = .ok [u.board.jedecId.b0, u.board.jedecId.b1, u.board.jedecId.b2] v ∧ v.part = u.part ∧
      SAfter cfg u v [⟨[cfg.op .rdid], [u.board.jedecId.b0, u.board.jedecId.b1, u.board.jedecId.b2]⟩] ∧
      v.ctl = (rdTxn cfg .rdid 3).doneCtl cfg := by
  obtain ⟨v, e, p1, a1, c1⟩ := readRegister_ready (cfg := cfg) (c := .rdid) (m := 3)
    (f := fun i => [u.board.jedecId.b0, u.board.jedecId.b1, u.board.jedecId.b2].getD i 0#8) hrec (.inl rfl)
    (by omega) (by omega) hu hw (fun i hi => by
      rw [partReadByte_rdid hu.2.2.1 hw]
      obtain rfl | rfl | rfl : i = 0 ∨ i = 1 ∨ i = 2 := by omega
      all_goals rfl)
  exact ⟨v, e, p1, a1, c1⟩

/-- `Init` of a part the geometry table knows (R211, R224). -/
theorem norInit_ready {u : SpiUnit} {n : NorDevice} {info : Config.FlashInfo} (hrec : u.record = some n)
    (hu : u.Available cfg) (hw : u.PartReady cfg) (hg : Config.norFlashGetInfo cfg u.board.jedecId = some info)
    (hp : 0 < info.pageSize) (hs : 0 < info.sectorSize) :
    ∃ v fs, norInit cfg u = .ok () v ∧
      v.part = { u.part.rest u.part.flash (cfg.srInit &&& ~~~cfg.srMask) with mode4B := u.part.mode4B || info.flag4B } ∧
      v.record = some { n with resolved := some (resolve cfg info), inited := true } ∧
      v.board = u.board ∧ v.live = u.live ∧ v.draws = u.draws ∧ v.idle cfg = true ∧ v.Fair cfg ∧
      v.work.buf = u.work.buf ∧ v.frames = u.frames ++ fs ∧
      commandsOf cfg fs = [[cfg.op .rdid]] ++ (if info.flag4B then [[cfg.op .en4b]] else []) ++
        [[cfg.op .wren], [cfg.op .wrsr, cfg.srInit], [cfg.op .wrdi]] ∧
      v.ctl = (wrTxn cfg .wrdi []).doneCtl cfg := by
  obtain ⟨v1, e1, p1, a1, _⟩ := getId_ready (cfg := cfg) hrec hu hw
  have hj : jedecOf [u.board.jedecId.b0, u.board.jedecId.b1, u.board.jedecId.b2] = u.board.jedecId := rfl
  have av1 := a1.available (cfg := cfg) hu (by rw [p1]; exact hu.2.2.1)
  have w1 : v1.PartReady cfg := by show wip cfg v1.part.sr = false; rw [p1]; exact hw
  have hrec1 : (v1.setResolved (resolve cfg info)).record =
      some { n with resolved := some (resolve cfg info), inited := false } := by
    rw [SpiUnit.setResolved_record, a1.record, hrec]; rfl
  obtain ⟨v2, fs2, e2, p2, a2, c2⟩ : ∃ v fs, enter4B cfg info.flag4B (v1.setResolved (resolve cfg info)) = .ok () v ∧
      v.part = { u.part with mode4B := u.part.mode4B || info.flag4B } ∧
      SAfter cfg (v1.setResolved (resolve cfg info)) v fs ∧
      commandsOf cfg fs = if info.flag4B then [[cfg.op .en4b]] else [] := by
    cases h4 : info.flag4B
    · refine ⟨_, [], rfl, ?_, ⟨rfl, rfl, rfl, rfl, rfl, av1.1, av1.2.1, le_rfl, by simp⟩, rfl⟩
      rw [SpiUnit.setResolved_part, p1, Bool.or_false]
    · obtain ⟨w, e, q, a, _⟩ := writeRegister_ready (cfg := cfg) (u := v1.setResolved (resolve cfg info)) (c := .en4b)
        (payload := []) hrec1 (by simp) av1 w1 (partExecute_en4b av1.2.2.1 w1)
      refine ⟨w, _, ?_, ?_, a, ?_⟩
      · rw [enter4B, if_pos rfl, e]; rfl
      · rw [q.ready (by exact w1), SpiUnit.setResolved_part, p1, Bool.or_true]
      · exact commandsOf_one (by simp)
  have av2 : v2.Available cfg := a2.available av1 (by rw [p2]; exact hu.2.2.1)
  have w2 : v2.PartReady cfg := by show wip cfg v2.part.sr = false; rw [p2]; exact hw
  obtain ⟨v3, fs3, e3, p3, a3, c3, x3⟩ := initStatus_ready (cfg := cfg) (a2.record.trans hrec1) av2 w2
  refine ⟨v3.setInited, [⟨[cfg.op .rdid], [u.board.jedecId.b0, u.board.jedecId.b1, u.board.jedecId.b2]⟩] ++ fs2 ++
      fs3, ?_, ?_, ?_, ?_, ?_, ?_, a3.idle, a3.fair, ?_, ?_, ?_, x3⟩
  · rw [norInit, e1, Res.bind_ok, hj, hg]
    dsimp only
    rw [if_neg (by omega), e2, Res.bind_ok, e3]
    rfl
  · rw [SpiUnit.setInited_part, p3, p2]; rfl
  · rw [SpiUnit.setInited_record, a3.record, a2.record, hrec1]; rfl
  · exact a3.board.trans (a2.board.trans a1.board)
  · exact a3.live.trans (a2.live.trans a1.live)
  · exact a3.draws.trans (a2.draws.trans a1.draws)
  · exact a3.buf.trans (a2.buf.trans a1.buf)
  · show v3.frames = _
    rw [a3.frames, a2.frames, SpiUnit.setResolved_frames, a1.frames]; simp
  · rw [commandsOf_append, commandsOf_append, c2, c3, commandsOf_one (by simp)]

end Sys2Proof.Machine
end

