-- ==== Sys2Proof/Laws/Exec.lean ====
section
/-! SUPPORT. From a unit's outcome to the operation's: what an operation of either engine answers when its sequence
goes on, raises a status or hangs; what a frame on the bus of a unit does (R100, R104, R259, R260). -/

namespace Sys2Proof.Machine

open Sys2Proof

/-! ## Engine E -/

/-- A sequence that goes on: `EFI_SUCCESS`, the unit put back, the result stored. -/
theorem onEfuse_ok {α : Type} {bus : Word} {s : State} {k : α → State → State} {f : EfuseUnit → Res EfuseUnit α}
    {u v : EfuseUnit} {a : α} (hu : s.efuse[bus.toNat]? = some u) (h : f (u.load s.buf) = .ok a v) :
    onEfuse bus s k f =
      .next (k a { s with efuse := s.efuse.set bus.toNat v.retire, buf := v.work.buf, status := .success }) := by
  simp [onEfuse, hu, h, returnE, State.putE, State.answer]

/-- A sequence that raises a status. -/
theorem onEfuse_raised {α : Type} {bus : Word} {s : State} {k : α → State → State}
    {f : EfuseUnit → Res EfuseUnit α} {u v : EfuseUnit} {st : Status} (hu : s.efuse[bus.toNat]? = some u)
    (h : f (u.load s.buf) = .raised st v) :
    onEfuse bus s k f =
      .next { s with efuse := s.efuse.set bus.toNat v.retire, buf := v.work.buf, status := st } := by
  simp [onEfuse, hu, h, returnE, State.putE, State.answer]

/-- A sequence that hangs (R256). -/
theorem onEfuse_hang {α : Type} {bus : Word} {s : State} {k : α → State → State} {f : EfuseUnit → Res EfuseUnit α}
    {u v : EfuseUnit} {q : HangKind} (hu : s.efuse[bus.toNat]? = some u) (h : f (u.load s.buf) = .hang q v) :
    onEfuse bus s k f =
      .next { s with efuse := s.efuse.set bus.toNat v, buf := v.work.buf, host := .spinning (.efuse bus.toNat) } := by
  simp [onEfuse, hu, h, returnE]

/-- A sequence that stops. -/
theorem onEfuse_stop {α : Type} {bus : Word} {s : State} {k : α → State → State} {f : EfuseUnit → Res EfuseUnit α}
    {u : EfuseUnit} {x : Stop} (hu : s.efuse[bus.toNat]? = some u) (h : f (u.load s.buf) = .stop x) :
    onEfuse bus s k f = stopped x := by
  simp [onEfuse, hu, h, returnE]

/-- What the primitives and the byte engine leave, once put back. -/
theorem EKept.returned {cfg : Config.Params} {u v : EfuseUnit} {b : List Byte} (h : EKept cfg (u.load b) v)
    (hu : u.ephase = .idle) : u.Returned cfg v.retire :=
  ⟨h.ctl, h.wordsSet, h.live, h.mode, h.ready.2.1, h.ready.2.2, h.ephase.elim id fun e => e.trans hu, h.fair⟩

/-- The phase of an idle macro (R32, R38). -/
theorem EfuseUnit.Inv.idle {cfg : Config.Params} {u : EfuseUnit} (h : u.Inv cfg) (hr : u.Ready cfg) :
    u.ephase = .idle :=
  (h.2.2.1 hr.2.1).1

/-! ## Engine S -/

/-- A sequence that goes on: `EFI_SUCCESS`, the unit put back, the result stored. -/
theorem onSpi_ok {α : Type} {dev : Word} {s : State} {m : Refusal} {k : α → State → State}
    {f : SpiUnit → Res SpiUnit α} {u v : SpiUnit} {a : α} (hu : s.spi[dev.toNat]? = some u)
    (h : f (u.load s.buf) = .ok a v) :
    onSpi dev s m k f =
      .next (k a { s with spi := s.spi.set dev.toNat v.retire, buf := v.work.buf, status := .success }) := by
  simp [onSpi, hu, h, returnS, State.putS, State.answer]

/-- A sequence that raises a status other than invalid input. -/
theorem onSpi_raised {α : Type} {dev : Word} {s : State} {m : Refusal} {k : α → State → State}
    {f : SpiUnit → Res SpiUnit α} {u v : SpiUnit} {st : Status} (hu : s.spi[dev.toNat]? = some u)
    (h : f (u.load s.buf) = .raised st v) (hst : st ≠ .invalidParameter) :
    onSpi dev s m k f =
      .next { s with spi := s.spi.set dev.toNat v.retire, buf := v.work.buf, status := st } := by
  simp [onSpi, hu, h, returnS, raisedS, hst, State.putS, State.answer]

/-- Invalid input leaves everything but the status as it was (R251, R260). -/
theorem onSpi_invalid {α : Type} {dev : Word} {s : State} {m : Refusal} {k : α → State → State}
    {f : SpiUnit → Res SpiUnit α} {u v : SpiUnit} (hu : s.spi[dev.toNat]? = some u)
    (h : f (u.load s.buf) = .raised .invalidParameter v) :
    onSpi dev s m k f = .next { s with status := .invalidParameter } := by
  simp [onSpi, hu, h, returnS, raisedS, State.answer]

/-- A sequence that stops. -/
theorem onSpi_stop {α : Type} {dev : Word} {s : State} {m : Refusal} {k : α → State → State}
    {f : SpiUnit → Res SpiUnit α} {u : SpiUnit} {x : Stop} (hu : s.spi[dev.toNat]? = some u)
    (h : f (u.load s.buf) = .stop x) : onSpi dev s m k f = stopped x := by
  simp [onSpi, hu, h, returnS]

/-- What a chain of transactions leaves, once put back. -/
theorem SAfter.returned {cfg : Config.Params} {u v : SpiUnit} {fs : List Frame} {b : List Byte} {d : Txn}
    (h : SAfter cfg (u.load b) v fs) (hc : v.ctl = d.doneCtl cfg) : u.Returned cfg v.retire fs :=
  ⟨h.board, h.record, h.live, h.idle, by show v.ctl.xfer = none; rw [hc]; rfl, h.fair, h.frames⟩

/-- A unit with the caller's `BUF` loaded is as available as before. -/
theorem SpiUnit.Available.load {cfg : Config.Params} {u : SpiUnit} (h : u.Available cfg) (b : List Byte) :
    (u.load b).Available cfg := h

/-- One frame on the bus of an available unit with a ready part (R104, R178, R184, R212). -/
theorem execFrame_ready {dev : Word} {s : State} {u : SpiUnit} {d : Txn} {f : Nat → Byte} {r : Part}
    (hs : s.spi[dev.toNat]? = some u) (hd : d.Legal s.cfg) (hu : u.Available s.cfg) (hw : u.PartReady s.cfg)
    (hroom : FifoRoom s.cfg d.out.length)
    (hread : ∀ i, i < d.rxLen → partReadByte s.cfg u.board u.part d.out i = .ok (f i, u.part))
    (hexec : partExecute s.cfg u.board u.part d.out = .ok r) :
    ∃ v, execFrame dev d s = .next { s with
        spi := s.spi.set dev.toNat v, status := .success,
        buf := if d.cls.rx then (List.range d.rxLen).map f else if d.sendsBuf then d.tx else s.buf } ∧
      Settles s.cfg r v.part ∧ v.ctl = d.doneCtl s.cfg ∧
      u.Returned s.cfg v [⟨d.out, (List.range d.rxLen).map f⟩] := by
  have key : ∀ b, ∃ v, transact s.cfg d (u.load b) = .ok ((List.range d.rxLen).map f) v ∧ Settles s.cfg r v.part ∧
      v.ctl = d.doneCtl s.cfg ∧ SAfter s.cfg (u.load b) v [⟨d.out, (List.range d.rxLen).map f⟩] := by
    intro b
    obtain ⟨v, k, e, h1, h2, h3, h4, h5⟩ := transact_ready (cfg := s.cfg) (u := u.load b) hd (hu.load b) hw hroom
      hread hexec
    exact ⟨v, e, h1, h2, SAfter.of hu.2.1 h4 h2 h3 h5⟩
  obtain ⟨v, e, h1, h2, h3⟩ := key (if d.sendsBuf then d.tx else s.buf)
  have hin : (if d.sendsBuf = true then (u.load s.buf).load d.tx else u.load s.buf) =
      u.load (if d.sendsBuf then d.tx else s.buf) := by split <;> rfl
  cases hx : d.cls.rx
  · refine ⟨v.retire, ?_, h1, h2, h3.returned h2⟩
    rw [execFrame, onSpi_ok (a := ()) (v := v) hs (by rw [hin, e, Res.bind_ok, hx]; rfl)]
    have hb : v.work.buf = if d.sendsBuf then d.tx else s.buf := h3.buf
    rw [hb]
    rfl
  · refine ⟨v.retire, ?_, h1, h2, h3.returned h2⟩
    rw [execFrame, onSpi_ok (a := ()) (v := { v with work := { v.work with buf := (List.range d.rxLen).map f } }) hs
      (by dsimp only; rw [hin, e, Res.bind_ok, hx]; rfl)]
    rfl

end Sys2Proof.Machine
end

