-- ==== Sys2Proof/Laws/PerInstr.lean ====
section
/-! SUPPORT. The family `RoundTrip`, one lemma per operation: the decoder reads an encoded well-formed operation back
and leaves exactly the bytes after it. -/

namespace Sys2Proof.Laws

open Sys2Proof

/-! ## Operand readers undo the encoder -/

section readers

variable {α : Type}

theorem unle32_bytes (w : Word) :
    unle32 (w.extractLsb' 0 8) (w.extractLsb' 8 8) (w.extractLsb' 16 8) (w.extractLsb' 24 8) = w := by
  simp only [unle32]
  apply BitVec.eq_of_getLsbD_eq
  intro i hi
  simp only [BitVec.getLsbD_append, BitVec.getLsbD_extractLsb']
  repeat' split
  all_goals try simp only [Nat.zero_add]
  all_goals (first | omega | (rw [decide_eq_true (by omega), Bool.true_and]; done) |
    (rw [decide_eq_true (by omega), Bool.true_and]; congr 1; omega))

theorem readWord_le32 (w : Word) (r : List Byte) (k : Word → List Byte → Except DecodeError α) :
    readWord (le32 w ++ r) k = k w r := by
  simp only [le32, List.cons_append, List.nil_append, readWord, unle32_bytes]

theorem readByte_cons (b : Byte) (r : List Byte) (k : Byte → List Byte → Except DecodeError α) :
    readByte (b :: r) k = k b r := rfl

theorem readFlag_flagByte (b : Bool) (r : List Byte) (k : Bool → List Byte → Except DecodeError α) :
    readFlag (flagByte b :: r) k = k b r := by
  cases b <;> rfl

theorem readBitIndex_byte (b : BitVec 5) (r : List Byte) (k : BitVec 5 → List Byte → Except DecodeError α) :
    readBitIndex (b.setWidth 8 :: r) k = k b r := by
  have h := b.isLt
  have e : (b.setWidth 8).setWidth 5 = b := by ext i hi; simp
  have h8 : b.toNat % 256 = b.toNat := Nat.mod_eq_of_lt (by omega)
  simp only [readBitIndex, readByte_cons, BitVec.toNat_setWidth]
  rw [if_pos (by omega), e]

theorem readCount_byte (b : BitVec 2) (r : List Byte) (k : BitVec 2 → List Byte → Except DecodeError α) :
    readCount (b.setWidth 8 :: r) k = k b r := by
  have h := b.isLt
  have e : (b.setWidth 8).setWidth 2 = b := by ext i hi; simp
  simp only [readCount, readByte_cons, BitVec.toNat_setWidth]
  rw [if_pos (by omega), e]

theorem readBytes_append {n : Nat} {xs : List Byte} (h : xs.length = n) (r : List Byte)
    (k : List Byte → List Byte → Except DecodeError α) : readBytes n (xs ++ r) k = k xs r := by
  subst h
  simp [readBytes]

theorem readAddr3_bytes (a : BitVec 24) (r : List Byte) (k : BitVec 24 → List Byte → Except DecodeError α) :
    readAddr3 (addrBytes3 a ++ r) k = k a r := by
  have e : a.extractLsb' 16 8 ++ a.extractLsb' 8 8 ++ a.extractLsb' 0 8 = a := by
    apply BitVec.eq_of_getLsbD_eq
    intro i hi
    simp only [BitVec.getLsbD_append, BitVec.getLsbD_extractLsb']
    repeat' split
    all_goals try simp only [Nat.zero_add]
    all_goals (first | omega | (rw [decide_eq_true (by omega), Bool.true_and]; done) |
    (rw [decide_eq_true (by omega), Bool.true_and]; congr 1; omega))
  simp only [addrBytes3, List.cons_append, List.nil_append, readAddr3, e]

theorem readAddr4_bytes (a : BitVec 32) (r : List Byte) (k : BitVec 32 → List Byte → Except DecodeError α) :
    readAddr4 (addrBytes4 a ++ r) k = k a r := by
  have e := unle32_bytes a
  simp only [unle32] at e
  simp only [addrBytes4, List.cons_append, List.nil_append, readAddr4, e]

end readers

/-! ## The register formats -/

theorem addr_fields {a : Nat} {w : Word} {k : BitVec 5} (h2 : a ≤ 27) (hw : w.toNat < 2 ^ a) :
    (composeAddr a w k).toNat = w.toNat + k.toNat * 2 ^ a := by
  have hk := k.isLt
  have hp : 2 ^ a ≤ 2 ^ 27 := Nat.pow_le_pow_right (by omega) h2
  have hb : k.toNat * 2 ^ a < 2 ^ 32 := by
    calc k.toNat * 2 ^ a ≤ 31 * 2 ^ 27 := Nat.mul_le_mul (by omega) hp
      _ < 2 ^ 32 := by norm_num
  simp only [composeAddr, BitVec.toNat_or, BitVec.toNat_shiftLeft, BitVec.toNat_setWidth, Nat.shiftLeft_eq]
  rw [Nat.mod_eq_of_lt (show k.toNat < 2 ^ 32 by omega), Nat.mod_eq_of_lt hb, Nat.or_comm, Nat.mul_comm,
    ← Nat.two_pow_add_eq_or_of_lt hw, Nat.mul_comm]
  omega

theorem decodeAddr_word {ab : AddrWidths} {bus w : Word} {k : BitVec 5} (h : addrFits ab bus w = true)
    (rest : List Byte) :
    decodeAddr ab bus (le32 (composeAddr ((ab bus).getD 0) w k) ++ rest) = .ok (.efuseAddr bus w k, rest) := by
  rw [decodeAddr, readWord_le32]
  simp only [addrFits] at h
  cases hab : ab bus with
  | none => simp [hab] at h
  | some a =>
    simp only [hab, decide_eq_true_eq] at h
    obtain ⟨h1, h2, hw⟩ := h
    have e := addr_fields (k := k) h2 hw
    have hk := k.isLt
    have hp : 0 < 2 ^ a := Nat.pow_pos (by omega)
    simp only [Option.getD_some]
    rw [if_pos ⟨h1, h2⟩, e]
    have hlt : w.toNat + k.toNat * 2 ^ a < 2 ^ (a + 5) := by
      have : k.toNat * 2 ^ a ≤ 31 * 2 ^ a := Nat.mul_le_mul_right _ (by omega)
      have : 2 ^ (a + 5) = 32 * 2 ^ a := by rw [Nat.pow_add]; omega
      omega
    rw [if_pos hlt, Nat.add_mul_mod_self_right, Nat.mod_eq_of_lt hw, Nat.add_mul_div_right _ _ hp,
      Nat.div_eq_of_lt hw, Nat.zero_add, BitVec.ofNat_toNat, BitVec.ofNat_toNat, BitVec.setWidth_eq, BitVec.setWidth_eq]

/-! ## The family -/

/-- The decoder undoes the encoder on a well-formed operation, whatever bytes follow. -/
def RoundTrip.Statement (i : Instr) : Prop :=
  ∀ (cfg : Config.Params) (ab : AddrWidths) (rest : List Byte), WellFormed ab i = true →
    decode cfg ab ⟨(encode cfg ab i).port, (encode cfg ab i).bytes ++ rest⟩ = .ok (i, rest)

theorem RoundTrip.efuseRdb (bus offset count : Word) : RoundTrip.Statement (.efuseRdb bus offset count) := by
  intro cfg ab rest _
  simp [decode, encode, decodeReq, readByte_cons, List.append_assoc, readWord_le32]

theorem RoundTrip.efuseWrb (bus offset count : Word) (data : List Byte) :
    RoundTrip.Statement (.efuseWrb bus offset count data) := by
  intro cfg ab rest h
  simp only [WellFormed, decide_eq_true_eq] at h
  simp [decode, encode, decodeReq, readByte_cons, List.append_assoc, readWord_le32, readBytes_append h]

theorem RoundTrip.efuseInfo (bus : Word) (wantInfo wantTotal : Bool) :
    RoundTrip.Statement (.efuseInfo bus wantInfo wantTotal) := by
  intro cfg ab rest _
  simp [decode, encode, decodeReq, readByte_cons, List.append_assoc, readWord_le32, readFlag_flagByte]

theorem RoundTrip.norSetup (handle : Option Word) : RoundTrip.Statement (.norSetup handle) := by
  intro cfg ab rest _
  cases handle with
  | none => rfl
  | some w =>
    show readWord (le32 w ++ rest) (fun h r => (.ok (.norSetup (some h), r) : Decoded)) = _
    rw [readWord_le32]

theorem RoundTrip.norInit (dev : Word) : RoundTrip.Statement (.norInit dev) := by
  intro cfg ab rest _
  simp [decode, encode, decodeReq, readByte_cons, readWord_le32]

theorem RoundTrip.norRd (dev offset length : Word) : RoundTrip.Statement (.norRd dev offset length) := by
  intro cfg ab rest _
  simp [decode, encode, decodeReq, readByte_cons, List.append_assoc, readWord_le32]

theorem RoundTrip.norWr (dev offset length : Word) (data : List Byte) :
    RoundTrip.Statement (.norWr dev offset length data) := by
  intro cfg ab rest h
  simp only [WellFormed, decide_eq_true_eq] at h
  simp [decode, encode, decodeReq, readByte_cons, List.append_assoc, readWord_le32,
    readBytes_append h]

theorem RoundTrip.norEr (dev offset length : Word) : RoundTrip.Statement (.norEr dev offset length) := by
  intro cfg ab rest _
  simp [decode, encode, decodeReq, readByte_cons, List.append_assoc, readWord_le32]

theorem RoundTrip.norErchip (dev : Word) : RoundTrip.Statement (.norErchip dev) := by
  intro cfg ab rest _
  simp [decode, encode, decodeReq, readByte_cons, readWord_le32]

theorem RoundTrip.norFree (dev : Word) : RoundTrip.Statement (.norFree dev) := by
  intro cfg ab rest _
  simp [decode, encode, decodeReq, readByte_cons, readWord_le32]

theorem RoundTrip.efuseRdw (bus wordIndex : Word) : RoundTrip.Statement (.efuseRdw bus wordIndex) := by
  intro cfg ab rest _
  simp [decode, encode, decodeReq, readByte_cons, List.append_assoc, readWord_le32]

theorem RoundTrip.efuseSetb (bus wordIndex : Word) (bitIndex : BitVec 5) :
    RoundTrip.Statement (.efuseSetb bus wordIndex bitIndex) := by
  intro cfg ab rest _
  simp [decode, encode, decodeReq, readByte_cons, List.append_assoc, readWord_le32, readBitIndex_byte]

theorem RoundTrip.efuseWrw (bus wordIndex value : Word) : RoundTrip.Statement (.efuseWrw bus wordIndex value) := by
  intro cfg ab rest _
  simp [decode, encode, decodeReq, readByte_cons, List.append_assoc, readWord_le32]

theorem RoundTrip.spiRdreg (dev : Word) (cmd : Byte) (n : BitVec 2) : RoundTrip.Statement (.spiRdreg dev cmd n) := by
  intro cfg ab rest _
  simp [decode, encode, decodeReq, readByte_cons, List.append_assoc, readWord_le32, readCount_byte]

theorem RoundTrip.spiWrreg (dev : Word) (cmd : Byte) (n : BitVec 2) (payload : List Byte) :
    RoundTrip.Statement (.spiWrreg dev cmd n payload) := by
  intro cfg ab rest h
  simp only [WellFormed, decide_eq_true_eq] at h
  simp [decode, encode, decodeReq, readByte_cons, List.append_assoc, readWord_le32, readCount_byte,
    readBytes_append h]

theorem RoundTrip.spiXrd (dev addr len : Word) : RoundTrip.Statement (.spiXrd dev addr len) := by
  intro cfg ab rest _
  simp [decode, encode, decodeReq, readByte_cons, List.append_assoc, readWord_le32]

theorem RoundTrip.spiXpp (dev addr len : Word) (payload : List Byte) :
    RoundTrip.Statement (.spiXpp dev addr len payload) := by
  intro cfg ab rest h
  simp only [WellFormed, decide_eq_true_eq] at h
  simp [decode, encode, decodeReq, readByte_cons, List.append_assoc, readWord_le32,
    readBytes_append h]

theorem RoundTrip.spiXer (dev addr : Word) : RoundTrip.Statement (.spiXer dev addr) := by
  intro cfg ab rest _
  simp [decode, encode, decodeReq, readByte_cons, List.append_assoc, readWord_le32]

theorem RoundTrip.norWaitrdy (dev : Word) : RoundTrip.Statement (.norWaitrdy dev) := by
  intro cfg ab rest _
  simp [decode, encode, decodeReq, readByte_cons, readWord_le32]

theorem RoundTrip.norGetid (dev : Word) : RoundTrip.Statement (.norGetid dev) := by
  intro cfg ab rest _
  simp [decode, encode, decodeReq, readByte_cons, readWord_le32]

theorem RoundTrip.modeIdle (bus : Word) : RoundTrip.Statement (.modeIdle bus) := by
  intro cfg ab rest _
  show decodeMode cfg bus (le32 _ ++ rest) = _
  rw [decodeMode, readWord_le32]
  simp

theorem RoundTrip.modeRead (bus : Word) : RoundTrip.Statement (.modeRead bus) := by
  intro cfg ab rest _
  show decodeMode cfg bus (le32 _ ++ rest) = _
  rw [decodeMode, readWord_le32]
  simp [(mode_idle_ne_read cfg).symm]

theorem RoundTrip.modeWrite (bus : Word) : RoundTrip.Statement (.modeWrite bus) := by
  intro cfg ab rest _
  show decodeMode cfg bus (le32 _ ++ rest) = _
  rw [decodeMode, readWord_le32]
  simp [(mode_idle_ne_write cfg).symm, (mode_read_ne_write cfg).symm]

theorem RoundTrip.efuseAddr (bus wordIndex : Word) (bitIndex : BitVec 5) :
    RoundTrip.Statement (.efuseAddr bus wordIndex bitIndex) := by
  intro cfg ab rest h
  exact decodeAddr_word h rest

theorem RoundTrip.tranRegrd (dev : Word) (go : Bool) : RoundTrip.Statement (.tranRegrd dev go) := by
  intro cfg ab rest _
  show decodeTran cfg dev (le32 _ ++ rest) = _
  rw [decodeTran, readWord_le32]
  simp

theorem RoundTrip.tranRegwr (dev : Word) (go : Bool) : RoundTrip.Statement (.tranRegwr dev go) := by
  intro cfg ab rest _
  show decodeTran cfg dev (le32 _ ++ rest) = _
  rw [decodeTran, readWord_le32]
  simp

theorem RoundTrip.tranDatard (dev : Word) (go : Bool) (addrBytes : BitVec 3) :
    RoundTrip.Statement (.tranDatard dev go addrBytes) := by
  intro cfg ab rest _
  show decodeTran cfg dev (le32 _ ++ rest) = _
  rw [decodeTran, readWord_le32]
  simp [tranAddr_tranWord]

theorem RoundTrip.tranDatawr (dev : Word) (go : Bool) (addrBytes : BitVec 3) :
    RoundTrip.Statement (.tranDatawr dev go addrBytes) := by
  intro cfg ab rest _
  show decodeTran cfg dev (le32 _ ++ rest) = _
  rw [decodeTran, readWord_le32]
  simp [tranAddr_tranWord]

theorem RoundTrip.tranErase (dev : Word) (go : Bool) (addrBytes : BitVec 3) :
    RoundTrip.Statement (.tranErase dev go addrBytes) := by
  intro cfg ab rest _
  show decodeTran cfg dev (le32 _ ++ rest) = _
  rw [decodeTran, readWord_le32]
  simp [tranAddr_tranWord]

theorem RoundTrip.rdid (dev : Word) : RoundTrip.Statement (.rdid dev) := by
  intro cfg ab rest _
  simp [decode, encode, decodeFrame, readByte_cons, noData]

theorem RoundTrip.rdsr (dev : Word) : RoundTrip.Statement (.rdsr dev) := by
  intro cfg ab rest _
  simp [decode, encode, decodeFrame, readByte_cons, noData]

theorem RoundTrip.wrsr (dev : Word) (v : Byte) : RoundTrip.Statement (.wrsr dev v) := by
  intro cfg ab rest _
  simp [decode, encode, decodeFrame, readByte_cons, noData]

theorem RoundTrip.wren (dev : Word) : RoundTrip.Statement (.wren dev) := by
  intro cfg ab rest _
  simp [decode, encode, decodeFrame, readByte_cons, noData]

theorem RoundTrip.wrdi (dev : Word) : RoundTrip.Statement (.wrdi dev) := by
  intro cfg ab rest _
  simp [decode, encode, decodeFrame, readByte_cons, noData]

theorem RoundTrip.en4b (dev : Word) : RoundTrip.Statement (.en4b dev) := by
  intro cfg ab rest _
  simp [decode, encode, decodeFrame, readByte_cons, noData]

theorem RoundTrip.read (dev : Word) (addr : BitVec 24) (len : Word) : RoundTrip.Statement (.read dev addr len) := by
  intro cfg ab rest _
  simp [decode, encode, decodeFrame, readByte_cons, readAddr3_bytes]

theorem RoundTrip.read4b (dev : Word) (addr : BitVec 32) (len : Word) :
    RoundTrip.Statement (.read4b dev addr len) := by
  intro cfg ab rest _
  simp [decode, encode, decodeFrame, readByte_cons, readAddr4_bytes]

theorem RoundTrip.pp (dev : Word) (addr : BitVec 24) (data : List Byte) :
    RoundTrip.Statement (.pp dev addr data) := by
  intro cfg ab rest h
  simp only [WellFormed, payloadFits, decide_eq_true_eq] at h
  have hn : (lengthWord data).toNat = data.length := by
    simp only [lengthWord, BitVec.toNat_ofNat, Nat.mod_eq_of_lt h]
  simp [decode, encode, decodeFrame, readByte_cons, List.append_assoc,
    readAddr3_bytes, readBytes_append hn.symm]

theorem RoundTrip.pp4b (dev : Word) (addr : BitVec 32) (data : List Byte) :
    RoundTrip.Statement (.pp4b dev addr data) := by
  intro cfg ab rest h
  simp only [WellFormed, payloadFits, decide_eq_true_eq] at h
  have hn : (lengthWord data).toNat = data.length := by
    simp only [lengthWord, BitVec.toNat_ofNat, Nat.mod_eq_of_lt h]
  simp [decode, encode, decodeFrame, readByte_cons, List.append_assoc,
    readAddr4_bytes, readBytes_append hn.symm]

theorem RoundTrip.be4k (dev : Word) (addr : BitVec 24) : RoundTrip.Statement (.be4k dev addr) := by
  intro cfg ab rest _
  simp [decode, encode, decodeFrame, readByte_cons, noData, readAddr3_bytes]

theorem RoundTrip.be4k4b (dev : Word) (addr : BitVec 32) : RoundTrip.Statement (.be4k4b dev addr) := by
  intro cfg ab rest _
  simp [decode, encode, decodeFrame, readByte_cons, noData, readAddr4_bytes]

theorem RoundTrip.se (dev : Word) (addr : BitVec 24) : RoundTrip.Statement (.se dev addr) := by
  intro cfg ab rest _
  simp [decode, encode, decodeFrame, readByte_cons, noData, readAddr3_bytes]

theorem RoundTrip.se4b (dev : Word) (addr : BitVec 32) : RoundTrip.Statement (.se4b dev addr) := by
  intro cfg ab rest _
  simp [decode, encode, decodeFrame, readByte_cons, noData, readAddr4_bytes]

theorem RoundTrip.ce (dev : Word) : RoundTrip.Statement (.ce dev) := by
  intro cfg ab rest _
  simp [decode, encode, decodeFrame, readByte_cons, noData]

end Sys2Proof.Laws
end

