-- ==== Sys2Proof/Laws/Reach.lean ====
section
/-! SUPPORT. What any operation can do to the hardware, said once: an eFuse unit and an SPI unit change only by the
primitive moves listed in `EClosed` and `SClosed`. A property closed under those moves is kept by every operation and
every step, so an invariant of a unit is proved move by move and never by unfolding an operation. -/

namespace Sys2Proof.Machine

open Sys2Proof

/-! ## Closure under the primitive moves -/

/-- `P` is kept by every primitive move of an eFuse unit. -/
structure EClosed (cfg : Config.Params) (P : EfuseUnit → Prop) : Prop where
  write : ∀ r v u u', P u → eWrite cfg r v u = .ok u' → P u'
  emac : ∀ u u', P u → emacStep cfg u = .ok u' → P u'
  sched : ∀ (u : EfuseUnit) t, P u → P { u with sched := t }
  work : ∀ (u : EfuseUnit) w, P u → P { u with work := w }
  draws : ∀ (u : EfuseUnit) n, P u → P { u with draws := n }
  trace : ∀ (u : EfuseUnit) t, P u → P { u with trace := t }

/-- `P` is kept by every primitive move of an SPI unit. -/
structure SClosed (cfg : Config.Params) (P : SpiUnit → Prop) : Prop where
  write : ∀ r v u u', P u → sWrite cfg r v u = .ok u' → P u'
  push : ∀ b u u', P u → fifoPush cfg b u = .ok u' → P u'
  pop : ∀ u b u', P u → fifoPop cfg u = .ok b u' → P u'
  shift : ∀ u u', P u → shiftStep cfg u = .ok u' → P u'
  part : ∀ u, P u → P { u with part := partStep cfg u.part }
  power : ∀ u, P u → P { u with part := partPowerCycle cfg u.part }
  phase : ∀ u p, P u → P (u.setPhase p)
  sched : ∀ (u : SpiUnit) t, P u → P { u with sched := t }
  work : ∀ (u : SpiUnit) w, P u → P { u with work := w }
  draws : ∀ (u : SpiUnit) n, P u → P { u with draws := n }
  record : ∀ (u : SpiUnit) r, P u → P { u with record := r }
  reset : ∀ u, P u → P (resetController u)

/-- `v` comes from `u` by primitive moves. -/
def EReach (cfg : Config.Params) (u v : EfuseUnit) : Prop := ∀ P, EClosed cfg P → P u → P v

/-- `v` comes from `u` by primitive moves. -/
def SReach (cfg : Config.Params) (u v : SpiUnit) : Prop := ∀ P, SClosed cfg P → P u → P v

theorem EReach.refl (cfg : Config.Params) (u : EfuseUnit) : EReach cfg u u := fun _ _ h => h
theorem EReach.trans {cfg : Config.Params} {u v w : EfuseUnit} (h : EReach cfg u v) (k : EReach cfg v w) :
    EReach cfg u w :=
  fun P hP hu => k P hP (h P hP hu)
theorem SReach.refl (cfg : Config.Params) (u : SpiUnit) : SReach cfg u u := fun _ _ h => h
theorem SReach.trans {cfg : Config.Params} {u v w : SpiUnit} (h : SReach cfg u v) (k : SReach cfg v w) :
    SReach cfg u w := fun P hP hu => k P hP (h P hP hu)

/-! ## Pieces of operations -/

/-- However the piece ends, the unit it leaves has `P`. -/
def Res.Keeps {σ α : Type} (P : σ → Prop) (r : Res σ α) : Prop :=
  match r with
  | .ok _ u => P u
  | .raised _ u => P u
  | .hang _ u => P u
  | .stop _ => True

@[simp] theorem Res.keeps_ok {σ α : Type} (P : σ → Prop) (a : α) (u : σ) :
    (Res.ok a u).Keeps P ↔ P u := Iff.rfl
@[simp] theorem Res.keeps_raised {σ α : Type} (P : σ → Prop) (st : Status) (u : σ) :
    (Res.raised st u : Res σ α).Keeps P ↔ P u := Iff.rfl
@[simp] theorem Res.keeps_hang {σ α : Type} (P : σ → Prop) (k : HangKind) (u : σ) :
    (Res.hang k u : Res σ α).Keeps P ↔ P u := Iff.rfl
@[simp] theorem Res.keeps_stop {σ α : Type} (P : σ → Prop) (x : Stop) :
    (Res.stop x : Res σ α).Keeps P := trivial
@[simp] theorem Res.keeps_refuse {σ α : Type} (P : σ → Prop) (x : Refusal) :
    (Res.refuse x : Res σ α).Keeps P := trivial

theorem Res.Keeps.bind {σ α β : Type} {P : σ → Prop} {r : Res σ α} {f : α → σ → Res σ β} (h : r.Keeps P)
    (hf : ∀ a u, P u → (f a u).Keeps P) : (r.bind f).Keeps P := by
  cases r with
  | ok a u => exact hf a u h
  | raised st u => exact h
  | hang k u => exact h
  | stop x => trivial

theorem Res.keeps_access {σ : Type} {P : σ → Prop} {r : Except Stop σ} (h : ∀ v, r = .ok v → P v) :
    (Res.access r).Keeps P := by
  cases r with
  | ok v => exact h v rfl
  | error x => trivial

/-- A wait moves the unit by the agents' steps only. -/
theorem pollUntil_keeps {σ : Type} {P : σ → Prop} {point : σ → Except Stop σ} {ready : σ → Bool}
    (hp : ∀ u v, P u → point u = .ok v → P v) {n : Nat} {u v : σ} {b : Bool} (hu : P u)
    (h : pollUntil point ready n u = .ok (b, v)) : P v := by
  induction n generalizing u with
  | zero => simp only [pollUntil, Except.ok.injEq, Prod.mk.injEq] at h; exact h.2 ▸ hu
  | succ m ih =>
    rw [pollUntil] at h
    split at h
    · exact absurd h (by simp)
    · next w hw =>
      split at h
      · simp only [Except.ok.injEq, Prod.mk.injEq] at h; exact h.2 ▸ hp _ _ hu hw
      · exact ih (hp _ _ hu hw) h

theorem waitFailed_keeps {σ α : Type} {P : σ → Prop} {point : σ → Except Stop σ} (k : HangKind)
    (budget : Option Nat) (hp : ∀ u v, P u → point u = .ok v → P v) {u : σ} (hu : P u) :
    (waitFailed k budget point u : Res σ α).Keeps P := by
  unfold waitFailed
  split
  · exact hu
  · split
    · trivial
    · next v hv => exact hp _ _ hu hv

theorem waitFlag_keeps {σ : Type} {P : σ → Prop} {point : σ → Except Stop σ} {ready : σ → Bool}
    (budget : Option Nat) (n : Nat) (hp : ∀ u v, P u → point u = .ok v → P v) {u : σ} (hu : P u) :
    (waitFlag budget n point ready u).Keeps P := by
  unfold waitFlag
  split
  · trivial
  · next v hv => exact pollUntil_keeps hp hu hv
  · next v hv => exact waitFailed_keeps _ _ hp (pollUntil_keeps hp hu hv)

/-! ## Engine E -/

section EngineE
variable {cfg : Config.Params} {P : EfuseUnit → Prop}

theorem EClosed.point (hP : EClosed cfg P) (u v : EfuseUnit) (hu : P u) (h : ePoint cfg u = .ok v) : P v := by
  unfold ePoint at h
  split at h
  · exact hP.emac _ _ (hP.sched u _ hu) h
  · cases h; exact hP.sched u _ hu
  · split at h
    · exact hP.emac _ _ hu h
    · cases h; exact hu

theorem EClosed.wait (hP : EClosed cfg P) {u : EfuseUnit} (hu : P u) :
    (eWait cfg u).Keeps P := waitFlag_keeps _ _ hP.point hu

theorem EClosed.access (hP : EClosed cfg P) (r : EReg) (v : Word) {u : EfuseUnit} (hu : P u) :
    (Res.access (eWrite cfg r v u)).Keeps P := Res.keeps_access fun w hw => hP.write r v u w hu hw

theorem EClosed.read (hP : EClosed cfg P) (w : Nat) {u : EfuseUnit} (hu : P u) :
    (embeddedRead cfg w u).Keeps P := by
  unfold embeddedRead
  split
  · trivial
  · exact (hP.access _ _ hu).bind fun _ _ hu => (hP.wait hu).bind fun _ _ hu =>
      (hP.access _ _ hu).bind fun _ _ hu => (hP.access _ _ hu).bind fun _ _ hu =>
      (hP.wait hu).bind fun _ _ hu => hP.trace _ _ hu

theorem EClosed.setBit (hP : EClosed cfg P) (w k : Nat) {u : EfuseUnit} (hu : P u) :
    (embeddedSetBit cfg w k u).Keeps P := by
  unfold embeddedSetBit
  split
  · trivial
  · exact (hP.access _ _ hu).bind fun _ _ hu => (hP.access _ _ hu).bind fun _ _ hu => hP.wait hu

theorem EClosed.setBits (hP : EClosed cfg P) (w : Nat) (value : Word) (ks : List Nat)
    {u : EfuseUnit} (hu : P u) : (setBits cfg w value ks u).Keeps P := by
  induction ks generalizing u with
  | nil => exact hu
  | cons k t ih =>
    rw [Machine.setBits]
    split
    · exact (hP.setBit w k hu).bind fun _ _ hu => ih hu
    · exact ih hu

theorem EClosed.writeWord (hP : EClosed cfg P) (w : Nat) (value : Word) {u : EfuseUnit}
    (hu : P u) : (embeddedWrite cfg w value u).Keeps P := by
  unfold embeddedWrite
  split
  · trivial
  · exact hP.setBits w value _ hu

theorem EClosed.readSegments (hP : EClosed cfg P) (total : Nat) (gs : List Segment)
    {u : EfuseUnit} (hu : P u) : (readSegments cfg total gs u).Keeps P := by
  induction gs generalizing u with
  | nil => exact hu
  | cons g t ih => exact (hP.read g.word hu).bind fun _ _ hu => ih (hP.work _ _ hu)

theorem EClosed.writeSegments (hP : EClosed cfg P) (total : Nat) (gs : List Segment)
    {u : EfuseUnit} (hu : P u) : (writeSegments cfg total gs u).Keeps P := by
  induction gs generalizing u with
  | nil => exact hu
  | cons g t ih => exact (hP.writeWord g.word _ (hP.work _ _ hu)).bind fun _ _ hu => ih hu

theorem EClosed.readBytes (hP : EClosed cfg P) (off cnt : Word) {u : EfuseUnit} (hu : P u) :
    (efuseReadBytes cfg off cnt u).Keeps P := by
  unfold efuseReadBytes
  split
  · trivial
  · exact hP.readSegments _ _ (hP.work u _ hu)

theorem EClosed.writeBytes (hP : EClosed cfg P) (off cnt : Word) (data : List Byte)
    {u : EfuseUnit} (hu : P u) : (efuseWriteBytes cfg off cnt data u).Keeps P := by
  unfold efuseWriteBytes
  split
  · trivial
  · exact hP.writeSegments _ _ (hP.work u _ hu)

theorem EClosed.load (hP : EClosed cfg P) (b : List Byte) {u : EfuseUnit} (hu : P u) : P (u.load b) :=
  hP.work u _ hu

theorem EClosed.retire (hP : EClosed cfg P) {u : EfuseUnit} (hu : P u) : P u.retire :=
  hP.draws _ (u.draws + 4) (hP.work u u.retire.work hu)

end EngineE

/-! ## Engine S -/

section EngineS
variable {cfg : Config.Params} {P : SpiUnit → Prop}

theorem SClosed.agent (hP : SClosed cfg P) (a : SAgent) (u v : SpiUnit) (hu : P u)
    (h : sAgentStep cfg a u = .ok v) : P v := by
  cases a with
  | shift => exact hP.shift u v hu h
  | part => cases h; exact hP.part u hu
  | power => cases h; exact hP.power u hu

theorem SClosed.batch (hP : SClosed cfg P) (as : List SAgent) (u v : SpiUnit) (hu : P u)
    (h : sBatch cfg as u = .ok v) : P v := by
  induction as generalizing u with
  | nil => cases h; exact hu
  | cons a t ih =>
    rw [sBatch] at h
    split at h
    · cases h
    · next w hw => exact ih w (hP.agent a u w hu hw) h

theorem SClosed.partLive (hP : SClosed cfg P) {u : SpiUnit} (hu : P u) : P (partLive cfg u) := by
  unfold Machine.partLive
  split
  · exact hP.part u hu
  · exact hu

theorem SClosed.run (hP : SClosed cfg P) (n : Nat) (u v : SpiUnit) (hu : P u) (h : shiftRun cfg n u = .ok v) :
    P v := by
  induction n generalizing u with
  | zero => cases h; exact hu
  | succ m ih =>
    rw [shiftRun] at h
    split at h
    · split at h
      · cases h
      · next w hw => exact ih w (hP.shift u w hu hw) h
    · cases h; exact hu

theorem SClosed.point (hP : SClosed cfg P) (u v : SpiUnit) (hu : P u) (h : sPoint cfg u = .ok v) : P v := by
  unfold sPoint at h
  split at h
  · exact hP.batch _ _ _ (hP.sched u _ hu) h
  · split at h
    · exact hP.run _ _ _ (hP.partLive hu) h
    · cases h; exact hP.partLive hu

theorem SClosed.access (hP : SClosed cfg P) (r : SReg) (v : Word) {u : SpiUnit} (hu : P u) :
    (Res.access (sWrite cfg r v u)).Keeps P := Res.keeps_access fun w hw => hP.write r v u w hu hw

theorem SClosed.pushAll (hP : SClosed cfg P) (bs : List Byte) (u v : SpiUnit) (hu : P u)
    (h : fifoPushAll cfg bs u = .ok v) : P v := by
  induction bs generalizing u with
  | nil => cases h; exact hu
  | cons b t ih =>
    rw [fifoPushAll] at h
    split at h
    · cases h
    · next w hw => exact ih w (hP.push b u w hu hw) h

theorem SClosed.pushes (hP : SClosed cfg P) (bs : List Byte) {u : SpiUnit} (hu : P u) :
    (Res.access (fifoPushAll cfg bs u)).Keeps P := Res.keeps_access fun w hw => hP.pushAll bs u w hu hw

theorem SClosed.popOne (hP : SClosed cfg P) {u : SpiUnit} (hu : P u) : (fifoPop cfg u).Keeps P := by
  cases hr : fifoPop cfg u with
  | ok b v => exact hP.pop u b v hu hr
  | raised st v => unfold fifoPop at hr; split at hr <;> cases hr
  | hang k v => unfold fifoPop at hr; split at hr <;> cases hr
  | stop x => trivial

theorem SClosed.popN (hP : SClosed cfg P) (k : Nat) {u : SpiUnit} (hu : P u) : (fifoPopN cfg k u).Keeps P := by
  induction k generalizing u with
  | zero => exact hu
  | succ j ih => exact (hP.popOne hu).bind fun _ _ hu => (ih hu).bind fun _ _ hu => hu

theorem SClosed.wait (hP : SClosed cfg P) (forRead : Bool) {u : SpiUnit} (hu : P u) :
    (sWait cfg forRead u).Keeps P := waitFlag_keeps _ _ hP.point (hP.phase u _ hu)

theorem SClosed.bursts (hP : SClosed cfg P) (fuel : Nat) (tx : List Byte) {u : SpiUnit} (hu : P u) :
    (pushBursts cfg fuel tx u).Keeps P := by
  induction fuel generalizing tx u with
  | zero => exact hP.pushes _ hu
  | succ f ih =>
    rw [pushBursts]
    split
    · exact hu
    · exact (hP.pushes _ hu).bind fun _ _ hu => ih _ (hP.work _ _ hu)

theorem SClosed.drainLoop (hP : SClosed cfg P) (fuel left : Nat) {u : SpiUnit} (hu : P u) :
    (drain cfg fuel left u).Keeps P := by
  induction fuel generalizing left u with
  | zero => exact hu
  | succ f ih =>
    rw [drain]
    refine (hP.popN _ (hP.phase u _ hu)).bind fun bs v hv => ?_
    dsimp only
    split
    · exact hP.work _ _ hv
    · exact (hP.wait true (hP.work _ _ hv)).bind fun _ _ hu => (ih _ hu).bind fun _ _ hu => hu

theorem SClosed.transact (hP : SClosed cfg P) (d : Txn) {u : SpiUnit} (hu : P u) : (transact cfg d u).Keeps P := by
  unfold Machine.transact
  split
  · refine Res.Keeps.bind ?_ fun _ u hu => ?_
    · exact (hP.access _ _ (hP.phase u _ hu)).bind fun _ _ hu => (hP.access _ _ hu).bind fun _ _ hu =>
        hP.access _ _ hu
    refine (hP.pushes _ (hP.phase u _ hu)).bind fun _ u hu => ?_
    refine Res.Keeps.bind ?_ fun _ u hu => ?_
    · unfold pushData
      split
      · exact hu
      · exact hP.bursts _ _ (hP.work _ _ (hP.phase u _ hu))
    refine (hP.access _ _ (hP.phase u _ hu)).bind fun _ u hu => ?_
    refine (hP.wait _ hu).bind fun _ u hu => ?_
    refine Res.Keeps.bind ?_ fun rx u hu => ?_
    · unfold drainAll
      split
      · exact hu
      · exact hP.drainLoop _ _ (hP.work _ _ hu)
    exact (hP.access _ _ (hP.phase u _ hu)).bind fun _ u hu => hP.phase u _ hu
  · trivial

theorem SClosed.withRecord {α : Type} {u : SpiUnit} {f : NorDevice → Res SpiUnit α}
    (h : ∀ r, (f r).Keeps P) : (withRecord u f).Keeps P := by
  unfold Machine.withRecord
  split
  · trivial
  · exact h _

theorem SClosed.withResolved {α : Type} {u : SpiUnit} {f : Resolved → Res SpiUnit α}
    (h : ∀ g, (f g).Keeps P) : (withResolved u f).Keeps P := by
  unfold Machine.withResolved
  refine SClosed.withRecord fun r => ?_
  split
  · trivial
  · split
    · trivial
    · exact h _

theorem SClosed.withInited {α : Type} {u : SpiUnit} {f : Resolved → Res SpiUnit α}
    (h : ∀ g, (f g).Keeps P) : (withInited u f).Keeps P := by
  unfold Machine.withInited
  refine SClosed.withRecord fun r => ?_
  split
  · exact SClosed.withResolved h
  · trivial

theorem SClosed.readRegister (hP : SClosed cfg P) (cmd : Byte) (n : Nat) {u : SpiUnit} (hu : P u) :
    (readRegister cfg cmd n u).Keeps P := by
  refine SClosed.withRecord fun r => ?_
  split_ifs
  · trivial
  · trivial
  · exact (hP.transact _ hu).bind fun _ _ hu => hP.work _ _ hu

theorem SClosed.writeRegister (hP : SClosed cfg P) (cmd : Byte) (payload : List Byte) {u : SpiUnit} (hu : P u) :
    (writeRegister cfg cmd payload u).Keeps P := by
  refine SClosed.withRecord fun r => ?_
  split_ifs
  · trivial
  · trivial
  · exact hP.transact _ (hP.work _ _ hu)

theorem SClosed.readTxn (hP : SClosed cfg P) (addr len : Nat) {u : SpiUnit} (hu : P u) :
    (readTransaction cfg addr len u).Keeps P := by
  refine SClosed.withResolved fun g => ?_
  split
  · trivial
  · exact hP.transact _ hu

theorem SClosed.programTxn (hP : SClosed cfg P) (addr : Nat) (payload : List Byte) {u : SpiUnit} (hu : P u) :
    (programTransaction cfg addr payload u).Keeps P := by
  refine SClosed.withResolved fun g => ?_
  split
  · trivial
  · exact hP.transact _ hu

theorem SClosed.eraseTxn (hP : SClosed cfg P) (addr : Nat) {u : SpiUnit} (hu : P u) :
    (eraseTransaction cfg addr u).Keeps P := by
  refine SClosed.withResolved fun g => ?_
  split
  · trivial
  · exact hP.transact _ hu

theorem SClosed.polls (hP : SClosed cfg P) (n : Nat) {u : SpiUnit} (hu : P u) : (readyPolls cfg n u).Keeps P := by
  induction n generalizing u with
  | zero => exact hu
  | succ m ih =>
    refine (hP.readRegister _ _ hu).bind fun rx v hv => ?_
    split
    · exact ih hv
    · exact hv

theorem SClosed.waitReady (hP : SClosed cfg P) {u : SpiUnit} (hu : P u) : (waitReady cfg u).Keeps P := by
  refine (hP.polls _ hu).bind fun b v hv => ?_
  split
  · exact hv
  · exact waitFailed_keeps _ _ hP.point hv

theorem SClosed.init (hP : SClosed cfg P) {u : SpiUnit} (hu : P u) : (norInit cfg u).Keeps P := by
  refine (hP.readRegister _ _ hu).bind fun rx v hv => ?_
  split
  · exact hv
  · split
    · trivial
    · refine Res.Keeps.bind ?_ fun _ w hw => Res.Keeps.bind ?_ fun _ x hx => hP.record _ _ hx
      · unfold enter4B
        split
        · exact (hP.writeRegister _ _ (hP.record _ _ hv)).bind fun _ _ hu => hu
        · exact hP.record _ _ hv
      · exact (hP.writeRegister _ _ hw).bind fun _ _ hu => (hP.writeRegister _ _ hu).bind fun _ _ hu =>
          (hP.waitReady hu).bind fun _ _ hu => (hP.writeRegister _ _ hu).bind fun _ _ hu => hu

theorem SClosed.nonZero {α : Type} {len : Nat} {u : SpiUnit} {r : Res SpiUnit α} (hu : P u)
    (hr : r.Keeps P) : (nonZero len u r).Keeps P := by
  unfold Machine.nonZero
  split
  · exact hu
  · exact hr

theorem SClosed.inFlash {α : Type} {g : Resolved} {off len : Nat} {u : SpiUnit} {r : Res SpiUnit α}
    (hr : r.Keeps P) : (inFlash g off len u r).Keeps P := by
  unfold Machine.inFlash
  split
  · exact hr
  · trivial

theorem SClosed.readLoop (hP : SClosed cfg P) (p fuel addr rem ptr : Nat) {u : SpiUnit} (hu : P u) :
    (readChunks cfg p fuel addr rem ptr u).Keeps P := by
  induction fuel generalizing addr rem ptr u with
  | zero => exact hP.work _ _ hu
  | succ f ih =>
    rw [readChunks]
    split
    · exact hP.work _ _ hu
    · exact (hP.readTxn _ _ (hP.work _ _ hu)).bind fun _ _ hu => ih _ _ _ (hP.work _ _ hu)

theorem SClosed.writeLoop (hP : SClosed cfg P) (p fuel addr rem ptr : Nat) {u : SpiUnit} (hu : P u) :
    (writeChunks cfg p fuel addr rem ptr u).Keeps P := by
  induction fuel generalizing addr rem ptr u with
  | zero => exact hP.work _ _ hu
  | succ f ih =>
    rw [writeChunks]
    split
    · exact hP.work _ _ hu
    · exact (hP.writeRegister _ _ (hP.work _ _ hu)).bind fun _ _ hu => (hP.programTxn _ _ hu).bind fun _ _ hu =>
        (hP.waitReady hu).bind fun _ _ hu => ih _ _ _ hu

theorem SClosed.eraseLoop (hP : SClosed cfg P) (off gran nsec : Nat) (idxs : List Nat) {u : SpiUnit} (hu : P u) :
    (eraseSectors cfg off gran nsec idxs u).Keeps P := by
  induction idxs generalizing u with
  | nil => exact hu
  | cons i t ih =>
    exact (hP.writeRegister _ _ (hP.work _ _ hu)).bind fun _ _ hu => (hP.eraseTxn _ hu).bind fun _ _ hu =>
      (hP.waitReady hu).bind fun _ _ hu => ih hu

theorem SClosed.read (hP : SClosed cfg P) (off len : Nat) {u : SpiUnit} (hu : P u) : (norRead cfg off len u).Keeps P :=
  SClosed.withInited fun _ => SClosed.nonZero hu (SClosed.inFlash (hP.readLoop _ _ _ _ _ (hP.work _ _ hu)))

theorem SClosed.program (hP : SClosed cfg P) (off len : Nat) (data : List Byte) {u : SpiUnit} (hu : P u) :
    (norWrite cfg off len data u).Keeps P :=
  SClosed.withInited fun _ => SClosed.nonZero hu (SClosed.inFlash
    ((hP.writeLoop _ _ _ _ _ (hP.work _ _ hu)).bind fun _ _ hu => (hP.writeRegister _ _ hu).bind fun _ _ hu => hu))

theorem SClosed.erase (hP : SClosed cfg P) (off len : Nat) {u : SpiUnit} (hu : P u) :
    (norErase cfg off len u).Keeps P := by
  refine SClosed.withInited fun g => SClosed.nonZero hu ?_
  split
  · exact hu
  · exact SClosed.inFlash ((hP.eraseLoop _ _ _ _ hu).bind fun _ _ hu => (hP.writeRegister _ _ hu).bind fun _ _ hu => hu)

theorem SClosed.eraseChip (hP : SClosed cfg P) {u : SpiUnit} (hu : P u) : (norEraseChip cfg u).Keeps P :=
  SClosed.withInited fun _ => (hP.writeRegister _ _ hu).bind fun _ _ hu => (hP.writeRegister _ _ hu).bind fun _ _ hu =>
    (hP.waitReady hu).bind fun _ _ hu => (hP.writeRegister _ _ hu).bind fun _ _ hu => hu

theorem SClosed.load (hP : SClosed cfg P) (b : List Byte) {u : SpiUnit} (hu : P u) : P (u.load b) :=
  hP.work u _ hu

theorem SClosed.retire (hP : SClosed cfg P) {u : SpiUnit} (hu : P u) : P u.retire :=
  hP.draws _ (u.draws + 9) (hP.work u u.retire.work hu)

theorem SClosed.intoBuf (hP : SClosed cfg P) (rx : List Byte) {u : SpiUnit} (hu : P u) : (intoBuf rx u).Keeps P :=
  hP.work u { u.work with buf := rx } hu

end EngineS

end Sys2Proof.Machine
end

