-- ==== Sys2Proof/Laws/Step.lean ====
section
/-! SUPPORT. What an operation and a step can do to the machine, said once: an operation leaves the configuration and
the queue alone, moves at most the one unit it names by primitive moves, and a step moves every unit by primitive
moves only. -/

namespace Sys2Proof.Machine

open Sys2Proof

/-- No unit changes, nor the configuration or the queue. -/
def Untouched (s t : State) : Prop := t.efuse = s.efuse ∧ t.spi = s.spi ∧ t.cfg = s.cfg ∧ t.calls = s.calls

/-- Only eFuse unit `b` changes, by primitive moves. -/
def TouchesE (b : Nat) (s t : State) : Prop :=
  (∃ u v, s.efuse[b]? = some u ∧ EReach s.cfg u v ∧ t.efuse = s.efuse.set b v) ∧
    t.spi = s.spi ∧ t.cfg = s.cfg ∧ t.calls = s.calls

/-- Only SPI unit `d` changes, by primitive moves. -/
def TouchesS (d : Nat) (s t : State) : Prop :=
  (∃ u v, s.spi[d]? = some u ∧ SReach s.cfg u v ∧ t.spi = s.spi.set d v) ∧
    t.efuse = s.efuse ∧ t.cfg = s.cfg ∧ t.calls = s.calls

/-- What an operation does to the hardware. -/
def Touches (i : Instr) (s t : State) : Prop :=
  Untouched s t ∨ (∃ b, i.bus? = some b ∧ TouchesE b.toNat s t) ∨ (∃ d, i.dev? = some d ∧ TouchesS d.toNat s t) ∨
    (∃ h d, i = .norSetup h ∧ TouchesS d s t)

/-- A piece of an operation of engine E moves its unit by primitive moves. -/
def EPiece {α : Type} (cfg : Config.Params) (f : EfuseUnit → Res EfuseUnit α) : Prop :=
  ∀ P, EClosed cfg P → ∀ u, P u → (f u).Keeps P

/-- A piece of an operation of engine S moves its unit by primitive moves. -/
def SPiece {α : Type} (cfg : Config.Params) (f : SpiUnit → Res SpiUnit α) : Prop :=
  ∀ P, SClosed cfg P → ∀ u, P u → (f u).Keeps P

/-- Storing a result changes neither hardware nor configuration nor queue. -/
def Quiet (k : State → State) : Prop := ∀ s, Untouched s (k s)

theorem Untouched.refl (s : State) : Untouched s s := ⟨rfl, rfl, rfl, rfl⟩

theorem quiet_noResult {α : Type} (a : α) : Quiet (noResult a) := fun s => Untouched.refl s

theorem quiet_wordResult (v : Word) : Quiet (wordResult v) := fun _ => ⟨rfl, rfl, rfl, rfl⟩

theorem onEfuse_touches {α : Type} {bus : Word} {s t : State} {k : α → State → State}
    {f : EfuseUnit → Res EfuseUnit α} (hf : EPiece s.cfg f) (hk : ∀ a, Quiet (k a))
    (h : onEfuse bus s k f = .next t) : TouchesE bus.toNat s t := by
  unfold onEfuse at h
  split at h
  · cases h
  · next u hu =>
    have key : ∀ P, EClosed s.cfg P → P u → (f (u.load s.buf)).Keeps P := fun P hP h => hf P hP _ (hP.load _ h)
    unfold returnE at h
    cases hr : f (u.load s.buf) with
    | stop x => rw [hr] at h; cases x <;> cases h
    | ok a v =>
      rw [hr] at h
      have q := hk a ((s.putE bus.toNat v).answer .success)
      simp only [Host.Outcome.next.injEq] at h
      rw [h] at q
      refine ⟨⟨u, v.retire, hu, fun P hP hP' => hP.retire ?_, q.1⟩, q.2⟩
      have := key P hP hP'; rw [hr] at this; exact this
    | raised st v =>
      rw [hr] at h
      cases h
      refine ⟨⟨u, v.retire, hu, fun P hP hP' => hP.retire ?_, rfl⟩, rfl, rfl, rfl⟩
      have := key P hP hP'; rw [hr] at this; exact this
    | hang st v =>
      rw [hr] at h
      cases h
      refine ⟨⟨u, v, hu, fun P hP hP' => ?_, rfl⟩, rfl, rfl, rfl⟩
      have := key P hP hP'; rw [hr] at this; exact this

theorem onSpi_touches {α : Type} {dev : Word} {s t : State} {missing : Refusal} {k : α → State → State}
    {f : SpiUnit → Res SpiUnit α} (hf : SPiece s.cfg f) (hk : ∀ a, Quiet (k a))
    (h : onSpi dev s missing k f = .next t) : Untouched s t ∨ TouchesS dev.toNat s t := by
  unfold onSpi at h
  split at h
  · cases h
  · next u hu =>
    have key : ∀ P, SClosed s.cfg P → P u → (f (u.load s.buf)).Keeps P :=
      fun P hP h => hf P hP _ (hP.load _ h)
    unfold returnS at h
    cases hr : f (u.load s.buf) with
    | stop x => rw [hr] at h; cases x <;> cases h
    | ok a v =>
      rw [hr] at h
      have q := hk a ((s.putS dev.toNat v).answer .success)
      simp only [Host.Outcome.next.injEq] at h
      rw [h] at q
      refine .inr ⟨⟨u, v.retire, hu, fun P hP hP' => hP.retire ?_, q.2.1⟩, q.1, q.2.2⟩
      have := key P hP hP'; rw [hr] at this; exact this
    | raised st v =>
      rw [hr] at h
      simp only [Host.Outcome.next.injEq] at h
      unfold raisedS at h
      split at h
      · subst h; exact .inl (Untouched.refl s)
      · subst h
        refine .inr ⟨⟨u, v.retire, hu, fun P hP hP' => hP.retire ?_, rfl⟩, rfl, rfl, rfl⟩
        have := key P hP hP'; rw [hr] at this; exact this
    | hang st v =>
      rw [hr] at h
      cases h
      refine .inr ⟨⟨u, v, hu, fun P hP hP' => ?_, rfl⟩, rfl, rfl, rfl⟩
      have := key P hP hP'; rw [hr] at this; exact this

theorem eRegisterWrite_touches {bus : Word} {s t : State} {r : EReg} {v : EfuseUnit → Except Stop Word}
    (h : eRegisterWrite bus s r v = .next t) : TouchesE bus.toNat s t := by
  unfold eRegisterWrite at h
  split at h
  · cases h
  · next u hu =>
    split at h
    · cases h
    · split at h
      · next x _ => cases x <;> cases h
      · next w _ =>
        split at h
        · next x _ => cases x <;> cases h
        · next u' hw =>
          cases h
          exact ⟨⟨u, u', hu, fun P hP h => hP.write _ _ _ _ h hw, rfl⟩, rfl, rfl, rfl⟩

theorem sRegisterWrite_touches {dev : Word} {s t : State} {r : SReg} {v : Word}
    (h : sRegisterWrite dev s r v = .next t) : TouchesS dev.toNat s t := by
  unfold sRegisterWrite at h
  split at h
  · cases h
  · next u hu =>
    split at h
    · next x _ => cases x <;> cases h
    · next u' hw =>
      split at h
      · cases h
        exact ⟨⟨u, u', hu, fun P hP h => hP.write _ _ _ _ h hw, rfl⟩, rfl, rfl, rfl⟩
      · cases h

theorem withBus_touches {bus : Word} {s t : State} {go : Host.Outcome State Fault Refusal}
    (hg : go = .next t → TouchesE bus.toNat s t) (h : withBus bus s go = .next t) :
    Untouched s t ∨ TouchesE bus.toNat s t := by
  unfold withBus at h
  split at h
  · cases h; exact .inl (Untouched.refl s)
  · exact .inr (hg h)

theorem execFrame_touches {dev : Word} {s t : State} {d : Txn} (h : execFrame dev d s = .next t) :
    Untouched s t ∨ TouchesS dev.toNat s t := by
  refine onSpi_touches ?_ quiet_noResult h
  intro P hP u hu
  refine Res.Keeps.bind (hP.transact d ?_) fun rx v hv => ?_
  · split
    · exact hP.load _ hu
    · exact hu
  · split
    · exact hP.work _ _ hv
    · exact hv

theorem execNorSetup_touches {h : Option Word} {s t : State} (e : execNorSetup h s = .next t) :
    Untouched s t ∨ ∃ d, TouchesS d s t := by
  unfold execNorSetup at e
  split at e
  · next i u hr =>
    cases e
    have hu : s.spi[i]? = some u := by
      unfold reusable at hr
      split at hr
      · cases hr
      · split at hr
        · cases hr
        · next w hw => split at hr <;> cases hr; exact hw
    exact .inr ⟨i, ⟨u, _, hu, fun P hP h => hP.reset _ h, rfl⟩, rfl, rfl, rfl⟩
  · dsimp only at e
    split at e
    · cases e; exact .inl (Untouched.refl s)
    · next i _ =>
      split at e
      · cases e; exact .inl (Untouched.refl s)
      · next u hu =>
        cases e
        exact .inr ⟨i, ⟨u, _, hu, fun P hP h => hP.reset _ (hP.record u _ h), rfl⟩, rfl, rfl, rfl⟩

theorem execNorFree_touches {dev : Word} {s t : State} (h : execNorFree dev s = .next t) :
    TouchesS dev.toNat s t := by
  unfold execNorFree at h
  split at h
  · cases h
  · next u hu =>
    split at h
    · cases h
    · cases h
      exact ⟨⟨u, _, hu, fun P hP h => hP.record u _ h, rfl⟩, rfl, rfl, rfl⟩

/-- What an operation can do to the hardware. -/
theorem exec_touches {i : Instr} {s t : State} (h : exec i s = .next t) : Touches i s t := by
  have bus : ∀ b : Word, i.bus? = some b → Untouched s t ∨ TouchesE b.toNat s t → Touches i s t :=
    fun b e hb => hb.elim .inl fun hb => .inr (.inl ⟨b, e, hb⟩)
  have dev : ∀ d : Word, i.dev? = some d → Untouched s t ∨ TouchesS d.toNat s t → Touches i s t :=
    fun d e hd => hd.elim .inl fun hd => .inr (.inr (.inl ⟨d, e, hd⟩))
  have frameCase : ∀ (d : Word) (x : Txn), i.dev? = some d → execFrame d x s = .next t → Touches i s t :=
    fun d x e hx => dev d e (execFrame_touches hx)
  cases i with
  | efuseRdb b o c =>
    exact bus b rfl (withBus_touches (onEfuse_touches (fun P hP u hu => hP.readBytes _ _ hu) quiet_noResult) h)
  | efuseWrb b o c x =>
    simp only [exec, execEfuseWrb] at h
    split at h
    · cases h
    · exact bus b rfl
        (withBus_touches (onEfuse_touches (fun P hP u hu => hP.writeBytes _ _ _ hu) quiet_noResult) h)
  | efuseInfo b x y =>
    simp only [exec, execEfuseInfo] at h
    split at h <;> cases h <;> exact .inl ⟨rfl, rfl, rfl, rfl⟩
  | norSetup x =>
    exact (execNorSetup_touches h).elim .inl fun ⟨d, hd⟩ => .inr (.inr (.inr ⟨x, d, rfl, hd⟩))
  | norInit d => exact dev d rfl (onSpi_touches (fun P hP u hu => hP.init hu) quiet_noResult h)
  | norRd d o l => exact dev d rfl (onSpi_touches (fun P hP u hu => hP.read _ _ hu) quiet_noResult h)
  | norWr d o l x =>
    simp only [exec, execNorWr] at h
    split at h
    · cases h
    · exact dev d rfl (onSpi_touches (fun P hP u hu => hP.program _ _ _ hu) quiet_noResult h)
  | norEr d o l => exact dev d rfl (onSpi_touches (fun P hP u hu => hP.erase _ _ hu) quiet_noResult h)
  | norErchip d => exact dev d rfl (onSpi_touches (fun P hP u hu => hP.eraseChip hu) quiet_noResult h)
  | norFree d => exact dev d rfl (.inr (execNorFree_touches h))
  | efuseRdw b w =>
    exact bus b rfl (.inr (onEfuse_touches (fun P hP u hu => hP.read _ hu) quiet_wordResult h))
  | efuseSetb b w k =>
    exact bus b rfl (.inr (onEfuse_touches (fun P hP u hu => hP.setBit _ _ hu) quiet_noResult h))
  | efuseWrw b w v =>
    exact bus b rfl (.inr (onEfuse_touches (fun P hP u hu => hP.writeWord _ _ hu) quiet_noResult h))
  | spiRdreg d c n =>
    exact dev d rfl (onSpi_touches
      (fun P hP u hu => (hP.readRegister _ _ hu).bind fun rx v hv => hP.intoBuf rx hv) quiet_noResult h)
  | spiWrreg d c n p =>
    simp only [exec, execSpiWrreg] at h
    split at h
    · cases h
    · exact dev d rfl
        (onSpi_touches (fun P hP u hu => hP.writeRegister _ _ (hP.load _ hu)) quiet_noResult h)
  | spiXrd d a l =>
    exact dev d rfl (onSpi_touches
      (fun P hP u hu => (hP.readTxn _ _ hu).bind fun rx v hv => hP.intoBuf rx hv) quiet_noResult h)
  | spiXpp d a l p =>
    simp only [exec, execSpiXpp] at h
    split at h
    · cases h
    · exact dev d rfl (onSpi_touches (fun P hP u hu => hP.programTxn _ _ (hP.load _ hu)) quiet_noResult h)
  | spiXer d a => exact dev d rfl (onSpi_touches (fun P hP u hu => hP.eraseTxn _ hu) quiet_noResult h)
  | norWaitrdy d => exact dev d rfl (onSpi_touches (fun P hP u hu => hP.waitReady hu) quiet_noResult h)
  | norGetid d =>
    exact dev d rfl (onSpi_touches
      (fun P hP u hu => (hP.readRegister _ _ hu).bind fun rx v hv => hP.intoBuf rx hv) quiet_noResult h)
  | modeIdle b =>
    exact bus b rfl (.inr (eRegisterWrite_touches (r := .mode) (v := fun _ => .ok s.cfg.mode.idle) h))
  | modeRead b =>
    exact bus b rfl (.inr (eRegisterWrite_touches (r := .mode) (v := fun _ => .ok s.cfg.mode.read) h))
  | modeWrite b =>
    exact bus b rfl (.inr (eRegisterWrite_touches (r := .mode) (v := fun _ => .ok s.cfg.mode.write) h))
  | efuseAddr b w k => exact bus b rfl (.inr (eRegisterWrite_touches h))
  | tranRegrd d g => exact dev d rfl (.inr (sRegisterWrite_touches h))
  | tranRegwr d g => exact dev d rfl (.inr (sRegisterWrite_touches h))
  | tranDatard d g n => exact dev d rfl (.inr (sRegisterWrite_touches h))
  | tranDatawr d g n => exact dev d rfl (.inr (sRegisterWrite_touches h))
  | tranErase d g n => exact dev d rfl (.inr (sRegisterWrite_touches h))
  | rdid d => exact frameCase d _ rfl h
  | rdsr d => exact frameCase d _ rfl h
  | wrsr d v => exact frameCase d _ rfl h
  | wren d => exact frameCase d _ rfl h
  | wrdi d => exact frameCase d _ rfl h
  | en4b d => exact frameCase d _ rfl h
  | read d a l => exact frameCase d _ rfl h
  | read4b d a l => exact frameCase d _ rfl h
  | pp d a x =>
    simp only [exec, execPp] at h
    split at h
    · exact frameCase d _ rfl h
    · cases h
  | pp4b d a x =>
    simp only [exec, execPp4b] at h
    split at h
    · exact frameCase d _ rfl h
    · cases h
  | be4k d a => exact frameCase d _ rfl h
  | be4k4b d a => exact frameCase d _ rfl h
  | se d a => exact frameCase d _ rfl h
  | se4b d a => exact frameCase d _ rfl h
  | ce d => exact frameCase d _ rfl h

/-! ## Steps -/

theorem stepUnits_forall {σ : Type} {f : σ → Except Stop σ} {us vs : List σ} (h : stepUnits f us = .ok vs) :
    List.Forall₂ (fun u v => f u = .ok v) us vs := by
  induction us generalizing vs with
  | nil => cases h; exact .nil
  | cons u t ih =>
    rw [stepUnits] at h
    split at h
    · cases h
    · next v hv =>
      split at h
      · cases h
      · next ws hw => cases h; exact .cons hv (ih hw)

/-- A pointwise relation that is reflexive holds after one related unit is put in place. -/
theorem forall2_set {σ : Type} {R : σ → σ → Prop} (hr : ∀ u, R u u) {us : List σ} {n : Nat} {u v : σ}
    (hu : us[n]? = some u) (h : R u v) : List.Forall₂ R us (us.set n v) := by
  induction us generalizing n with
  | nil => exact .nil
  | cons x t ih =>
    cases n with
    | zero =>
      simp only [List.getElem?_cons_zero, Option.some.injEq] at hu
      subst hu
      exact .cons h (List.forall₂_same.2 fun y _ => hr y)
    | succ m => exact .cons (hr x) (ih (by simpa using hu))

/-- What a run of operations and agents' steps can do to the hardware: every unit moves by primitive moves, and the
configuration stays. -/
def Moves (s t : State) : Prop :=
  List.Forall₂ (EReach s.cfg) s.efuse t.efuse ∧ List.Forall₂ (SReach s.cfg) s.spi t.spi ∧ t.cfg = s.cfg

theorem Moves.refl (s : State) : Moves s s :=
  ⟨List.forall₂_same.2 fun u _ => EReach.refl _ u, List.forall₂_same.2 fun u _ => SReach.refl _ u, rfl⟩

theorem forall2_trans {σ : Type} {R : σ → σ → Prop} (hR : ∀ u v w, R u v → R v w → R u w) {us vs ws : List σ}
    (h : List.Forall₂ R us vs) (k : List.Forall₂ R vs ws) : List.Forall₂ R us ws := by
  induction h generalizing ws with
  | nil => cases k; exact .nil
  | cons h1 _ ih => cases k with | cons k1 k2 => exact .cons (hR _ _ _ h1 k1) (ih k2)

theorem Moves.trans {s t r : State} (h : Moves s t) (k : Moves t r) : Moves s r := by
  obtain ⟨h1, h2, h3⟩ := h
  obtain ⟨k1, k2, k3⟩ := k
  rw [h3] at k1 k2
  exact ⟨forall2_trans (R := EReach s.cfg) (fun _ _ _ a b => EReach.trans a b) h1 k1,
    forall2_trans (R := SReach s.cfg) (fun _ _ _ a b => SReach.trans a b) h2 k2, k3.trans h3⟩

theorem TouchesS.moves {d : Nat} {s t : State} (h : TouchesS d s t) : Moves s t := by
  obtain ⟨⟨u, v, hu, hv, e⟩, h2, h3, _⟩ := h
  exact ⟨h2 ▸ List.forall₂_same.2 fun u _ => EReach.refl _ u, e ▸ forall2_set (SReach.refl _) hu hv, h3⟩

theorem TouchesE.moves {b : Nat} {s t : State} (h : TouchesE b s t) : Moves s t := by
  obtain ⟨⟨u, v, hu, hv, e⟩, h2, h3, _⟩ := h
  exact ⟨e ▸ forall2_set (EReach.refl _) hu hv, h2 ▸ List.forall₂_same.2 fun u _ => SReach.refl _ u, h3⟩

theorem exec_moves {i : Instr} {s t : State} (h : exec i s = .next t) : Moves s t := by
  obtain h | ⟨_, _, h⟩ | ⟨_, _, h⟩ | ⟨_, _, _, h⟩ := exec_touches h
  · exact ⟨h.1 ▸ List.forall₂_same.2 fun u _ => EReach.refl _ u,
      h.2.1 ▸ List.forall₂_same.2 fun u _ => SReach.refl _ u, h.2.2.1⟩
  · exact h.moves
  · exact h.moves
  · exact h.moves

theorem agentsStep_moves {s t : State} (h : agentsStep s = .ok t) : Moves s t := by
  unfold agentsStep at h
  split at h
  · cases h
  · next es he =>
    split at h
    · cases h
    · next us hu =>
      cases h
      exact ⟨(stepUnits_forall he).imp fun u v e P hP hu => hP.point u v hu e,
        (stepUnits_forall hu).imp fun u v e P hP hu => hP.point u v hu e, rfl⟩

theorem spinPoll_moves {s t : State} {d : Nat} {poll : SpiUnit → Res SpiUnit (List Byte)}
    (hp : SPiece s.cfg poll) (h : spinPoll s d poll = .next t) : Moves s t := by
  unfold spinPoll at h
  split at h
  · cases h; exact Moves.refl s
  · next u hu =>
    have key : ∀ P, SClosed s.cfg P → P u → (poll u).Keeps P := fun P hP h => hp P hP u h
    cases hr : poll u with
    | stop x => rw [hr] at h; cases x <;> cases h
    | ok a v =>
      rw [hr] at h; cases h
      exact TouchesS.moves (d := d) ⟨⟨u, v, hu, fun P hP h => by
        have := key P hP h; rw [hr] at this; exact this, rfl⟩, rfl, rfl, rfl⟩
    | raised st v =>
      rw [hr] at h; cases h
      exact TouchesS.moves (d := d) ⟨⟨u, v, hu, fun P hP h => by
        have := key P hP h; rw [hr] at this; exact this, rfl⟩, rfl, rfl, rfl⟩
    | hang k v =>
      rw [hr] at h; cases h
      exact TouchesS.moves (d := d) ⟨⟨u, v, hu, fun P hP h => by
        have := key P hP h; rw [hr] at this; exact this, rfl⟩, rfl, rfl, rfl⟩

theorem hostStep_moves {s t : State} (h : hostStep s = .next t) : Moves s t := by
  unfold hostStep at h
  split at h
  · cases h; exact Moves.refl s
  · cases h; exact Moves.refl s
  · exact spinPoll_moves (fun P hP u hu => hP.readRegister _ _ hu) h
  · split at h
    · cases h; exact Moves.refl s
    · cases h
    · next i rest _ => exact exec_moves (s := { s with calls := rest }) h

/-- What a step can do to the hardware. -/
theorem step_moves {s t : State} (h : step s = .next t) : Moves s t := by
  unfold step at h
  split at h
  · next x _ => cases x <;> cases h
  · next r hr => exact (agentsStep_moves hr).trans (hostStep_moves h)

end Sys2Proof.Machine
end

