-- ==== Sys2Proof/Laws/Timeout.lean ====
section
/-! SUPPORT. Waits that fail (R175, R185, R210, R253, R256): what a transaction can raise and how it leaves the
controller, a transaction whose SHIFT never steps, a wait-ready on a part that never completes. -/

namespace Sys2Proof.Machine

open Sys2Proof

variable {cfg : Config.Params}

/-! ## The phase is HOST's (R33): no agent moves it -/

theorem shiftComplete_sphase {u v : SpiUnit} {x : Xfer} (h : shiftComplete cfg u x = .ok v) :
    v.ctl.sphase = u.ctl.sphase := by
  unfold shiftComplete at h
  split at h <;> cases h
  rfl

theorem shiftStep_sphase {u v : SpiUnit} (h : shiftStep cfg u = .ok v) : v.ctl.sphase = u.ctl.sphase := by
  unfold shiftStep at h
  split at h
  · split at h
    · cases h; rfl
    · split at h
      · split at h
        · cases h; rfl
        · unfold shiftSend at h
          dsimp only at h
          split at h
          · exact (shiftComplete_sphase h).trans rfl
          · cases h; rfl
      · unfold shiftRecv at h
        split at h
        · cases h
        · dsimp only at h
          split at h
          · exact (shiftComplete_sphase h).trans rfl
          · cases h; rfl
  · cases h; rfl

theorem sBatch_sphase (as : List SAgent) {u v : SpiUnit} (h : sBatch cfg as u = .ok v) :
    v.ctl.sphase = u.ctl.sphase := by
  induction as generalizing u with
  | nil => cases h; rfl
  | cons a t ih =>
    rw [sBatch] at h
    split at h
    · cases h
    · next w hw =>
      rw [ih h]
      cases a with
      | shift => exact shiftStep_sphase hw
      | part => cases hw; rfl
      | power => cases hw; rfl

theorem shiftRun_sphase (n : Nat) {u v : SpiUnit} (h : shiftRun cfg n u = .ok v) : v.ctl.sphase = u.ctl.sphase := by
  induction n generalizing u with
  | zero => cases h; rfl
  | succ m ih =>
    rw [shiftRun] at h
    split at h
    · split at h
      · cases h
      · next w hw => rw [ih h]; exact shiftStep_sphase hw
    · cases h; rfl

theorem partLive_sphase (cfg : Config.Params) (u : SpiUnit) : (partLive cfg u).ctl = u.ctl := by
  unfold partLive; split <;> rfl

theorem sPoint_sphase {u v : SpiUnit} (h : sPoint cfg u = .ok v) : v.ctl.sphase = u.ctl.sphase := by
  unfold sPoint at h
  split at h
  · next as t hs => rw [sBatch_sphase as h]
  · split at h
    · rw [shiftRun_sphase _ h, partLive_sphase]
    · cases h; rw [partLive_sphase]

/-! ## What a transaction can raise -/

/-- A sequence raises nothing but `EFI_TIMEOUT`, with a budget, and then stands in WAIT (R175, R185). -/
def TimesOut (cfg : Config.Params) {α : Type} (r : Res SpiUnit α) : Prop :=
  ∀ st v, r = .raised st v → st = .timeout ∧ cfg.spiWaitBudget.isSome = true ∧ v.ctl.sphase = .wait

theorem TimesOut.bind {α β : Type} {r : Res SpiUnit α} {f : α → SpiUnit → Res SpiUnit β} (h : TimesOut cfg r)
    (hf : ∀ a u, TimesOut cfg (f a u)) : TimesOut cfg (r.bind f) := by
  cases r with
  | ok a u => exact hf a u
  | raised st u => intro st' v e; cases e; exact h _ _ rfl
  | hang k u => intro st' v e; cases e
  | stop x => intro st' v e; cases e

theorem TimesOut.access (r : Except Stop SpiUnit) : TimesOut cfg (Res.access r) := by
  cases r <;> intro st v e <;> cases e

theorem TimesOut.ok {α : Type} (a : α) (u : SpiUnit) : TimesOut cfg (Res.ok a u) := by intro st v e; cases e

theorem sWait_timesOut (f : Bool) (u : SpiUnit) : TimesOut cfg (sWait cfg f u) := by
  intro st v e
  have keep : ∀ x y : SpiUnit, x.ctl.sphase = .wait → sPoint cfg x = .ok y → y.ctl.sphase = .wait :=
    fun x y h e => (sPoint_sphase e).trans h
  simp only [sWait, waitFlag] at e
  split at e
  · cases e
  · cases e
  · next w hw =>
    have h : w.ctl.sphase = .wait := pollUntil_keeps keep (by rfl) hw
    simp only [waitFailed] at e
    split at e
    · cases e
    · next b hb =>
      split at e
      · cases e
      · next x hx => cases e; exact ⟨rfl, by rw [hb]; rfl, keep _ _ h hx⟩

theorem fifoPopN_timesOut (k : Nat) (u : SpiUnit) : TimesOut cfg (fifoPopN cfg k u) := by
  induction k generalizing u with
  | zero => exact .ok _ _
  | succ j ih =>
    refine TimesOut.bind ?_ fun b v => (ih v).bind fun bs w => .ok _ _
    unfold fifoPop
    split
    · intro st v e; cases e
    · exact .ok _ _

theorem drain_timesOut (fuel left : Nat) (u : SpiUnit) : TimesOut cfg (drain cfg fuel left u) := by
  induction fuel generalizing left u with
  | zero => intro st v e; cases e
  | succ f ih =>
    rw [drain]
    refine (fifoPopN_timesOut _ _).bind fun bs v => ?_
    dsimp only
    split
    · exact .ok _ _
    · exact (sWait_timesOut _ _).bind fun _ _ => (ih _ _).bind fun _ _ => .ok _ _

theorem pushBursts_timesOut (fuel : Nat) (tx : List Byte) (u : SpiUnit) : TimesOut cfg (pushBursts cfg fuel tx u) := by
  obtain ⟨e, h⟩ | ⟨x, h⟩ := pushBursts_eq (cfg := cfg) fuel tx u <;> rw [h] <;> intro st v e <;> cases e

/-- A transaction raises nothing but `EFI_TIMEOUT`, with a budget, and leaves the controller in WAIT (R175, R185). -/
theorem transact_raised {d : Txn} {u v : SpiUnit} {st : Status} (h : transact cfg d u = .raised st v) :
    st = .timeout ∧ cfg.spiWaitBudget.isSome = true ∧ v.ctl.sphase = .wait := by
  suffices hs : TimesOut cfg (transact cfg d u) from hs _ _ h
  unfold transact
  split
  · have acc := TimesOut.access (cfg := cfg)
    refine ((acc _).bind fun _ _ => (acc _).bind fun _ _ => acc _).bind fun _ _ => (acc _).bind fun _ _ =>
      TimesOut.bind ?_ fun _ _ => (acc _).bind fun _ _ => (sWait_timesOut _ _).bind fun _ _ =>
          TimesOut.bind ?_ fun _ _ =>
      (acc _).bind fun _ _ => .ok _ _
    · unfold pushData; split
      · exact .ok _ _
      · exact pushBursts_timesOut _ _ _
    · unfold drainAll; split
      · exact .ok _ _
      · exact drain_timesOut _ _ _
  · intro st v e; cases e

/-! ## SHIFT never steps -/

theorem partLive_idem (cfg : Config.Params) (u : SpiUnit) : partLive cfg (partLive cfg u) = partLive cfg u := by
  by_cases h : u.live.part = true <;> simp [partLive, h, partStep_idem]

theorem partLive_settles (cfg : Config.Params) (u : SpiUnit) : Settles cfg u.part (partLive cfg u).part := by
  unfold partLive
  split
  · exact .inr rfl
  · exact .inl rfl

theorem sPoint_stalled {u : SpiUnit} (hs : u.sched = []) (hl : u.live.shift = false) :
    sPoint cfg u = .ok (partLive cfg u) := by
  simp [sPoint, hs, hl]

/-- Polls of a flag that no agent raises any more. -/
theorem pollUntil_stalled {σ : Type} {point : σ → Except Stop σ} {ready : σ → Bool} {u v : σ} (h1 : point u = .ok v)
    (h2 : point v = .ok v) (hr : ready v = false) (n : Nat) : pollUntil point ready (n + 1) u = .ok (false, v) := by
  have loop : ∀ m, pollUntil point ready m v = .ok (false, v) := by
    intro m
    induction m with
    | zero => rfl
    | succ k ih => rw [pollUntil, h2]; simp [hr, ih]
  rw [pollUntil, h1]
  simp [hr, loop n]

/-- The unit in a WAIT that no agent ends: armed, and PART's own step taken if it still steps. -/
def SpiUnit.stalled (cfg : Config.Params) (u : SpiUnit) (d : Txn) (x : Word) (tr : List SAccess) : SpiUnit :=
  partLive cfg { u.setXcnt x with ctl := { d.armCtl cfg with sphase := .wait }, trace := tr }

/-- A transaction whose SHIFT never steps: `EFI_TIMEOUT` with a budget, a hang without (R175, R253, R256). -/
theorem transact_stalled {d : Txn} {u : SpiUnit} (hd : d.Legal cfg) (hi : u.idle cfg = true) (hs : u.sched = [])
    (hl : u.live.shift = false) (hr : FifoRoom cfg d.out.length) :
    ∃ x tr, transact cfg d u = match cfg.spiWaitBudget with
      | none => .hang .flag (u.stalled cfg d x tr)
      | some _ => .raised .timeout (u.stalled cfg d x tr) := by
  obtain ⟨x, tr, e⟩ := start_room (cfg := cfg) hd hi hr
  refine ⟨x, tr, ?_⟩
  obtain ⟨n, hn⟩ := pollCount_pos cfg.spiWaitBudget 0
  have hp : sPoint cfg (u.stalled cfg d x tr) = .ok (u.stalled cfg d x tr) := by
    rw [sPoint_stalled (by rw [SpiUnit.stalled, partLive_sched]; exact hs)
      (by rw [SpiUnit.stalled]; unfold partLive; split <;> exact hl), SpiUnit.stalled, partLive_idem]
  have hw : sWait cfg (decide (0 < d.rxLen)) { u.setXcnt x with ctl := d.armCtl cfg, trace := tr } =
      waitFailed .flag cfg.spiWaitBudget (sPoint cfg) (u.stalled cfg d x tr) := by
    have hs' : ({ u.setXcnt x with ctl := d.armCtl cfg, trace := tr } : SpiUnit).sched.length = 0 := by
      show u.sched.length = 0; rw [hs]; rfl
    have hz : (u.stalled cfg d x tr).ctl.intSts = 0#32 := by rw [SpiUnit.stalled, partLive_sphase]; rfl
    have hfl : waitFlagOf cfg (decide (0 < d.rxLen)) (u.stalled cfg d x tr) = false := by
      simp only [waitFlagOf, sRead, hz]
      split <;> simp
    have hpoll := pollUntil_stalled
      (u := ({ u.setXcnt x with ctl := d.armCtl cfg, trace := tr } : SpiUnit).setPhase .wait)
      (sPoint_stalled (by exact hs) (by exact hl)) hp hfl n
    change waitFlag _ _ _ (waitFlagOf cfg (decide (0 < d.rxLen))) _ = _
    rw [waitFlag, hs', hn, hpoll]
    rfl
  rw [transact_start cfg d hi, e, Res.bind_ok, hw]
  cases hb : cfg.spiWaitBudget with
  | none => rfl
  | some b => simp only [waitFailed, hp]; rfl

/-! ## A part that never completes -/

/-- A unit whose SHIFT steps and whose PART does not, with nothing left of the schedule. -/
structure SpiUnit.PartStuck (cfg : Config.Params) (u : SpiUnit) : Prop where
  idle : u.idle cfg = true
  live : u.live = ⟨true, false⟩
  sched : u.sched = []
  cut : u.part.cut = false
  busy : wip cfg u.part.sr = true

/-- The controller after SHIFT has answered a status read with `b`. -/
def statusCtl (cfg : Config.Params) (b : Byte) : SpiCtl :=
  { tranCsr := (rdTxn cfg .rdsr 1).word cfg false, tranNum := 1#32,
    intSts := setTranDone cfg (putRdFifo cfg 0#32 true), fifo := [b], rxLeft := 1, sphase := .wait, xfer := none }

/-- One byte received of one: `RD_FIFO` comes up (R36). -/
theorem refresh_one {c : SpiCtl} (hl : c.fifo.length = 1) (hr : c.rxLeft = 1) (hi : c.intSts = 0#32) :
    refreshRdFifo cfg c = { c with intSts := putRdFifo cfg 0#32 true } := by
  have : rdFifoCond cfg c = true := by simp [rdFifoCond, hl, hr]
  rw [refreshRdFifo, this, hi]

/-- SHIFT's run through an armed status read: one byte out, one byte in. -/
theorem shiftRun_status (cfg : Config.Params) (u : SpiUnit) (hcut : u.part.cut = false) (hdep : 0 < cfg.fifoDepth) :
    shiftRun cfg 2 { u with ctl := { (rdTxn cfg .rdsr 1).armCtl cfg with sphase := .wait } } =
      .ok { u with ctl := statusCtl cfg u.part.sr, frames := u.frames ++ [⟨[cfg.op .rdsr], [u.part.sr]⟩] } := by
  have hb := partReadByte_rdsr (cfg := cfg) (board := u.board) hcut 0
  have hx := partExecute_rdsr (cfg := cfg) (board := u.board) (p := u.part) hcut []
  let w1 : SpiUnit := { u with ctl := { (rdTxn cfg .rdsr 1).armCtl cfg with sphase := .wait } }
  let w2 : SpiUnit := { w1 with ctl := { w1.ctl with
    fifo := [], xfer := some ⟨.regrd, 0, 1, 0, [cfg.op .rdsr], []⟩ } }
  have hgo : goBusy cfg ((rdTxn cfg .rdsr 1).word cfg true) = true := by simp [Txn.word]
  have s1 : shiftEnabled cfg w1 = true := by
    simp [shiftEnabled, w1, Txn.armCtl, hgo, Txn.armed, Txn.out]
  have s2 : shiftEnabled cfg w2 = true := by
    simp [shiftEnabled, w1, w2, Txn.armCtl, hgo, hdep]
  have r1 : shiftStep cfg w1 = .ok w2 := by rw [shiftStep, if_pos s1]; rfl
  have r2 : shiftStep cfg w2 = .ok { u with
      ctl := statusCtl cfg u.part.sr, frames := u.frames ++ [⟨[cfg.op .rdsr], [u.part.sr]⟩] } := by
    rw [shiftStep, if_pos s2]
    change shiftRecv cfg w2 ⟨.regrd, 0, 1, 0, [cfg.op .rdsr], []⟩ = _
    rw [shiftRecv, show partReadByte cfg w2.board w2.part [cfg.op .rdsr] 0 = .ok (u.part.sr, u.part) from hb]
    dsimp only
    rw [if_pos rfl, refresh_one rfl rfl rfl, shiftComplete]
    rw [show partExecute cfg _ _ _ = .ok u.part from hx]
    have hcl : clearGo cfg ((rdTxn cfg .rdsr 1).word cfg true) = (rdTxn cfg .rdsr 1).word cfg false := by
      simp [Txn.word]
    simp only [w1, w2, Txn.armCtl, hcl, statusCtl]
    rfl
  change shiftRun cfg 2 w1 = _
  rw [shiftRun, if_pos s1, r1]
  dsimp only
  rw [shiftRun, if_pos s2, r2]
  rfl

/-- A status poll of such a part answers the status it has, and changes nothing of the part (R201, R210). -/
theorem statusPoll_stuck {u : SpiUnit} {q : NorDevice} (hrec : u.record = some q) (hu : u.PartStuck cfg)
    (hdep : 8 ≤ cfg.fifoDepth) :
    ∃ v, readRegister cfg (cfg.op .rdsr) 1 u = .ok [u.part.sr] v ∧ v.PartStuck cfg ∧ v.part = u.part ∧
      v.record = u.record ∧ v.work.buf = u.work.buf ∧ v.frames = u.frames ++ [⟨[cfg.op .rdsr], [u.part.sr]⟩] := by
  let d := rdTxn cfg .rdsr 1
  obtain ⟨x, tr, e⟩ := start_room (cfg := cfg) (d := d) (rdTxn_legal .rdsr (by omega) (by omega)) hu.idle
    (fun _ => by simp [d, rdTxn, Txn.out, Txn.addrBytes]; omega)
  let w0 : SpiUnit := { u.setXcnt x with ctl := d.armCtl cfg, trace := tr }
  let w : SpiUnit := { w0 with ctl := statusCtl cfg u.part.sr, frames := u.frames ++ [⟨[cfg.op .rdsr], [u.part.sr]⟩] }
  obtain ⟨n, hn⟩ := pollCount_pos cfg.spiWaitBudget 0
  have hs : w0.sched.length = 0 := by show u.sched.length = 0; rw [hu.sched]; rfl
  have hpt : sPoint cfg (w0.setPhase .wait) = .ok w := by
    have hl : (w0.setPhase .wait).live = ⟨true, false⟩ := hu.live
    have h1 : partLive cfg (w0.setPhase .wait) = w0.setPhase .wait := by
      rw [partLive, hl, if_neg (by decide)]
    have hsched : (w0.setPhase .wait).sched = [] := hu.sched
    simp only [sPoint, hsched, hl, if_true, h1]
    exact shiftRun_status cfg w0 hu.cut (by omega)
  have hw : sWait cfg (decide (0 < d.rxLen)) w0 = .ok () w := by
    change waitFlag _ _ _ (waitFlagOf cfg true) _ = _
    have hf : waitFlagOf cfg true w = true := by
      show rdFifo cfg (setTranDone cfg (putRdFifo cfg 0#32 true)) = true
      rw [rdFifo_setTranDone, rdFifo_putRdFifo]
    rw [waitFlag, hs, hn, pollUntil, hpt]
    simp only [hf, if_true]
  obtain ⟨tr', e3⟩ := resetPointer_eq [u.part.sr]
    ({ w with
        work := { w.work with xcnt := 0#32 },
        ctl := refreshRdFifo cfg { w.ctl with fifo := [], rxLeft := 0, sphase := .drain },
        trace := tr ++ [.pop u.part.sr] })
  have hd : drainAll cfg d w = .ok [u.part.sr]
      { w with
        work := { w.work with xcnt := 0#32 },
        ctl := refreshRdFifo cfg { w.ctl with fifo := [], rxLeft := 0, sphase := .drain },
        trace := tr ++ [.pop u.part.sr] } := by
    have hm : min cfg.fifoDepth (min 1 w.ctl.fifo.length) = 1 := by
      show min cfg.fifoDepth (min 1 1) = 1; omega
    change drain cfg 1 1 _ = _
    simp only [drain]
    rw [hm]
    rfl
  rw [readRegister, withRecord, hrec]
  simp only [cmdOf_op, reduceCtorEq, if_false]
  rw [show (⟨.regrd, cfg.op .rdsr, none, 0, [], 1⟩ : Txn) = d from rfl, transact_start cfg d hu.idle, e, Res.bind_ok,
      hw,
    Res.bind_ok, hd, Res.bind_ok, e3, Res.bind_ok]
  refine ⟨_, rfl, ⟨?_, hu.live, hu.sched, hu.cut, hu.busy⟩, rfl, hrec, rfl, rfl⟩
  have hg : goBusy cfg ((rdTxn cfg .rdsr 1).word cfg false) = false := by simp [Txn.word]
  simp [SpiUnit.idle, SpiUnit.bounce, refreshRdFifo, w, statusCtl, hg]

/-- Wait-ready polls such a part until the budget is used up, in vain (R210, R253). -/
theorem readyPolls_stuck (n : Nat) {u : SpiUnit} {q : NorDevice} (hrec : u.record = some q) (hu : u.PartStuck cfg)
    (hdep : 8 ≤ cfg.fifoDepth) :
    ∃ v, readyPolls cfg n u = .ok false v ∧ v.PartStuck cfg ∧ v.part = u.part ∧ v.record = u.record ∧
      v.work.buf = u.work.buf ∧ v.frames = u.frames ++ List.replicate n ⟨[cfg.op .rdsr], [u.part.sr]⟩ := by
  induction n generalizing u with
  | zero => exact ⟨u, rfl, hu, rfl, rfl, rfl, by simp⟩
  | succ m ih =>
    obtain ⟨v, e, h1, h2, h3, h4, h5⟩ := statusPoll_stuck hrec hu hdep
    obtain ⟨w, e', k1, k2, k3, k4, k5⟩ := ih (h3.trans hrec) h1
    refine ⟨w, ?_, k1, k2.trans h2, k3.trans h3, k4.trans h4, ?_⟩
    · rw [readyPolls, e, Res.bind_ok, show ([u.part.sr] : List Byte).headD 0#8 = u.part.sr from rfl, if_pos hu.busy, e']
    · rw [k5, h5, h2, List.append_assoc, List.replicate_succ]; rfl

/-- A wait-ready on a part that never completes: `EFI_TIMEOUT` with a budget, a hang without; the part is as it was, the
controller idle (R210, R253, R256). -/
theorem waitReady_stuck {u : SpiUnit} {q : NorDevice} (hrec : u.record = some q) (hu : u.PartStuck cfg)
    (hdep : 8 ≤ cfg.fifoDepth) :
    ∃ v n, waitReady cfg u = (match cfg.readyPollBudget with
        | none => .hang .flashReady v
        | some _ => .raised .timeout v) ∧
      v.PartStuck cfg ∧ v.part = u.part ∧ v.record = u.record ∧ v.work.buf = u.work.buf ∧
      v.frames = u.frames ++ List.replicate (n + 1) ⟨[cfg.op .rdsr], [u.part.sr]⟩ := by
  obtain ⟨n, hn⟩ := pollCount_pos cfg.readyPollBudget u.sched.length
  obtain ⟨v, e, h1, h2, h3, h4, h5⟩ := readyPolls_stuck (n + 1) hrec hu hdep
  refine ⟨v, n, ?_, h1, h2, h3, h4, h5⟩
  have hp : sPoint cfg v = .ok v := by
    have hi := h1.idle
    simp only [SpiUnit.idle, Bool.and_eq_true, Bool.not_eq_true'] at hi
    have hl : partLive cfg v = v := by rw [partLive, h1.live, if_neg (by decide)]
    have hen : shiftEnabled cfg v = false := by simp [shiftEnabled, hi.1.2]
    have hrun : ∀ k, shiftRun cfg k v = .ok v := by
      intro k; cases k with
      | zero => rfl
      | succ k => simp [shiftRun, hen]
    simp only [sPoint, h1.sched, h1.live, if_true, hl, hrun]
  rw [waitReady, hn, e, Res.bind_ok, if_neg (by decide)]
  cases cfg.readyPollBudget with
  | none => rfl
  | some b => simp only [waitFailed, hp]

end Sys2Proof.Machine
end

