-- ==== Sys2Proof/Machine/Shell.lean ====
section
/-! DEFINITION. The `efuse` shell command (R117, R157): "out of core but documents the byte engine's external contract".
It expands into operations and adds no hardware behaviour; its exit status is `SHELL_SUCCESS` or `SHELL_ABORTED`. The
operands a command line may leave out are given here in full (D43, log 24). -/

namespace Sys2Proof.Machine

open Sys2Proof

/-- Command lines of `efuse` (R157). -/
inductive EfuseCommand where
  | dumpAll
  | help
  | version
  | showInfo (d : Word)
  | readBytes (d o s : Word)
  | writeByte (d o : Word) (v : Byte)
  | writeFile (d o : Word) (contents : List Byte)
deriving DecidableEq, Repr

/-- Exit status of the command (R157, R250). -/
inductive ShellStatus where
  | success | aborted
deriving DecidableEq, Repr

/-- The numeric exit status (R250). -/
def ShellStatus.code (cfg : Config.Params) : ShellStatus → Nat
  | .success => cfg.codes.shellSuccess
  | .aborted => cfg.codes.shellAborted

/-- The expansion of R157, for `nctrl` controllers. -/
def EfuseCommand.expand (nctrl : Nat) : EfuseCommand → List Instr
  | .dumpAll => (List.range nctrl).map (fun b => .efuseInfo (BitVec.ofNat 32 b) true true)
  | .help => []
  | .version => []
  | .showInfo d => [.efuseInfo d true false]
  | .readBytes d o s => [.efuseRdb d o s]
  | .writeByte d o v => [.efuseWrb d o 1#32 [v]]
  | .writeFile d o contents => [.efuseWrb d o (lengthWord contents) contents]

/-- Runs the operations in order; the first that fails ends the command (R157). A hang leaves no exit status. -/
def runOperations (is : List Instr) (s : State) : Host.Outcome (State × Option ShellStatus) Fault Refusal :=
  match is with
  | [] => .next (s, some .success)
  | i :: t =>
    match exec i s with
    | .fault f => .fault f
    | .refused r => .refused r
    | .next u =>
      if u.host ≠ .idle then .next (u, none)
      else if u.status ≠ .success then .next (u, some .aborted)
      else runOperations t u

/-- The `efuse` command (R157). -/
def efuseCommand (c : EfuseCommand) (s : State) : Host.Outcome (State × Option ShellStatus) Fault Refusal :=
  runOperations (c.expand s.efuse.length) s

end Sys2Proof.Machine
end

