-- ==== Sys2Proof/Tests/Slice0.lean ====
section
/-! SUPPORT. Tests: what WellFormed refuses, words and frames written out from 30_encoding.md, one step of every
operation with the result 95_test_vectors.md gives (the vector is named in each docstring), and for every statement
with hypotheses a concrete case that meets them. -/

namespace Sys2Proof.Tests

open Sys2Proof Sys2Proof.Machine

/-! ## WellFormed: an ill-formed term for each check -/

/-- `addressBits = 7` on every bus, as in the opcode table (R101). -/
def seven : AddrWidths := fun _ => some 7

/-- R109: a payload whose length is not the operand that counts it. -/
theorem test_wellFormed_counts :
    WellFormed seven (.efuseWrb 0#32 0#32 2#32 [1#8]) = false ∧ WellFormed seven (.norWr 0#32 0#32 1#32 []) = false ∧
      WellFormed seven (.spiWrreg 0#32 0x01#8 1#2 []) = false ∧
      WellFormed seven (.spiXpp 0#32 0#32 1#32 [1#8, 2#8]) = false := by decide

/-- R101, D5: a word index outside the field, a bus without layout, an illegal width. -/
theorem test_wellFormed_address :
    WellFormed seven (.efuseAddr 0#32 128#32 0#5) = false ∧
      WellFormed (fun _ => none) (.efuseAddr 0#32 0#32 0#5) = false ∧
      WellFormed (fun _ => some 28) (.efuseAddr 0#32 0#32 0#5) = false ∧
      WellFormed (fun _ => some 0) (.efuseAddr 0#32 0#32 0#5) = false := by decide

/-- R107: `ADDR_BYTES` of a data or erase class is 3 or 4. -/
theorem test_wellFormed_addrBytes :
    WellFormed seven (.tranDatard 0#32 true 2#3) = false ∧ WellFormed seven (.tranDatawr 0#32 true 5#3) = false ∧
      WellFormed seven (.tranErase 0#32 false 0#3) = false := by decide

/-- R42, R113: more data than `TRAN_NUM` can count. -/
theorem test_wellFormed_data :
    WellFormed seven (.pp 0#32 0#24 (List.replicate (2 ^ 32) 0#8)) = false ∧
      WellFormed seven (.pp4b 0#32 0#32 (List.replicate (2 ^ 32) 0#8)) = false := by
  simp only [WellFormed, payloadFits, List.length_replicate, Nat.lt_irrefl, decide_false, and_self]

/-! ## Words and frames written out from 30_encoding.md

Selectors from R110 and R111, operands little-endian (log 5). -/

/-- R110: the ten host operations. -/
theorem test_decode_host_operations :
    decode defaultParams seven ⟨.req, [0x01#8, 1#8, 0#8, 0#8, 0#8, 6#8, 0#8, 0#8, 0#8, 9#8, 0#8, 0#8, 0#8]⟩ =
        .ok (.efuseRdb 1#32 6#32 9#32, []) ∧
      decode defaultParams seven ⟨.req, [0x02#8, 0#8, 0#8, 0#8, 0#8, 5#8, 0#8, 0#8, 0#8, 2#8, 0#8, 0#8, 0#8, 0x0F#8,
          0xF0#8]⟩ =
        .ok (.efuseWrb 0#32 5#32 2#32 [0x0F#8, 0xF0#8], []) ∧
      decode defaultParams seven ⟨.req, [0x03#8, 1#8, 0#8, 0#8, 0#8, 1#8, 0#8]⟩ = .ok (.efuseInfo 1#32 true false, []) ∧
      decode defaultParams seven ⟨.req, [0x10#8, 0#8]⟩ = .ok (.norSetup none, []) ∧
      decode defaultParams seven ⟨.req, [0x10#8, 1#8, 2#8, 0#8, 0#8, 0#8]⟩ = .ok (.norSetup (some 2#32), []) ∧
      decode defaultParams seven ⟨.req, [0x11#8, 3#8, 0#8, 0#8, 0#8]⟩ = .ok (.norInit 3#32, []) ∧
      decode defaultParams seven ⟨.req, [0x12#8, 0#8, 0#8, 0#8, 0#8, 0xFC#8, 0#8, 1#8, 0#8, 8#8, 0#8, 0#8, 0#8]⟩ =
        .ok (.norRd 0#32 0x100FC#32 8#32, []) ∧
      decode defaultParams seven ⟨.req, [0x13#8, 0#8, 0#8, 0#8, 0#8, 0xFE#8, 0#8, 1#8, 0#8, 1#8, 0#8, 0#8, 0#8,
          0x0F#8]⟩ =
        .ok (.norWr 0#32 0x100FE#32 1#32 [0x0F#8], []) ∧
      decode defaultParams seven ⟨.req, [0x14#8, 0#8, 0#8, 0#8, 0#8, 0#8, 0x10#8, 0#8, 0#8, 1#8, 0x10#8, 0#8, 0#8]⟩ =
        .ok (.norEr 0#32 0x1000#32 4097#32, []) ∧
      decode defaultParams seven ⟨.req, [0x15#8, 4#8, 0#8, 0#8, 0#8]⟩ = .ok (.norErchip 4#32, []) ∧
      decode defaultParams seven ⟨.req, [0x16#8, 0#8, 0#8, 0#8, 0x80#8, 0xAA#8]⟩ = .ok (.norFree 0x80000000#32,
          [0xAA#8]) := by
  constructorm* _ ∧ _ <;> decide

/-- R111: the ten primitives. -/
theorem test_decode_primitives :
    decode defaultParams seven ⟨.req, [0x20#8, 0#8, 0#8, 0#8, 0#8, 3#8, 0#8, 0#8, 0#8]⟩ = .ok (.efuseRdw 0#32 3#32,
        []) ∧
      decode defaultParams seven ⟨.req, [0x21#8, 0#8, 0#8, 0#8, 0#8, 5#8, 0#8, 0#8, 0#8, 31#8]⟩ =
        .ok (.efuseSetb 0#32 5#32 31#5, []) ∧
      decode defaultParams seven ⟨.req, [0x22#8, 0#8, 0#8, 0#8, 0#8, 1#8, 0#8, 0#8, 0#8, 0#8, 0#8, 0xA5#8, 0#8]⟩ =
        .ok (.efuseWrw 0#32 1#32 0x00A50000#32, []) ∧
      decode defaultParams seven ⟨.req, [0x30#8, 0#8, 0#8, 0#8, 0#8, 0x9F#8, 3#8]⟩ = .ok (.spiRdreg 0#32 0x9F#8 3#2,
          []) ∧
      decode defaultParams seven ⟨.req, [0x31#8, 0#8, 0#8, 0#8, 0#8, 0x01#8, 1#8, 0x1C#8]⟩ =
        .ok (.spiWrreg 0#32 0x01#8 1#2 [0x1C#8], []) ∧
      decode defaultParams seven ⟨.req, [0x32#8, 0#8, 0#8, 0#8, 0#8, 0#8, 1#8, 0#8, 0#8, 44#8, 0#8, 0#8, 0#8]⟩ =
        .ok (.spiXrd 0#32 0x100#32 44#32, []) ∧
      decode defaultParams seven ⟨.req, [0x33#8, 0#8, 0#8, 0#8, 0#8, 0#8, 1#8, 0#8, 0#8, 2#8, 0#8, 0#8, 0#8, 0xDE#8,
          0xAD#8]⟩ =
        .ok (.spiXpp 0#32 0x100#32 2#32 [0xDE#8, 0xAD#8], []) ∧
      decode defaultParams seven ⟨.req, [0x34#8, 0#8, 0#8, 0#8, 0#8, 0#8, 0x10#8, 0#8, 0#8]⟩ =
          .ok (.spiXer 0#32 0x1000#32, []) ∧
      decode defaultParams seven ⟨.req, [0x35#8, 1#8, 0#8, 0#8, 0#8]⟩ = .ok (.norWaitrdy 1#32, []) ∧
      decode defaultParams seven ⟨.req, [0x36#8, 1#8, 0#8, 0#8, 0#8]⟩ = .ok (.norGetid 1#32, []) := by decide

/-- R102 and V30-2, V30-4, V30-8: the values of MODE, and of ADDR for `addressBits` 7 and 27. -/
theorem test_decode_efuse_registers :
    decode defaultParams seven ⟨.efuseMode 1#32, [0x00#8, 0#8, 0#8, 0#8]⟩ = .ok (.modeIdle 1#32, []) ∧
      decode defaultParams seven ⟨.efuseMode 0#32, [0x02#8, 0#8, 0#8, 0#8]⟩ = .ok (.modeRead 0#32, []) ∧
      decode defaultParams seven ⟨.efuseMode 0#32, [0x03#8, 0#8, 0#8, 0#8]⟩ = .ok (.modeWrite 0#32, []) ∧
      decode defaultParams seven ⟨.efuseAddr 0#32, [0x83#8, 0x02#8, 0#8, 0#8]⟩ = .ok (.efuseAddr 0#32 3#32 5#5, []) ∧
      decode defaultParams seven ⟨.efuseAddr 0#32, [0xFF#8, 0x0F#8, 0#8, 0#8]⟩ = .ok (.efuseAddr 0#32 127#32 31#5, []) ∧
      decode defaultParams (fun _ => some 27) ⟨.efuseAddr 0#32, [0xFF#8, 0xFF#8, 0xFF#8, 0xFF#8]⟩ =
        .ok (.efuseAddr 0#32 0x7FFFFFF#32 31#5, []) := by decide

/-- V30-15 to V30-22: the words of TRAN_CSR. -/
theorem test_decode_tran_words :
    decode defaultParams seven ⟨.tran 0#32, [0x01#8, 0x08#8, 0#8, 0#8]⟩ = .ok (.tranRegrd 0#32 false, []) ∧
      decode defaultParams seven ⟨.tran 0#32, [0x02#8, 0x88#8, 0#8, 0#8]⟩ = .ok (.tranRegwr 0#32 true, []) ∧
      decode defaultParams seven ⟨.tran 0#32, [0x01#8, 0xBC#8, 0#8, 0#8]⟩ = .ok (.tranDatard 0#32 true 4#3, []) ∧
      decode defaultParams seven ⟨.tran 0#32, [0x02#8, 0x3B#8, 0#8, 0#8]⟩ = .ok (.tranDatawr 0#32 false 3#3, []) ∧
      decode defaultParams seven ⟨.tran 0#32, [0x00#8, 0xBC#8, 0#8, 0#8]⟩ = .ok (.tranErase 0#32 true 4#3, []) :=
          by decide

/-- A layout of TRAN_CSR and INT_STS other than the default (R108): RX bit 31, TX bit 30, ADDR_BYTES [4:2], WITH_CMD
bit 0, TRG_LVL [9:8] with code 1 for 8 bytes, GO_BUSY bit 5; TRAN_DONE bit 7, RD_FIFO bit 1; fill level from bit 4. -/
def movedParams : Config.Params :=
  { defaultParams with
    tran := { rx := 31, tx := 30, addrBytes := 2, withCmd := 0, trgLvl := 8, goBusy := 5, trg1 := 2#2, trg2 := 0#2,
              trg4 := 3#2, trg8 := 1#2, apart := by decide, fits := by decide, levels := by decide },
    intSts := { tranDone := 7, rdFifo := 1, apart := by decide, fits := by decide }, fillLevel := 4 }

/-- R108: the same classes at other places, added up by hand from the layout of `movedParams`; the default words are
reserved there. -/
theorem test_decode_moved_tran_words :
    decode movedParams seven ⟨.tran 0#32, [0x2D#8, 0x01#8, 0#8, 0x80#8]⟩ = .ok (.tranDatard 0#32 true 3#3, []) ∧
      decode movedParams seven ⟨.tran 0#32, [0x01#8, 0x02#8, 0#8, 0x40#8]⟩ = .ok (.tranRegwr 0#32 false, []) ∧
      decode movedParams seven ⟨.tran 0#32, [0x01#8, 0x08#8, 0#8, 0#8]⟩ = .error .reservedTran := by decide

/-- R113: frames of the commands without address. -/
theorem test_decode_register_frames :
    decode defaultParams seven ⟨.frame 0#32 3#32, [0x9F#8]⟩ = .ok (.rdid 0#32, []) ∧
      decode defaultParams seven ⟨.frame 0#32 1#32, [0x05#8]⟩ = .ok (.rdsr 0#32, []) ∧
      decode defaultParams seven ⟨.frame 0#32 1#32, [0x01#8, 0x1C#8]⟩ = .ok (.wrsr 0#32 0x1C#8, []) ∧
      decode defaultParams seven ⟨.frame 0#32 0#32, [0x06#8]⟩ = .ok (.wren 0#32, []) ∧
      decode defaultParams seven ⟨.frame 0#32 0#32, [0x04#8]⟩ = .ok (.wrdi 0#32, []) ∧
      decode defaultParams seven ⟨.frame 0#32 0#32, [0xB7#8]⟩ = .ok (.en4b 0#32, []) ∧
      decode defaultParams seven ⟨.frame 0#32 0#32, [0xC7#8]⟩ = .ok (.ce 0#32, []) := by decide

/-- R113 and V30-10, V30-13: frames of the commands with an address, most significant byte first. -/
theorem test_decode_address_frames :
    decode defaultParams seven ⟨.frame 0#32 44#32, [0x03#8, 0x01#8, 0x23#8, 0x45#8]⟩ =
        .ok (.read 0#32 0x012345#24 44#32, []) ∧
      decode defaultParams seven ⟨.frame 0#32 1#32, [0x13#8, 0x01#8, 0x23#8, 0x45#8, 0x67#8]⟩ =
        .ok (.read4b 0#32 0x01234567#32 1#32, []) ∧
      decode defaultParams seven ⟨.frame 0#32 2#32, [0x02#8, 0#8, 1#8, 0#8, 0xDE#8, 0xAD#8]⟩ =
        .ok (.pp 0#32 0x100#24 [0xDE#8, 0xAD#8], []) ∧
      decode defaultParams seven ⟨.frame 0#32 1#32, [0x12#8, 0#8, 0#8, 1#8, 0#8, 0x3C#8]⟩ =
          .ok (.pp4b 0#32 0x100#32 [0x3C#8], []) ∧
      decode defaultParams seven ⟨.frame 0#32 0#32, [0x20#8, 0#8, 0x10#8, 0#8]⟩ = .ok (.be4k 0#32 0x1000#24, []) ∧
      decode defaultParams seven ⟨.frame 0#32 0#32, [0x21#8, 0#8, 0#8, 0x10#8, 0#8]⟩ = .ok (.be4k4b 0#32 0x1000#32,
          []) ∧
      decode defaultParams seven ⟨.frame 0#32 0#32, [0xD8#8, 0x01#8, 0#8, 0#8]⟩ = .ok (.se 0#32 0x010000#24, []) ∧
      decode defaultParams seven ⟨.frame 0#32 0#32, [0xDC#8, 0#8, 0#8, 0x10#8, 0#8]⟩ = .ok (.se4b 0#32 0x1000#32, []) :=
          by decide

/-- Log 45: a data frame without data is one of its command. -/
theorem test_decode_frames_without_data :
    decode defaultParams seven ⟨.frame 0#32 0#32, [0x03#8, 0x01#8, 0x23#8, 0x45#8]⟩ =
        .ok (.read 0#32 0x012345#24 0#32, []) ∧
      decode defaultParams seven ⟨.frame 0#32 0#32, [0x12#8, 0#8, 0#8, 1#8, 0#8]⟩ = .ok (.pp4b 0#32 0x100#32 [], []) ∧
      decode defaultParams seven ⟨.frame 0#32 2#32, [0x9F#8]⟩ = .error .frameLength := by decide

/-- R114: bytes that select nothing. -/
theorem test_decode_refuses :
    decode defaultParams seven ⟨.req, [0x17#8]⟩ = .error (.unknownSelector 0x17#8) ∧
      decode defaultParams seven ⟨.efuseMode 0#32, [1#8, 0#8, 0#8, 0#8]⟩ = .error .reservedMode ∧
      decode defaultParams seven ⟨.efuseMode 0#32, [4#8, 0#8, 0#8, 0#8]⟩ = .error .reservedBits ∧
      decode defaultParams seven ⟨.efuseAddr 0#32, [0#8, 0x10#8, 0#8, 0#8]⟩ = .error .reservedBits ∧
      decode defaultParams seven ⟨.tran 0#32, [0x03#8, 0x08#8, 0#8, 0#8]⟩ = .error .reservedTran ∧
      decode defaultParams seven ⟨.frame 0#32 0#32, [0x0B#8]⟩ = .error (.unknownCommand 0x0B#8) ∧
      decode defaultParams seven ⟨.req, [0x15#8, 0#8]⟩ = .error .truncated := by decide

/-- The opcode table's own words: a selector, a MODE value, a TRAN_CSR word, a command byte. -/
theorem test_decodeTableWord :
    decodeTableWord 8 0x20 = some (.efuseRdw 0#32 0#32) ∧ decodeTableWord 32 2 = some (.modeRead 0#32) ∧
      decodeTableWord 32 0xBB01 = some (.tranDatard 0#32 true 3#3) ∧
      decodeTableWord 32 0x283 = some (.efuseAddr 0#32 3#32 5#5) ∧ decodeTableWord 8 0x9F = some (.rdid 0#32) := by
  decide

/-! ## States -/

/-- The next state meets a test. -/
def next (o : Host.Outcome State Fault Refusal) (p : State → Bool) : Bool :=
  match o with
  | .next t => p t
  | .fault _ => false
  | .refused _ => false

/-- eFuse unit `b` meets a test. -/
def onE (b : Nat) (s : State) (p : EfuseUnit → Bool) : Bool := (s.efuse[b]?).any p

/-- SPI unit `d` meets a test. -/
def onS (d : Nat) (s : State) (p : SpiUnit → Bool) : Bool := (s.spi[d]?).any p

/-- A controller whose OTP byte `o` holds `o` for o = 0..11, as in the read grid of 95_test_vectors.md. -/
def countUnit : EfuseUnit :=
  { EfuseUnit.reset defaultParams ⟨⟨0x11000#32, 7, 128, 32⟩, none, []⟩ with
    otp := [(1, 1#8), (2, 2#8), (3, 3#8), (4, 4#8), (5, 5#8), (6, 6#8), (7, 7#8), (8, 8#8), (9, 9#8), (10, 10#8),
      (11, 11#8)] }

/-- Controller 0 fresh, controller 1 counting. -/
def otpState : State :=
  { State.reset with
    efuse := [EfuseUnit.reset defaultParams ⟨⟨0x10000#32, 7, 128, 32⟩, none, []⟩, countUnit] }

/-- The macro of controller 0 with a command pending on bit 5 of word 3. -/
def pendingUnit (mode : Word) (phase : EPhase) : EfuseUnit :=
  { EfuseUnit.reset defaultParams ⟨⟨0x10000#32, 7, 128, 32⟩, none, []⟩ with
    mode := mode, addr := 0x283#32, busy := true, ephase := phase }

/-- A macro that never steps. -/
def deadUnit : EfuseUnit := { EfuseUnit.reset defaultParams ⟨⟨0x10000#32, 7, 128, 32⟩, none, []⟩ with live := false }

/-- A controller whose `addressBits` is not legal (R8). -/
def wideUnit (u : EfuseUnit) : EfuseUnit := { u with ctl := { u.ctl with addressBits := 28 } }

/-- The geometry of V44-22 and of V44-23. -/
def info3 : Config.FlashInfo := ⟨256, 65536, false, true⟩
def info4 : Config.FlashInfo := ⟨256, 65536, true, false⟩

/-- An erased flash part. -/
def erasedPart : Part := Part.reset defaultParams ⟨⟨0x20000#32, 2 ^ 24, ⟨0xEF#8, 0x40#8, 0x18#8⟩⟩, [], 0#8⟩

/-- A flash part with a few bytes programmed around a page boundary. -/
def somePart : Part := { erasedPart with flash := [(0xFE, 0x11#8), (0xFF, 0xF0#8), (0x100, 0x33#8), (0x1000, 0#8)] }

/-- An initialised 3-byte device. -/
def unit3 : SpiUnit :=
  { SpiUnit.reset defaultParams ⟨⟨0x20000#32, 2 ^ 24, ⟨0xEF#8, 0x40#8, 0x18#8⟩⟩, [], 0#8⟩ with
    part := somePart, record := some ⟨0x20000#32, some (resolve defaultParams info3), 3, true⟩ }

/-- An initialised 4-byte device. -/
def unit4 : SpiUnit :=
  { SpiUnit.reset defaultParams ⟨⟨0x21000#32, 2 ^ 25, ⟨0xC2#8, 0x20#8, 0x19#8⟩⟩, [], 0#8⟩ with
    part := { somePart with mode4B := true }, record := some ⟨0x21000#32, some (resolve defaultParams info4), 3, true⟩ }

/-- An initialised device with a part of one 4 KB block: requests end at the top of the array. -/
def unitSmall : SpiUnit := { unit3 with board := { unit3.board with flashSize := 4096 }, part := erasedPart }

/-- Write-enabled. -/
def enabled (u : SpiUnit) : SpiUnit := { u with part := { u.part with sr := 0x02#8 } }

/-- The part is executing a program of one byte at 0x1000. -/
def busyPart (u : SpiUnit) : SpiUnit :=
  { u with part := { u.part with sr := 0x03#8, pending := some (.program 0x1000 [0x3C#8]) } }

/-- SHIFT has a transaction in flight and never steps. -/
def stuckUnit : SpiUnit :=
  { unit3 with
    ctl := { SpiCtl.reset with tranCsr := 0x8802#32, fifo := [0x06#8], sphase := .wait,
                               xfer := some ⟨.regwr, 1, 0, 0, [], []⟩ },
    live := ⟨false, true⟩ }

/-- A controller whose wait was given up before its transfer ended (R185). -/
def lateUnit : SpiUnit := { unit3 with ctl := { SpiCtl.reset with tranCsr := 0x0802#32, sphase := .wait } }

/-- Device 0 with 3 address bytes, device 1 with 4. -/
def norState : State := { State.reset with spi := [unit3, unit4] }

/-- One device. -/
def oneSpi (u : SpiUnit) : State := { State.reset with spi := [u] }

/-- One eFuse controller. -/
def oneE (u : EfuseUnit) : State := { State.reset with efuse := [u] }

/-! ## One step of each operation -/

/-- V41-26: offset 1, count 9. -/
theorem test_efuse_rdb :
    next (exec (.efuseRdb 1#32 1#32 9#32) otpState) (fun t => decide (t.status = .success ∧
      t.buf = [1#8, 2#8, 3#8, 4#8, 5#8, 6#8, 7#8, 8#8, 9#8])) = true := by decide

/-- V41-19: the trace of a byte write of A5 at offset 6. -/
theorem test_efuse_wrb :
    next (exec (.efuseWrb 0#32 6#32 1#32 [0xA5#8]) otpState) (fun t => onE 0 t fun u => decide (
      u.trace = [.write .addr 0x801#32, .write .mode 3#32, .write .addr 0x901#32, .write .mode 3#32,
        .write .addr 0xA81#32, .write .mode 3#32, .write .addr 0xB81#32, .write .mode 3#32] ∧
      otpWord u.otp 1 = 0x00A50000#32)) = true := by decide

/-- V41-6: head, body and tail of a write at offset 1, count 9. -/
theorem test_efuse_wrb_split :
    next (exec (.efuseWrb 0#32 1#32 9#32 [0x11#8, 0x22#8, 0x33#8, 0x44#8, 0x55#8, 0x66#8, 0x77#8, 0x88#8, 0x99#8])
      otpState) (fun t => onE 0 t fun u => decide (otpWord u.otp 0 = 0x33221100#32 ∧
        otpWord u.otp 1 = 0x77665544#32 ∧ otpWord u.otp 2 = 0x00009988#32 ∧ otpWord u.otp 3 = 0#32)) = true := by
  decide

/-- V41-47, V41-43. -/
theorem test_efuse_info :
    next (exec (.efuseInfo 1#32 true true) otpState) (fun t => decide (t.status = .success ∧
        t.outInfo = some ⟨0x11000#32, 7, 128, 32⟩ ∧ t.outTotal = some 2#32)) = true ∧
      next (exec (.efuseInfo 2#32 true true) otpState) (fun t => decide (t.status = .invalidParameter ∧
        t.outInfo = none)) = true := by decide

/-- V40-1, on word 1 of the read grid: `MODE<-0 ADDR<-1 MODE<-2`, one read of RD_DATA. -/
theorem test_efuse_rdw :
    next (exec (.efuseRdw 1#32 1#32) otpState) (fun t => decide (t.outWord = 0x07060504#32) && onE 1 t fun u =>
      decide (u.trace = [.write .mode 0#32, .write .addr 1#32, .write .mode 2#32, .readData 0x07060504#32])) =
      true := by decide

/-- A macro with a busy bit of its own, bit 4 of MODE, that leaves the command where it was (R34). -/
def flagParams : Config.Params :=
  { defaultParams with mode := { defaultParams.mode with view := .flag 4 true false, viewOutside := by decide } }

/-- R34, R133 under that view: the word is read, the command stays in MODE, the bit is down again; it is up while a
command is pending. -/
theorem test_efuse_rdw_flag_view :
    next (exec (.efuseRdw 1#32 1#32) { otpState with cfg := flagParams })
        (fun t => decide (t.outWord = 0x07060504#32) &&
        onE 1 t fun u => decide (u.mode = 2#32 ∧ u.busy = false ∧ eRead flagParams .mode u = 2#32)) = true ∧
      eRead flagParams .mode (pendingUnit 2#32 .cmdRead) = 0x12#32 := by decide

/-- V40-3. -/
theorem test_efuse_setb :
    next (exec (.efuseSetb 0#32 3#32 5#5) otpState) (fun t => onE 0 t fun u => decide (
      otpWord u.otp 3 = 0x20#32 ∧ u.trace = [.write .addr 0x283#32, .write .mode 3#32])) = true := by decide

/-- V40-7, and V40-8: a value of 0 makes no register access. -/
theorem test_efuse_wrw :
    next (exec (.efuseWrw 0#32 2#32 0x80000001#32) otpState) (fun t => onE 0 t fun u => decide (
        otpWord u.otp 2 = 0x80000001#32 ∧ u.trace = [.write .addr 2#32, .write .mode 3#32, .write .addr 0xF82#32,
          .write .mode 3#32])) = true ∧
      next (exec (.efuseWrw 1#32 2#32 0#32) otpState) (fun t => onE 1 t fun u => decide (u.trace = [])) = true := by
  decide

/-- R130: MODE idle on a controller whose macro is not busy. -/
theorem test_mode_idle :
    next (exec (.modeIdle 0#32) otpState) (fun t => onE 0 t fun u => decide (u.mode = 0#32 ∧ u.busy = false)) =
      true := by decide

/-- R38, R133: the read command sets the busy flag; R285: not again while it is busy. -/
theorem test_mode_read :
    next (exec (.modeRead 0#32) otpState) (fun t => onE 0 t fun u => decide (u.mode = 2#32 ∧ u.busy = true ∧
        u.ephase = .cmdRead)) = true ∧
      (match exec (.modeRead 0#32) (oneE (pendingUnit 2#32 .cmdRead)) with
        | .refused r => decide (r = .efuseBusy)
        | _ => false) = true := by decide

/-- R38, R134. -/
theorem test_mode_write :
    next (exec (.modeWrite 1#32) otpState) (fun t => onE 1 t fun u => decide (u.mode = 3#32 ∧ u.busy = true ∧
      u.ephase = .cmdWrite)) = true := by decide

/-- V30-2. -/
theorem test_efuse_addr :
    next (exec (.efuseAddr 0#32 3#32 5#5) otpState) (fun t => onE 0 t fun u => decide (u.addr = 0x283#32)) =
      true := by decide

/-- V44-28: a present record is reused, with its fields; V44-27: the allocation fails. -/
theorem test_nor_setup :
    next (exec (.norSetup (some 0#32)) (oneSpi stuckUnit)) (fun t => decide (t.outDev = 0#32) && onS 0 t fun u =>
        decide (u.record = unit3.record ∧ u.ctl = SpiCtl.reset)) = true ∧
      next (exec (.norSetup none) { State.reset with allocs := [.fail] }) (fun t => decide (
        t.status = .outOfResources ∧ t.spi = State.reset.spi)) = true := by decide

/-- V44-22 from a fresh record: frames and record. -/
theorem test_nor_init :
    next (exec (.norInit 0#32) (oneSpi { unit3 with record := some ⟨0x20000#32, none, 3, false⟩ })) (fun t =>
      decide (t.status = .success) && onS 0 t fun u => decide (
        u.frames.map Frame.out = [[0x9F#8], [0x06#8], [0x01#8, 0#8], [0x05#8], [0x04#8]] ∧
        u.record = some ⟨0x20000#32, some ⟨3, 0x03#8, 0x02#8, 0x20#8, 256, 65536, false, true⟩, 3, true⟩)) =
      true := by decide

/-- V44-23: a 4-byte part. -/
theorem test_nor_init_4byte :
    next (exec (.norInit 1#32) { norState with spi := [unit3, { unit4 with
        record := some ⟨0x21000#32, none, 3, false⟩, part := erasedPart }] }) (fun t => onS 1 t fun u => decide (
      u.frames.map Frame.out = [[0x9F#8], [0xB7#8], [0x06#8], [0x01#8, 0#8], [0x05#8], [0x04#8]] ∧
      u.record = some ⟨0x21000#32, some ⟨4, 0x13#8, 0x12#8, 0xDC#8, 256, 65536, true, false⟩, 3, true⟩ ∧
      u.part.mode4B = true)) = true := by decide

set_option maxRecDepth 4000 in
/-- V44-3: offset 0xFF, length 2. -/
theorem test_nor_rd :
    next (exec (.norRd 0#32 0xFF#32 2#32) norState) (fun t => decide (t.buf = [0xF0#8, 0x33#8])) = true ∧
      next (exec (.norRd 0#32 0xFF#32 2#32) norState) (fun t => onS 0 t fun u => decide (
        u.frames = [⟨[0x03#8, 0#8, 0#8, 0xFF#8], [0xF0#8]⟩, ⟨[0x03#8, 0#8, 1#8, 0#8], [0x33#8]⟩])) = true := by
  decide

/-- V44-3 and V43-4: a write across a page boundary, over programmed data: an AND. -/
theorem test_nor_wr :
    next (exec (.norWr 0#32 0xFF#32 2#32 [0x3C#8, 0x0F#8]) norState) (fun t => onS 0 t fun u => decide (
      commandsOf defaultParams u.frames = [[0x06#8], [0x02#8, 0#8, 0#8, 0xFF#8, 0x3C#8], [0x06#8],
        [0x02#8, 0#8, 1#8, 0#8, 0x0F#8], [0x04#8]] ∧
      flashRead defaultParams u.part.flash 0xFF = 0x30#8 ∧ flashRead defaultParams u.part.flash 0x100 = 0x03#8)) =
          true := by decide

/-- V44-14: the erase frames. -/
theorem test_nor_er :
    next (exec (.norEr 0#32 0x1000#32 4097#32) norState) (fun t => onS 0 t fun u => decide (
      u.frames.map Frame.out = [[0x06#8], [0x20#8, 0#8, 0x10#8, 0#8], [0x05#8], [0x06#8],
        [0x20#8, 0#8, 0x20#8, 0#8], [0x05#8], [0x04#8]] ∧
      flashRead defaultParams u.part.flash 0x1000 = 0xFF#8 ∧ flashRead defaultParams u.part.flash 0xFF = 0xF0#8)) =
          true := by decide

/-- V44-15, V60-1: invalid input, no frame. -/
theorem test_nor_er_invalid :
    next (exec (.norEr 0#32 0x800#32 4096#32) norState) (fun t => decide (
        t = { norState with status := .invalidParameter })) = true ∧
      next (exec (.norEr 0#32 0x801#32 0#32) norState) (fun t => decide (
        t = { norState with status := .invalidParameter })) = true := by decide

/-- V44-26. -/
theorem test_nor_erchip :
    next (exec (.norErchip 1#32) norState) (fun t => onS 1 t fun u => decide (
      u.frames.map Frame.out = [[0x06#8], [0xC7#8], [0x05#8], [0x04#8]] ∧ u.part.flash = [])) = true := by decide

/-- V44-29. -/
theorem test_nor_free :
    next (exec (.norFree 0#32) norState) (fun t => onS 0 t fun u => decide (u.record = none ∧ u.part = somePart)) =
      true := by decide

/-- V42-1: register trace and result. -/
theorem test_spi_rdreg :
    next (exec (.spiRdreg 0#32 0x9F#8 3#2) norState) (fun t => decide (t.buf = [0xEF#8, 0x40#8, 0x18#8]) &&
      onS 0 t fun u => decide (u.trace = [.write .intSts 0#32, .write .tranNum 3#32, .write .tranCsr 0x0801#32,
        .push 0x9F#8, .write .tranCsr 0x8801#32, .pop 0xEF#8, .pop 0x40#8, .pop 0x18#8, .write .fifoPt 0#32])) =
      true := by decide

/-- V42-2, V43-1. -/
theorem test_spi_wrreg :
    next (exec (.spiWrreg 0#32 0x06#8 0#2 []) norState) (fun t => onS 0 t fun u => decide (
      u.trace = [.write .intSts 0#32, .write .tranNum 0#32, .write .tranCsr 0x0802#32, .push 0x06#8,
        .write .tranCsr 0x8802#32, .write .fifoPt 0#32] ∧ u.part.sr = 0x02#8)) = true := by decide

/-- V42-9: SHIFT never steps. -/
theorem test_spi_wrreg_timeout :
    next (exec (.spiWrreg 0#32 0x06#8 0#2 []) { oneSpi { unit3 with live := ⟨false, true⟩ } with
        cfg := { defaultParams with spiWaitBudget := some 2 } }) (fun t => decide (t.status = .timeout) &&
      onS 0 t fun u => decide (goBusy defaultParams u.ctl.tranCsr = true ∧ u.ctl.fifo = [0x06#8] ∧
          u.ctl.sphase = .wait)) =
      true := by decide

/-- V42-6, of two bytes. -/
theorem test_spi_xrd :
    next (exec (.spiXrd 0#32 0xFE#32 2#32) norState) (fun t => decide (t.buf = [0x11#8, 0xF0#8]) &&
      onS 0 t fun u => decide (u.trace = [.write .intSts 0#32, .write .tranNum 2#32, .write .tranCsr 0x3B01#32,
        .push 0x03#8, .push 0#8, .push 0#8, .push 0xFE#8, .write .tranCsr 0xBB01#32, .pop 0x11#8, .pop 0xF0#8,
        .write .fifoPt 0#32])) = true := by decide

/-- V42-4 on a write-enabled part: the trace, the frame, the program pending or done. -/
theorem test_spi_xpp :
    next (exec (.spiXpp 0#32 0x100#32 4#32 [0xDE#8, 0xAD#8, 0xBE#8, 0xEF#8]) (oneSpi (enabled unit3))) (fun t =>
      onS 0 t fun u => decide (u.trace = [.write .intSts 0#32, .write .tranNum 4#32, .write .tranCsr 0x3B02#32,
          .push 0x02#8, .push 0#8, .push 1#8, .push 0#8, .push 0xDE#8, .push 0xAD#8, .push 0xBE#8, .push 0xEF#8,
          .write .tranCsr 0xBB02#32, .write .fifoPt 0#32] ∧
        flashRead defaultParams (partStep defaultParams u.part).flash 0x101 = 0xAD#8)) = true := by decide

/-- V42-8: a strict FIFO refuses the ninth byte pushed. -/
theorem test_spi_xpp_strict :
    (match exec (.spiXpp 0#32 0#32 5#32 [1#8, 2#8, 3#8, 4#8, 5#8])
        { norState with cfg := { defaultParams with strictFifo := true } } with
      | .refused r => decide (r = .fifoFull)
      | _ => false) = true := by decide

/-- V42-5: the frame of an erase with 4 address bytes. -/
theorem test_spi_xer :
    next (exec (.spiXer 1#32 0x10000#32) norState) (fun t => onS 1 t fun u => decide (
      u.trace = [.write .intSts 0#32, .write .tranNum 0#32, .write .tranCsr 0x3C00#32, .push 0xDC#8, .push 0#8,
        .push 1#8, .push 0#8, .push 0#8, .write .tranCsr 0xBC00#32, .write .fifoPt 0#32])) = true := by decide

/-- V43-7: PART steps before the third poll. -/
theorem test_nor_waitrdy :
    next (exec (.norWaitrdy 0#32) (oneSpi { busyPart unit3 with
        sched := [[.shift, .shift, .shift], [.shift, .shift, .shift], [.part, .shift, .shift, .shift]] })) (fun t =>
      decide (t.status = .success) && onS 0 t fun u => decide (
        u.frames = [⟨[0x05#8], [3#8]⟩, ⟨[0x05#8], [3#8]⟩, ⟨[0x05#8], [0#8]⟩])) = true := by decide

/-- V43-9: PART never steps. -/
theorem test_nor_waitrdy_timeout :
    next (exec (.norWaitrdy 0#32) { oneSpi { busyPart unit3 with live := ⟨true, false⟩ } with
        cfg := { defaultParams with readyPollBudget := some 2 } }) (fun t => decide (t.status = .timeout) &&
      onS 0 t fun u => decide (u.frames = [⟨[0x05#8], [3#8]⟩, ⟨[0x05#8], [3#8]⟩] ∧
          wip defaultParams u.part.sr = true)) =
      true := by decide

/-- R200. -/
theorem test_nor_getid :
    next (exec (.norGetid 1#32) norState) (fun t => decide (t.buf = [0xC2#8, 0x20#8, 0x19#8])) = true := by decide

/-- V30-15, V30-16: CONFIGURE and ARM words of the register classes; R174: what SHIFT has to do. -/
theorem test_tran_register_classes :
    next (exec (.tranRegrd 0#32 true) norState) (fun t => onS 0 t fun u => decide (u.ctl.tranCsr = 0x8801#32 ∧
        u.ctl.xfer = some ⟨.regrd, 1, 0, 0, [], []⟩)) = true ∧
      next (exec (.tranRegwr 0#32 false) norState) (fun t => onS 0 t fun u => decide (u.ctl.tranCsr = 0x0802#32 ∧
        u.ctl.xfer = none)) = true := by decide

/-- V30-18, V30-19, V30-21. -/
theorem test_tran_data_classes :
    next (exec (.tranDatard 0#32 true 4#3) norState) (fun t => onS 0 t fun u => decide (u.ctl.tranCsr = 0xBC01#32 ∧
        u.ctl.xfer = some ⟨.datard, 5, 0, 0, [], []⟩)) = true ∧
      next (exec (.tranDatawr 0#32 false 3#3) norState) (fun t => onS 0 t fun u => decide (
        u.ctl.tranCsr = 0x3B02#32)) = true ∧
      next (exec (.tranErase 0#32 true 3#3) norState) (fun t => onS 0 t fun u => decide (u.ctl.tranCsr = 0xBB00#32 ∧
        u.ctl.xfer = some ⟨.erase, 4, 0, 0, [], []⟩)) = true := by decide

/-- R108: under another layout ARM writes another word and the status is read all the same. -/
theorem test_moved_layout :
    next (exec (.tranDatard 0#32 true 3#3) { norState with cfg := movedParams }) (fun t => onS 0 t fun u => decide (
        u.ctl.tranCsr = 0x8000012D#32 ∧ u.ctl.xfer = some ⟨.datard, 4, 0, 0, [], []⟩)) = true ∧
      next (exec (.rdid 0#32) { norState with cfg := movedParams }) (fun t => decide (
        t.buf = [0xEF#8, 0x40#8, 0x18#8]) && onS 0 t fun u => decide (u.ctl.tranCsr = 0x80000201#32 ∧
          u.ctl.intSts = 0x80#32)) = true := by decide

/-- R200, and V43-6: the status is read while the part is busy, and nothing changes. -/
theorem test_rdid_rdsr :
    next (exec (.rdid 0#32) norState) (fun t => decide (t.buf = [0xEF#8, 0x40#8, 0x18#8])) = true ∧
      next (exec (.rdsr 0#32) (oneSpi { busyPart unit3 with live := ⟨true, false⟩ })) (fun t => decide (
        t.buf = [0x03#8]) && onS 0 t fun u => decide (u.part = (busyPart unit3).part)) = true := by decide

/-- R202, R213: WRSR on a write-enabled part, and ignored on one that is not. -/
theorem test_wrsr :
    next (exec (.wrsr 0#32 0x1C#8) (oneSpi (enabled unit3))) (fun t => onS 0 t fun u => decide (
        (partStep defaultParams u.part).sr = 0x1C#8)) = true ∧
      next (exec (.wrsr 0#32 0x1C#8) norState) (fun t => onS 0 t fun u => decide (u.part = somePart)) = true := by
  decide

/-- V43-1, V43-2. -/
theorem test_wren_wrdi :
    next (exec (.wren 0#32) norState) (fun t => onS 0 t fun u => decide (u.part.sr = 0x02#8)) = true ∧
      next (exec (.wrdi 0#32) (oneSpi (enabled unit3))) (fun t => onS 0 t fun u => decide (u.part.sr = 0#8)) =
        true := by decide

/-- V43-10: after EN4B the 3-byte read is refused and the 4-byte read is legal. -/
theorem test_en4b :
    next (exec (.en4b 0#32) norState) (fun t => onS 0 t fun u => decide (u.part.mode4B = true)) = true ∧
      (match exec (.read 1#32 0xFE#24 1#32) norState with
        | .refused r => decide (r = .addressMode)
        | _ => false) = true := by decide

/-- R206. -/
theorem test_reads :
    next (exec (.read 0#32 0xFE#24 3#32) norState) (fun t => decide (t.buf = [0x11#8, 0xF0#8, 0x33#8])) = true ∧
      next (exec (.read4b 1#32 0xFF#32 2#32) norState) (fun t => decide (t.buf = [0xF0#8, 0x33#8])) = true := by
  decide

/-- V43-3, V43-4, and a program with 4 address bytes. -/
theorem test_page_programs :
    next (exec (.pp 0#32 0xFF#24 [0x3C#8]) (oneSpi (enabled unit3))) (fun t => onS 0 t fun u => decide (
        flashRead defaultParams (partStep defaultParams u.part).flash 0xFF = 0x30#8)) = true ∧
      next (exec (.pp4b 0#32 0#32 [0x3C#8]) (oneSpi (enabled unit4))) (fun t => onS 0 t fun u => decide (
        flashRead defaultParams (partStep defaultParams u.part).flash 0 = 0x3C#8 ∧
            wel defaultParams (partStep defaultParams u.part).sr = false)) = true := by decide

/-- V43-5: the 4 KB unit is erased, the bytes around it are not. -/
theorem test_block_erases :
    next (exec (.be4k 0#32 0x1000#24) (oneSpi (enabled unit3))) (fun t => onS 0 t fun u => decide (
        (partStep defaultParams u.part).flash = [(0xFE, 0x11#8), (0xFF, 0xF0#8), (0x100, 0x33#8)])) = true ∧
      next (exec (.be4k4b 0#32 0#32) (oneSpi (enabled unit4))) (fun t => onS 0 t fun u => decide (
        (partStep defaultParams u.part).flash = [(0x1000, 0#8)])) = true := by decide

/-- R208: the native sector; R183: an address inside a sector is framed as it is, and the erase starts (log 44). -/
theorem test_sector_erases :
    next (exec (.se 0#32 0#24) (oneSpi (enabled unit3))) (fun t => onS 0 t fun u => decide (
        (partStep defaultParams u.part).flash = [])) = true ∧
      next (exec (.se4b 0#32 0x1000#32) (oneSpi { enabled unit4 with live := ⟨true, false⟩ })) (fun t => decide (
        t.status = .success) && onS 0 t fun u => decide (u.frames = [⟨[0xDC#8, 0#8, 0#8, 0x10#8, 0#8], []⟩] ∧
          wip defaultParams u.part.sr = true ∧ u.part.flash = somePart.flash)) = true := by decide

/-- V43-15. -/
theorem test_ce :
    next (exec (.ce 0#32) (oneSpi (enabled unit3))) (fun t => onS 0 t fun u => decide (
      (partStep defaultParams u.part).flash = [])) = true := by decide

/-- What a machine refuses for `x`. -/
def refuses (o : Host.Outcome State Fault Refusal) (x : Refusal) : Bool :=
  match o with
  | .refused r => decide (r = x)
  | _ => false

/-- R289: what is sent to a busy part is refused; R217: a `_4B` command in base mode. -/
theorem test_part_refuses :
    refuses (exec (.wren 0#32) (oneSpi { busyPart unit3 with live := ⟨true, false⟩ })) .partBusy = true ∧
      refuses (exec (.ce 0#32) (oneSpi { busyPart unit3 with live := ⟨true, false⟩ })) .partBusy = true ∧
      refuses (exec (.read4b 0#32 0#32 1#32) norState) .addressMode = true := by decide

/-- Log 43: WREN read as a register and RDID written as one are framed and return; R114 (d): no other byte is framed. -/
theorem test_spi_register_other_class :
    next (exec (.spiRdreg 0#32 0x06#8 2#2) norState) (fun t => decide (t.status = .success ∧ t.buf.length = 2) &&
        onS 0 t fun u => decide (u.part.sr = 0x02#8)) = true ∧
      next (exec (.spiWrreg 0#32 0x9F#8 1#2 [7#8]) norState) (fun t => decide (t.status = .success) &&
        onS 0 t fun u => decide (u.frames = [⟨[0x9F#8, 7#8], []⟩] ∧ u.part = unit3.part)) = true ∧
      refuses (exec (.spiRdreg 0#32 0x0B#8 1#2) norState) .unknownCommand = true := by decide

/-- Log 45: transactions and frames without data return, nothing received. -/
theorem test_no_data :
    next (exec (.spiXrd 0#32 0xFE#32 0#32) norState) (fun t => decide (t.status = .success ∧ t.buf = []) &&
        onS 0 t fun u => decide (u.frames = [⟨[0x03#8, 0#8, 0#8, 0xFE#8], []⟩])) = true ∧
      next (exec (.spiXpp 0#32 0xFE#32 0#32 []) (oneSpi (enabled unit3))) (fun t => decide (t.status = .success) &&
        onS 0 t fun u => decide (u.frames = [⟨[0x02#8, 0#8, 0#8, 0xFE#8], []⟩])) = true ∧
      next (exec (.read 0#32 0xFE#24 0#32) norState) (fun t => decide (t.status = .success ∧ t.buf = [])) = true ∧
      next (exec (.pp 0#32 0xFE#24 []) norState) (fun t => decide (t.status = .success ∧ t.buf = [])) = true := by
  decide

/-- Log 46: a program over the end of its page starts; it writes from the start of the page on. R288: `SPI.XPP` of the
same bytes is refused. -/
theorem test_program_over_the_page :
    next (exec (.pp 0#32 0xFE#24 [1#8, 2#8, 3#8]) (oneSpi { enabled unit3 with live := ⟨true, false⟩ })) (fun t =>
        onS 0 t fun u => decide (wip defaultParams u.part.sr = true) &&
          match u.part.pending with
          | some (.program a _) => decide (a = 0)
          | _ => false) = true ∧
      refuses (exec (.spiXpp 0#32 0xFE#32 3#32 [1#8, 2#8, 3#8]) (oneSpi (enabled unit3))) .pageCross = true := by decide

/-- R180: a payload that WREN does not have is framed and the operation completes. -/
theorem test_spi_wrreg_payload :
    next (exec (.spiWrreg 0#32 0x06#8 3#2 [1#8, 2#8, 3#8]) norState) (fun t => decide (t.status = .success) &&
      onS 0 t fun u => decide (u.frames = [⟨[0x06#8, 1#8, 2#8, 3#8], []⟩])) = true := by decide

/-- R203, R213: whatever WREN with a payload does to its latch, flash and `pending` stay. -/
theorem test_wren_payload_keeps_the_rest (q : Part)
    (h : partExecute defaultParams unit3.board somePart [0x06#8, 1#8, 2#8, 3#8] = .ok q) :
    q.flash = somePart.flash ∧ q.pending = none := by
  obtain ⟨b, e, -⟩ := partExecute_payload (cfg := defaultParams) (board := unit3.board) (p := somePart)
    (args := [1#8, 2#8, 3#8]) rfl (by decide) (by decide)
  cases e.symm.trans h
  cases b <;> exact ⟨rfl, rfl⟩

/-- R8, U11: no register row acts on a controller of 28 address bits; R185: no TRAN row after a wait given up. -/
theorem test_register_rows_refuse :
    refuses (exec (.modeRead 0#32) (oneE (wideUnit deadUnit))) .badConfig = true ∧
      refuses (exec (.tranRegwr 0#32 true) (oneSpi lateUnit)) .controllerNotIdle = true := by decide

/-- R282: the driver start that cannot allocate. -/
theorem test_driver_start_fails : driverStart defaultParams [] [] .fail = .error .outOfResources := rfl

/-- R114: a 32-bit word with reserved bits is refused, and runs no host operation. -/
theorem test_placed_word_is_refused :
    refuses (step (State.reset.withFetchWord 32 0x00100010)) (.undecodable .reservedBits) = true := by decide

/-- The first step from reset with an operation placed runs that operation. -/
theorem test_step_from_reset :
    next (step (State.reset.withFetchWord 8 0x10)) (fun t => decide (t.status = .success ∧ t.outDev = 0#32 ∧
      t.calls = []) && onS 0 t fun u => decide (u.record ≠ none)) = true := by decide

/-- V60-3: the shell command on a bus that does not exist. -/
theorem test_efuse_command :
    (match efuseCommand (.readBytes 2#32 0#32 4#32) State.reset with
      | .next x => decide (x.2 = some .aborted ∧ x.1.status = .invalidParameter)
      | _ => false) = true := by decide

/-! ## Cases that meet the hypotheses of each statement

One theorem per statement, each clause at a boundary of its range. -/

/-- A strict FIFO, to which `FifoRoom` then applies. -/
def strictParams : Config.Params := { defaultParams with strictFifo := true }

/-- One part of one 4 KB block behind a strict FIFO. -/
def smallState : State := { oneSpi unitSmall with cfg := strictParams }

theorem countUnit_idle :
    countUnit.Ready defaultParams ∧ countUnit.Fair defaultParams ∧ countUnit.Inv defaultParams :=
  ⟨⟨rfl, rfl, rfl⟩, ⟨rfl, .inl rfl⟩, rfl, nofun, fun _ => ⟨rfl, by decide⟩, rfl⟩

theorem unit3_available : unit3.Available defaultParams ∧ unit3.PartReady defaultParams ∧
    unit3.Initialised defaultParams info3 :=
  ⟨⟨rfl, ⟨rfl, .inl rfl⟩, rfl, by decide⟩, rfl, ⟨⟨_, rfl, rfl⟩, rfl, by decide, by decide, rfl⟩, _, rfl, rfl⟩

theorem unitSmall_available :
    unitSmall.Available strictParams ∧ unitSmall.PartReady defaultParams ∧
      unitSmall.Initialised strictParams info3 ∧ unitSmall.Inv defaultParams :=
  ⟨⟨rfl, ⟨rfl, .inl rfl⟩, rfl, by decide⟩, rfl, ⟨⟨⟨_, rfl, rfl⟩, rfl, by decide, by decide, rfl⟩, _, rfl, rfl⟩,
    .inl rfl, rfl, (by intro x h; cases h), by decide, rfl, rfl⟩

theorem unit4_available : unit4.Available defaultParams ∧ unit4.PartReady defaultParams ∧
    unit4.Initialised defaultParams info4 :=
  ⟨⟨rfl, ⟨rfl, .inl rfl⟩, rfl, by decide⟩, rfl, ⟨⟨_, rfl, rfl⟩, rfl, by decide, by decide, rfl⟩, _, rfl, rfl⟩

theorem test_witness_DecodeUndoesEncode :
    WellFormed seven (.efuseAddr 0#32 127#32 31#5) = true ∧ WellFormed seven (.tranErase 0#32 true 4#3) = true ∧
      WellFormed seven (.efuseWrb 0#32 0#32 1#32 [1#8]) = true ∧ WellFormed seven (.read 0#32 0#24 1#32) = true := by
  decide

theorem test_witness_EncodeUndoesDecode :
    decode defaultParams seven ⟨.efuseMode 0#32, [3#8, 0#8, 0#8, 0#8, 0xAA#8]⟩ = .ok (.modeWrite 0#32, [0xAA#8]) :=
        by decide

theorem test_witness_ReservedEncodingsAreRefused :
    1#32 &&& ~~~defaultParams.mode.mask = 0#32 ∧
      1#32 ∉ [defaultParams.mode.idle, defaultParams.mode.read, defaultParams.mode.write] ∧
      4#32 &&& ~~~defaultParams.mode.mask ≠ 0#32 ∧ seven 0#32 = some 7 ∧ 2 ^ (7 + 5) ≤ (0x1000#32).toNat ∧
      goBusy defaultParams unit3.ctl.tranCsr = false ∧ tranClassOf defaultParams 0x3A01#32 = none ∧
      (∀ c ∈ NorCmd.all, defaultParams.op c ≠ 0x0B#8) ∧
      (0x37#8).toNat ∉ [0x01, 0x02, 0x03, 0x10, 0x11, 0x12, 0x13, 0x14, 0x15, 0x16, 0x20, 0x21, 0x22, 0x30, 0x31,
        0x32, 0x33, 0x34, 0x35, 0x36] := by decide

theorem test_witness_StepRunsTheNextOperation :
    (∃ t, agentsStep State.reset = .ok t ∧ t.host = .idle ∧ t.calls = []) ∧
      ∃ t, agentsStep { State.reset with calls := [⟨.req, [0x15#8, 0#8, 0#8, 0#8, 0#8]⟩] } = .ok t ∧ t.host = .idle ∧
        t.calls = [⟨.req, [0x15#8, 0#8, 0#8, 0#8, 0#8]⟩] ∧
        decode t.cfg t.widths ⟨.req, [0x15#8, 0#8, 0#8, 0#8, 0#8]⟩ = .ok (.norErchip 0#32, []) :=
  ⟨⟨_, rfl, rfl, rfl⟩, _, rfl, rfl, rfl, rfl⟩

theorem test_witness_EveryStepKeepsTheInvariant :
    (oneE (pendingUnit 3#32 .cmdWrite)).Inv ∧ ∃ t, step (oneE (pendingUnit 3#32 .cmdWrite)) = .next t := by
  refine ⟨⟨?_, ?_⟩, _, rfl⟩
  · intro u hu
    rw [List.mem_singleton.1 hu]
    exact ⟨rfl, fun _ => .inr ⟨rfl, rfl⟩, nofun, rfl⟩
  · intro u hu
    rw [List.mem_singleton.1 hu]
    exact ⟨.inl rfl, rfl, (by intro x h; cases h), by decide, rfl, rfl⟩

theorem test_witness_SpiControllerResetValues :
    SpiUnit.reset defaultParams ⟨⟨0x20000#32, 2 ^ 24, ⟨0xEF#8, 0x40#8, 0x18#8⟩⟩, [], 0#8⟩ ∈ State.reset.spi ∧
      (∃ u, u ∈ (State.powerOn movedParams [] [⟨⟨0x20000#32, 4096, ⟨0xEF#8, 0x40#8, 0x18#8⟩⟩, [], 0#8⟩]).spi) ∧
      ∃ t u, (oneSpi stuckUnit).spi.length < 2 ^ 32 ∧ exec (.norSetup (some 0#32)) (oneSpi stuckUnit) = .next t ∧
        t.status = .success ∧ t.spi[t.outDev.toNat]? = some u :=
  ⟨List.mem_singleton.2 rfl, ⟨_, List.mem_singleton.2 rfl⟩, _, _, by decide, rfl, rfl, rfl⟩

/-- A board whose flash part kept bytes and status bits without power: the two named bits are cleared. -/
theorem test_witness_PowerOnValues :
    let es : List EfuseBoard := [⟨⟨0x10000#32, 27, 128, 32⟩, none, [(3, 7#8)]⟩]
    let fs : List FlashBoard := [⟨⟨0x20000#32, 4096, ⟨0xEF#8, 0x40#8, 0x18#8⟩⟩, [(0, 1#8)], 0x1F#8⟩]
    ∃ s, driverStart defaultParams es fs (.pick 0) = .ok s ∧ s.efuse.length = 1 ∧
      s.spi.map (fun u => u.part.sr) = [0x1C#8] := ⟨_, rfl, rfl, by decide⟩

theorem test_witness_OtpOnlyGainsOnes :
    let s := oneE { pendingUnit 3#32 .cmdWrite with otp := [(12, 1#8)] }
    ∃ t u v, step s = .next t ∧ s.efuse[0]? = some u ∧ t.efuse[0]? = some v ∧
      Memory.wf Config.freshOtpByte u.otp = true ∧ otpBit u.otp 12 0 = true ∧ otpBit v.otp 12 5 = true :=
  ⟨_, _, _, rfl, rfl, rfl, rfl, rfl, rfl⟩

theorem test_witness_OperationsTouchOnlyTheirUnit :
    (∃ t, exec (.modeRead 1#32) otpState = .next t) ∧ (Instr.modeRead 1#32).dev? = none ∧
      (Instr.modeRead 1#32).bus? = some 1#32 ∧ (∃ t, exec (.tranRegrd 1#32 true) norState = .next t) ∧
      (Instr.tranRegrd 1#32 true).dev? = some 1#32 ∧ (∃ t, exec (.norSetup none) State.reset = .next t) :=
  ⟨⟨_, rfl⟩, rfl, rfl, ⟨_, rfl⟩, rfl, _, rfl⟩

theorem test_witness_ConfigurationNeverChanges :
    ∃ t, step { State.reset with calls := [⟨.req, [0x10#8, 0#8]⟩] } = .next t := ⟨_, rfl⟩

theorem test_witness_HangNeverReturns :
    (∃ s t, s.host = .spinning (.efuse 0) ∧ step s = .next t) ∧
      (∃ s t, s.host = .spinning (.spi 0) ∧ step s = .next t) ∧
      ∃ s t, s.host = .spinning (.flashReady 0) ∧ step s = .next t :=
  ⟨⟨{ State.reset with host := .spinning (.efuse 0) }, _, rfl, rfl⟩,
    ⟨{ State.reset with host := .spinning (.spi 0) }, _, rfl, rfl⟩,
    { oneSpi { busyPart unit3 with live := ⟨true, false⟩ } with host := .spinning (.flashReady 0) }, _, rfl, rfl⟩

theorem test_witness_InvalidInputChangesNothingElse :
    norState.status ≠ .invalidParameter ∧
      (∃ t, exec (.norRd 0#32 0#32 0#32) norState = .next t ∧ t.status = .invalidParameter) ∧
      ∃ t, exec (.efuseRdb 2#32 0#32 0#32) State.reset = .next t ∧ t.status = .invalidParameter :=
  ⟨by decide, ⟨_, rfl, rfl⟩, _, rfl, rfl⟩

theorem test_witness_FailuresAreThoseOfTheTable :
    (∃ t, exec (.efuseRdb 2#32 0#32 4#32) State.reset = .next t ∧ t.status = .invalidParameter) ∧
      (∃ t, exec (.norSetup none) { State.reset with allocs := [.fail] } = .next t ∧ t.status = .outOfResources) ∧
      (∃ t, exec (.norInit 0#32) { norState with cfg := { defaultParams with geometry := [] } } = .next t ∧
        t.status = .notFound) ∧
      (∃ t, exec (.efuseRdw 0#32 0#32) { oneE deadUnit with cfg := { defaultParams with efuseWaitBudget := some 1 } } =
        .next t ∧ t.status = .timeout) ∧
      (∃ t, exec (.wren 0#32) { oneSpi { unit3 with live := ⟨false, false⟩ } with
        cfg := { defaultParams with spiWaitBudget := some 1 } } = .next t ∧ t.status = .timeout) ∧
      ∃ t, exec (.norWaitrdy 0#32) { oneSpi { busyPart unit3 with live := ⟨true, false⟩ } with
        cfg := { defaultParams with readyPollBudget := some 1 } } = .next t ∧ t.status = .timeout :=
  ⟨⟨_, rfl, rfl⟩, ⟨_, rfl, rfl⟩, ⟨_, rfl, rfl⟩, ⟨_, rfl, rfl⟩, ⟨_, rfl, rfl⟩, _, rfl, rfl⟩

/-- Word 127 of 128; word 3 of an array of 3 words; 28 address bits. -/
theorem test_witness_MacroExecutesThePendingCommand :
    countUnit.busy = false ∧ (pendingUnit 2#32 .cmdRead).busy = true ∧ (pendingUnit 2#32 .cmdRead).ephase = .cmdRead ∧
      (pendingUnit 3#32 .cmdWrite).ephase = .cmdWrite ∧ widthLegal 7 = true ∧
      addrWord 7 0xFFF#32 < ({ pendingUnit 3#32 .cmdWrite with addr := 0xFFF#32 } : EfuseUnit).words ∧
      Memory.wf Config.freshOtpByte (pendingUnit 3#32 .cmdWrite).otp = true ∧
      ({ pendingUnit 2#32 .cmdRead with wordsSet := some 3 } : EfuseUnit).words ≤ addrWord 7 0x283#32 ∧
      (wideUnit (pendingUnit 2#32 .cmdRead)).busy = true ∧
      widthLegal (wideUnit (pendingUnit 2#32 .cmdRead)).ctl.addressBits = false := by decide

theorem test_witness_EfuseRegisterWritesTakeEffect :
    otpState.efuse[(1#32).toNat]? = some countUnit ∧ countUnit.busy = false ∧
      widthLegal countUnit.ctl.addressBits = true ∧ (127#32).toNat < 2 ^ countUnit.ctl.addressBits ∧
      (oneE (wideUnit deadUnit)).efuse[(0#32).toNat]? = some (wideUnit deadUnit) ∧
      widthLegal (wideUnit deadUnit).ctl.addressBits = false :=
  ⟨rfl, rfl, rfl, by decide, rfl, rfl⟩

theorem test_witness_NoEfuseRegisterWriteWhileBusy :
    (oneE (pendingUnit 2#32 .cmdRead)).efuse[(0#32).toNat]? = some (pendingUnit 2#32 .cmdRead) ∧
      (pendingUnit 2#32 .cmdRead).busy = true ∧ widthLegal 7 = true ∧ (127#32).toNat < 2 ^ 7 :=
  ⟨rfl, rfl, rfl, by decide⟩

/-- Also of `EfuseSetbProgramsOneBit`, `EfuseWrwOrsTheValue`: word 127 of 128. -/
theorem test_witness_EfuseRdwReadsTheWord :
    otpState.efuse[(1#32).toNat]? = some countUnit ∧ countUnit.Ready defaultParams ∧ countUnit.Fair otpState.cfg ∧
        countUnit.Inv defaultParams ∧
      (127#32).toNat < countUnit.words := by
  obtain ⟨h1, h2, h3⟩ := countUnit_idle
  exact ⟨rfl, h1, h2, h3, by decide⟩

theorem test_witness_EfuseSetbProgramsOneBit :
    otpState.efuse[(1#32).toNat]? = some countUnit ∧ countUnit.Ready defaultParams ∧ countUnit.Fair otpState.cfg ∧
        countUnit.Inv defaultParams ∧
      (127#32).toNat < countUnit.words := test_witness_EfuseRdwReadsTheWord

theorem test_witness_EfuseWrwOrsTheValue :
    otpState.efuse[(1#32).toNat]? = some countUnit ∧ countUnit.Ready defaultParams ∧ countUnit.Fair otpState.cfg ∧
        countUnit.Inv defaultParams ∧
      (127#32).toNat < countUnit.words := test_witness_EfuseRdwReadsTheWord

theorem test_witness_EfuseWordReadAfterWrite :
    otpState.efuse[(1#32).toNat]? = some countUnit ∧ countUnit.Ready defaultParams ∧ countUnit.Fair otpState.cfg ∧
        countUnit.Inv defaultParams ∧
      (127#32).toNat < countUnit.words ∧ otpWord countUnit.otp 127 = 0#32 := by
  obtain ⟨h1, h2, h3⟩ := countUnit_idle
  exact ⟨rfl, h1, h2, h3, by decide, by decide⟩

/-- The last byte of the array, and a request of no bytes at its end. -/
theorem test_witness_EfuseRdbReturnsTheBytes :
    otpState.efuse[(1#32).toNat]? = some countUnit ∧ countUnit.Ready defaultParams ∧ countUnit.Fair otpState.cfg ∧
        countUnit.Inv defaultParams ∧
      (511#32).toNat + (1#32).toNat ≤ countUnit.capacity ∧ (512#32).toNat + (0#32).toNat ≤ countUnit.capacity := by
  obtain ⟨h1, h2, h3⟩ := countUnit_idle
  exact ⟨rfl, h1, h2, h3, by decide, by decide⟩

theorem test_witness_EfuseWrbOrsTheBytes :
    otpState.efuse[(1#32).toNat]? = some countUnit ∧ countUnit.Ready defaultParams ∧ countUnit.Fair otpState.cfg ∧
        countUnit.Inv defaultParams ∧
      (510#32).toNat + (2#32).toNat ≤ countUnit.capacity ∧ [0x0F#8, 0xF0#8].length = (2#32).toNat ∧
      ([] : List Byte).length = (0#32).toNat := by
  obtain ⟨h1, h2, h3⟩ := countUnit_idle
  exact ⟨rfl, h1, h2, h3, by decide, by decide, rfl⟩

/-- A fresh controller, for the clause about one. -/
theorem test_witness_EfuseByteRoundTrip :
    let u := EfuseUnit.reset defaultParams ⟨⟨0x10000#32, 7, 128, 32⟩, none, []⟩
    otpState.efuse[(0#32).toNat]? = some u ∧ u.Ready defaultParams ∧ u.Fair otpState.cfg ∧ u.Inv defaultParams ∧
      (510#32).toNat + (2#32).toNat ≤ u.capacity ∧ [0x0F#8, 0xF0#8].length = (2#32).toNat ∧
      ∀ o, otpByte u.otp o = 0#8 :=
  ⟨rfl, ⟨rfl, rfl, rfl⟩, ⟨rfl, .inl rfl⟩, ⟨rfl, nofun, fun _ => ⟨rfl, by decide⟩, rfl⟩, by decide,
    by decide, fun _ => rfl⟩

theorem test_witness_EfuseInfoReturnsTheRecord :
    otpState.efuse[(1#32).toNat]? = some countUnit ∧ otpState.efuse.length ≤ (2#32).toNat := ⟨rfl, by decide⟩

/-- `bus = NCTRL`. -/
theorem test_witness_BusOutOfRangeIsInvalid :
    otpState.efuse.length ≤ (2#32).toNat ∧ [1#8].length = (1#32).toNat := by decide

theorem test_witness_UnreadyMacroTimesOutOrHangs :
    (oneE deadUnit).efuse[(0#32).toNat]? = some deadUnit ∧ deadUnit.Ready defaultParams ∧ deadUnit.live = false ∧
      deadUnit.sched = [] ∧ (127#32).toNat < deadUnit.words ∧ (oneE deadUnit).cfg.efuseWaitBudget = none ∧
      ({ oneE deadUnit with cfg := { defaultParams with efuseWaitBudget := some 0 } } : State).cfg.efuseWaitBudget =
        some 0 :=
  ⟨rfl, ⟨rfl, rfl, rfl⟩, rfl, rfl, by decide, rfl, rfl⟩

theorem test_witness_TranWritesArmShift :
    norState.spi[(0#32).toNat]? = some unit3 ∧ goBusy defaultParams unit3.ctl.tranCsr = false ∧
      unit3.ctl.sphase = .idle :=
  ⟨rfl, rfl, rfl⟩

theorem test_witness_TranWriteWhileBusyIsRefused :
    (oneSpi stuckUnit).spi[(0#32).toNat]? = some stuckUnit ∧ goBusy defaultParams stuckUnit.ctl.tranCsr = true :=
        ⟨rfl, rfl⟩

theorem test_witness_TransactionRecord :
    (registerTxn defaultParams .wrsr [1#8] 0).Legal defaultParams ∧
        (registerTxn defaultParams .rdid [] 3).Legal defaultParams ∧
      (∃ rx v, transact defaultParams (registerTxn defaultParams .wrsr [1#8] 0) unit3 = .ok rx v) ∧
      ∃ rx v, transact defaultParams (registerTxn defaultParams .rdid [] 3) unit3 = .ok rx v := by
  refine ⟨?_, ?_, ⟨_, _, rfl⟩, _, _, rfl⟩ <;> (simp only [Txn.Legal]; decide)

/-- A transfer that never ends, one that ended after the wait was given up, and a transaction that raises. -/
theorem test_witness_TimedOutControllerNeedsSetup :
    (oneSpi stuckUnit).spi[(0#32).toNat]? = some stuckUnit ∧ stuckUnit.idle defaultParams = false ∧
        stuckUnit.record ≠ none ∧
      (oneSpi lateUnit).spi[(0#32).toNat]? = some lateUnit ∧ lateUnit.ctl.sphase ≠ .idle ∧
      goBusy defaultParams lateUnit.ctl.tranCsr = false ∧
      (∃ v, transact { defaultParams with spiWaitBudget := some 1 } (registerTxn defaultParams .wren [] 0)
        { unit3 with live := ⟨false, true⟩ } = .raised .timeout v) ∧
      ({ unit3 with live := ⟨false, true⟩ } : SpiUnit).idle defaultParams = true ∧ 8 ≤ defaultParams.fifoDepth :=
  ⟨rfl, rfl, by decide, rfl, by decide, rfl, ⟨_, rfl⟩, rfl, by decide⟩

theorem test_witness_SpiRdregAndNorGetidReadRegisters :
    norState.spi[(0#32).toNat]? = some unit3 ∧ (∃ r, unit3.record = some r) ∧ unit3.Available norState.cfg ∧
      unit3.PartReady defaultParams ∧ 1#2 ≠ 0#2 ∧ 3#2 ≠ 0#2 :=
  ⟨rfl, ⟨_, rfl⟩, unit3_available.1, unit3_available.2.1, by decide, by decide⟩

/-- The payload lengths 0 to 3. -/
theorem test_witness_SpiWrregWritesRegisters :
    norState.spi[(0#32).toNat]? = some unit3 ∧ (∃ r, unit3.record = some r) ∧ unit3.Available norState.cfg ∧
      unit3.PartReady defaultParams ∧ wel defaultParams unit3.part.sr = false ∧
      wel defaultParams (enabled unit3).part.sr = true ∧ [1#8].length = (1#2).toNat ∧
      [1#8, 2#8, 3#8].length = (3#2).toNat ∧ ([] : List Byte).length = (0#2).toNat :=
  ⟨rfl, ⟨_, rfl⟩, unit3_available.1, unit3_available.2.1, rfl, rfl, rfl, rfl, rfl⟩

/-- The last page of a part of 4096 bytes; no byte at its last address. -/
theorem test_witness_SpiXrdReadsOnePage :
    smallState.spi[(0#32).toNat]? = some unitSmall ∧ unitSmall.Resolves smallState.cfg info3 ∧
      unitSmall.Available smallState.cfg ∧ unitSmall.PartReady defaultParams ∧
      (256#32).toNat ≤ info3.pageSize - (0xF00#32).toNat % info3.pageSize ∧
      flashFits unitSmall.board.flashSize (resolve defaultParams info3).addressByteCount (0xF00#32).toNat
        (max (256#32).toNat 1) = true ∧
      (0#32).toNat ≤ info3.pageSize - (0xFFF#32).toNat % info3.pageSize ∧
      flashFits unitSmall.board.flashSize (resolve defaultParams info3).addressByteCount (0xFFF#32).toNat
        (max (0#32).toNat 1) = true := by
  obtain ⟨h1, h2, h3, _⟩ := unitSmall_available
  exact ⟨rfl, h3.1, h1, h2, by decide, rfl, by decide, rfl⟩

/-- Four bytes fill a strict FIFO of eight; they end at the top of the part. No byte there either. -/
theorem test_witness_SpiXppStartsAProgram :
    smallState.spi[(0#32).toNat]? = some unitSmall ∧ unitSmall.Resolves smallState.cfg info3 ∧
      unitSmall.Available smallState.cfg ∧ unitSmall.PartReady defaultParams ∧
      [1#8, 2#8, 3#8, 4#8].length = (4#32).toNat ∧
      (4#32).toNat ≤ info3.pageSize - (0xFFC#32).toNat % info3.pageSize ∧
      flashFits unitSmall.board.flashSize (resolve defaultParams info3).addressByteCount (0xFFC#32).toNat
        (max (4#32).toNat 1) = true ∧
      FifoRoom smallState.cfg (1 + (resolve defaultParams info3).addressByteCount + (4#32).toNat) ∧
      ([] : List Byte).length = (0#32).toNat ∧
      flashFits unitSmall.board.flashSize (resolve defaultParams info3).addressByteCount (0xFFF#32).toNat
        (max (0#32).toNat 1) = true := by
  obtain ⟨h1, h2, h3, _⟩ := unitSmall_available
  exact ⟨rfl, h3.1, h1, h2, by decide, by decide, rfl, fun _ => by decide, rfl, rfl⟩

theorem test_witness_SpiXerStartsAnErase :
    smallState.spi[(0#32).toNat]? = some unitSmall ∧ unitSmall.Resolves smallState.cfg info3 ∧
      unitSmall.Available smallState.cfg ∧ unitSmall.PartReady defaultParams ∧
      flashFits unitSmall.board.flashSize (resolve defaultParams info3).addressByteCount
        (alignDown (resolve defaultParams info3).granularity (0#32).toNat) (resolve defaultParams info3).granularity =
        true ∧
      flashFits unitSmall.board.flashSize (resolve defaultParams info3).addressByteCount
        (alignDown (resolve defaultParams info3).granularity (0xFFF#32).toNat)
        (resolve defaultParams info3).granularity = true ∧
      (0xFFF#32).toNat % (resolve defaultParams info3).granularity ≠ 0 := by
  obtain ⟨h1, h2, h3, _⟩ := unitSmall_available
  exact ⟨rfl, h3.1, h1, h2, rfl, rfl, by decide⟩

/-- A part that is executing, with delays in the schedule; one that never completes. -/
theorem test_witness_NorWaitrdyWaitsForThePart :
    let u := { busyPart unit3 with sched := [[], [.part]] }
    let v := { busyPart unit3 with live := ⟨true, false⟩ }
    (oneSpi u).spi[(0#32).toNat]? = some u ∧ (∃ r, u.record = some r) ∧ u.Available (oneSpi u).cfg ∧
      (oneSpi v).spi[(0#32).toNat]? = some v ∧ v.idle defaultParams = true ∧ v.sched = [] ∧ v.part.cut = false ∧
      wip defaultParams v.part.sr = true ∧ defaultParams.readyPollBudget = none ∧
      ({ defaultParams with readyPollBudget := some 0 } : Config.Params).readyPollBudget = some 0 :=
  ⟨rfl, ⟨_, rfl⟩, ⟨rfl, ⟨rfl, .inr ⟨rfl, rfl, by decide⟩⟩, rfl, by decide⟩, rfl, rfl, rfl, rfl, rfl, rfl, rfl⟩

theorem test_witness_RdidAndRdsrFrames :
    norState.spi[(0#32).toNat]? = some unit3 ∧ unit3.Available norState.cfg ∧ unit3.PartReady defaultParams ∧
      (busyPart unit3).Available norState.cfg ∧ wip defaultParams (busyPart unit3).part.sr = true :=
  ⟨rfl, unit3_available.1, unit3_available.2.1, ⟨rfl, ⟨rfl, .inl rfl⟩, rfl, by decide⟩, rfl⟩

theorem test_witness_LatchAndModeFrames :
    norState.spi[(0#32).toNat]? = some unit3 ∧ unit3.Available norState.cfg ∧ unit3.PartReady defaultParams :=
  ⟨rfl, unit3_available.1, unit3_available.2.1⟩

theorem test_witness_StatusWriteAndChipEraseFrames :
    norState.spi[(1#32).toNat]? = some unit4 ∧ unit4.Available norState.cfg ∧ unit4.PartReady defaultParams :=
  ⟨rfl, unit4_available.1, unit4_available.2.1⟩

/-- The last byte of each part, under its own addressing; no byte, at an address past the part. -/
theorem test_witness_ReadFrames :
    smallState.spi[(0#32).toNat]? = some unitSmall ∧ unitSmall.Available smallState.cfg ∧
      unitSmall.PartReady defaultParams ∧ unitSmall.part.mode4B = false ∧
      (0xFFF#24).toNat + (1#32).toNat ≤ unitSmall.board.flashSize ∧
      (0#32 ≠ 0#32 → (0xFFFFFF#24).toNat + (0#32).toNat ≤ unitSmall.board.flashSize) ∧
      norState.spi[(1#32).toNat]? = some unit4 ∧ unit4.Available norState.cfg ∧ unit4.PartReady defaultParams ∧
      unit4.part.mode4B = true ∧ (0x1FFFFFF#32).toNat + (1#32).toNat ≤ unit4.board.flashSize :=
  ⟨rfl, unitSmall_available.1, unitSmall_available.2.1, rfl, by decide, fun h => absurd rfl h, rfl, unit4_available.1,
    unit4_available.2.1, rfl, by decide⟩

/-- A strict FIFO of eight leaves room for four payload bytes after 3 address bytes, three after 4; two bytes at the
last byte of a page; no byte past the part; a part without geometry. -/
theorem test_witness_PageProgramFrames :
    smallState.spi[(0#32).toNat]? = some unitSmall ∧ unitSmall.Available smallState.cfg ∧
      unitSmall.PartReady defaultParams ∧ unitSmall.part.mode4B = false ∧
      FifoRoom strictParams (4 + [1#8, 2#8, 3#8, 4#8].length) ∧
      (0xFFC#24).toNat + [1#8, 2#8, 3#8, 4#8].length ≤ unitSmall.board.flashSize ∧
      Config.norFlashGetInfo smallState.cfg unitSmall.board.jedecId = some info3 ∧ 0 < info3.pageSize ∧
      info3.pageSize < (0xFF#24).toNat % info3.pageSize + [1#8, 2#8].length ∧
      (0xFF#24).toNat + [1#8, 2#8].length ≤ unitSmall.board.flashSize ∧
      (([] : List Byte) ≠ [] → (0xFFFFFF#24).toNat + ([] : List Byte).length ≤ unitSmall.board.flashSize) ∧
      unit4.Available strictParams ∧ unit4.part.mode4B = true ∧ FifoRoom strictParams (5 + [1#8, 2#8, 3#8].length) ∧
      (0x1FFFFFD#32).toNat + [1#8, 2#8, 3#8].length ≤ unit4.board.flashSize ∧
      Config.norFlashGetInfo strictParams unit4.board.jedecId = some info4 ∧ 0 < info4.pageSize ∧
      Config.norFlashGetInfo { defaultParams with geometry := [] } unit3.board.jedecId = none :=
  ⟨rfl, unitSmall_available.1, unitSmall_available.2.1, rfl, fun _ => by decide, by decide, rfl, by decide, by decide,
    by decide, fun h => absurd rfl h, ⟨rfl, ⟨rfl, .inl rfl⟩, rfl, by decide⟩, rfl, fun _ => by decide, by decide, rfl,
    by decide, rfl⟩

/-- The first and the last byte of the last 4 KB unit and of the last sector of each part; the last byte of a part
without geometry. -/
theorem test_witness_EraseFrames :
    norState.spi[(0#32).toNat]? = some unit3 ∧ unit3.Available norState.cfg ∧ unit3.PartReady defaultParams ∧
      unit3.part.mode4B = false ∧
      alignDown 4096 (0xFFF000#24).toNat + 4096 ≤ unit3.board.flashSize ∧
      alignDown 4096 (0xFFFFFF#24).toNat + 4096 ≤ unit3.board.flashSize ∧
      Config.norFlashGetInfo norState.cfg unit3.board.jedecId = some info3 ∧ 0 < info3.sectorSize ∧
      alignDown info3.sectorSize (0xFF0000#24).toNat + info3.sectorSize ≤ unit3.board.flashSize ∧
      alignDown info3.sectorSize (0xFFFFFF#24).toNat + info3.sectorSize ≤ unit3.board.flashSize ∧
      norState.spi[(1#32).toNat]? = some unit4 ∧ unit4.Available norState.cfg ∧ unit4.part.mode4B = true ∧
      alignDown 4096 (0x1FFF000#32).toNat + 4096 ≤ unit4.board.flashSize ∧
      alignDown 4096 (0x1FFFFFF#32).toNat + 4096 ≤ unit4.board.flashSize ∧
      Config.norFlashGetInfo norState.cfg unit4.board.jedecId = some info4 ∧ 0 < info4.sectorSize ∧
      alignDown info4.sectorSize (0x1FF0000#32).toNat + info4.sectorSize ≤ unit4.board.flashSize ∧
      alignDown info4.sectorSize (0x1FFFFFF#32).toNat + info4.sectorSize ≤ unit4.board.flashSize ∧
      Config.norFlashGetInfo { defaultParams with geometry := [] } unit3.board.jedecId = none ∧
      (0xFFFFFF#24).toNat < unit3.board.flashSize :=
  ⟨rfl, unit3_available.1, unit3_available.2.1, rfl, by decide, by decide, rfl, by decide, by decide, by decide, rfl,
    unit4_available.1, rfl, by decide, by decide, rfl, by decide, by decide, by decide, rfl, by decide⟩

theorem test_witness_PartRefusesMismatchedFrames :
    somePart.cut = false ∧ [1#8].length ≠ NorCmd.rdid.addrLen ∧ [0#8, 0#8].length ≠ 3 ∧ [0#8, 0#8, 0#8].length ≠ 4 ∧
        [0#8, 0#8].length < 3 ∧
      [0#8, 0#8, 0#8].length < 4 ∧ unit4.part.cut = false ∧ unit4.part.mode4B = true ∧
      [0#8, 0#8, 0#8].length = 3 ∧ somePart.mode4B = false ∧ [0#8, 0#8, 0#8, 0#8].length = 4 ∧
      (busyPart unit3).part.cut = false ∧ wip defaultParams (busyPart unit3).part.sr = true ∧
      (busyPart unit3).part.mode4B = false ∧ wip defaultParams (busyPart unit4).part.sr = true ∧
      (busyPart unit4).part.mode4B = true ∧ [1#8] ≠ [] := by decide

theorem test_witness_PartCompletesWhatIsPending :
    wip defaultParams somePart.sr = false ∧ wip defaultParams (busyPart unit3).part.sr = true ∧
      Memory.wf defaultParams.erasedByte (busyPart unit3).part.flash = true ∧
      (busyPart unit3).part.pending = some (.program 0x1000 [0x3C#8]) ∧
      (partStart defaultParams somePart (.eraseUnit 0 4096)).pending = some (.eraseUnit 0 4096) ∧
      (partStart defaultParams somePart .eraseAll).pending = some .eraseAll ∧
      (partStart defaultParams somePart (.statusWrite 0xFF#8)).pending = some (.statusWrite 0xFF#8) ∧
      wip defaultParams (partStart defaultParams somePart (.statusWrite 0xFF#8)).sr = true := by decide

/-- A present record; a draw; no draw left; a failing draw; a table of one entry that is taken. -/
theorem test_witness_NorSetupReusesOrAllocates :
    norState.spi[(1#32).toNat]? = some unit4 ∧ unit4.record ≠ none ∧
      ({ State.reset with allocs := [.pick 5] } : State).allocs = .pick 5 :: [] ∧
      (freeIndices State.reset.spi)[5 % (freeIndices State.reset.spi).length]? = some 0 ∧
      (∃ u, State.reset.spi[0]? = some u ∧ u.record = none) ∧
      State.reset.allocs = [] ∧ (freeIndices State.reset.spi).head? = some 0 ∧
      ({ State.reset with allocs := [.fail] } : State).allocs = .fail :: [] ∧
      ∀ u ∈ (oneSpi unit3).spi, u.record ≠ none :=
  ⟨rfl, by decide, rfl, rfl, ⟨_, rfl, rfl⟩, rfl, rfl, rfl, fun _ h => List.mem_singleton.1 h ▸ by decide⟩

theorem test_witness_NorInitResolvesTheRecord :
    norState.spi[(0#32).toNat]? = some unit3 ∧ (∃ r, unit3.record = some r) ∧ unit3.Available norState.cfg ∧
      unit3.PartReady defaultParams ∧ Config.norFlashGetInfo norState.cfg unit3.board.jedecId = some info3 ∧
          0 < info3.pageSize ∧
      0 < info3.sectorSize :=
  ⟨rfl, ⟨_, rfl⟩, unit3_available.1, unit3_available.2.1, rfl, by decide, by decide⟩

theorem test_witness_NorInitUnknownPartNotFound :
    let cfg := { defaultParams with geometry := [] }
    ({ norState with cfg := cfg } : State).spi[(0#32).toNat]? = some unit3 ∧ (∃ r, unit3.record = some r) ∧
      unit3.Available cfg ∧ unit3.PartReady defaultParams ∧ Config.norFlashGetInfo cfg unit3.board.jedecId = none :=
  ⟨rfl, ⟨_, rfl⟩, ⟨rfl, ⟨rfl, .inl rfl⟩, rfl, by decide⟩, rfl, rfl⟩

/-- The last byte of the part. -/
theorem test_witness_NorRdReturnsTheBytes :
    smallState.spi[(0#32).toNat]? = some unitSmall ∧ unitSmall.Initialised smallState.cfg info3 ∧
      unitSmall.Available smallState.cfg ∧ unitSmall.PartReady defaultParams ∧ 1#32 ≠ 0#32 ∧
      flashFits unitSmall.board.flashSize (resolve defaultParams info3).addressByteCount (0xFFF#32).toNat (1#32).toNat =
          true := by
  obtain ⟨h1, h2, h3, _⟩ := unitSmall_available
  exact ⟨rfl, h3, h1, h2, by decide, rfl⟩

/-- Two bytes that end at the top of the part; a strict FIFO of eight holds them. -/
theorem test_witness_NorWrProgramsTheBytes :
    smallState.spi[(0#32).toNat]? = some unitSmall ∧ unitSmall.Initialised smallState.cfg info3 ∧
      unitSmall.Available smallState.cfg ∧ unitSmall.PartReady defaultParams ∧ unitSmall.Inv defaultParams ∧
          2#32 ≠ 0#32 ∧
      [1#8, 2#8].length = (2#32).toNat ∧
      flashFits unitSmall.board.flashSize (resolve defaultParams info3).addressByteCount (0xFFE#32).toNat (2#32).toNat =
          true ∧
      FifoRoom smallState.cfg (1 + (resolve defaultParams info3).addressByteCount + min info3.pageSize (2#32).toNat) :=
          by
  obtain ⟨h1, h2, h3, h4⟩ := unitSmall_available
  exact ⟨rfl, h3, h1, h2, h4, by decide, rfl, rfl, fun _ => by decide⟩

/-- Two bytes across the boundary of pages 0 and 1. -/
theorem test_witness_NorWrNeverCrossesAPage :
    smallState.spi[(0#32).toNat]? = some unitSmall ∧ unitSmall.Initialised smallState.cfg info3 ∧
      unitSmall.Available smallState.cfg ∧ unitSmall.PartReady defaultParams ∧ 2#32 ≠ 0#32 ∧ [1#8, 2#8].length =
          (2#32).toNat ∧
      flashFits unitSmall.board.flashSize (resolve defaultParams info3).addressByteCount (0xFF#32).toNat (2#32).toNat =
          true ∧
      FifoRoom smallState.cfg (1 + (resolve defaultParams info3).addressByteCount + min info3.pageSize (2#32).toNat) :=
          by
  obtain ⟨h1, h2, h3, _⟩ := unitSmall_available
  exact ⟨rfl, h3, h1, h2, by decide, rfl, rfl, fun _ => by decide⟩

/-- The whole of a part of one unit, asked for by one byte and by 4096. -/
theorem test_witness_NorErErasesTheUnits :
    smallState.spi[(0#32).toNat]? = some unitSmall ∧ unitSmall.Initialised smallState.cfg info3 ∧
      unitSmall.Available smallState.cfg ∧ unitSmall.PartReady defaultParams ∧ 1#32 ≠ 0#32 ∧
      (0#32).toNat % (resolve defaultParams info3).granularity = 0 ∧
      flashFits unitSmall.board.flashSize (resolve defaultParams info3).addressByteCount 0 (4096#32).toNat = true ∧
      0 + sectorCount (1#32).toNat (resolve defaultParams info3).granularity *
        (resolve defaultParams info3).granularity ≤
        unitSmall.board.flashSize ∧
      0 + sectorCount (4096#32).toNat (resolve defaultParams info3).granularity *
        (resolve defaultParams info3).granularity ≤
        unitSmall.board.flashSize := by
  obtain ⟨h1, h2, h3, _⟩ := unitSmall_available
  exact ⟨rfl, h3, h1, h2, by decide, by decide, rfl, by decide, by decide⟩

theorem test_witness_NorErchipErasesEverything :
    norState.spi[(1#32).toNat]? = some unit4 ∧ unit4.Initialised norState.cfg info4 ∧ unit4.Available norState.cfg ∧
      unit4.PartReady defaultParams := ⟨rfl, unit4_available.2.2, unit4_available.1, unit4_available.2.1⟩

theorem test_witness_NorFreeReleasesTheRecord :
    norState.spi[(0#32).toNat]? = some unit3 ∧ unit3.record ≠ none := ⟨rfl, by decide⟩

theorem test_witness_ZeroLengthAndMisalignmentAreInvalid :
    norState.spi[(0#32).toNat]? = some unit3 ∧ unit3.Initialised norState.cfg info3 ∧
      (0x800#32).toNat % (resolve defaultParams info3).granularity ≠ 0 := ⟨rfl, unit3_available.2.2, by decide⟩

theorem test_witness_AbsentOrUninitialisedIsRefused :
    (∃ u, State.reset.spi[(0#32).toNat]? = some u ∧ u.record = none) ∧ [1#8].length = (1#32).toNat ∧
      [1#8].length = (1#2).toNat ∧
      ∃ u r, (oneSpi { unit3 with record := some ⟨0x20000#32, none, 3, false⟩ }).spi[(0#32).toNat]? = some u ∧
        u.record = some r ∧ r.inited = false := ⟨⟨_, rfl, rfl⟩, rfl, rfl, _, _, rfl, rfl, rfl⟩

/-- One past the last word, byte and flash byte, also of no length; one byte too many for a page; a unit past
the array. -/
theorem test_witness_RequestsOutsideTheirBoundsStop :
    otpState.efuse[(1#32).toNat]? = some countUnit ∧ widthLegal countUnit.ctl.addressBits = true ∧
      countUnit.words ≤ (128#32).toNat ∧ countUnit.capacity < (512#32).toNat + (1#32).toNat ∧
      smallState.spi[(0#32).toNat]? = some unitSmall ∧ unitSmall.Resolves smallState.cfg info3 ∧
      unitSmall.Initialised smallState.cfg info3 ∧ 1#32 ≠ 0#32 ∧ [1#8].length = (1#32).toNat ∧
      flashFits unitSmall.board.flashSize (resolve defaultParams info3).addressByteCount (0x1000#32).toNat (1#32).toNat =
        false ∧
      (0x1000#32).toNat % (resolve defaultParams info3).granularity = 0 ∧
      (1#32).toNat ≤ info3.pageSize - (0x1000#32).toNat % info3.pageSize ∧
      info3.pageSize - (0xFF#32).toNat % info3.pageSize < (2#32).toNat ∧
      flashFits unitSmall.board.flashSize (resolve defaultParams info3).addressByteCount
        (alignDown (resolve defaultParams info3).granularity (0x1001#32).toNat)
        (resolve defaultParams info3).granularity = false ∧
      flashFits unitSmall.board.flashSize (resolve defaultParams info3).addressByteCount (0x1000#32).toNat
        (max (0#32).toNat 1) = false := by
  obtain ⟨_, _, h3, _⟩ := unitSmall_available
  exact ⟨rfl, rfl, by decide, by decide, rfl, h3.1, h3, by decide, rfl, rfl, by decide, by decide, by decide, rfl, rfl⟩

/-- A part of exactly one erase unit. -/
theorem test_witness_EraseWriteReadReturnsThePattern :
    (oneSpi unitSmall).spi[(0#32).toNat]? = some unitSmall ∧ unitSmall.Initialised (oneSpi unitSmall).cfg info3 ∧
      unitSmall.Available (oneSpi unitSmall).cfg ∧ unitSmall.PartReady defaultParams ∧ unitSmall.Inv defaultParams ∧
          defaultParams.erasedByte = 0xFF#8 ∧ info3.flagErase4K = true ∧
      info3.pageSize = 256 ∧ (List.replicate 300 0x5A#8).length = 300 ∧
      flashFits unitSmall.board.flashSize (resolve defaultParams info3).addressByteCount 0 4096 = true ∧
      FifoRoom (oneSpi unitSmall).cfg (1 + (resolve defaultParams info3).addressByteCount + 256) := by
  obtain ⟨_, h2, _, h4⟩ := unitSmall_available
  exact ⟨rfl, ⟨⟨⟨_, rfl, rfl⟩, rfl, by decide, by decide, rfl⟩, _, rfl, rfl⟩,
    ⟨rfl, ⟨rfl, .inl rfl⟩, rfl, by decide⟩, h2, h4, rfl, rfl, rfl, List.length_replicate, rfl, fun h => by cases h⟩

end Sys2Proof.Tests
end

section
/-! PROOF. The statements of the scope family: whose unit an operation changes (R7, R265), the EMAC step (R132), one
step of HOST (R18, R58), the bare register writes of engine E (R130, R285), the opcodes a device record holds (R211). -/

namespace Sys2Proof.Machine

open Sys2Proof

/-! ## Which unit an operation changes (R7, R265) -/

section Touched
variable {i : Instr} {s t : State}

theorem TouchesE.efuse_other {b n : Nat} (h : TouchesE b s t) (hn : n ≠ b) : t.efuse[n]? = s.efuse[n]? := by
  obtain ⟨⟨_, _, _, _, he⟩, -⟩ := h
  rw [he, List.getElem?_set_ne hn.symm]

theorem TouchesS.spi_other {d n : Nat} (h : TouchesS d s t) (hn : n ≠ d) : t.spi[n]? = s.spi[n]? := by
  obtain ⟨⟨_, _, _, _, he⟩, -⟩ := h
  rw [he, List.getElem?_set_ne hn.symm]

theorem Touches.spi_eq (h : Touches i s t) (hd : i.dev? = none) (hi : ∀ x, i ≠ .norSetup x) : t.spi = s.spi := by
  obtain ⟨_, hspi, _⟩ | ⟨_, _, _, hspi, _⟩ | ⟨d, hd', _⟩ | ⟨x, _, hx, _⟩ := h
  · exact hspi
  · exact hspi
  · rw [hd] at hd'; cases hd'
  · exact absurd hx (hi x)

theorem Touches.efuse_eq (h : Touches i s t) (hb : i.bus? = none) : t.efuse = s.efuse := by
  obtain ⟨hefuse, _⟩ | ⟨b, hb', _⟩ | ⟨_, _, _, hefuse, _⟩ | ⟨_, _, _, _, hefuse, _⟩ := h
  · exact hefuse
  · rw [hb] at hb'; cases hb'
  · exact hefuse
  · exact hefuse

theorem Touches.efuse_other (h : Touches i s t) {b : Word} (hb : i.bus? = some b) {n : Nat} (hn : n ≠ b.toNat) :
    t.efuse[n]? = s.efuse[n]? := by
  obtain ⟨hefuse, _⟩ | ⟨b', hb', hE⟩ | ⟨_, _, _, hefuse, _⟩ | ⟨_, _, _, _, hefuse, _⟩ := h
  · rw [hefuse]
  · rw [hb] at hb'; cases hb'
    exact hE.efuse_other hn
  · rw [hefuse]
  · rw [hefuse]

theorem Touches.spi_other (h : Touches i s t) {d : Word} (hd : i.dev? = some d) {n : Nat} (hn : n ≠ d.toNat) :
    t.spi[n]? = s.spi[n]? := by
  obtain ⟨_, hspi, _⟩ | ⟨_, _, _, hspi, _⟩ | ⟨d', hd', hS⟩ | ⟨_, _, hx, _⟩ := h
  · rw [hspi]
  · rw [hspi]
  · rw [hd] at hd'; cases hd'
    exact hS.spi_other hn
  · subst hx; cases hd

end Touched

/-- Settles O11, from what any operation can do to the hardware (`exec_touches`). -/
theorem operationsTouchOnlyTheirUnit : Obligations.OperationsTouchOnlyTheirUnit := by
  unfold Obligations.OperationsTouchOnlyTheirUnit
  intro i s t h
  have hT : Touches i s t := exec_touches h
  exact ⟨hT.spi_eq, hT.efuse_eq, fun _ hb _ => hT.efuse_other hb, fun _ hd _ => hT.spi_other hd⟩

/-! ## The EMAC step (R132) -/

section Emac
variable {cfg : Config.Params} {u : EfuseUnit}

/-- A busy EMAC whose phase names no command only completes (R132). -/
theorem emacStep_noCommand (hl : widthLegal u.ctl.addressBits = true) (hb : u.busy = true) (he : u.ephase = .idle)
    (hw : addrWord u.ctl.addressBits u.addr < u.words) : emacStep cfg u = .ok (u.done cfg) := by
  rw [emacStep, if_pos hb, if_neg (by simp [hl]), if_pos hw, he]

theorem emacStep_outside (hl : widthLegal u.ctl.addressBits = true) (hb : u.busy = true)
    (hw : u.words ≤ addrWord u.ctl.addressBits u.addr) : emacStep cfg u = .error (.fault .otpRange) := by
  rw [emacStep, if_pos hb, if_neg (by simp [hl]), if_neg (Nat.not_lt.2 hw)]

theorem emacStep_badConfig (hl : widthLegal u.ctl.addressBits = false) (hb : u.busy = true) :
    emacStep cfg u = .error (.refuse .badConfig) := by
  rw [emacStep, if_pos hb, if_pos hl]

/-- Whatever the phase, a busy EMAC with its word in the array completes, and only OTP, RD_DATA and the draws depend on
the command (R132, R40). -/
theorem emacStep_completes (hl : widthLegal u.ctl.addressBits = true) (hb : u.busy = true)
    (hw : addrWord u.ctl.addressBits u.addr < u.words) :
    ∃ otp rdData draws,
      emacStep cfg u = .ok { u.done cfg with otp := otp, rdData := rdData, draws := draws } ∧
      (u.ephase = .cmdRead → otp = u.otp ∧ rdData = otpWord u.otp (addrWord u.ctl.addressBits u.addr)) ∧
      (u.ephase = .cmdWrite →
        otp = otpSetBit u.otp (addrWord u.ctl.addressBits u.addr) (addrBit u.ctl.addressBits u.addr)) := by
  cases he : u.ephase with
  | idle => exact ⟨_, _, _, emacStep_noCommand hl hb he hw, nofun, nofun⟩
  | cmdRead => exact ⟨_, _, _, emacStep_read hl hb he rfl hw, fun _ => ⟨rfl, rfl⟩, nofun⟩
  | cmdWrite => exact ⟨_, _, _, emacStep_write hl hb he rfl rfl hw, nofun, fun _ => rfl⟩

end Emac

/-- Settles O16, from the three ways an EMAC step can go (`emacStep_completes`, `emacStep_outside`,
`emacStep_badConfig`). -/
theorem macroExecutesThePendingCommand : Obligations.MacroExecutesThePendingCommand := by
  unfold Obligations.MacroExecutesThePendingCommand
  intro cfg u
  refine ⟨emacStep_idle, fun hb hl hw hwf => ?_, fun hb hl hw => emacStep_outside hl hb hw,
    fun hb hl => emacStep_badConfig hl hb⟩
  obtain ⟨otp, rdData, draws, hstep, hread, hwrite⟩ := emacStep_completes (cfg := cfg) hl hb hw
  refine ⟨_, hstep, rfl, rfl, rfl, efuseReady_left cfg u.mode, rfl, rfl, hread, fun he o k hk => ?_⟩
  rw [hwrite he]
  exact otpBit_otpSetBit hwf _ _ o k hk

/-! ## One step of HOST (R18, R58) -/

section HostStep
variable {s t : State}

theorem step_of_agentsStep (h : agentsStep s = .ok t) : step s = hostStep t := by rw [step, h]

theorem fetch_empty (h : s.calls = []) : fetch s = .nothing := by rw [fetch, h]

theorem fetch_operation {c : Call} {cs : List Call} {i : Instr} {rest : List Byte} (hc : s.calls = c :: cs)
    (hd : decode s.cfg s.widths c = .ok (i, rest)) : fetch s = .operation i (restCalls c rest cs) := by
  simp only [fetch, hc, hd]

theorem hostStep_nothing (hi : s.host = .idle) (hf : fetch s = .nothing) : hostStep s = .next s := by
  simp only [hostStep, hi, hf]

theorem hostStep_operation {i : Instr} {rest : List Call} (hi : s.host = .idle) (hf : fetch s = .operation i rest) :
    hostStep s = exec i { s with calls := rest } := by
  simp only [hostStep, hi, hf]

end HostStep

/-- Settles O5: what is fetched decides what an idle HOST does (`fetch_empty`, `fetch_operation`). -/
theorem stepRunsTheNextOperation : Obligations.StepRunsTheNextOperation := by
  unfold Obligations.StepRunsTheNextOperation
  intro s t ha hi
  rw [step_of_agentsStep ha]
  exact ⟨fun hc => hostStep_nothing hi (fetch_empty hc), fun c cs i rest hc hd =>
    hostStep_operation hi (fetch_operation hc hd)⟩

/-! ## Register writes of engine E (R130, R285) -/

section RegisterWrite
variable {cfg : Config.Params} {u : EfuseUnit}

theorem eWrite_busy {r : EReg} (v : Word) (hr : r ≠ .rdData) (hb : u.busy = true) :
    eWrite cfg r v u = .error (.refuse .efuseBusy) := by
  cases r with
  | rdData => exact absurd rfl hr
  | addr => rw [eWrite, if_pos hb]
  | mode => rw [eWrite, if_pos hb]

theorem eWrite_addr (v : Word) (hb : u.busy = false) :
    eWrite cfg .addr v u = .ok { u with addr := v, trace := u.trace ++ [.write .addr v] } := by
  rw [eWrite, if_neg (by simp [hb])]

theorem eWrite_mode_idle (hb : u.busy = false) :
    eWrite cfg .mode cfg.mode.idle u = .ok { u with
      mode := cfg.mode.idle, ephase := .idle, trace := u.trace ++ [.write .mode cfg.mode.idle] } := by
  rw [eWrite, if_neg (by simp [hb]), if_pos rfl]

theorem eWrite_mode_read (hb : u.busy = false) :
    eWrite cfg .mode cfg.mode.read u = .ok { u with
      mode := cfg.mode.read, busy := true, ephase := .cmdRead, trace := u.trace ++ [.write .mode cfg.mode.read] } := by
  rw [eWrite, if_neg (by simp [hb]), if_neg (mode_idle_ne_read cfg).symm, if_pos rfl]

theorem eWrite_mode_write (hb : u.busy = false) :
    eWrite cfg .mode cfg.mode.write u = .ok { u with
      mode := cfg.mode.write, busy := true, ephase := .cmdWrite,
      trace := u.trace ++ [.write .mode cfg.mode.write] } := by
  rw [eWrite, if_neg (by simp [hb]), if_neg (mode_idle_ne_write cfg).symm, if_neg (mode_read_ne_write cfg).symm,
    if_pos rfl]

theorem composedAddress_ok {w : Word} (k : BitVec 5) (hw : w.toNat < 2 ^ u.ctl.addressBits) :
    composedAddress w k u = .ok (composeAddr u.ctl.addressBits w k) := by
  rw [composedAddress, if_pos hw]

/-- The two fields of a composed address are disjoint: their OR is their sum (R101). -/
theorem composeAddr_word_toNat {a : Nat} {w : Word} (k : BitVec 5) (ha : a ≤ 27) (hw : w.toNat < 2 ^ a) :
    (composeAddr a w k).toNat = w.toNat + 2 ^ a * k.toNat := by
  have h := composeAddr_toNat k ha hw
  rwa [BitVec.ofNat_toNat, BitVec.setWidth_eq, Nat.mul_comm] at h

variable {s : State} {bus : Word} {r : EReg} {v : EfuseUnit → Except Stop Word}

theorem eRegisterWrite_badConfig (hu : s.efuse[bus.toNat]? = some u) (hl : widthLegal u.ctl.addressBits = false) :
    eRegisterWrite bus s r v = .refused .badConfig := by
  simp only [eRegisterWrite, hu, hl, if_true]

theorem eRegisterWrite_stop {w : Word} {x : Stop} (hu : s.efuse[bus.toNat]? = some u)
    (hl : widthLegal u.ctl.addressBits = true) (hv : v u = .ok w) (hw : eWrite s.cfg r w u = .error x) :
    eRegisterWrite bus s r v = stopped x := by
  simp only [eRegisterWrite, hu, hl, hv, hw, Bool.true_eq_false, if_false]

theorem eRegisterWrite_next {w : Word} {u' : EfuseUnit} (hu : s.efuse[bus.toNat]? = some u)
    (hl : widthLegal u.ctl.addressBits = true) (hv : v u = .ok w) (hw : eWrite s.cfg r w u = .ok u') :
    eRegisterWrite bus s r v = .next { s with efuse := s.efuse.set bus.toNat u' } := by
  simp only [eRegisterWrite, hu, hl, hv, hw, Bool.true_eq_false, if_false]

/-- No register but the read-only one takes a write while EMAC is busy (R285). -/
theorem eRegisterWrite_busy {w : Word} (hu : s.efuse[bus.toNat]? = some u)
    (hl : widthLegal u.ctl.addressBits = true) (hb : u.busy = true) (hr : r ≠ .rdData) (hv : v u = .ok w) :
    eRegisterWrite bus s r v = .refused .efuseBusy :=
  eRegisterWrite_stop hu hl hv (eWrite_busy w hr hb)

variable (bus s)

theorem exec_modeIdle : exec (.modeIdle bus) s = eRegisterWrite bus s .mode fun _ => .ok s.cfg.mode.idle := rfl

theorem exec_modeRead : exec (.modeRead bus) s = eRegisterWrite bus s .mode fun _ => .ok s.cfg.mode.read := rfl

theorem exec_modeWrite : exec (.modeWrite bus) s = eRegisterWrite bus s .mode fun _ => .ok s.cfg.mode.write := rfl

theorem exec_efuseAddr (w : Word) (k : BitVec 5) :
    exec (.efuseAddr bus w k) s = eRegisterWrite bus s .addr (composedAddress w k) := rfl

end RegisterWrite

/-- Settles O17: each of the four rows is one register write (`eRegisterWrite_next`), and none is made with an illegal
width (`eRegisterWrite_badConfig`). -/
theorem efuseRegisterWritesTakeEffect : Obligations.EfuseRegisterWritesTakeEffect := by
  unfold Obligations.EfuseRegisterWritesTakeEffect
  intro s bus w k u hu
  refine ⟨fun hl i hi => ?_, fun hl hb => ⟨?_, ?_, ?_, fun hw => ?_⟩⟩
  · simp only [List.mem_cons, List.not_mem_nil, or_false] at hi
    obtain rfl | rfl | rfl | rfl := hi
    · rw [exec_modeIdle, eRegisterWrite_badConfig hu hl]
    · rw [exec_modeRead, eRegisterWrite_badConfig hu hl]
    · rw [exec_modeWrite, eRegisterWrite_badConfig hu hl]
    · rw [exec_efuseAddr, eRegisterWrite_badConfig hu hl]
  · rw [exec_modeIdle]
    exact eRegisterWrite_next hu hl rfl (eWrite_mode_idle hb)
  · rw [exec_modeRead]
    exact eRegisterWrite_next hu hl rfl (eWrite_mode_read hb)
  · rw [exec_modeWrite]
    exact eRegisterWrite_next hu hl rfl (eWrite_mode_write hb)
  · refine ⟨composeAddr u.ctl.addressBits w k, rfl, composeAddr_word_toNat k (widthLegal_le hl) hw, ?_⟩
    rw [exec_efuseAddr]
    exact eRegisterWrite_next hu hl (composedAddress_ok k hw) (eWrite_addr _ hb)

/-- Settles O18: each of the four rows is a register write refused while EMAC is busy (`eRegisterWrite_busy`). -/
theorem noEfuseRegisterWriteWhileBusy : Obligations.NoEfuseRegisterWriteWhileBusy := by
  unfold Obligations.NoEfuseRegisterWriteWhileBusy
  intro s bus w k u hu hb hl
  rw [exec_modeIdle, exec_modeRead, exec_modeWrite, exec_efuseAddr]
  exact ⟨eRegisterWrite_busy hu hl hb nofun rfl, eRegisterWrite_busy hu hl hb nofun rfl,
    eRegisterWrite_busy hu hl hb nofun rfl, fun hw => eRegisterWrite_busy hu hl hb nofun (composedAddress_ok k hw)⟩

/-! ## The opcodes of a device record (R106, R211) -/

section Opcodes
variable (cfg : Config.Params) (info : Config.FlashInfo)

theorem resolve_addressByteCount : (resolve cfg info).addressByteCount = if info.flag4B then 4 else 3 := rfl

theorem resolve_readOpcode :
    (resolve cfg info).readOpcode = cfg.op (if info.flag4B then .read4b else .read) := (apply_ite cfg.op ..).symm

theorem resolve_programOpcode :
    (resolve cfg info).programOpcode = cfg.op (if info.flag4B then .pp4b else .pp) := (apply_ite cfg.op ..).symm

theorem resolve_eraseOpcode :
    (resolve cfg info).eraseOpcode = cfg.op (if info.flagErase4K then (if info.flag4B then .be4k4b else .be4k)
      else (if info.flag4B then .se4b else .se)) := by
  simp only [apply_ite cfg.op]; rfl

theorem resolve_granularity :
    (resolve cfg info).granularity = if info.flagErase4K then 4096 else info.sectorSize := rfl

theorem defaultParams_op : NorCmd.all.map defaultParams.op =
    [0x9F#8, 0x05#8, 0x01#8, 0x06#8, 0x04#8, 0xB7#8, 0x03#8, 0x13#8, 0x02#8, 0x12#8, 0x20#8, 0x21#8, 0xD8#8, 0xDC#8,
      0xC7#8] := rfl

end Opcodes

/-- Settles O47, field by field. -/
theorem selectOpcodes : Obligations.SelectOpcodes := by
  unfold Obligations.SelectOpcodes
  intro cfg info
  exact ⟨resolve_addressByteCount cfg info, resolve_readOpcode cfg info,
    resolve_programOpcode cfg info, resolve_eraseOpcode cfg info, resolve_granularity cfg info, defaultParams_op⟩

end Sys2Proof.Machine
end

section
/-! PROOF. The statements of the state family: the values after power-on and after the reset of `NOR.SETUP` (R55 to
R58), the writes of TRAN_CSR (R41, R174), and what every step keeps: the configuration (R50, R59), the ones of OTP (R48,
R136), the invariant of the registers, phases and arrays (R32 to R49). What every step keeps is proved move by move
(`EClosed`, `SClosed`) and lifted to steps once (`step_moves`). -/

namespace Sys2Proof.Machine

open Sys2Proof

/-! ## From the moves of a unit to a step -/

section Lift

theorem forall2_all_right {σ : Type} {P : σ → Prop} {us vs : List σ}
    (h : List.Forall₂ (fun u v => P u → P v) us vs) (hu : ∀ u ∈ us, P u) : ∀ v ∈ vs, P v := by
  induction h with
  | nil => exact hu
  | cons h _ ih =>
    rw [List.forall_mem_cons] at hu ⊢
    exact ⟨h hu.1, ih hu.2⟩

theorem forall2_getElem? {σ : Type} {R : σ → σ → Prop} {us vs : List σ} (h : List.Forall₂ R us vs) {n : Nat} {u v : σ}
    (hu : us[n]? = some u) (hv : vs[n]? = some v) : R u v := by
  obtain ⟨hn, rfl⟩ := List.getElem?_eq_some_iff.1 hu
  obtain ⟨hm, rfl⟩ := List.getElem?_eq_some_iff.1 hv
  exact h.get hn hm

theorem forall2_map_eq {σ α : Type} {f : σ → α} {us vs : List σ} (h : List.Forall₂ (fun u v => f v = f u) us vs) :
    vs.map f = us.map f := by
  induction h with
  | nil => rfl
  | cons h _ ih => rw [List.map_cons, List.map_cons, h, ih]

variable {s t : State}

theorem Moves.efuse_all (h : Moves s t) {P : EfuseUnit → Prop} (hP : EClosed s.cfg P) (hs : ∀ u ∈ s.efuse, P u) :
    ∀ u ∈ t.efuse, P u :=
  forall2_all_right (h.1.imp fun _ _ hr => hr P hP) hs

theorem Moves.spi_all (h : Moves s t) {P : SpiUnit → Prop} (hP : SClosed s.cfg P) (hs : ∀ u ∈ s.spi, P u) :
    ∀ u ∈ t.spi, P u :=
  forall2_all_right (h.2.1.imp fun _ _ hr => hr P hP) hs

theorem Moves.efuse_reach (h : Moves s t) {b : Nat} {u v : EfuseUnit} (hu : s.efuse[b]? = some u)
    (hv : t.efuse[b]? = some v) : EReach s.cfg u v :=
  forall2_getElem? h.1 hu hv

end Lift

/-! ## The moves of an eFuse unit, case by case -/

section EMoves
variable {cfg : Config.Params} {u u' : EfuseUnit}

/-- A register write that is made finds EMAC idle; it stores ADDR, or one of the three commands with what it
starts (R38, R39, R285). -/
theorem eWrite_cases {r : EReg} {v : Word} (h : eWrite cfg r v u = .ok u') :
    u.busy = false ∧ ∃ tr,
      (u' = { u with addr := v, trace := tr } ∨
        u' = { u with mode := cfg.mode.idle, ephase := .idle, trace := tr } ∨
        u' = { u with mode := cfg.mode.read, busy := true, ephase := .cmdRead, trace := tr } ∨
        u' = { u with mode := cfg.mode.write, busy := true, ephase := .cmdWrite, trace := tr }) := by
  cases r with
  | rdData => cases h
  | addr =>
    rw [eWrite] at h
    split at h
    · cases h
    · next hb => cases h; exact ⟨by simpa using hb, _, .inl rfl⟩
  | mode =>
    rw [eWrite] at h
    split at h
    · cases h
    · next hb =>
      refine ⟨by simpa using hb, ?_⟩
      split at h
      · next hv => cases h; exact ⟨_, .inr (.inl (by rw [hv]))⟩
      · split at h
        · next hv => cases h; exact ⟨_, .inr (.inr (.inl (by rw [hv])))⟩
        · split at h
          · next hv => cases h; exact ⟨_, .inr (.inr (.inr (by rw [hv])))⟩
          · cases h

/-- An EMAC step that is made does nothing, or completes a command: at most one bit of OTP is programmed (R132). -/
theorem emacStep_cases (h : emacStep cfg u = .ok u') :
    u' = u ∨ u.busy = true ∧ ∃ m d n, u' = { u.done cfg with otp := m, rdData := d, draws := n } ∧
      (m = u.otp ∨ ∃ w k, m = otpSetBit u.otp w k) := by
  cases hb : u.busy with
  | false =>
    rw [emacStep_idle hb] at h
    cases h
    exact .inl rfl
  | true =>
    refine .inr ⟨rfl, ?_⟩
    rw [emacStep, if_pos hb] at h
    split at h
    · cases h
    · split at h
      · split at h
        · cases h; exact ⟨_, _, _, rfl, .inl rfl⟩
        · cases h; exact ⟨_, _, _, rfl, .inr ⟨_, _, rfl⟩⟩
        · cases h; exact ⟨_, _, _, rfl, .inl rfl⟩
      · cases h

theorem eWrite_otp {r : EReg} {v : Word} (h : eWrite cfg r v u = .ok u') : u'.otp = u.otp := by
  obtain ⟨-, _, rfl | rfl | rfl | rfl⟩ := eWrite_cases h <;> rfl

theorem emacStep_otp (h : emacStep cfg u = .ok u') : u'.otp = u.otp ∨ ∃ w k, u'.otp = otpSetBit u.otp w k := by
  obtain rfl | ⟨-, _, _, _, rfl, hm⟩ := emacStep_cases h
  · exact .inl rfl
  · exact hm

end EMoves

/-! ## The moves of an SPI unit, case by case -/

section SMoves
variable {cfg : Config.Params} {u v : SpiUnit}

/-- A register write that is made stores TRAN_NUM, empties the FIFO, clears INT_STS, or, while `GO_BUSY` is 0, stores a
word of one of the five classes, which with `GO_BUSY` arms SHIFT (R41 to R45, R174). -/
theorem sWrite_cases {r : SReg} {w : Word} (h : sWrite cfg r w u = .ok v) :
    ∃ c tr, v = { u with ctl := c, trace := tr } ∧
      (c = { u.ctl with tranNum := w } ∨ c = { u.ctl with fifo := [] } ∨ c = { u.ctl with intSts := 0#32 } ∨
        goBusy cfg u.ctl.tranCsr = false ∧ ∃ cls, tranClassOf cfg w = some cls ∧
          (goBusy cfg w = true ∧
              c = { u.ctl with tranCsr := w, xfer := some (armed cfg cls w u.ctl.tranNum),
                               rxLeft := (armed cfg cls w u.ctl.tranNum).toRecv } ∨
            goBusy cfg w = false ∧ c = { u.ctl with tranCsr := w })) := by
  cases r with
  | fifoPort => cases h
  | tranNum => cases h; exact ⟨_, _, rfl, .inl rfl⟩
  | fifoPt =>
    rw [sWrite] at h
    split at h
    · cases h; exact ⟨_, _, rfl, .inr (.inl rfl)⟩
    · cases h
  | intSts =>
    rw [sWrite] at h
    split at h
    · next hw => subst hw; cases h; exact ⟨_, _, rfl, .inr (.inr (.inl rfl))⟩
    · cases h
  | tranCsr =>
    rw [sWrite] at h
    split at h
    · cases h
    · next hb =>
      split at h
      · cases h
      · next cls hcls =>
        have hb : goBusy cfg u.ctl.tranCsr = false := by simpa using hb
        split at h
        · next hg => cases h; exact ⟨_, _, rfl, .inr (.inr (.inr ⟨hb, cls, hcls, .inl ⟨hg, rfl⟩⟩))⟩
        · next hg => cases h; exact ⟨_, _, rfl, .inr (.inr (.inr ⟨hb, cls, hcls, .inr ⟨by simpa using hg, rfl⟩⟩))⟩

theorem fifoPop_cases {b : Byte} (h : fifoPop cfg u = .ok b v) :
    ∃ f n tr, v = { u with ctl := refreshRdFifo cfg { u.ctl with fifo := f, rxLeft := n }, trace := tr } := by
  unfold fifoPop at h
  split at h
  · cases h
  · cases h; exact ⟨_, _, _, rfl⟩

theorem shiftComplete_cases {x : Xfer} (h : shiftComplete cfg u x = .ok v) :
    ∃ p, partExecute cfg u.board u.part x.out = .ok p ∧
      v = { u with part := p,
                   ctl := { u.ctl with intSts := setTranDone cfg u.ctl.intSts, tranCsr := clearGo cfg u.ctl.tranCsr,
                                       xfer := none },
                   frames := u.frames ++ [⟨x.out, x.inp⟩] } := by
  unfold shiftComplete at h
  split at h
  · cases h
  · next p hp => cases h; exact ⟨p, hp, rfl⟩

/-- A step of SHIFT that is made does nothing, or, with `GO_BUSY` 1 and a transaction in flight, sends the head of the
FIFO or, once nothing is left to send, receives a byte (R178). -/
theorem shiftStep_cases (h : shiftStep cfg u = .ok v) :
    v = u ∨ goBusy cfg u.ctl.tranCsr = true ∧ ∃ x, u.ctl.xfer = some x ∧
      ((∃ b t, 0 < x.toSend ∧ u.ctl.fifo = b :: t ∧ shiftSend cfg u x b t = .ok v) ∨
        (x.toSend = 0 ∧ 0 < x.toRecv ∧ shiftRecv cfg u x = .ok v)) := by
  unfold shiftStep at h
  split at h
  · next he =>
    cases hx : u.ctl.xfer with
    | none => rw [hx] at h; cases h; exact .inl rfl
    | some x =>
      simp only [shiftEnabled, hx, Bool.and_eq_true] at he
      obtain ⟨hg, he⟩ := he
      rw [hx] at h
      dsimp only at h
      refine .inr ⟨hg, x, rfl, ?_⟩
      split at h
      · next hs =>
        cases hf : u.ctl.fifo with
        | nil => simp [hs, hf] at he
        | cons b t => rw [hf] at h; exact .inl ⟨b, t, hs, rfl, h⟩
      · next hs =>
        rw [if_neg hs, Bool.and_eq_true, decide_eq_true_eq] at he
        exact .inr ⟨by omega, he.1, h⟩
  · cases h; exact .inl rfl

theorem sWrite_board {r : SReg} {w : Word} (h : sWrite cfg r w u = .ok v) : v.board = u.board := by
  obtain ⟨_, _, rfl, -⟩ := sWrite_cases h
  rfl

theorem fifoPush_board {b : Byte} (h : fifoPush cfg b u = .ok v) : v.board = u.board := by
  rw [fifoPush_eq h]; rfl

theorem fifoPop_board {b : Byte} (h : fifoPop cfg u = .ok b v) : v.board = u.board := by
  obtain ⟨_, _, _, rfl⟩ := fifoPop_cases h
  rfl

theorem shiftComplete_board {x : Xfer} (h : shiftComplete cfg u x = .ok v) : v.board = u.board := by
  obtain ⟨_, -, rfl⟩ := shiftComplete_cases h
  rfl

theorem shiftSend_board {x : Xfer} {b : Byte} {t : List Byte} (h : shiftSend cfg u x b t = .ok v) :
    v.board = u.board := by
  unfold shiftSend at h
  dsimp only at h
  split at h
  · exact (shiftComplete_board h).trans rfl
  · cases h; rfl

theorem shiftRecv_board {x : Xfer} (h : shiftRecv cfg u x = .ok v) : v.board = u.board := by
  unfold shiftRecv at h
  split at h
  · cases h
  · dsimp only at h
    split at h
    · exact (shiftComplete_board h).trans rfl
    · cases h; rfl

theorem shiftStep_board (h : shiftStep cfg u = .ok v) : v.board = u.board := by
  obtain rfl | ⟨-, x, -, ⟨b, t, -, -, hs⟩ | ⟨-, -, hr⟩⟩ := shiftStep_cases h
  · rfl
  · exact shiftSend_board hs
  · exact shiftRecv_board hr

end SMoves

/-! ## The moves of a flash part -/

section PMoves

/-- `P` is kept by everything a frame can do to a flash part: a free value drawn, something started, the write-enable
latch written, the 4-byte mode entered (R202 to R209). -/
structure PClosed (cfg : Config.Params) (P : Part → Prop) : Prop where
  drawn : ∀ p, P p → P p.drawn
  start : ∀ p x, P p → P (partStart cfg p x)
  latch : ∀ p x, P p → P (p.putWel cfg x)
  mode4B : ∀ p, P p → P p.enterMode4B

variable {cfg : Config.Params} {board : Config.SpiBoard} {P : Part → Prop} {p q : Part}

theorem PClosed.perhaps (hP : PClosed cfg P) {f : Part → Part} (hf : ∀ r, P r → P (f r)) (hp : P p) :
    P (p.perhaps board f) := by
  unfold Part.perhaps
  split
  · exact hf _ (hP.drawn p hp)
  · exact hP.drawn p hp

theorem PClosed.simple (hP : PClosed cfg P) {args : List Byte} {f : Part → Part} (hf : ∀ r, P r → P (f r)) (hp : P p)
    (h : partSimple cfg board p args f = .ok q) : P q := by
  unfold partSimple at h
  split at h
  · cases h
  · split at h
    · cases h; exact hf p hp
    · cases h; exact hP.perhaps hf hp

theorem PClosed.begin (hP : PClosed cfg P) {go : Except Stop (Part × Pending)} (hg : ∀ r x, go = .ok (r, x) → P r)
    (hp : P p) (h : partBegin cfg p go = .ok q) : P q := by
  unfold partBegin at h
  split at h
  · cases h
  · split at h
    · cases h; exact hp
    · split at h
      · cases h
      · next r x => cases h; exact hP.start r x (hg r x rfl)

theorem PClosed.eraseChip (hP : PClosed cfg P) (hp : P p) : P (p.eraseChip cfg) := by
  unfold Part.eraseChip
  split
  · exact hP.start p _ hp
  · exact hp

theorem PClosed.programNothing (hP : PClosed cfg P) (a : Nat) (hp : P p) : P (p.programNothing cfg a) := by
  unfold Part.programNothing
  split
  · exact hP.start p _ hp
  · exact hp

theorem PClosed.programStart (hP : PClosed cfg P) (a : Nat) (data : List Byte) (hp : P p) :
    P (programStart cfg board p a data).1 := by
  dsimp only [Machine.programStart]
  split
  · exact hp
  · exact hP.drawn p hp

theorem PClosed.eraseStart (hP : PClosed cfg P) (n a : Nat) (hp : P p) : P (eraseStart board p n a).1 := by
  unfold Machine.eraseStart
  split
  · exact hp
  · exact hP.drawn p hp

theorem PClosed.program (hP : PClosed cfg P) {n : Nat} {args : List Byte} (hp : P p)
    (h : partProgram cfg board p n args = .ok q) : P q := by
  unfold partProgram at h
  split at h
  · cases h
  · next a _ =>
    split at h
    · split at h
      · cases h
      · cases h; exact hP.perhaps (fun _ => hP.programNothing a) hp
    · refine hP.begin (fun r x he => ?_) hp h
      split at he
      · cases he
      · rw [← (Prod.mk.inj (Except.ok.inj he)).1]
        exact hP.programStart a _ hp

theorem PClosed.erase (hP : PClosed cfg P) {n : Nat} {args : List Byte} {unit : Nat → Except Stop Nat} (hp : P p)
    (h : partErase cfg board p n args unit = .ok q) : P q := by
  unfold partErase at h
  split at h
  · cases h
  · next a _ =>
    refine hP.begin (fun r x he => ?_) hp h
    split at he
    · cases he
    · next m _ =>
      rw [← (Prod.mk.inj (Except.ok.inj he)).1]
      exact hP.eraseStart m a hp

theorem PClosed.statusWrite (hP : PClosed cfg P) {args : List Byte} (hp : P p)
    (h : partStatusWrite cfg board p args = .ok q) : P q := by
  refine hP.begin (fun r x he => ?_) hp h
  split at he
  · cases he; exact hp
  · cases he; exact hP.drawn p hp

/-- What a frame has executed keeps what its moves keep (R212). -/
theorem PClosed.execute (hP : PClosed cfg P) {out : List Byte} (hp : P p) (h : partExecute cfg board p out = .ok q) :
    P q := by
  unfold partExecute at h
  split at h
  · cases h
  split at h
  · cases h
  next b args =>
  cases hc : cfg.cmdOf b with
  | none => rw [hc] at h; cases h
  | some c =>
    rw [hc] at h
    cases c with
    | rdid => rw [partSent_eq h]; exact hp
    | rdsr => cases h; exact hp
    | read => rw [partSent_eq h]; exact hp
    | read4b => rw [partSent_eq h]; exact hp
    | wrsr => exact hP.statusWrite hp h
    | wren => exact hP.simple (fun r => hP.latch r true) hp h
    | wrdi => exact hP.simple (fun r => hP.latch r false) hp h
    | en4b => exact hP.simple hP.mode4B hp h
    | ce => exact hP.simple (fun _ => hP.eraseChip) hp h
    | pp => exact hP.program hp h
    | pp4b => exact hP.program hp h
    | be4k => exact hP.erase hp h
    | be4k4b => exact hP.erase hp h
    | se => exact hP.erase hp h
    | se4b => exact hP.erase hp h

/-- A byte sent leaves the part as it was, or with a free value drawn (R206, R212; log 43). -/
theorem partAnswer_part {c : NorCmd} {a i : Nat} {b : Byte} (h : partAnswer cfg board p c a i = .ok (b, q)) :
    q = p ∨ q = p.drawn := by
  have hread : ∀ {x : Byte} {e : Stop} {y : Prop} [Decidable y],
      (if y then Except.ok (x, p) else .error e) = .ok (b, q) → q = p := by
    intro x e y _ hy
    split at hy
    · cases hy; rfl
    · cases hy
  cases c with
  | rdid | rdsr => cases h; exact .inl rfl
  | read | read4b => exact .inl (hread h)
  | _ => cases h; exact .inr rfl

theorem PClosed.readByte (hP : PClosed cfg P) {out : List Byte} {i : Nat} {b : Byte} (hp : P p)
    (h : partReadByte cfg board p out i = .ok (b, q)) : P q := by
  unfold partReadByte at h
  split at h
  · cases h
  split at h
  · cases h
  split at h
  · cases h
  split at h
  · cases h
  split at h
  · cases h
  obtain rfl | rfl := partAnswer_part h
  · exact hp
  · exact hP.drawn p hp

end PMoves

/-! ## The configuration (R50, R59) -/

theorem eClosed_config (cfg : Config.Params) (u : EfuseUnit) :
    EClosed cfg fun v => v.ctl = u.ctl ∧ v.wordsSet = u.wordsSet where
  write r x v v' hv h := by obtain ⟨-, _, rfl | rfl | rfl | rfl⟩ := eWrite_cases h <;> exact hv
  emac v v' hv h := by obtain rfl | ⟨-, _, _, _, rfl, -⟩ := emacStep_cases h <;> exact hv
  sched _ _ hv := hv
  work _ _ hv := hv
  draws _ _ hv := hv
  trace _ _ hv := hv

theorem sClosed_board (cfg : Config.Params) (u : SpiUnit) : SClosed cfg fun v => v.board = u.board where
  write _ _ _ _ hv h := (sWrite_board h).trans hv
  push _ _ _ hv h := (fifoPush_board h).trans hv
  pop _ _ _ hv h := (fifoPop_board h).trans hv
  shift _ _ hv h := (shiftStep_board h).trans hv
  part _ hv := hv
  power _ hv := hv
  phase _ _ hv := hv
  sched _ _ hv := hv
  work _ _ hv := hv
  draws _ _ hv := hv
  record _ _ hv := hv
  reset _ hv := hv

theorem EReach.config {cfg : Config.Params} {u v : EfuseUnit} (h : EReach cfg u v) :
    v.ctl = u.ctl ∧ v.wordsSet = u.wordsSet :=
  h _ (eClosed_config cfg u) ⟨rfl, rfl⟩

theorem EReach.words {cfg : Config.Params} {u v : EfuseUnit} (h : EReach cfg u v) : v.words = u.words := by
  obtain ⟨hctl, hset⟩ := h.config
  rw [EfuseUnit.words, EfuseUnit.words, hctl, hset]

theorem SReach.board {cfg : Config.Params} {u v : SpiUnit} (h : SReach cfg u v) : v.board = u.board :=
  h _ (sClosed_board cfg u) rfl

/-- Settles O12: no primitive move of a unit touches what it is configured with (`EReach.config`, `SReach.board`). -/
theorem configurationNeverChanges : Obligations.ConfigurationNeverChanges := by
  unfold Obligations.ConfigurationNeverChanges
  intro s t h
  obtain ⟨hefuse, hspi, hcfg⟩ := step_moves h
  exact ⟨hcfg, forall2_map_eq (hefuse.imp fun _ _ hr => hr.config.1),
    forall2_map_eq (hefuse.imp fun _ _ hr => hr.words), forall2_map_eq (hspi.imp fun _ _ hr => hr.board)⟩

/-! ## The ones of OTP (R48, R136) -/

/-- An OTP array in canonical form that has every 1 of another. -/
def OtpGrown (m m' : Memory) : Prop :=
  Memory.wf Config.freshOtpByte m' = true ∧ ∀ o k, otpBit m o k = true → otpBit m' o k = true

theorem OtpGrown.refl {m : Memory} (h : Memory.wf Config.freshOtpByte m = true) : OtpGrown m m := ⟨h, fun _ _ hk => hk⟩

theorem OtpGrown.setBit {m m' : Memory} (h : OtpGrown m m') (w k : Nat) : OtpGrown m (otpSetBit m' w k) := by
  obtain ⟨hwf, hones⟩ := h
  refine ⟨otpSetBit_wf hwf w k, fun o j hj => ?_⟩
  have hlt : j < 8 := BitVec.lt_of_getLsbD hj
  rw [otpBit_otpSetBit hwf w k o j hlt, hones o j hj, Bool.true_or]

theorem eClosed_otpGrown (cfg : Config.Params) (m : Memory) : EClosed cfg fun v => OtpGrown m v.otp where
  write _ _ _ _ hv h := by rw [eWrite_otp h]; exact hv
  emac _ _ hv h := by
    obtain e | ⟨w, k, e⟩ := emacStep_otp h
    · rw [e]; exact hv
    · rw [e]; exact hv.setBit w k
  sched _ _ hv := hv
  work _ _ hv := hv
  draws _ _ hv := hv
  trace _ _ hv := hv

/-- Settles O10: the only move that writes OTP is EMAC's, and it sets a bit (`eClosed_otpGrown`). -/
theorem otpOnlyGainsOnes : Obligations.OtpOnlyGainsOnes := by
  unfold Obligations.OtpOnlyGainsOnes
  intro s t b u v h hu hv hwf
  have hr : EReach s.cfg u v := (step_moves h).efuse_reach hu hv
  exact (hr _ (eClosed_otpGrown s.cfg u.otp) (OtpGrown.refl hwf)).2

/-! ## The invariant of engine E (R32, R34, R38, R48) -/

theorem EfuseUnit.Inv.write {cfg : Config.Params} {r : EReg} {v : Word} {u u' : EfuseUnit} (hu : u.Inv cfg)
    (h : eWrite cfg r v u = .ok u') : u'.Inv cfg := by
  obtain ⟨hready, hbusy, hidle, hwf⟩ := hu
  obtain ⟨hb, _, rfl | rfl | rfl | rfl⟩ := eWrite_cases h
  · exact ⟨hready, hbusy, hidle, hwf⟩
  · refine ⟨?_, fun h => ?_, fun _ => ⟨rfl, by simp⟩, hwf⟩
    · simp [eRead, hb]
    · rw [hb] at h; cases h
  · exact ⟨by simp [eRead], fun _ => .inl ⟨rfl, rfl⟩, nofun, hwf⟩
  · exact ⟨by simp [eRead], fun _ => .inr ⟨rfl, rfl⟩, nofun, hwf⟩

theorem EfuseUnit.Inv.emac {cfg : Config.Params} {u u' : EfuseUnit} (hu : u.Inv cfg) (h : emacStep cfg u = .ok u') :
    u'.Inv cfg := by
  obtain ⟨-, hbusy, -, hwf⟩ := id hu
  obtain rfl | ⟨hb, m, d, n, rfl, hm⟩ := emacStep_cases h
  · exact hu
  · refine ⟨?_, nofun, fun _ => ⟨rfl, ?_⟩, ?_⟩
    · exact efuseReady_left cfg u.mode
    · show modeLeft cfg u.mode ∈ _
      obtain ⟨hmode, -⟩ | ⟨hmode, -⟩ := hbusy hb <;> simp [hmode]
    · obtain rfl | ⟨w, k, rfl⟩ := hm
      · exact hwf
      · exact otpSetBit_wf hwf w k

theorem eClosed_inv (cfg : Config.Params) : EClosed cfg (EfuseUnit.Inv cfg) where
  write _ _ _ _ hu h := hu.write h
  emac _ _ hu h := hu.emac h
  sched _ _ hu := hu
  work _ _ hu := hu
  draws _ _ hu := hu
  trace _ _ hu := hu

/-! ## The invariant of a part (R37, R49) -/

section PartInv
variable {cfg : Config.Params} {p : Part}

theorem pClosed_inv (cfg : Config.Params) : PClosed cfg (Part.Inv cfg) where
  drawn _ hp := hp
  start p _ hp := ⟨wip_setWip cfg p.sr, hp.2⟩
  latch p x hp := ⟨(wip_putWel cfg p.sr x).trans hp.1, hp.2⟩
  mode4B _ hp := hp

theorem applyPending_wf (hp : Memory.wf cfg.erasedByte p.flash = true) (x : Pending) :
    Memory.wf cfg.erasedByte (applyPending cfg p x).flash = true := by
  cases x with
  | program a data => exact flashProgram_wf hp a data
  | eraseUnit a n => exact memClear_memory_wf hp a n
  | eraseAll => exact memWf_nil _
  | statusWrite v => exact hp

theorem Part.Inv.step (hp : p.Inv cfg) : (partStep cfg p).Inv cfg := by
  obtain ⟨hwip, hwf⟩ := hp
  unfold partStep
  split
  · refine ⟨wip_clearBusy cfg _, ?_⟩
    show Memory.wf cfg.erasedByte (applyPending? cfg p).flash = true
    unfold applyPending?
    split
    · exact hwf
    · exact applyPending_wf hwf _
  · exact ⟨hwip, hwf⟩

theorem Part.Inv.power (hp : p.Inv cfg) : (partPowerCycle cfg p).Inv cfg := ⟨wip_clearBusy cfg _, hp.2⟩

end PartInv

/-! ## The invariant of an SPI controller (R35, R36, R41, R174, R178) -/

/-- What `SpiUnit.Inv` says of TRAN_CSR: 0 or a word of the five classes. -/
def TranLegal (cfg : Config.Params) (v : Word) : Prop := v = 0#32 ∨ (tranClassOf cfg v).isSome = true

/-- What `SpiUnit.Inv` says of INT_STS: no bit is set but the two fields. -/
def IntLegal (cfg : Config.Params) (v : Word) : Prop := v &&& ~~~intMask cfg = 0#32

/-- What `SpiUnit.Inv` says of the controller (`SpiUnit.inv_iff`). -/
structure SpiCtl.Inv (cfg : Config.Params) (c : SpiCtl) : Prop where
  word : TranLegal cfg c.tranCsr
  busy : goBusy cfg c.tranCsr = c.xfer.isSome
  xfer : ∀ x, c.xfer = some x → x.Inv
  bits : IntLegal cfg c.intSts

theorem SpiUnit.inv_iff {cfg : Config.Params} {u : SpiUnit} : u.Inv cfg ↔ u.ctl.Inv cfg ∧ u.part.Inv cfg :=
  ⟨fun ⟨hword, hbusy, hxfer, hbits, hpart⟩ => ⟨⟨hword, hbusy, hxfer, hbits⟩, hpart⟩,
    fun ⟨⟨hword, hbusy, hxfer, hbits⟩, hpart⟩ => ⟨hword, hbusy, hxfer, hbits, hpart⟩⟩

section CtlInv
variable {cfg : Config.Params} {c : SpiCtl}

theorem TranLegal.clearGo {v : Word} (h : TranLegal cfg v) : TranLegal cfg (clearGo cfg v) := by
  obtain rfl | h := h
  · exact .inl (BitVec.zero_and)
  · exact .inr (by rw [tranClassOf_clearGo cfg v h]; exact h)

theorem IntLegal.setTranDone {v : Word} (h : IntLegal cfg v) : IntLegal cfg (setTranDone cfg v) :=
  (setTranDone_reserved cfg v).trans h

theorem Xfer.inv_armed (cls : TranClass) (w num : Word) : (armed cfg cls w num).Inv :=
  ⟨by simp only [armed]; omega, rfl, fun _ => rfl⟩

theorem SpiCtl.inv_reset : SpiCtl.reset.Inv cfg := ⟨.inl rfl, goBusy_zero cfg, nofun, BitVec.zero_and⟩

/-- The invariant does not read the FIFO, TRAN_NUM, the phase, or how much is left to pop. -/
theorem SpiCtl.Inv.congr {c' : SpiCtl} (h : c.Inv cfg) (hcsr : c'.tranCsr = c.tranCsr) (hxfer : c'.xfer = c.xfer)
    (hbits : IntLegal cfg c'.intSts) : c'.Inv cfg :=
  ⟨hcsr ▸ h.word, by rw [hcsr, hxfer]; exact h.busy, by rw [hxfer]; exact h.xfer, hbits⟩

theorem SpiCtl.Inv.refresh (h : c.Inv cfg) : (refreshRdFifo cfg c).Inv cfg :=
  h.congr rfl rfl ((refreshRdFifo_reserved cfg c).trans h.bits)

theorem SpiCtl.Inv.write {r : SReg} {w : Word} {u v : SpiUnit} (hu : u.ctl.Inv cfg) (h : sWrite cfg r w u = .ok v) :
    v.ctl.Inv cfg := by
  obtain ⟨_, _, rfl, rfl | rfl | rfl | ⟨hb, cls, hcls, ⟨hg, rfl⟩ | ⟨hg, rfl⟩⟩⟩ := sWrite_cases h
  · exact hu.congr rfl rfl hu.bits
  · exact hu.congr rfl rfl hu.bits
  · exact hu.congr rfl rfl BitVec.zero_and
  · refine ⟨.inr (by rw [hcls]; rfl), hg, fun x hx => ?_, hu.bits⟩
    cases hx
    exact Xfer.inv_armed cls w _
  · exact ⟨.inr (by rw [hcls]; rfl), by rw [hg, ← hb]; exact hu.busy, hu.xfer, hu.bits⟩

/-- SHIFT has moved a byte and the transaction goes on. -/
theorem SpiCtl.Inv.moved {x : Xfer} (h : c.Inv cfg) (hg : goBusy cfg c.tranCsr = true) (hx : x.Inv) (f : List Byte) :
    SpiCtl.Inv cfg { c with fifo := f, xfer := some x } :=
  ⟨h.word, hg, fun _ e => Option.some.inj e ▸ hx, h.bits⟩

end CtlInv

/-! ## The invariant of an SPI unit -/

section SpiInv
variable {cfg : Config.Params} {u v : SpiUnit} {x : Xfer}

/-- COMPLETE restores the invariant whatever is left of the transaction in flight (R178). -/
theorem SpiUnit.inv_shiftComplete (hword : TranLegal cfg u.ctl.tranCsr) (hbits : IntLegal cfg u.ctl.intSts)
    (hpart : u.part.Inv cfg) (h : shiftComplete cfg u x = .ok v) : v.Inv cfg := by
  obtain ⟨p, hp, rfl⟩ := shiftComplete_cases h
  exact SpiUnit.inv_iff.2 ⟨⟨hword.clearGo, goBusy_clearGo cfg _, nofun, hbits.setTranDone⟩,
    (pClosed_inv cfg).execute hpart hp⟩

theorem SpiUnit.Inv.send {b : Byte} {t : List Byte} (hu : u.Inv cfg) (hg : goBusy cfg u.ctl.tranCsr = true)
    (hx : u.ctl.xfer = some x) (hs : 0 < x.toSend) (h : shiftSend cfg u x b t = .ok v) : v.Inv cfg := by
  obtain ⟨hctl, hpart⟩ := SpiUnit.inv_iff.1 hu
  obtain ⟨-, hlen, hrecvd⟩ := hctl.xfer x hx
  unfold shiftSend at h
  dsimp only at h
  split at h
  · refine SpiUnit.inv_shiftComplete ?_ ?_ ?_ h
    · exact hctl.word
    · exact hctl.bits
    · exact hpart
  · next hleft =>
    cases h
    have hy : Xfer.Inv { x with out := x.out ++ [b], toSend := x.toSend - 1 } :=
      ⟨by dsimp only; omega, hlen, fun _ => hrecvd hs⟩
    exact SpiUnit.inv_iff.2 ⟨hctl.moved hg hy t, hpart⟩

theorem SpiUnit.Inv.recv (hu : u.Inv cfg) (hg : goBusy cfg u.ctl.tranCsr = true) (hx : u.ctl.xfer = some x)
    (hs : x.toSend = 0) (h : shiftRecv cfg u x = .ok v) : v.Inv cfg := by
  obtain ⟨hctl, hpart⟩ := SpiUnit.inv_iff.1 hu
  obtain ⟨-, hlen, -⟩ := hctl.xfer x hx
  unfold shiftRecv at h
  split at h
  · cases h
  · next b p hread =>
    have hp : p.Inv cfg := (pClosed_inv cfg).readByte hpart hread
    dsimp only at h
    split at h
    · refine SpiUnit.inv_shiftComplete ?_ ?_ ?_ h
      · exact hctl.word
      · exact (refreshRdFifo_reserved cfg _).trans hctl.bits
      · exact hp
    · next hleft =>
      cases h
      have hy : Xfer.Inv { x with recvd := x.recvd + 1, toRecv := x.toRecv - 1, inp := x.inp ++ [b] } :=
        ⟨by dsimp only at hleft ⊢; omega, by simp [hlen], fun h => absurd h (by dsimp only; omega)⟩
      exact SpiUnit.inv_iff.2 ⟨(hctl.moved hg hy _).refresh, hp⟩

theorem SpiUnit.Inv.shift (hu : u.Inv cfg) (h : shiftStep cfg u = .ok v) : v.Inv cfg := by
  obtain rfl | ⟨hg, x, hx, ⟨b, t, hs, -, hsend⟩ | ⟨hs, -, hrecv⟩⟩ := shiftStep_cases h
  · exact hu
  · exact hu.send hg hx hs hsend
  · exact hu.recv hg hx hs hrecv

theorem SpiUnit.Inv.write {r : SReg} {w : Word} (hu : u.Inv cfg) (h : sWrite cfg r w u = .ok v) : v.Inv cfg := by
  obtain ⟨hctl, hpart⟩ := SpiUnit.inv_iff.1 hu
  have hctl' : v.ctl.Inv cfg := hctl.write h
  obtain ⟨_, _, rfl, -⟩ := sWrite_cases h
  exact SpiUnit.inv_iff.2 ⟨hctl', hpart⟩

theorem SpiUnit.Inv.push {b : Byte} (hu : u.Inv cfg) (h : fifoPush cfg b u = .ok v) : v.Inv cfg := by
  rw [fifoPush_eq h]
  exact hu

theorem SpiUnit.Inv.pop {b : Byte} (hu : u.Inv cfg) (h : fifoPop cfg u = .ok b v) : v.Inv cfg := by
  obtain ⟨hctl, hpart⟩ := SpiUnit.inv_iff.1 hu
  obtain ⟨f, n, _, rfl⟩ := fifoPop_cases h
  exact SpiUnit.inv_iff.2 ⟨SpiCtl.Inv.refresh (hctl.congr rfl rfl hctl.bits), hpart⟩

theorem SpiUnit.Inv.withPart {p : Part} (hu : u.Inv cfg) (hp : p.Inv cfg) : SpiUnit.Inv cfg { u with part := p } :=
  SpiUnit.inv_iff.2 ⟨(SpiUnit.inv_iff.1 hu).1, hp⟩

theorem SpiUnit.Inv.part (hu : u.Inv cfg) : u.part.Inv cfg := (SpiUnit.inv_iff.1 hu).2

theorem sClosed_inv (cfg : Config.Params) : SClosed cfg (SpiUnit.Inv cfg) where
  write _ _ _ _ hu h := hu.write h
  push _ _ _ hu h := hu.push h
  pop _ _ _ hu h := hu.pop h
  shift _ _ hu h := hu.shift h
  part _ hu := hu.withPart hu.part.step
  power _ hu := hu.withPart hu.part.power
  phase _ _ hu := hu
  sched _ _ hu := hu
  work _ _ hu := hu
  draws _ _ hu := hu
  record _ _ hu := hu
  reset _ hu := SpiUnit.inv_iff.2 ⟨SpiCtl.inv_reset, hu.part⟩

end SpiInv

theorem Moves.inv {s t : State} (h : Moves s t) (hs : s.Inv) : t.Inv := by
  obtain ⟨hefuse, hspi⟩ := hs
  obtain ⟨-, -, hcfg⟩ := id h
  rw [State.Inv, hcfg]
  exact ⟨h.efuse_all (eClosed_inv s.cfg) hefuse, h.spi_all (sClosed_inv s.cfg) hspi⟩

/-- Settles O7: every primitive move of a unit keeps its invariant (`eClosed_inv`, `sClosed_inv`), and a step is made of
such moves (`step_moves`). -/
theorem everyStepKeepsTheInvariant : Obligations.EveryStepKeepsTheInvariant := by
  unfold Obligations.EveryStepKeepsTheInvariant
  intro s t hs h
  exact (step_moves h).inv hs

/-! ## Power-on and the reset of `NOR.SETUP` (R55 to R58, R222, R282) -/

section PowerOn
variable (cfg : Config.Params)

theorem wip_partReset (b : FlashBoard) : wip cfg (Part.reset cfg b).sr = false := wip_clearBusy cfg b.sr0

theorem wel_partReset (b : FlashBoard) : wel cfg (Part.reset cfg b).sr = false := wel_clearBusy cfg b.sr0

theorem EfuseUnit.inv_reset {b : EfuseBoard} (h : Memory.wf Config.freshOtpByte b.otp0 = true) :
    (EfuseUnit.reset cfg b).Inv cfg :=
  ⟨efuseReady_idle cfg, nofun, fun _ => ⟨rfl, List.mem_cons_self⟩, h⟩

theorem SpiUnit.inv_reset {b : FlashBoard} (h : Memory.wf cfg.erasedByte b.flash0 = true) :
    (SpiUnit.reset cfg b).Inv cfg :=
  SpiUnit.inv_iff.2 ⟨SpiCtl.inv_reset, wip_partReset cfg b, h⟩

/-- A machine right after power-on meets the invariant, on every board whose arrays are in canonical form. -/
theorem State.inv_powerOn {es : List EfuseBoard} {fs : List FlashBoard}
    (he : ∀ b ∈ es, Memory.wf Config.freshOtpByte b.otp0 = true)
    (hf : ∀ b ∈ fs, Memory.wf cfg.erasedByte b.flash0 = true) : (State.powerOn cfg es fs).Inv :=
  ⟨List.forall_mem_map.2 fun b hb => EfuseUnit.inv_reset cfg (he b hb),
    List.forall_mem_map.2 fun b hb => SpiUnit.inv_reset cfg (hf b hb)⟩

variable {cfg}

theorem State.spi_powerOn_ctl {es : List EfuseBoard} {fs : List FlashBoard} {u : SpiUnit}
    (h : u ∈ (State.powerOn cfg es fs).spi) : u.ctl = SpiCtl.reset := by
  obtain ⟨_, -, rfl⟩ := List.mem_map.1 h
  rfl

variable {s t : State} {h : Option Word}

theorem reusable_some {i : Nat} {u : SpiUnit} (e : reusable s h = some (i, u)) : s.spi[i]? = some u := by
  unfold reusable at e
  split at e
  · cases e
  · split at e
    · cases e
    · next w hw =>
      split at e
      · cases e
      · cases e; exact hw

/-- A successful `NOR.SETUP` resets the controller of an index of the table and returns that index (R221). -/
theorem execNorSetup_success (e : execNorSetup h s = .next t) (ht : t.status = .success) :
    ∃ i u, i < s.spi.length ∧ t.outDev = BitVec.ofNat 32 i ∧ t.spi = s.spi.set i (resetController u) := by
  unfold execNorSetup at e
  split at e
  · next i u hr =>
    cases e
    obtain ⟨hi, -⟩ := List.getElem?_eq_some_iff.1 (reusable_some hr)
    exact ⟨i, u, hi, rfl, rfl⟩
  · dsimp only at e
    split at e
    · cases e; cases ht
    · next i _ =>
      split at e
      · cases e; cases ht
      · next u hu =>
        cases e
        obtain ⟨hi, -⟩ := List.getElem?_eq_some_iff.1 hu
        exact ⟨i, _, hi, rfl, rfl⟩

theorem execNorSetup_returned_ctl (hl : s.spi.length < 2 ^ 32) (e : execNorSetup h s = .next t)
    (ht : t.status = .success) {u : SpiUnit} (hu : t.spi[t.outDev.toNat]? = some u) : u.ctl = SpiCtl.reset := by
  obtain ⟨i, w, hi, hdev, hspi⟩ := execNorSetup_success e ht
  have hn : t.outDev.toNat = i := by
    rw [hdev, BitVec.toNat_ofNat, Nat.mod_eq_of_lt (hi.trans hl)]
  rw [hn, hspi, List.getElem?_set_self hi] at hu
  cases hu
  rfl

end PowerOn

/-- Settles O6: the arrays of the board of log 3 list nothing (`State.inv_powerOn`). -/
theorem invariantHoldsAtReset : Obligations.InvariantHoldsAtReset := by
  unfold Obligations.InvariantHoldsAtReset
  exact State.inv_powerOn defaultParams (by decide) (by decide)

/-- Settles O8: in each of the three cases the controller is `SpiCtl.reset`. -/
theorem spiControllerResetValues : Obligations.SpiControllerResetValues := by
  unfold Obligations.SpiControllerResetValues
  intro cfg u hu
  have hctl : u.ctl = SpiCtl.reset := by
    obtain hu | ⟨es, fs, hu⟩ | ⟨s, t, h, hl, he, ht, hu⟩ := hu
    · exact State.spi_powerOn_ctl hu
    · exact State.spi_powerOn_ctl hu
    · exact execNorSetup_returned_ctl hl he ht hu
  have hpt : sRead cfg .fifoPt u = 0#32 := by
    rw [sRead, hctl]
    exact BitVec.zero_shiftLeft _
  rw [hctl]
  exact ⟨rfl, goBusy_zero cfg, rfl, rfl, rfl, hpt, rfl, rfl⟩

/-- Settles O9, unit by unit of the machine that `driverStart` answers. -/
theorem powerOnValues : Obligations.PowerOnValues := by
  unfold Obligations.PowerOnValues
  refine ⟨fun cfg es fs k => ⟨_, rfl, rfl, rfl, ?_, ?_, ?_, ?_, ?_⟩, ⟨_, _, _, 0, rfl⟩, fun _ _ _ => rfl⟩
  · exact List.map_map
  · exact List.map_map
  · exact List.map_map
  · exact List.forall_mem_map.2 fun b _ => ⟨mode_idle_masked cfg, rfl, rfl⟩
  · exact List.forall_mem_map.2 fun b _ => ⟨wip_partReset cfg b, wel_partReset cfg b, rfl, rfl, rfl⟩

/-! ## Writes of TRAN_CSR (R41, R84, R107, R174) -/

section TranWrite
variable {cfg : Config.Params} {u : SpiUnit}

theorem sWrite_tranCsr_busy (w : Word) (hb : goBusy cfg u.ctl.tranCsr = true) :
    sWrite cfg .tranCsr w u = .error (.refuse .tranBusy) := by
  rw [sWrite, if_pos hb]

/-- What SHIFT has to move for a word of a class: the command byte, the address bytes, and `TRAN_NUM` bytes in the
direction of the class (R174). -/
theorem armed_tranWord (cls : TranClass) (n : BitVec 3) (go : Bool) (num : Word) :
    armed cfg cls (tranWord cfg cls n go) num =
      freshXfer cls (1 + n.toNat + if cls.tx then num.toNat else 0) (if cls.rx then num.toNat else 0) := by
  simp only [armed, freshXfer, tranAddrBytes_tranWord, tranTx, tranRx, tx_tranWord, rx_tranWord]

theorem sWrite_tranWord {cls : TranClass} {n : BitVec 3} (go : Bool) (hb : goBusy cfg u.ctl.tranCsr = false)
    (hn : cls.admits n = true) :
    sWrite cfg .tranCsr (tranWord cfg cls n go) u = .ok (u.tranWritten (tranWord cfg cls n go) go
      (freshXfer cls (1 + n.toNat + if cls.tx then u.ctl.tranNum.toNat else 0)
        (if cls.rx then u.ctl.tranNum.toNat else 0))) := by
  have hcls : tranClassOf cfg (tranWord cfg cls n go) = some cls := by rw [tranClassOf_tranWord, if_pos hn]
  rw [sWrite, if_neg (by simp [hb])]
  simp only [hcls, goBusy_tranWord, armed_tranWord]
  cases go <;> rfl

variable {s : State} {dev : Word}

theorem sRegisterWrite_stop {r : SReg} {w : Word} {x : Stop} (hu : s.spi[dev.toNat]? = some u)
    (hw : sWrite s.cfg r w u = .error x) : sRegisterWrite dev s r w = stopped x := by
  simp only [sRegisterWrite, hu, hw]

theorem sRegisterWrite_next {r : SReg} {w : Word} {u' : SpiUnit} (hu : s.spi[dev.toNat]? = some u)
    (hp : u.ctl.sphase = .idle) (hw : sWrite s.cfg r w u = .ok u') :
    sRegisterWrite dev s r w = .next { s with spi := s.spi.set dev.toNat u' } := by
  simp only [sRegisterWrite, hu, hw, hp, if_true]

theorem sRegisterWrite_tranBusy (w : Word) (hu : s.spi[dev.toNat]? = some u)
    (hb : goBusy s.cfg u.ctl.tranCsr = true) : sRegisterWrite dev s .tranCsr w = .refused .tranBusy :=
  sRegisterWrite_stop hu (sWrite_tranCsr_busy w hb)

theorem sRegisterWrite_tranWord {cls : TranClass} {n : BitVec 3} (go : Bool) (hu : s.spi[dev.toNat]? = some u)
    (hb : goBusy s.cfg u.ctl.tranCsr = false) (hp : u.ctl.sphase = .idle) (hn : cls.admits n = true) :
    sRegisterWrite dev s .tranCsr (tranWord s.cfg cls n go) = .next { s with spi := (s.spi.set dev.toNat
      (u.tranWritten (tranWord s.cfg cls n go) go
        (freshXfer cls (1 + n.toNat + if cls.tx then u.ctl.tranNum.toNat else 0)
          (if cls.rx then u.ctl.tranNum.toNat else 0)))) } :=
  sRegisterWrite_next hu hp (sWrite_tranWord go hb hn)

variable (dev s) (go : Bool) (n : BitVec 3)

theorem exec_tranRegrd :
    exec (.tranRegrd dev go) s = sRegisterWrite dev s .tranCsr (tranWord s.cfg .regrd 0#3 go) := rfl

theorem exec_tranRegwr :
    exec (.tranRegwr dev go) s = sRegisterWrite dev s .tranCsr (tranWord s.cfg .regwr 0#3 go) := rfl

theorem exec_tranDatard :
    exec (.tranDatard dev go n) s = sRegisterWrite dev s .tranCsr (tranWord s.cfg .datard n go) := rfl

theorem exec_tranDatawr :
    exec (.tranDatawr dev go n) s = sRegisterWrite dev s .tranCsr (tranWord s.cfg .datawr n go) := rfl

theorem exec_tranErase :
    exec (.tranErase dev go n) s = sRegisterWrite dev s .tranCsr (tranWord s.cfg .erase n go) := rfl

end TranWrite

/-- Settles O29: each of the five rows is one write of a word of its class (`sRegisterWrite_tranWord`). -/
theorem tranWritesArmShift : Obligations.TranWritesArmShift := by
  unfold Obligations.TranWritesArmShift
  intro s dev go u hu hb hp
  refine ⟨?_, ?_, fun n hn => ?_⟩
  · rw [exec_tranRegrd]
    exact sRegisterWrite_tranWord (cls := .regrd) go hu hb hp rfl
  · rw [exec_tranRegwr]
    exact sRegisterWrite_tranWord (cls := .regwr) go hu hb hp rfl
  · have hn : addrBytesLegal n = true := by obtain rfl | rfl := hn <;> rfl
    rw [exec_tranDatard, exec_tranDatawr, exec_tranErase]
    exact ⟨sRegisterWrite_tranWord (cls := .datard) go hu hb hp hn,
      sRegisterWrite_tranWord (cls := .datawr) go hu hb hp hn, sRegisterWrite_tranWord (cls := .erase) go hu hb hp hn⟩

/-- Settles O30: each of the five rows is a write of TRAN_CSR, which `GO_BUSY` forbids (`sRegisterWrite_tranBusy`). -/
theorem tranWriteWhileBusyIsRefused : Obligations.TranWriteWhileBusyIsRefused := by
  unfold Obligations.TranWriteWhileBusyIsRefused
  intro s dev go n u hu hb
  rw [exec_tranRegrd, exec_tranRegwr, exec_tranDatard, exec_tranDatawr, exec_tranErase]
  exact ⟨sRegisterWrite_tranBusy _ hu hb, sRegisterWrite_tranBusy _ hu hb, sRegisterWrite_tranBusy _ hu hb,
    sRegisterWrite_tranBusy _ hu hb, sRegisterWrite_tranBusy _ hu hb⟩

end Sys2Proof.Machine
end

section
/-! PROOF. The statements of the memory family: requests outside the arrays or over a page stop by name (R94, R95, R181
to R183, U19), and wait-ready of the part returns, times out or hangs (R90, R210, R216, R253, R256). -/

namespace Sys2Proof.Machine

open Sys2Proof

/-! ## Requests outside OTP (R94) -/

section OtpRange
variable {cfg : Config.Params} {u : EfuseUnit}

theorem eCheck_outside {w : Nat} (hl : widthLegal u.ctl.addressBits = true) (hw : u.words ≤ w) :
    eCheck w u = some (.fault .otpRange) := by
  rw [eCheck, if_neg (by simp [hl]), if_neg (Nat.not_lt.2 hw)]

theorem eRangeCheck_outside {off cnt : Nat} (hl : widthLegal u.ctl.addressBits = true)
    (hc : u.capacity < off + cnt) : eRangeCheck off cnt u = some (.fault .otpRange) := by
  rw [eRangeCheck, if_neg (by simp [hl]), if_neg (Nat.not_le.2 hc)]

theorem embeddedRead_stop {w : Nat} {x : Stop} (h : eCheck w u = some x) : embeddedRead cfg w u = .stop x := by
  rw [embeddedRead, h]

theorem embeddedSetBit_stop {w : Nat} (k : Nat) {x : Stop} (h : eCheck w u = some x) :
    embeddedSetBit cfg w k u = .stop x := by
  rw [embeddedSetBit, h]

theorem embeddedWrite_stop {w : Nat} (value : Word) {x : Stop} (h : eCheck w u = some x) :
    embeddedWrite cfg w value u = .stop x := by
  rw [embeddedWrite, h]

theorem efuseReadBytes_stop {off cnt : Word} {x : Stop} (h : eRangeCheck off.toNat cnt.toNat u = some x) :
    efuseReadBytes cfg off cnt u = .stop x := by
  rw [efuseReadBytes, h]

theorem efuseWriteBytes_stop {off cnt : Word} (data : List Byte) {x : Stop}
    (h : eRangeCheck off.toNat cnt.toNat u = some x) : efuseWriteBytes cfg off cnt data u = .stop x := by
  rw [efuseWriteBytes, h]

variable {s : State} {bus : Word}

/-- The bus of an existing controller is valid (R154). -/
theorem withBus_existing (hu : s.efuse[bus.toNat]? = some u) (go : Host.Outcome State Fault Refusal) :
    withBus bus s go = go := by
  obtain ⟨hlt, -⟩ := List.getElem?_eq_some_iff.1 hu
  rw [withBus, if_neg (Nat.not_le.2 hlt)]

variable (s bus)

theorem exec_efuseRdw (w : Word) :
    exec (.efuseRdw bus w) s = onEfuse bus s wordResult (embeddedRead s.cfg w.toNat) := rfl

theorem exec_efuseSetb (w : Word) (k : BitVec 5) :
    exec (.efuseSetb bus w k) s = onEfuse bus s noResult (embeddedSetBit s.cfg w.toNat k.toNat) := rfl

theorem exec_efuseWrw (w value : Word) :
    exec (.efuseWrw bus w value) s = onEfuse bus s noResult (embeddedWrite s.cfg w.toNat value) := rfl

theorem exec_efuseRdb (off cnt : Word) :
    exec (.efuseRdb bus off cnt) s = withBus bus s (onEfuse bus s noResult (efuseReadBytes s.cfg off cnt)) := rfl

theorem exec_efuseWrb (off cnt : Word) {data : List Byte} (hd : data.length = cnt.toNat) :
    exec (.efuseWrb bus off cnt data) s =
      withBus bus s (onEfuse bus s noResult (efuseWriteBytes s.cfg off cnt data)) :=
  if_neg (not_not.2 hd)

variable {s bus}

/-- No word primitive takes an index past the array (R94). -/
theorem exec_word_outside {w : Word} (value : Word) (k : BitVec 5) (hu : s.efuse[bus.toNat]? = some u)
    (hl : widthLegal u.ctl.addressBits = true) (hw : u.words ≤ w.toNat) :
    ∀ i ∈ [Instr.efuseRdw bus w, .efuseSetb bus w k, .efuseWrw bus w value], exec i s = .fault .otpRange := by
  have hc : eCheck w.toNat (u.load s.buf) = some (.fault .otpRange) := eCheck_outside hl hw
  simp only [List.forall_mem_cons, List.not_mem_nil, false_imp_iff, implies_true, and_true]
  refine ⟨?_, ?_, ?_⟩
  · rw [exec_efuseRdw]
    exact onEfuse_stop hu (embeddedRead_stop hc)
  · rw [exec_efuseSetb]
    exact onEfuse_stop hu (embeddedSetBit_stop _ hc)
  · rw [exec_efuseWrw]
    exact onEfuse_stop hu (embeddedWrite_stop _ hc)

/-- No byte operation takes a range past the array (R94). -/
theorem exec_bytes_outside {off cnt : Word} {data : List Byte} (hu : s.efuse[bus.toNat]? = some u)
    (hl : widthLegal u.ctl.addressBits = true) (hc : u.capacity < off.toNat + cnt.toNat)
    (hd : data.length = cnt.toNat) :
    ∀ i ∈ [Instr.efuseRdb bus off cnt, .efuseWrb bus off cnt data], exec i s = .fault .otpRange := by
  have hx : eRangeCheck off.toNat cnt.toNat (u.load s.buf) = some (.fault .otpRange) := eRangeCheck_outside hl hc
  simp only [List.forall_mem_cons, List.not_mem_nil, false_imp_iff, implies_true, and_true]
  refine ⟨?_, ?_⟩
  · rw [exec_efuseRdb, withBus_existing hu]
    exact onEfuse_stop hu (efuseReadBytes_stop hx)
  · rw [exec_efuseWrb s bus off cnt hd, withBus_existing hu]
    exact onEfuse_stop hu (efuseWriteBytes_stop data hx)

end OtpRange

/-! ## Requests outside FLASH or over a page (R95, R181 to R183, U19) -/

section FlashRange
variable {cfg : Config.Params} {u : SpiUnit} {info : Config.FlashInfo} {g : Resolved} {size addr len : Nat}

theorem dataCheck_pageCross (h : g.pageSize - addr % g.pageSize < len) :
    dataCheck g size addr len = some (.refuse .pageCross) := by
  rw [dataCheck, if_pos h]

theorem dataCheck_outside (hp : len ≤ g.pageSize - addr % g.pageSize)
    (hf : flashFits size g.addressByteCount addr (max len 1) = false) :
    dataCheck g size addr len = some (.fault .flashRange) := by
  rw [dataCheck, if_neg (Nat.not_lt.2 hp), if_neg (by simp [hf])]

theorem eraseCheck_outside
    (hf : flashFits size g.addressByteCount (alignDown g.granularity addr) g.granularity = false) :
    eraseCheck g size addr = some (.fault .flashRange) := by
  rw [eraseCheck, if_neg (by simp [hf])]

theorem readTransaction_stop {x : Stop} (hr : u.Resolves cfg info)
    (h : dataCheck (resolve cfg info) u.board.flashSize addr len = some x) :
    readTransaction cfg addr len u = .stop x := by
  rw [readTransaction, withResolved_eq hr, h]

theorem programTransaction_stop {payload : List Byte} {x : Stop} (hr : u.Resolves cfg info)
    (h : dataCheck (resolve cfg info) u.board.flashSize addr payload.length = some x) :
    programTransaction cfg addr payload u = .stop x := by
  rw [programTransaction, withResolved_eq hr, h]

theorem eraseTransaction_stop {x : Stop} (hr : u.Resolves cfg info)
    (h : eraseCheck (resolve cfg info) u.board.flashSize addr = some x) :
    eraseTransaction cfg addr u = .stop x := by
  rw [eraseTransaction, withResolved_eq hr, h]

theorem nonZero_of_ne {α : Type} (h : len ≠ 0) (r : Res SpiUnit α) : nonZero len u r = r := by
  rw [nonZero, if_neg h]

theorem inFlash_outside {α : Type} (h : flashFits u.board.flashSize g.addressByteCount addr len = false)
    (r : Res SpiUnit α) : inFlash g addr len u r = .stop (.fault .flashRange) := by
  rw [inFlash, if_neg (by simp [h])]

section Requests
variable (hi : u.Initialised cfg info) (hl : len ≠ 0)
  (hf : flashFits u.board.flashSize (resolve cfg info).addressByteCount addr len = false)
include hi hl hf

theorem norRead_outside : norRead cfg addr len u = .stop (.fault .flashRange) := by
  rw [norRead, withInited_eq hi, nonZero_of_ne hl, inFlash_outside hf]

theorem norWrite_outside (data : List Byte) : norWrite cfg addr len data u = .stop (.fault .flashRange) := by
  rw [norWrite, withInited_eq hi, nonZero_of_ne hl, inFlash_outside hf]

theorem norErase_outside (ha : addr % (resolve cfg info).granularity = 0) :
    norErase cfg addr len u = .stop (.fault .flashRange) := by
  rw [norErase, withInited_eq hi, nonZero_of_ne hl, if_neg (not_not.2 ha), inFlash_outside hf]

end Requests

variable (s : State) (dev : Word)

theorem exec_norRd (off n : Word) :
    exec (.norRd dev off n) s = onSpi dev s .absentDevice noResult (norRead s.cfg off.toNat n.toNat) := rfl

theorem exec_norWr (off n : Word) {data : List Byte} (hd : data.length = n.toNat) :
    exec (.norWr dev off n data) s =
      onSpi dev s .absentDevice noResult (norWrite s.cfg off.toNat n.toNat data) :=
  if_neg (not_not.2 hd)

theorem exec_norEr (off n : Word) :
    exec (.norEr dev off n) s = onSpi dev s .absentDevice noResult (norErase s.cfg off.toNat n.toNat) := rfl

theorem exec_spiXrd (a n : Word) :
    exec (.spiXrd dev a n) s = onSpi dev s .absentDevice noResult fun u =>
      (readTransaction s.cfg a.toNat n.toNat u).bind intoBuf := rfl

theorem exec_spiXpp (a n : Word) {data : List Byte} (hd : data.length = n.toNat) :
    exec (.spiXpp dev a n data) s = onSpi dev s .absentDevice noResult fun u =>
      programTransaction s.cfg a.toNat data (u.load data) :=
  if_neg (not_not.2 hd)

theorem exec_spiXer (a : Word) :
    exec (.spiXer dev a) s = onSpi dev s .absentDevice noResult (eraseTransaction s.cfg a.toNat) := rfl

variable {s dev}

/-- Both data transactions check their operands alike (R181, R182). -/
theorem exec_dataTransaction_stop {a n : Word} {data : List Byte} {x : Stop} (hu : s.spi[dev.toNat]? = some u)
    (hr : u.Resolves s.cfg info) (hd : data.length = n.toNat)
    (h : dataCheck (resolve s.cfg info) u.board.flashSize a.toNat n.toNat = some x) :
    ∀ i ∈ [Instr.spiXrd dev a n, .spiXpp dev a n data], exec i s = stopped x := by
  simp only [List.forall_mem_cons, List.not_mem_nil, false_imp_iff, implies_true, and_true]
  refine ⟨?_, ?_⟩
  · have hstop : readTransaction s.cfg a.toNat n.toNat (u.load s.buf) = .stop x := readTransaction_stop hr h
    rw [exec_spiXrd]
    exact onSpi_stop hu (by rw [hstop]; rfl)
  · rw [exec_spiXpp s dev a n hd]
    refine onSpi_stop hu (programTransaction_stop (info := info) hr ?_)
    rw [hd]
    exact h

end FlashRange

/-- Settles O59: the range checks of each engine stop the operation before its first access (`exec_word_outside`,
`exec_bytes_outside`, `exec_dataTransaction_stop`, `norErase_outside`). -/
theorem requestsOutsideTheirBoundsStop : Obligations.RequestsOutsideTheirBoundsStop := by
  unfold Obligations.RequestsOutsideTheirBoundsStop
  refine ⟨fun s bus w off cnt value k data u hu hl => ⟨exec_word_outside value k hu hl, exec_bytes_outside hu hl⟩,
    fun s dev off len data u info hu hr hd => ⟨fun hf => ⟨fun hi hne => ?_, fun hi hne ha => ?_⟩, fun hf hp => ?_,
      fun hp => ?_, fun hf => ?_⟩⟩
  · have hne : len.toNat ≠ 0 := (BitVec.toNat_ne_iff_ne (y := 0#32)).2 hne
    simp only [List.forall_mem_cons, List.not_mem_nil, false_imp_iff, implies_true, and_true]
    rw [exec_norRd, exec_norWr s dev off len hd]
    exact ⟨onSpi_stop hu (norRead_outside (u := u.load s.buf) hi hne hf),
      onSpi_stop hu (norWrite_outside (u := u.load s.buf) hi hne hf data)⟩
  · have hne : len.toNat ≠ 0 := (BitVec.toNat_ne_iff_ne (y := 0#32)).2 hne
    rw [exec_norEr]
    exact onSpi_stop hu (norErase_outside (u := u.load s.buf) hi hne hf ha)
  · exact exec_dataTransaction_stop hu hr hd (dataCheck_outside hp hf)
  · exact exec_dataTransaction_stop hu hr hd (dataCheck_pageCross hp)
  · rw [exec_spiXer]
    exact onSpi_stop hu (eraseTransaction_stop (u := u.load s.buf) hr (eraseCheck_outside hf))

/-! ## Wait-ready of the part (R210, R253, R256) -/

section WaitReady
variable {s : State} {dev : Word} {u : SpiUnit}

/-- A sequence that hangs (R256): HOST spins, and the working registers are not retired. -/
theorem onSpi_hang {α : Type} {m : Refusal} {k : α → State → State} {f : SpiUnit → Res SpiUnit α} {v : SpiUnit}
    {q : HangKind} (hu : s.spi[dev.toNat]? = some u) (h : f (u.load s.buf) = .hang q v) :
    onSpi dev s m k f =
      .next { s with spi := s.spi.set dev.toNat v, buf := v.work.buf, host := .spinning (q.site dev.toNat) } := by
  simp only [onSpi, hu, h, returnS]

theorem exec_norWaitrdy (s : State) (dev : Word) :
    exec (.norWaitrdy dev) s = onSpi dev s .absentDevice noResult (waitReady s.cfg) := rfl

/-- The caller's `BUF` makes no difference to a unit whose part never completes. -/
theorem SpiUnit.PartStuck.load {cfg : Config.Params} (h : u.PartStuck cfg) (b : List Byte) :
    (u.load b).PartStuck cfg :=
  ⟨h.idle, h.live, h.sched, h.cut, h.busy⟩

/-- A unit after status reads alone, on a part that is as it was and still executing (R210). -/
structure SpiUnit.Waited (cfg : Config.Params) (u v : SpiUnit) : Prop where
  idle : v.idle cfg = true
  part : v.part = u.part
  record : v.record = u.record
  polled : ∃ fs, v.frames = u.frames ++ fs ∧ fs ≠ [] ∧ ∀ f ∈ fs, f = ⟨[cfg.op .rdsr], [u.part.sr]⟩

/-- How a wait-ready ends on a unit whose part never completes; `BUF` is the caller's still (R210, R253, R256). -/
theorem waitReady_waited {cfg : Config.Params} {r : NorDevice} (hr : u.record = some r) (h : u.PartStuck cfg)
    (hdep : 8 ≤ cfg.fifoDepth) (b : List Byte) :
    ∃ v, u.Waited cfg v ∧ v.work.buf = b ∧
      waitReady cfg (u.load b) = match cfg.readyPollBudget with
        | none => .hang .flashReady v
        | some _ => .raised .timeout v := by
  obtain ⟨v, n, hwait, hv, hpart, hrec, hbuf, hframes⟩ := waitReady_stuck (u := u.load b) hr (h.load b) hdep
  exact ⟨v, ⟨hv.idle, hpart, hrec, _, hframes, by simp, fun f hf => List.eq_of_mem_replicate hf⟩, hbuf, hwait⟩

variable {r : NorDevice}

/-- Under every fair schedule wait-ready completes, and with it what the part was executing (R210, R216). -/
theorem exec_norWaitrdy_fair (hu : s.spi[dev.toNat]? = some u) (hr : u.record = some r) (ha : u.Available s.cfg) :
    ∃ v fs, exec (.norWaitrdy dev) s = .next { s with spi := s.spi.set dev.toNat v, status := .success } ∧
      u.Returned s.cfg v fs ∧ fs ≠ [] ∧ Polls s.cfg fs ∧ v.part = partStep s.cfg u.part ∧
      v.ctl = (registerTxn s.cfg .rdsr [] 1).doneCtl s.cfg := by
  obtain ⟨v, fs, hwait, hpart, hafter, hpolls, hne, hctl⟩ := waitReady_fair (u := u.load s.buf) hr (ha.load s.buf)
  have hbuf : v.work.buf = s.buf := hafter.buf
  refine ⟨v.retire, fs, ?_, hafter.returned hctl, hne, hpolls, hpart, hctl⟩
  rw [exec_norWaitrdy, onSpi_ok hu hwait, hbuf]
  rfl

/-- With a budget the wait on a part that never completes times out (R253). -/
theorem exec_norWaitrdy_timeout {n : Nat} (hu : s.spi[dev.toNat]? = some u) (hr : u.record = some r)
    (h : u.PartStuck s.cfg) (hdep : 8 ≤ s.cfg.fifoDepth) (hb : s.cfg.readyPollBudget = some n) :
    ∃ v, u.Waited s.cfg v ∧
      exec (.norWaitrdy dev) s = .next { s with spi := s.spi.set dev.toNat v, status := .timeout } := by
  obtain ⟨v, hv, hbuf, hwait⟩ := waitReady_waited hr h hdep s.buf
  rw [hb] at hwait
  refine ⟨v.retire, ⟨hv.idle, hv.part, hv.record, hv.polled⟩, ?_⟩
  rw [exec_norWaitrdy, onSpi_raised hu hwait nofun, hbuf]

/-- Without a budget it never ends (R256). -/
theorem exec_norWaitrdy_hang (hu : s.spi[dev.toNat]? = some u) (hr : u.record = some r)
    (h : u.PartStuck s.cfg) (hdep : 8 ≤ s.cfg.fifoDepth) (hb : s.cfg.readyPollBudget = none) :
    ∃ v, u.Waited s.cfg v ∧ exec (.norWaitrdy dev) s = .next { s with
      spi := s.spi.set dev.toNat v, host := .spinning (.flashReady dev.toNat) } := by
  obtain ⟨v, hv, hbuf, hwait⟩ := waitReady_waited hr h hdep s.buf
  rw [hb] at hwait
  refine ⟨v, hv, ?_⟩
  rw [exec_norWaitrdy, onSpi_hang hu hwait, hbuf]
  rfl

end WaitReady

/-- Settles O38: the part completes within the polls of a fair schedule (`exec_norWaitrdy_fair`), and a part that never
completes is polled in vain (`exec_norWaitrdy_timeout`, `exec_norWaitrdy_hang`). -/
theorem norWaitrdyWaitsForThePart : Obligations.NorWaitrdyWaitsForThePart := by
  unfold Obligations.NorWaitrdyWaitsForThePart
  intro s dev u r hu hr
  refine ⟨fun ha => ?_, fun hidle hlive hsched hcut hdep hbusy => ⟨fun n hb => ?_, fun hb => ?_⟩⟩
  · obtain ⟨v, fs, hexec, hret, hne, hpolls, hpart, hctl⟩ := exec_norWaitrdy_fair hu hr ha
    exact ⟨v, fs, hexec, hret, hne, hpolls, hpart, by rw [hpart, wip_partStep], hctl⟩
  · obtain ⟨v, hv, hexec⟩ := exec_norWaitrdy_timeout hu hr ⟨hidle, hlive, hsched, hcut, hbusy⟩ hdep hb
    exact ⟨v, ⟨hv.idle, hv.part, hv.record, hv.polled⟩, hexec⟩
  · obtain ⟨v, hv, hexec⟩ := exec_norWaitrdy_hang hu hr ⟨hidle, hlive, hsched, hcut, hbusy⟩ hdep hb
    exact ⟨v, ⟨hv.idle, hv.part, hv.record, hv.polled⟩, hexec⟩

end Sys2Proof.Machine
end

section
/-! PROOF. The statements of the encoding family: the decoder reads every encoding back and accepts nothing else (R100
to R113), words and frames of the spec (R101 to R116), reserved encodings (R114). -/

namespace Sys2Proof.Laws

open Sys2Proof Sys2Proof.Machine

/-! ## Decoding an encoding (R100 to R113) -/

theorem roundTrip : ∀ i : Instr, RoundTrip.Statement i
  | .efuseRdb .. => RoundTrip.efuseRdb _ _ _
  | .efuseWrb .. => RoundTrip.efuseWrb _ _ _ _
  | .efuseInfo .. => RoundTrip.efuseInfo _ _ _
  | .norSetup .. => RoundTrip.norSetup _
  | .norInit .. => RoundTrip.norInit _
  | .norRd .. => RoundTrip.norRd _ _ _
  | .norWr .. => RoundTrip.norWr _ _ _ _
  | .norEr .. => RoundTrip.norEr _ _ _
  | .norErchip .. => RoundTrip.norErchip _
  | .norFree .. => RoundTrip.norFree _
  | .efuseRdw .. => RoundTrip.efuseRdw _ _
  | .efuseSetb .. => RoundTrip.efuseSetb _ _ _
  | .efuseWrw .. => RoundTrip.efuseWrw _ _ _
  | .spiRdreg .. => RoundTrip.spiRdreg _ _ _
  | .spiWrreg .. => RoundTrip.spiWrreg _ _ _ _
  | .spiXrd .. => RoundTrip.spiXrd _ _ _
  | .spiXpp .. => RoundTrip.spiXpp _ _ _ _
  | .spiXer .. => RoundTrip.spiXer _ _
  | .norWaitrdy .. => RoundTrip.norWaitrdy _
  | .norGetid .. => RoundTrip.norGetid _
  | .modeIdle .. => RoundTrip.modeIdle _
  | .modeRead .. => RoundTrip.modeRead _
  | .modeWrite .. => RoundTrip.modeWrite _
  | .efuseAddr .. => RoundTrip.efuseAddr _ _ _
  | .tranRegrd .. => RoundTrip.tranRegrd _ _
  | .tranRegwr .. => RoundTrip.tranRegwr _ _
  | .tranDatard .. => RoundTrip.tranDatard _ _ _
  | .tranDatawr .. => RoundTrip.tranDatawr _ _ _
  | .tranErase .. => RoundTrip.tranErase _ _ _
  | .rdid .. => RoundTrip.rdid _
  | .rdsr .. => RoundTrip.rdsr _
  | .wrsr .. => RoundTrip.wrsr _ _
  | .wren .. => RoundTrip.wren _
  | .wrdi .. => RoundTrip.wrdi _
  | .en4b .. => RoundTrip.en4b _
  | .read .. => RoundTrip.read _ _ _
  | .read4b .. => RoundTrip.read4b _ _ _
  | .pp .. => RoundTrip.pp _ _ _
  | .pp4b .. => RoundTrip.pp4b _ _ _
  | .be4k .. => RoundTrip.be4k _ _
  | .be4k4b .. => RoundTrip.be4k4b _ _
  | .se .. => RoundTrip.se _ _
  | .se4b .. => RoundTrip.se4b _ _
  | .ce .. => RoundTrip.ce _

/-- Settles O1, constructor by constructor (`roundTrip`). -/
theorem decodeUndoesEncode : Obligations.DecodeUndoesEncode :=
  fun cfg ab i rest => roundTrip i cfg ab rest

/-- Settles O3: each of the six calls is the encoding of the operation it decodes to (`roundTrip`). -/
theorem decodesWordsOfTheSpec : Obligations.DecodesWordsOfTheSpec :=
  ⟨roundTrip (.efuseWrb 0#32 6#32 1#32 [0xA5#8]) defaultParams (fun _ => some 7) [] rfl,
    roundTrip (.efuseAddr 0#32 3#32 5#5) defaultParams (fun _ => some 7) [] rfl,
    roundTrip (.modeRead 0#32) defaultParams (fun _ => some 7) [] rfl,
    roundTrip (.tranDatard 0#32 true 3#3) defaultParams (fun _ => some 7) [] rfl,
    roundTrip (.read 0#32 0x100#24 44#32) defaultParams (fun _ => some 7) [] rfl,
    roundTrip (.be4k4b 0#32 0x1000#32) defaultParams (fun _ => some 7) [] rfl⟩

/-! ## Encoding what was decoded (R100 to R113)

`Faithful` follows a decoder through the bytes of a call: one rule for each operand reader, and the operation decoded is
compared with the bytes read where the decoder accepts. -/

/-- Where a decoder that has read the bytes `pre` of a call and answers `d` to the bytes `r` accepts, the operation
decoded is encoded by the bytes it has read. -/
def Faithful (cfg : Config.Params) (ab : AddrWidths) (port : Port) (pre r : List Byte) (d : Decoded) : Prop :=
  ∀ i rest, d = .ok (i, rest) → (encode cfg ab i).port = port ∧ (encode cfg ab i).bytes ++ rest = pre ++ r

/-- The width of the low operand made the literal 8, which `simp` needs to find a byte. -/
theorem lowByte_append {n : Nat} (x : BitVec n) (b : Byte) : (x ++ b).extractLsb' 0 8 = b :=
  BitVec.extractLsb'_append_eq_right

/-- The bytes of `x ++ b` above the lowest are those of `x`. -/
theorem highByte_append {n : Nat} (x : BitVec n) (b : Byte) (k : Nat) :
    (x ++ b).extractLsb' (k + 8) 8 = x.extractLsb' k 8 := by
  rw [BitVec.extractLsb'_append_eq_of_le (Nat.le_add_left 8 k), Nat.add_sub_cancel]

theorem le32_unle32 (b0 b1 b2 b3 : Byte) : le32 (unle32 b0 b1 b2 b3) = [b0, b1, b2, b3] := by
  simp [le32, unle32, lowByte_append, highByte_append]

theorem addrBytes3_append (b2 b1 b0 : Byte) : addrBytes3 (b2 ++ b1 ++ b0) = [b2, b1, b0] := by
  simp [addrBytes3, lowByte_append, highByte_append]

theorem addrBytes4_append (b3 b2 b1 b0 : Byte) : addrBytes4 (b3 ++ b2 ++ b1 ++ b0) = [b3, b2, b1, b0] :=
  congrArg List.reverse (le32_unle32 b0 b1 b2 b3)

theorem lengthWord_eq {data : List Byte} {num : Word} (h : data.length = num.toNat) : lengthWord data = num := by
  rw [lengthWord, h, BitVec.ofNat_toNat, BitVec.setWidth_eq]

/-- The two fields of an ADDR word without reserved bits compose to it (R101). -/
theorem composeAddr_fields {a : Nat} {v : Word} (ha : a ≤ 27) (hv : v.toNat < 2 ^ (a + 5)) :
    composeAddr a (BitVec.ofNat 32 (v.toNat % 2 ^ a)) (BitVec.ofNat 5 (v.toNat / 2 ^ a)) = v := by
  have hk : v.toNat / 2 ^ a < 2 ^ 5 := Nat.div_lt_of_lt_mul (by rwa [← Nat.pow_add])
  apply BitVec.eq_of_toNat_eq
  rw [composeAddr_toNat _ ha (Nat.mod_lt _ (Nat.two_pow_pos a)), BitVec.toNat_ofNat, Nat.mod_eq_of_lt hk]
  exact Nat.mod_add_div' v.toNat (2 ^ a)

namespace Faithful

variable {cfg : Config.Params} {ab : AddrWidths} {port : Port} {pre r : List Byte} {i : Instr}

theorem error {e : DecodeError} : Faithful cfg ab port pre r (.error e) := nofun

theorem ok (h : encode cfg ab i = ⟨port, pre⟩) : Faithful cfg ab port pre r (.ok (i, r)) := by
  rintro _ _ ⟨⟩
  simp [h]

/-- An operation that is one value of a register. -/
theorem okWord {v w : Word} (h : v = w) (hi : encode cfg ab i = ⟨port, le32 w⟩) :
    Faithful cfg ab port (le32 v) r (.ok (i, r)) :=
  ok (by rw [hi, h])

theorem ite {c : Prop} [Decidable c] {d e : Decoded} (hd : c → Faithful cfg ab port pre r d)
    (he : ¬ c → Faithful cfg ab port pre r e) : Faithful cfg ab port pre r (if c then d else e) := by
  split
  case isTrue h => exact hd h
  case isFalse h => exact he h

theorem readWord {k : Word → List Byte → Decoded} (h : ∀ w t, Faithful cfg ab port (pre ++ le32 w) t (k w t)) :
    Faithful cfg ab port pre r (Sys2Proof.readWord r k) := by
  unfold Sys2Proof.readWord
  split
  · next b0 b1 b2 b3 t => simpa [Faithful, le32_unle32] using h (unle32 b0 b1 b2 b3) t
  · exact error

theorem readByte {k : Byte → List Byte → Decoded} (h : ∀ b t, Faithful cfg ab port (pre ++ [b]) t (k b t)) :
    Faithful cfg ab port pre r (Sys2Proof.readByte r k) := by
  cases r with
  | nil => exact error
  | cons b t => simpa [Faithful, Sys2Proof.readByte] using h b t

theorem readFlag {k : Bool → List Byte → Decoded}
    (h : ∀ f t, Faithful cfg ab port (pre ++ [flagByte f]) t (k f t)) :
    Faithful cfg ab port pre r (Sys2Proof.readFlag r k) :=
  readByte fun _ t => ite (fun h0 => h0 ▸ h false t) fun _ => ite (fun h1 => h1 ▸ h true t) fun _ => error

theorem readBitIndex {k : BitVec 5 → List Byte → Decoded}
    (h : ∀ x t, Faithful cfg ab port (pre ++ [x.setWidth 8]) t (k x t)) :
    Faithful cfg ab port pre r (Sys2Proof.readBitIndex r k) :=
  readByte fun b t => ite (fun hb => by
    have e : (b.setWidth 5).setWidth 8 = b := BitVec.eq_of_toNat_eq (by simp; omega)
    simpa only [e] using h (b.setWidth 5) t) fun _ => error

theorem readCount {k : BitVec 2 → List Byte → Decoded}
    (h : ∀ x t, Faithful cfg ab port (pre ++ [x.setWidth 8]) t (k x t)) :
    Faithful cfg ab port pre r (Sys2Proof.readCount r k) :=
  readByte fun b t => ite (fun hb => by
    have e : (b.setWidth 2).setWidth 8 = b := BitVec.eq_of_toNat_eq (by simp; omega)
    simpa only [e] using h (b.setWidth 2) t) fun _ => error

theorem readBytes {n : Nat} {k : List Byte → List Byte → Decoded}
    (h : ∀ xs t, xs.length = n → Faithful cfg ab port (pre ++ xs) t (k xs t)) :
    Faithful cfg ab port pre r (Sys2Proof.readBytes n r k) :=
  ite (fun _ => error) fun hn => by
    simpa [Faithful] using h (r.take n) (r.drop n) (List.length_take_of_le (Nat.le_of_not_lt hn))

theorem readAddr3 {k : BitVec 24 → List Byte → Decoded}
    (h : ∀ a t, Faithful cfg ab port (pre ++ addrBytes3 a) t (k a t)) :
    Faithful cfg ab port pre r (Sys2Proof.readAddr3 r k) := by
  unfold Sys2Proof.readAddr3
  split
  · next b2 b1 b0 t => simpa [Faithful, addrBytes3_append] using h (b2 ++ b1 ++ b0) t
  · exact error

theorem readAddr4 {k : BitVec 32 → List Byte → Decoded}
    (h : ∀ a t, Faithful cfg ab port (pre ++ addrBytes4 a) t (k a t)) :
    Faithful cfg ab port pre r (Sys2Proof.readAddr4 r k) := by
  unfold Sys2Proof.readAddr4
  split
  · next b3 b2 b1 b0 t => simpa [Faithful, addrBytes4_append] using h (b3 ++ b2 ++ b1 ++ b0) t
  · exact error

/-- A frame without data phase names `TRAN_NUM` 0. -/
theorem noData {dev num : Word} (h : encode cfg ab i = ⟨.frame dev 0#32, pre⟩) :
    Faithful cfg ab (.frame dev num) pre r (Sys2Proof.noData num i r) :=
  ite (fun hn => ok (hn ▸ h)) fun _ => error

/-! ### The five formats -/

theorem decodeReq : Faithful cfg ab .req [] r (Sys2Proof.decodeReq r) := by
  refine readByte fun op r => ?_
  obtain ⟨n, hn, rfl⟩ : ∃ n, n < 2 ^ 8 ∧ op = BitVec.ofNat 8 n := ⟨op.toNat, op.isLt, by simp⟩
  rw [BitVec.toNat_ofNat, Nat.mod_eq_of_lt hn]
  split
  · exact readWord fun _ _ => readWord fun _ _ => readWord fun _ _ => ok rfl
  · exact readWord fun _ _ => readWord fun _ _ => readWord fun _ _ => readBytes fun _ _ _ => ok rfl
  · exact readWord fun _ _ => readFlag fun _ _ => readFlag fun _ _ => ok rfl
  · refine readFlag fun given t => ?_
    cases given with
    | true => exact ite (fun _ => readWord fun _ _ => ok rfl) nofun
    | false => exact ite nofun fun _ => ok rfl
  · exact readWord fun _ _ => ok rfl
  · exact readWord fun _ _ => readWord fun _ _ => readWord fun _ _ => ok rfl
  · exact readWord fun _ _ => readWord fun _ _ => readWord fun _ _ => readBytes fun _ _ _ => ok rfl
  · exact readWord fun _ _ => readWord fun _ _ => readWord fun _ _ => ok rfl
  · exact readWord fun _ _ => ok rfl
  · exact readWord fun _ _ => ok rfl
  · exact readWord fun _ _ => readWord fun _ _ => ok rfl
  · exact readWord fun _ _ => readWord fun _ _ => readBitIndex fun _ _ => ok rfl
  · exact readWord fun _ _ => readWord fun _ _ => readWord fun _ _ => ok rfl
  · exact readWord fun _ _ => readByte fun _ _ => readCount fun _ _ => ok rfl
  · exact readWord fun _ _ => readByte fun _ _ => readCount fun _ _ => readBytes fun _ _ _ => ok rfl
  · exact readWord fun _ _ => readWord fun _ _ => readWord fun _ _ => ok rfl
  · exact readWord fun _ _ => readWord fun _ _ => readWord fun _ _ => readBytes fun _ _ _ => ok rfl
  · exact readWord fun _ _ => readWord fun _ _ => ok rfl
  · exact readWord fun _ _ => ok rfl
  · exact readWord fun _ _ => ok rfl
  · exact error

theorem decodeMode (bus : Word) : Faithful cfg ab (.efuseMode bus) [] r (Sys2Proof.decodeMode cfg bus r) :=
  readWord fun _ _ =>
    ite (fun h => okWord h rfl) fun _ => ite (fun h => okWord h rfl) fun _ => ite (fun h => okWord h rfl) fun _ =>
    ite (fun _ => error) fun _ => error

theorem decodeAddr (bus : Word) : Faithful cfg ab (.efuseAddr bus) [] r (Sys2Proof.decodeAddr ab bus r) := by
  refine readWord fun v t => ?_
  split
  · exact error
  · next a hab =>
    exact ite (fun ha => ite (fun hv => okWord (composeAddr_fields ha.2 hv).symm (by simp only [encode, hab]; rfl))
      fun _ => error) fun _ => error

theorem decodeTran (dev : Word) : Faithful cfg ab (.tran dev) [] r (Sys2Proof.decodeTran cfg dev r) :=
  readWord fun _ _ =>
    ite (fun h => okWord h rfl) fun _ => ite (fun h => okWord h rfl) fun _ => ite (fun h => okWord h rfl) fun _ =>
    ite (fun h => okWord h rfl) fun _ => ite (fun h => okWord h rfl) fun _ => error

theorem decodeFrame (dev num : Word) :
    Faithful cfg ab (.frame dev num) [] r (Sys2Proof.decodeFrame cfg dev num r) := by
  refine readByte fun b r => ?_
  cases hb : cfg.cmdOf b with
  | none => exact error
  | some c =>
    obtain rfl := op_of_cmdOf hb
    cases c with
    | rdid => exact ite (fun h => ok (h ▸ rfl)) fun _ => error
    | rdsr => exact ite (fun h => ok (h ▸ rfl)) fun _ => error
    | wrsr => exact ite (fun h => readByte fun _ _ => ok (h ▸ rfl)) fun _ => error
    | wren | wrdi | en4b | ce => exact noData rfl
    | read => exact readAddr3 fun _ _ => ok rfl
    | read4b => exact readAddr4 fun _ _ => ok rfl
    | pp => exact readAddr3 fun _ _ => readBytes fun _ _ h => ok (lengthWord_eq h ▸ rfl)
    | pp4b => exact readAddr4 fun _ _ => readBytes fun _ _ h => ok (lengthWord_eq h ▸ rfl)
    | be4k | se => exact readAddr3 fun _ _ => noData rfl
    | be4k4b | se4b => exact readAddr4 fun _ _ => noData rfl

theorem decode (c : Call) : Faithful cfg ab c.port [] c.bytes (Sys2Proof.decode cfg ab c) := by
  obtain ⟨port, bytes⟩ := c
  cases port with
  | req => exact decodeReq
  | efuseMode bus => exact decodeMode bus
  | efuseAddr bus => exact decodeAddr bus
  | tran dev => exact decodeTran dev
  | frame dev num => exact decodeFrame dev num

end Faithful

/-- Settles O2, reader by reader through each of the five decoders (`Faithful.decode`). -/
theorem encodeUndoesDecode : Obligations.EncodeUndoesDecode :=
  fun _ _ c i rest => Faithful.decode c i rest

/-! ## Reserved encodings (R114) -/

theorem decodeMode_reservedMode {cfg : Config.Params} (bus : Word) {v : Word} (r : List Byte)
    (hm : v &&& ~~~cfg.mode.mask = 0#32) (hv : v ∉ [cfg.mode.idle, cfg.mode.read, cfg.mode.write]) :
    decodeMode cfg bus (le32 v ++ r) = .error .reservedMode := by
  simp only [List.mem_cons, List.not_mem_nil, or_false, not_or] at hv
  obtain ⟨hi, hr, hw⟩ := hv
  rw [decodeMode, readWord_le32, if_neg hi, if_neg hr, if_neg hw, if_pos hm]

/-- A value within the command field sets no bit outside it. -/
theorem and_not_mask {v mask : Word} (h : v &&& mask = v) : v &&& ~~~mask = 0#32 := by
  rw [← h, BitVec.and_assoc, BitVec.and_not_self]
  exact BitVec.and_zero

/-- The three commands of MODE set no reserved bit (R9), so a value that does is none of them. -/
theorem decodeMode_reservedBits {cfg : Config.Params} (bus : Word) {v : Word} (r : List Byte)
    (hm : v &&& ~~~cfg.mode.mask ≠ 0#32) : decodeMode cfg bus (le32 v ++ r) = .error .reservedBits := by
  have hne {w : Word} (hw : w &&& cfg.mode.mask = w) : v ≠ w := fun h => hm (h ▸ and_not_mask hw)
  rw [decodeMode, readWord_le32, if_neg (hne (mode_idle_masked cfg)), if_neg (hne (mode_read_masked cfg)),
    if_neg (hne (mode_write_masked cfg)), if_neg hm]

theorem decodeAddr_reservedBits {ab : AddrWidths} {bus v : Word} (r : List Byte) {a : Nat} (hab : ab bus = some a)
    (ha : 1 ≤ a ∧ a ≤ 27) (hv : 2 ^ (a + 5) ≤ v.toNat) :
    decodeAddr ab bus (le32 v ++ r) = .error .reservedBits := by
  rw [decodeAddr, readWord_le32]
  simp only [hab, if_pos ha, if_neg (Nat.not_lt.2 hv)]

theorem sWrite_reservedTran {cfg : Config.Params} {u : SpiUnit} {v : Word} (hb : goBusy cfg u.ctl.tranCsr = false)
    (hv : tranClassOf cfg v = none) : sWrite cfg .tranCsr v u = .error (.refuse .reservedTran) := by
  simp [sWrite, hb, hv]

theorem decodeFrame_unknownCommand {cfg : Config.Params} (dev num : Word) {b : Byte} (r : List Byte)
    (hb : ∀ c, cfg.op c ≠ b) : decodeFrame cfg dev num (b :: r) = .error (.unknownCommand b) := by
  rw [decodeFrame, readByte_cons, cmdOf_none hb]

/-- The selectors of format `REQ` (R110, R111). -/
def selectors : List Nat :=
  [0x01, 0x02, 0x03, 0x10, 0x11, 0x12, 0x13, 0x14, 0x15, 0x16, 0x20, 0x21, 0x22, 0x30, 0x31, 0x32, 0x33, 0x34, 0x35,
    0x36]

theorem decodeReq_unknownSelector {op : Byte} (r : List Byte) (h : op.toNat ∉ selectors) :
    decodeReq (op :: r) = .error (.unknownSelector op) := by
  rw [decodeReq, readByte_cons]
  split
  case h_21 => rfl
  all_goals
    next hop => exact absurd (hop ▸ by decide) h

/-- Settles O4, a lemma for each of the classes (a) to (e) of R114. -/
theorem reservedEncodingsAreRefused : Obligations.ReservedEncodingsAreRefused :=
  ⟨fun _ bus _ r hm hv => decodeMode_reservedMode bus r hm hv,
    fun _ bus _ r hm => decodeMode_reservedBits bus r hm,
    fun _ _ _ r _ hab h1 h27 hv => decodeAddr_reservedBits r hab ⟨h1, h27⟩ hv,
    fun _ _ _ hb hv => sWrite_reservedTran hb hv,
    fun _ dev num _ r hb => decodeFrame_unknownCommand dev num r hb,
    fun _ r h => decodeReq_unknownSelector r h⟩

end Sys2Proof.Laws
end

section
/-! PROOF. The statements of the primitives family: the word read, the bit program and the word write on a ready and
fair macro (R133 to R135, R138), a word read after a word write (R137), and a word read whose macro never completes
(R131, R253, R256). -/

namespace Sys2Proof.Machine

open Sys2Proof

/-! ## The primitives on a ready and fair macro (R133 to R135, R138) -/

section Primitive
variable {s : State} {bus w : Word} {u : EfuseUnit}

/-- `EFUSE.RDW`, with only what it needs of the invariant: an idle phase. -/
theorem exec_efuseRdw_fair (hu : s.efuse[bus.toNat]? = some u) (hr : u.Ready s.cfg) (hf : u.Fair s.cfg)
    (hi : u.ephase = .idle) (hw : w.toNat < u.words) :
    ∃ v, exec (.efuseRdw bus w) s = .next { s with
        efuse := s.efuse.set bus.toNat v, status := .success, outWord := otpWord u.otp w.toNat } ∧
      u.Returned s.cfg v ∧ v.otp = u.otp ∧ v.addr = u.address w.toNat 0 ∧ v.rdData = otpWord u.otp w.toNat ∧
      v.mode = modeLeft s.cfg s.cfg.mode.read ∧ v.trace = u.trace ++ wordTrace s.cfg u w.toNat := by
  obtain ⟨t, ht, hread⟩ := embeddedRead_fair s.cfg (u := u.load s.buf) hr hf hw
  exact ⟨_, (exec_efuseRdw s bus w).trans (onEfuse_ok hu hread),
    (EfuseUnit.after_kept hr hf ht (.inl rfl)).returned hi, rfl, rfl, rfl, rfl, rfl⟩

/-- `EFUSE.SETB`, its effect on the array as the model's bit program. -/
theorem exec_efuseSetb_fair (k : BitVec 5) (hu : s.efuse[bus.toNat]? = some u) (hr : u.Ready s.cfg)
    (hf : u.Fair s.cfg) (hi : u.ephase = .idle) (hw : w.toNat < u.words) :
    ∃ v, exec (.efuseSetb bus w k) s = .next { s with efuse := s.efuse.set bus.toNat v, status := .success } ∧
      u.Returned s.cfg v ∧ v.addr = u.address w.toNat k.toNat ∧ v.mode = modeLeft s.cfg s.cfg.mode.write ∧
      v.trace = u.trace ++ [.write .addr (u.address w.toNat k.toNat), .write .mode s.cfg.mode.write] ∧
      v.otp = otpSetBit u.otp w.toNat k.toNat := by
  obtain ⟨t, ht, hset⟩ := embeddedSetBit_fair s.cfg (u := u.load s.buf) hr hf hw k.isLt
  exact ⟨_, (exec_efuseSetb s bus w k).trans (onEfuse_ok hu hset),
    (EfuseUnit.after_kept hr hf ht (.inr rfl)).returned hi, rfl, rfl, rfl, rfl⟩

/-- No bit of the value 0 is programmed (R135). -/
theorem setBits_zero (cfg : Config.Params) (n : Nat) (ks : List Nat) : setBits cfg n 0#32 ks u = .ok () u := by
  induction ks with
  | nil => rfl
  | cons k t ih => rw [setBits, BitVec.getLsbD_zero, if_neg Bool.false_ne_true, ih]

theorem embeddedWrite_zero {cfg : Config.Params} {n : Nat} (hr : u.Ready cfg) (hn : n < u.words) :
    embeddedWrite cfg n 0#32 u = .ok () u := by
  rw [embeddedWrite, eCheck_none hr hn]
  exact setBits_zero cfg n _

/-- `EFUSE.WRW`, its effect on the array byte by byte (`orWord`). -/
theorem exec_efuseWrw_fair (value : Word) (hu : s.efuse[bus.toNat]? = some u) (hr : u.Ready s.cfg)
    (hf : u.Fair s.cfg) (hi : u.ephase = .idle) (hm : Memory.wf Config.freshOtpByte u.otp = true)
    (hw : w.toNat < u.words) :
    ∃ v, exec (.efuseWrw bus w value) s = .next { s with efuse := s.efuse.set bus.toNat v, status := .success } ∧
      u.Returned s.cfg v ∧ (∀ o, otpByte v.otp o = orWord u.otp w.toNat value o) ∧
      v.trace = u.trace ++ setTrace s.cfg u w.toNat value (List.range 32) ∧
      (value = 0#32 → v.addr = u.addr ∧ v.rdData = u.rdData) := by
  obtain ⟨v, hwrite, hkept, hwork, -, htrace, hotp⟩ :=
    embeddedWrite_fair s.cfg w.toNat value (u := u.load s.buf) hr hf hw hm
  refine ⟨v.retire, ?_, hkept.returned hi, hotp, htrace, fun h0 => ?_⟩
  · rw [exec_efuseWrw, onEfuse_ok hu hwrite, hwork]
    rfl
  · subst h0
    rw [embeddedWrite_zero (u := u.load s.buf) hr hw] at hwrite
    cases hwrite
    exact ⟨rfl, rfl⟩

end Primitive

/-- The array of a controller is in canonical form (R48). -/
theorem EfuseUnit.Inv.canonical {cfg : Config.Params} {u : EfuseUnit} (h : u.Inv cfg) :
    Memory.wf Config.freshOtpByte u.otp = true := by
  obtain ⟨-, -, -, hm⟩ := h
  exact hm

/-- Settles O19 (`exec_efuseRdw_fair`). -/
theorem efuseRdwReadsTheWord : Obligations.EfuseRdwReadsTheWord := by
  unfold Obligations.EfuseRdwReadsTheWord
  intro s bus w u hu hr hf hi hw
  exact exec_efuseRdw_fair hu hr hf (hi.idle hr) hw

/-- Settles O20: one bit program (`exec_efuseSetb_fair`), read bit by bit (`otpBit_otpSetBit`). -/
theorem efuseSetbProgramsOneBit : Obligations.EfuseSetbProgramsOneBit := by
  unfold Obligations.EfuseSetbProgramsOneBit
  intro s bus w k u hu hr hf hi hw
  obtain ⟨v, hexec, hret, haddr, hmode, htrace, hotp⟩ := exec_efuseSetb_fair k hu hr hf (hi.idle hr) hw
  refine ⟨v, hexec, hret, haddr, hmode, htrace, fun o j hj => ?_⟩
  rw [hotp]
  exact otpBit_otpSetBit hi.canonical _ _ o j hj

/-- Settles O21: the bytes of the word take the lanes of the value (`otpWord_of_orWord`), the others stay. -/
theorem efuseWrwOrsTheValue : Obligations.EfuseWrwOrsTheValue := by
  unfold Obligations.EfuseWrwOrsTheValue
  intro s bus w value u hu hr hf hi hw
  obtain ⟨v, hexec, hret, hotp, htrace, hzero⟩ := exec_efuseWrw_fair value hu hr hf (hi.idle hr) hi.canonical hw
  refine ⟨v, hexec, hret, otpWord_of_orWord hotp, fun o ho => ?_, htrace, hzero⟩
  rw [hotp, orWord, if_neg ho]

/-! ## A word read after a word write (R137) -/

/-- A unit that an operation returned takes the next one (R298). -/
theorem EfuseUnit.Returned.isReady {cfg : Config.Params} {u v : EfuseUnit} (h : u.Returned cfg v) (hr : u.Ready cfg) :
    v.Ready cfg := by
  obtain ⟨hwidth, -, -⟩ := hr
  exact ⟨h.ctl ▸ hwidth, h.busy, h.ready⟩

theorem EfuseUnit.Returned.words {cfg : Config.Params} {u v : EfuseUnit} (h : u.Returned cfg v) :
    v.words = u.words := by
  simp only [EfuseUnit.words, h.ctl, h.wordsSet]

/-- Settles O22: the read finds the unit the write returned, and in it the old word OR the value. -/
theorem efuseWordReadAfterWrite : Obligations.EfuseWordReadAfterWrite := by
  unfold Obligations.EfuseWordReadAfterWrite
  intro s bus w value u hu hr hf hi hw
  obtain ⟨v, hwrite, hret, hword, -⟩ := efuseWrwOrsTheValue s bus w value u hu hr hf hi hw
  obtain ⟨hlt, -⟩ := List.getElem?_eq_some_iff.1 hu
  obtain ⟨v', hread, -⟩ := exec_efuseRdw_fair (w := w)
    (s := { s with efuse := s.efuse.set bus.toNat v, status := .success })
    (List.getElem?_set_self hlt) (hret.isReady hr) hret.fair hret.ephase (hret.words.symm ▸ hw)
  exact ⟨_, _, hwrite, rfl, hread, rfl, hword, fun hzero => hword.trans (by rw [hzero, BitVec.zero_or])⟩

/-! ## A macro that never completes (R131, R253, R256) -/

section Stalled
variable {cfg : Config.Params} {u : EfuseUnit}

theorem ePoint_stalled (hl : u.live = false) (hs : u.sched = []) : ePoint cfg u = .ok u := by
  simp only [ePoint, hs, hl, Bool.false_eq_true, if_false]

/-- A wait on a busy macro that no longer steps fails. -/
theorem eWait_stalled (hl : u.live = false) (hs : u.sched = [])
    (hm : efuseReady cfg (eRead cfg .mode u) = false) :
    eWait cfg u = waitFailed .flag cfg.efuseWaitBudget (ePoint cfg) u := by
  obtain ⟨n, hn⟩ := pollCount_pos cfg.efuseWaitBudget u.sched.length
  have hpoint : ePoint cfg u = .ok u := ePoint_stalled hl hs
  rw [eWait, waitFlag, hn, pollUntil_stalled hpoint hpoint hm]

theorem eWait_stalled_budget {n : Nat} (hb : cfg.efuseWaitBudget = some n) (hl : u.live = false)
    (hs : u.sched = []) (hm : efuseReady cfg (eRead cfg .mode u) = false) : eWait cfg u = .raised .timeout u := by
  rw [eWait_stalled hl hs hm, hb, waitFailed, ePoint_stalled hl hs]

theorem eWait_stalled_noBudget (hb : cfg.efuseWaitBudget = none) (hl : u.live = false) (hs : u.sched = [])
    (hm : efuseReady cfg (eRead cfg .mode u) = false) : eWait cfg u = .hang .flag u := by
  rw [eWait_stalled hl hs hm, hb, waitFailed]

/-- The unit in the second wait of a word read (R133): the read command is pending. -/
def EfuseUnit.reading (cfg : Config.Params) (u : EfuseUnit) (w : Nat) : EfuseUnit :=
  { u with
    mode := cfg.mode.read, addr := u.address w 0, busy := true, ephase := .cmdRead, sched := u.sched.tail,
    trace := u.trace ++
      [.write .mode cfg.mode.idle, .write .addr (u.address w 0), .write .mode cfg.mode.read] }

/-- A word read on a ready macro, whatever its agent does, comes down to the wait for the pending command. -/
theorem embeddedRead_ready {w : Nat} (hr : u.Ready cfg) (hw : w < u.words) :
    embeddedRead cfg w u = (eWait cfg (u.reading cfg w)).bind fun _ v => readData cfg v := by
  have ⟨_, hb, _⟩ := hr
  rw [embeddedRead, eCheck_none hr hw, readWordSteps, eWrite_mode_idle hb, Res.access_ok, Res.bind_ok,
    eWait_ready cfg (by exact hb) (by simp [eRead, hb]), Res.bind_ok, writeAddress, eWrite_addr _ (by exact hb),
    Res.access_ok, Res.bind_ok, eWrite_mode_read (by exact hb), Res.access_ok, Res.bind_ok]
  simp only [EfuseUnit.reading, EfuseUnit.address, List.append_assoc, List.cons_append, List.nil_append]

theorem EfuseUnit.reading_notReady (w : Nat) : efuseReady cfg (eRead cfg .mode (u.reading cfg w)) = false :=
  efuseReady_read cfg

theorem EfuseUnit.reading_sched {w : Nat} (hs : u.sched = []) : (u.reading cfg w).sched = [] := by
  simp only [EfuseUnit.reading, hs, List.tail_nil]

theorem embeddedRead_stalled_budget {n w : Nat} (hb : cfg.efuseWaitBudget = some n) (hr : u.Ready cfg)
    (hl : u.live = false) (hs : u.sched = []) (hw : w < u.words) :
    embeddedRead cfg w u = .raised .timeout (u.reading cfg w) := by
  rw [embeddedRead_ready hr hw,
    eWait_stalled_budget (u := u.reading cfg w) hb hl (EfuseUnit.reading_sched hs) (EfuseUnit.reading_notReady w),
    Res.bind_raised]

theorem embeddedRead_stalled_noBudget {w : Nat} (hb : cfg.efuseWaitBudget = none) (hr : u.Ready cfg)
    (hl : u.live = false) (hs : u.sched = []) (hw : w < u.words) :
    embeddedRead cfg w u = .hang .flag (u.reading cfg w) := by
  rw [embeddedRead_ready hr hw,
    eWait_stalled_noBudget (u := u.reading cfg w) hb hl (EfuseUnit.reading_sched hs) (EfuseUnit.reading_notReady w),
    Res.bind_hang]

end Stalled

/-- Settles O28: the read waits for its pending command (`embeddedRead_ready`), which with a budget ends in
`EFI_TIMEOUT` and without one never ends. -/
theorem unreadyMacroTimesOutOrHangs : Obligations.UnreadyMacroTimesOutOrHangs := by
  unfold Obligations.UnreadyMacroTimesOutOrHangs
  intro s bus w u hu hr hl hs hw
  refine ⟨fun n hb => ?_, fun hb => ?_⟩
  · have hread := embeddedRead_stalled_budget (u := u.load s.buf) hb hr hl hs hw
    exact ⟨((u.load s.buf).reading s.cfg w.toNat).retire, ⟨rfl, rfl, rfl, rfl, rfl, rfl, rfl⟩,
      (exec_efuseRdw s bus w).trans (onEfuse_raised hu hread)⟩
  · have hread := embeddedRead_stalled_noBudget (u := u.load s.buf) hb hr hl hs hw
    exact ⟨(u.load s.buf).reading s.cfg w.toNat, ⟨rfl, rfl, rfl, rfl, rfl, rfl, rfl⟩,
      (exec_efuseRdw s bus w).trans (onEfuse_hang hu hread)⟩

end Sys2Proof.Machine
end

section
/-! PROOF. The statements of the eFuse byte family: a byte range read and written on a ready and fair macro (R150 to
R152, R156, R158), bytes read back after a write (R155), the controller record (R153), and a bus that names no controller
(R154). -/

namespace Sys2Proof.Machine

open Sys2Proof

/-! ## A range of no bytes (R150) -/

section EmptyRange
variable {cfg : Config.Params} {u : EfuseUnit} {off : Word}

theorem split_zero (n : Nat) : split n 0 = [] := by
  rw [split, if_neg (fun ⟨_, hpos⟩ => Nat.lt_irrefl 0 hpos)]
  rfl

theorem eRangeCheck_none {n m : Nat} (hr : u.Ready cfg) (hc : n + m ≤ u.capacity) : eRangeCheck n m u = none := by
  obtain ⟨hwidth, -, -⟩ := hr
  rw [eRangeCheck, if_neg (by simp [hwidth]), if_pos hc]

/-- Without a segment the byte read makes no register access. -/
theorem efuseReadBytes_zero (hr : u.Ready cfg) (hc : off.toNat ≤ u.capacity) :
    efuseReadBytes cfg off 0#32 u = .ok () (u.start off 0#32 []) := by
  rw [efuseReadBytes, eRangeCheck_none hr hc]
  show readSegments cfg 0 (split off.toNat 0) _ = _
  rw [split_zero, readSegments]

/-- Without a segment the byte write makes no register access. -/
theorem efuseWriteBytes_zero (data : List Byte) (hr : u.Ready cfg) (hc : off.toNat ≤ u.capacity) :
    efuseWriteBytes cfg off 0#32 data u = .ok () (u.start off 0#32 data) := by
  rw [efuseWriteBytes, eRangeCheck_none hr hc]
  show writeSegments cfg 0 (split off.toNat 0) _ = _
  rw [split_zero, writeSegments]

end EmptyRange

/-! ## The bytes of a range (R75, R151) -/

/-- The `n` bytes of the array from offset `a` on: what `EFUSE.RDB` returns. -/
def otpBytes (m : Memory) (a n : Nat) : List Byte := (List.range n).map fun j => otpByte m (a + j)

@[simp] theorem otpBytes_length (m : Memory) (a n : Nat) : (otpBytes m a n).length = n := by
  rw [otpBytes, List.length_map, List.length_range]

@[simp] theorem otpBytes_getElem {m : Memory} {a n j : Nat} (h : j < (otpBytes m a n).length) :
    (otpBytes m a n)[j] = otpByte m (a + j) := by
  simp only [otpBytes, List.getElem_map, List.getElem_range]

/-! ## The byte operations on a ready and fair macro (R151, R152, R156, R158) -/

section ByteRange
variable {s : State} {bus off cnt : Word} {u : EfuseUnit}

/-- `EFUSE.RDB`, with only what it needs of the invariant: an idle phase. -/
theorem exec_efuseRdb_fair (hu : s.efuse[bus.toNat]? = some u) (hr : u.Ready s.cfg) (hf : u.Fair s.cfg)
    (hi : u.ephase = .idle) (hc : off.toNat + cnt.toNat ≤ u.capacity) :
    ∃ v, exec (.efuseRdb bus off cnt) s = .next { s with
        efuse := s.efuse.set bus.toNat v, status := .success, buf := otpBytes u.otp off.toNat cnt.toNat } ∧
      u.Returned s.cfg v ∧ v.otp = u.otp ∧ v.trace = u.trace ++ readTrace s.cfg u (split off.toNat cnt.toNat) ∧
      (cnt = 0#32 → v.addr = u.addr ∧ v.rdData = u.rdData) := by
  obtain ⟨v, hread, hkept, hotp, hbuf, htrace⟩ := efuseReadBytes_fair s.cfg off cnt (u := u.load s.buf) hr hf hc
  refine ⟨v.retire, ?_, hkept.returned hi, hotp, htrace, fun h0 => ?_⟩
  · rw [exec_efuseRdb, withBus_existing hu, onEfuse_ok hu hread, hbuf]
    rfl
  · subst h0
    rw [efuseReadBytes_zero (u := u.load s.buf) hr hc] at hread
    cases hread
    exact ⟨rfl, rfl⟩

/-- `EFUSE.WRB`, its effect on the array as one equation over all offsets. -/
theorem exec_efuseWrb_fair {data : List Byte} (hu : s.efuse[bus.toNat]? = some u) (hr : u.Ready s.cfg)
    (hf : u.Fair s.cfg) (hi : u.ephase = .idle) (hm : Memory.wf Config.freshOtpByte u.otp = true)
    (hc : off.toNat + cnt.toNat ≤ u.capacity) (hd : data.length = cnt.toNat) :
    ∃ v, exec (.efuseWrb bus off cnt data) s = .next { s with
        efuse := s.efuse.set bus.toNat v, status := .success, buf := data } ∧
      u.Returned s.cfg v ∧
      (∀ o, otpByte v.otp o = otpByte u.otp o |||
        (if off.toNat ≤ o ∧ o < off.toNat + cnt.toNat then data.getD (o - off.toNat) 0#8 else 0#8)) ∧
      v.trace = u.trace ++ writeTrace s.cfg u data (split off.toNat cnt.toNat) ∧
      (cnt = 0#32 → v.addr = u.addr ∧ v.rdData = u.rdData) := by
  obtain ⟨v, hwrite, hkept, hbuf, -, htrace, hotp⟩ :=
    efuseWriteBytes_fair s.cfg off cnt data (u := u.load s.buf) hr hf hc hm
  refine ⟨v.retire, ?_, hkept.returned hi, hotp, htrace, fun h0 => ?_⟩
  · rw [exec_efuseWrb s bus off cnt hd, withBus_existing hu, onEfuse_ok hu hwrite, hbuf]
    rfl
  · subst h0
    rw [efuseWriteBytes_zero (u := u.load s.buf) data hr hc] at hwrite
    cases hwrite
    exact ⟨rfl, rfl⟩

end ByteRange

/-- Settles O23 (`exec_efuseRdb_fair`). -/
theorem efuseRdbReturnsTheBytes : Obligations.EfuseRdbReturnsTheBytes := by
  unfold Obligations.EfuseRdbReturnsTheBytes
  intro s bus off cnt u hu hr hf hi hc
  exact exec_efuseRdb_fair hu hr hf (hi.idle hr) hc

/-- Settles O24: the one equation of `exec_efuseWrb_fair`, inside the range and outside it. -/
theorem efuseWrbOrsTheBytes : Obligations.EfuseWrbOrsTheBytes := by
  unfold Obligations.EfuseWrbOrsTheBytes
  intro s bus off cnt data u hu hr hf hi hc hd
  obtain ⟨v, hexec, hret, hotp, htrace, hzero⟩ := exec_efuseWrb_fair hu hr hf (hi.idle hr) hi.canonical hc hd
  refine ⟨v, hexec, hret, fun j hj => ?_, fun o ho => ?_, htrace, hzero⟩
  · rw [hotp, if_pos (by omega), Nat.add_sub_cancel_left, List.getD_eq_getElem _ _ hj]
  · rw [hotp, if_neg (by omega), BitVec.or_zero]

/-! ## Bytes read after a byte write (R155) -/

/-- Settles O25: the read finds the unit the write returned, and in it each byte OR the datum. -/
theorem efuseByteRoundTrip : Obligations.EfuseByteRoundTrip := by
  unfold Obligations.EfuseByteRoundTrip
  intro s bus off cnt data u hu hr hf hi hc hd
  obtain ⟨v, hwrite, hret, hin, -⟩ := efuseWrbOrsTheBytes s bus off cnt data u hu hr hf hi hc hd
  obtain ⟨hlt, -⟩ := List.getElem?_eq_some_iff.1 hu
  have hcap : off.toNat + cnt.toNat ≤ v.capacity := by rwa [EfuseUnit.capacity, hret.words]
  obtain ⟨v', hread, -⟩ := exec_efuseRdb_fair (off := off) (cnt := cnt)
    (s := { s with efuse := s.efuse.set bus.toNat v, status := .success, buf := data })
    (List.getElem?_set_self hlt) (hret.isReady hr) hret.fair hret.ephase hcap
  have hbyte : ∀ j (h : j < data.length) (h' : j < (otpBytes v.otp off.toNat cnt.toNat).length),
      (otpBytes v.otp off.toNat cnt.toNat)[j] = data[j] ||| otpByte u.otp (off.toNat + j) := by
    intro j h h'
    rw [otpBytes_getElem, hin j h, BitVec.or_comm]
  refine ⟨_, _, hwrite, rfl, hread, rfl, otpBytes_length .., hbyte, fun hfresh => ?_⟩
  refine List.ext_getElem ((otpBytes_length ..).trans hd.symm) fun j h' h => ?_
  rw [hbyte j h h', hfresh, BitVec.or_zero]

/-! ## The controller record and the bus check (R153, R154) -/

section Bus
variable {s : State} {bus : Word}

/-- A bus not below the number of controllers is invalid (R154). -/
theorem withBus_outside (hb : s.efuse.length ≤ bus.toNat) (go : Host.Outcome State Fault Refusal) :
    withBus bus s go = .next { s with status := .invalidParameter } := by
  rw [withBus, if_pos hb]
  rfl

theorem exec_efuseInfo_existing {u : EfuseUnit} (hu : s.efuse[bus.toNat]? = some u) (wantInfo wantTotal : Bool) :
    exec (.efuseInfo bus wantInfo wantTotal) s =
      .next (efuseInfo u.ctl wantInfo wantTotal (s.answer .success)) := by
  show execEfuseInfo bus wantInfo wantTotal s = _
  rw [execEfuseInfo, hu]

theorem exec_efuseInfo_outside (hb : s.efuse.length ≤ bus.toNat) (wantInfo wantTotal : Bool) :
    exec (.efuseInfo bus wantInfo wantTotal) s = .next { s with status := .invalidParameter } := by
  show execEfuseInfo bus wantInfo wantTotal s = _
  rw [execEfuseInfo, List.getElem?_eq_none hb]
  rfl

end Bus

/-- Settles O26: the two branches of the lookup of the bus. -/
theorem efuseInfoReturnsTheRecord : Obligations.EfuseInfoReturnsTheRecord := by
  unfold Obligations.EfuseInfoReturnsTheRecord
  intro s bus wantInfo wantTotal
  exact ⟨fun u hu => exec_efuseInfo_existing hu wantInfo wantTotal,
    fun hb => exec_efuseInfo_outside hb wantInfo wantTotal⟩

/-- Settles O27: the bus check of the two transfers (`withBus_outside`) and the lookup of `EFUSE.INFO`. -/
theorem busOutOfRangeIsInvalid : Obligations.BusOutOfRangeIsInvalid := by
  unfold Obligations.BusOutOfRangeIsInvalid
  intro s bus off cnt data x y hb hd
  exact ⟨(exec_efuseRdb s bus off cnt).trans (withBus_outside hb _),
    (exec_efuseWrb s bus off cnt hd).trans (withBus_outside hb _), exec_efuseInfo_outside hb x y⟩

end Sys2Proof.Machine
end

section
/-! PROOF. The statements of the transaction family: what a completed transaction delivers and returns (R184), the
controller after a WAIT that fails (R175, R185, R222, R253, R256), the register primitives (R179, R180, R200), the data
transactions inside one page and the erase of one unit (R181 to R183). -/

namespace Sys2Proof.Machine

open Sys2Proof

/-! ## The record of a transaction (R184) -/

@[simp] theorem goBusy_doneCtl (cfg : Config.Params) (d : Txn) : goBusy cfg (d.doneCtl cfg).tranCsr = false :=
  goBusy_tranWord ..

/-- Settles O31: the invariant of a running transaction, at its end (`transact_record`). -/
theorem transactionRecord : Obligations.TransactionRecord := by
  unfold Obligations.TransactionRecord
  intro cfg d u v rx hd h
  obtain ⟨hlen, hctl, hframes, hkept⟩ := transact_record hd h
  rw [hctl]
  exact ⟨hlen, hframes, rfl, rfl, goBusy_doneCtl cfg d, rfl, rfl, rfl, hkept.board, hkept.record⟩

/-! ## A controller that is not idle (R170, R185, R222) -/

section NotIdle
variable {cfg : Config.Params} {s : State} {dev : Word} {u : SpiUnit}

theorem transact_notIdle (h : u.idle cfg = false) (d : Txn) :
    transact cfg d u = .stop (.refuse .controllerNotIdle) := by
  rw [transact, if_neg (by simp [h])]
  rfl

theorem execFrame_notIdle (hu : s.spi[dev.toNat]? = some u) (h : u.idle s.cfg = false) (d : Txn) :
    execFrame dev d s = .refused .controllerNotIdle := by
  refine onSpi_stop (x := .refuse .controllerNotIdle) hu ?_
  rw [transact_notIdle (by split <;> exact h)]
  rfl

theorem readRegister_notIdle {r : NorDevice} {c : NorCmd} {m : Nat} (hr : u.record = some r) (h0 : 0 < m) (hm : m ≤ 3)
    (h : u.idle cfg = false) : readRegister cfg (cfg.op c) m u = .stop (.refuse .controllerNotIdle) := by
  simp only [readRegister, withRecord, hr, cmdOf_op, reduceCtorEq, if_false, show ¬ (m = 0 ∨ 3 < m) by omega,
    transact_notIdle h]
  rfl

theorem exec_spiRdreg (s : State) (dev : Word) (cmd : Byte) (n : BitVec 2) :
    exec (.spiRdreg dev cmd n) s = onSpi dev s .absentDevice noResult fun u =>
      (readRegister s.cfg cmd n.toNat u).bind intoBuf := rfl

/-- `NOR.GETID` is the ID read of three bytes (R200). -/
theorem exec_norGetid (s : State) (dev : Word) :
    exec (.norGetid dev) s = exec (.spiRdreg dev (s.cfg.op .rdid) 3#2) s := rfl

theorem exec_norGetid_notIdle {r : NorDevice} (hu : s.spi[dev.toNat]? = some u) (hr : u.record = some r)
    (h : u.idle s.cfg = false) : exec (.norGetid dev) s = .refused .controllerNotIdle := by
  rw [exec_norGetid, exec_spiRdreg]
  refine onSpi_stop (x := .refuse .controllerNotIdle) hu ?_
  rw [readRegister_notIdle (u := u.load s.buf) hr (by decide) (by decide) h]
  rfl

/-- `NOR.SETUP` with the handle of a present record resets that controller (R221, R222). -/
theorem exec_norSetup_reuse (hu : s.spi[dev.toNat]? = some u) (hr : u.record ≠ none) :
    exec (.norSetup (some dev)) s = .next (setupDone s dev.toNat u) := by
  have hreuse : reusable s (some dev) = some (dev.toNat, u) := by simp only [reusable, hu, hr, if_false]
  show execNorSetup (some dev) s = _
  rw [execNorSetup, hreuse]

theorem setupDone_spi (hu : s.spi[dev.toNat]? = some u) :
    (setupDone s dev.toNat u).spi[dev.toNat]? = some (resetController u) :=
  List.getElem?_set_self (List.getElem?_eq_some_iff.1 hu).1

theorem resetController_idle (cfg : Config.Params) (u : SpiUnit) : (resetController u).idle cfg = true := by
  simp [SpiUnit.idle, SpiCtl.reset, goBusy_zero]

/-- Outside `S_IDLE` the word of a class is not written (R185; log 16). -/
theorem sRegisterWrite_notIdle {cls : TranClass} {n : BitVec 3} (go : Bool) (hu : s.spi[dev.toNat]? = some u)
    (hb : goBusy s.cfg u.ctl.tranCsr = false) (hp : u.ctl.sphase ≠ .idle) (hn : cls.admits n = true) :
    sRegisterWrite dev s .tranCsr (tranWord s.cfg cls n go) = .refused .controllerNotIdle := by
  simp only [sRegisterWrite, hu, sWrite_tranWord go hb hn, hp, if_false]

theorem exec_tranRow_notIdle (go : Bool) {n : BitVec 3} (hu : s.spi[dev.toNat]? = some u)
    (hb : goBusy s.cfg u.ctl.tranCsr = false) (hp : u.ctl.sphase ≠ .idle) (hn : n = 3#3 ∨ n = 4#3) :
    ∀ i ∈ [Instr.tranRegrd dev go, .tranRegwr dev go, .tranDatard dev go n, .tranDatawr dev go n, .tranErase dev go n],
      exec i s = .refused .controllerNotIdle := by
  have hn : addrBytesLegal n = true := by obtain rfl | rfl := hn <;> rfl
  simp only [List.forall_mem_cons, List.not_mem_nil, false_imp_iff, implies_true, and_true]
  rw [exec_tranRegrd, exec_tranRegwr, exec_tranDatard, exec_tranDatawr, exec_tranErase]
  exact ⟨sRegisterWrite_notIdle (cls := .regrd) go hu hb hp rfl, sRegisterWrite_notIdle (cls := .regwr) go hu hb hp rfl,
    sRegisterWrite_notIdle (cls := .datard) go hu hb hp hn, sRegisterWrite_notIdle (cls := .datawr) go hu hb hp hn,
    sRegisterWrite_notIdle (cls := .erase) go hu hb hp hn⟩

end NotIdle

/-! ## A SHIFT that never steps (R175, R253, R256) -/

section Stalled
variable {cfg : Config.Params} {s : State} {dev : Word} {u v : SpiUnit} {d : Txn}

theorem idle_of_wait (h : v.ctl.sphase = .wait) : v.idle cfg = false := by simp [SpiUnit.idle, h]

theorem partLive_frames (cfg : Config.Params) (u : SpiUnit) : (partLive cfg u).frames = u.frames := by
  unfold partLive; split <;> rfl

theorem partLive_record (cfg : Config.Params) (u : SpiUnit) : (partLive cfg u).record = u.record := by
  unfold partLive; split <;> rfl

theorem partLive_work (cfg : Config.Params) (u : SpiUnit) : (partLive cfg u).work = u.work := by
  unfold partLive; split <;> rfl

/-- A unit whose transaction `d` is armed and waits: the frame still in the FIFO, none of it delivered. -/
structure SpiUnit.Stuck (cfg : Config.Params) (u : SpiUnit) (d : Txn) (v : SpiUnit) : Prop where
  phase : v.ctl.sphase = .wait
  busy : goBusy cfg v.ctl.tranCsr = true
  fifo : v.ctl.fifo = d.out
  frames : v.frames = u.frames
  record : v.record = u.record
  part : Settles cfg u.part v.part

theorem SpiUnit.Stuck.retire (h : u.Stuck cfg d v) : u.Stuck cfg d v.retire :=
  ⟨h.phase, h.busy, h.fifo, h.frames, h.record, h.part⟩

/-- The caller's `BUF` makes no difference to it. -/
theorem SpiUnit.Stuck.of_load {b : List Byte} (h : (u.load b).Stuck cfg d v) : u.Stuck cfg d v :=
  ⟨h.phase, h.busy, h.fifo, h.frames, h.record, h.part⟩

/-- How a unit stands in a WAIT that no agent ends. -/
theorem SpiUnit.stalled_stuck (cfg : Config.Params) (u : SpiUnit) (d : Txn) (x : Word) (tr : List SAccess) :
    u.Stuck cfg d (u.stalled cfg d x tr) := by
  have hctl : (u.stalled cfg d x tr).ctl = { d.armCtl cfg with sphase := .wait } := partLive_sphase ..
  refine ⟨?_, ?_, ?_, partLive_frames .., partLive_record .., partLive_settles ..⟩ <;> rw [hctl]
  · exact goBusy_tranWord ..
  · rfl

theorem SpiUnit.stalled_buf (cfg : Config.Params) (u : SpiUnit) (d : Txn) (x : Word) (tr : List SAccess) :
    (u.stalled cfg d x tr).work.buf = u.work.buf := by
  rw [SpiUnit.stalled, partLive_work]
  rfl

theorem exec_wren (s : State) (dev : Word) : exec (.wren dev) s = execFrame dev (wrTxn s.cfg .wren []) s := rfl

theorem exec_rdsr (s : State) (dev : Word) : exec (.rdsr dev) s = execFrame dev (rdTxn s.cfg .rdsr 1) s := rfl

/-- A frame without payload whose SHIFT never steps: `EFI_TIMEOUT` with a budget, HOST in the wait without. -/
theorem execFrame_stalled (hu : s.spi[dev.toNat]? = some u) (hd : d.Legal s.cfg) (hbuf : d.sendsBuf = false)
    (hi : u.idle s.cfg = true) (hl : u.live.shift = false) (hs : u.sched = []) (hr : FifoRoom s.cfg d.out.length) :
    ∃ v, u.Stuck s.cfg d v ∧ execFrame dev d s = match s.cfg.spiWaitBudget with
      | none => .next { s with spi := s.spi.set dev.toNat v, host := .spinning (.spi dev.toNat) }
      | some _ => .next { s with spi := s.spi.set dev.toNat v, status := .timeout } := by
  obtain ⟨x, tr, e⟩ := transact_stalled (u := u.load s.buf) hd hi hs hl hr
  have hstuck : u.Stuck s.cfg d ((u.load s.buf).stalled s.cfg d x tr) := (SpiUnit.stalled_stuck ..).of_load
  have hb : ((u.load s.buf).stalled s.cfg d x tr).work.buf = s.buf := SpiUnit.stalled_buf ..
  cases hw : s.cfg.spiWaitBudget with
  | none =>
    refine ⟨_, hstuck, ?_⟩
    rw [hw] at e
    rw [execFrame, onSpi_hang (v := (u.load s.buf).stalled s.cfg d x tr) (q := .flag) hu (by
      simp only [hbuf, Bool.false_eq_true, if_false, e]; rfl), hb]
    rfl
  | some n =>
    refine ⟨_, hstuck.retire, ?_⟩
    rw [hw] at e
    rw [execFrame, onSpi_raised (v := (u.load s.buf).stalled s.cfg d x tr) (st := .timeout) hu (by
      simp only [hbuf, Bool.false_eq_true, if_false, e]; rfl) nofun, hb]

end Stalled

/-- Settles O32: the precondition of `transact` and the reset of `NOR.SETUP`; what a transaction can raise
(`transact_raised`); a WAIT that no agent ends (`execFrame_stalled`). -/
theorem timedOutControllerNeedsSetup : Obligations.TimedOutControllerNeedsSetup := by
  unfold Obligations.TimedOutControllerNeedsSetup
  intro s h u hu
  refine ⟨fun hi => ⟨transact_notIdle hi, execFrame_notIdle hu hi _, execFrame_notIdle hu hi _, fun hr => ?_⟩,
    fun hp hb go n hn => exec_tranRow_notIdle go hu hb hp hn, fun d st v e => ?_, fun hi hl hs hdep => ?_⟩
  · obtain ⟨r, hr'⟩ := Option.ne_none_iff_exists'.1 hr
    exact ⟨exec_norGetid_notIdle hu hr' hi, _, _, exec_norSetup_reuse hu hr, setupDone_spi hu,
      resetController_idle s.cfg u, rfl⟩
  · obtain ⟨hst, hbudget, hphase⟩ := transact_raised e
    exact ⟨hst, hbudget, hphase, idle_of_wait hphase⟩
  · obtain ⟨v, hv, e⟩ := execFrame_stalled (d := wrTxn s.cfg .wren []) hu (wrTxn_legal .wren (by simp)) rfl hi hl hs
      fun _ => Nat.le_trans (by decide : 1 ≤ 8) hdep
    have hidle := idle_of_wait (cfg := s.cfg) hv.phase
    refine ⟨fun n hb => ⟨v, ?_, by rw [exec_wren, e, hb]⟩, fun hb => ⟨v, ?_, by rw [exec_wren, e, hb]⟩⟩ <;>
      exact ⟨hv.phase, hidle, hv.busy, hv.fifo, hv.frames, hv.record, hv.part⟩

/-! ## SPI.RDREG and NOR.GETID (R179, R200) -/

section RegisterRead
variable {s : State} {dev : Word} {u : SpiUnit} {r : NorDevice}

/-- A sequence whose bytes go to the caller's `BUF` (R16, R109). -/
theorem onSpi_intoBuf {m : Refusal} {f : SpiUnit → Res SpiUnit (List Byte)} {v : SpiUnit} {rx : List Byte}
    (hu : s.spi[dev.toNat]? = some u) (h : f (u.load s.buf) = .ok rx v) :
    onSpi dev s m noResult (fun u => (f u).bind intoBuf) =
      .next { s with spi := s.spi.set dev.toNat v.retire, status := .success, buf := rx } := by
  rw [onSpi_ok (a := ()) (v := { v with work := { v.work with buf := rx } }) hu (by dsimp only; rw [h]; rfl)]
  rfl

/-- `SPI.RDREG` of any command on a part that is `g i` before its byte `i` (R179; log 43). -/
theorem exec_spiRdreg_through {c : NorCmd} {n : BitVec 2} {f : Nat → Byte} (g : Nat → Part) {q : Part}
    (hu : s.spi[dev.toNat]? = some u) (hr : u.record = some r) (ha : u.Available s.cfg) (hn : n ≠ 0#2)
    (hg : g 0 = u.part) (hw : ∀ i, wip s.cfg (g i).sr = false)
    (hread : ∀ i, i < n.toNat → partReadByte s.cfg u.board (g i) [s.cfg.op c] i = .ok (f i, g (i + 1)))
    (hexec : partExecute s.cfg u.board (g n.toNat) [s.cfg.op c] = .ok q) :
    ∃ v, exec (.spiRdreg dev (s.cfg.op c) n) s = .next { s with
        spi := s.spi.set dev.toNat v, status := .success, buf := (List.range n.toNat).map f } ∧
      u.Returned s.cfg v [⟨[s.cfg.op c], (List.range n.toNat).map f⟩] ∧ Settles s.cfg q v.part ∧
      v.ctl = (rdTxn s.cfg c n.toNat).doneCtl s.cfg := by
  have h0 : n.toNat ≠ 0 := (BitVec.toNat_ne_iff_ne (y := 0#2)).2 hn
  have h3 : n.toNat ≤ 3 := Nat.le_of_lt_succ n.isLt
  obtain ⟨v, e, hpart, hafter, hctl⟩ := readRegister_through (u := u.load s.buf) g hr (Nat.pos_of_ne_zero h0) h3
    (ha.load s.buf) hg hw hread hexec
  refine ⟨v.retire, ?_, hafter.returned hctl, hpart, hctl⟩
  rw [exec_spiRdreg]
  exact onSpi_intoBuf hu e

/-- As `exec_spiRdreg_through`, of a command that does nothing to the part. -/
theorem exec_spiRdreg_ready {c : NorCmd} {n : BitVec 2} {f : Nat → Byte}
    (hu : s.spi[dev.toNat]? = some u) (hr : u.record = some r) (ha : u.Available s.cfg) (hw : u.PartReady s.cfg)
    (hn : n ≠ 0#2) (hread : ∀ i, partReadByte s.cfg u.board u.part [s.cfg.op c] i = .ok (f i, u.part))
    (hexec : partExecute s.cfg u.board u.part [s.cfg.op c] = .ok u.part) :
    ∃ v, exec (.spiRdreg dev (s.cfg.op c) n) s = .next { s with
        spi := s.spi.set dev.toNat v, status := .success, buf := (List.range n.toNat).map f } ∧
      u.Returned s.cfg v [⟨[s.cfg.op c], (List.range n.toNat).map f⟩] ∧ v.part = u.part ∧
      v.ctl = (rdTxn s.cfg c n.toNat).doneCtl s.cfg := by
  obtain ⟨v, e, hret, hpart, hctl⟩ := exec_spiRdreg_through (fun _ => u.part) hu hr ha hn rfl (fun _ => hw)
    (fun i _ => hread i) hexec
  exact ⟨v, e, hret, hpart.ready hw, hctl⟩

/-- The ID bytes a part sends are those of its JEDEC ID (R200). -/
theorem map_jedecByte (board : Config.SpiBoard) {m : Nat} (hm : m ≤ 3) :
    (List.range m).map (jedecByte board) = [board.jedecId.b0, board.jedecId.b1, board.jedecId.b2].take m := by
  interval_cases m <;> rfl

theorem exec_spiRdreg_rdid {n : BitVec 2} (hu : s.spi[dev.toNat]? = some u) (hr : u.record = some r)
    (ha : u.Available s.cfg) (hw : u.PartReady s.cfg) (hn : n ≠ 0#2) :
    let id := [u.board.jedecId.b0, u.board.jedecId.b1, u.board.jedecId.b2].take n.toNat
    ∃ v, exec (.spiRdreg dev (s.cfg.op .rdid) n) s = .next { s with
        spi := s.spi.set dev.toNat v, status := .success, buf := id } ∧
      u.Returned s.cfg v [⟨[s.cfg.op .rdid], id⟩] ∧ v.part = u.part ∧
      v.ctl = (rdTxn s.cfg .rdid n.toNat).doneCtl s.cfg := by
  rw [← map_jedecByte u.board (Nat.le_of_lt_succ n.isLt)]
  exact exec_spiRdreg_ready hu hr ha hw hn (partReadByte_rdid ha.2.2.1 hw) (partExecute_rdid ha.2.2.1 hw [])

theorem exec_spiRdreg_rdsr {n : BitVec 2} (hu : s.spi[dev.toNat]? = some u) (hr : u.record = some r)
    (ha : u.Available s.cfg) (hw : u.PartReady s.cfg) (hn : n ≠ 0#2) :
    let sr := List.replicate n.toNat u.part.sr
    ∃ v, exec (.spiRdreg dev (s.cfg.op .rdsr) n) s = .next { s with
        spi := s.spi.set dev.toNat v, status := .success, buf := sr } ∧
      u.Returned s.cfg v [⟨[s.cfg.op .rdsr], sr⟩] ∧ v.part = u.part ∧
      v.ctl = (rdTxn s.cfg .rdsr n.toNat).doneCtl s.cfg := by
  have hsr : (List.range n.toNat).map (fun _ => u.part.sr) = List.replicate n.toNat u.part.sr := by simp
  rw [← hsr]
  exact exec_spiRdreg_ready hu hr ha hw hn (partReadByte_rdsr ha.2.2.1) (partExecute_rdsr ha.2.2.1 [])

/-- A part that has drawn `k` free values (log 36). -/
def Part.drawnTimes (p : Part) (k : Nat) : Part := { p with draws := p.draws + k }

/-- `SPI.RDREG` of a command of the class REGWR: each byte received is a free value, and the part executes the frame
(log 43). -/
theorem exec_spiRdreg_regwr {c : NorCmd} {n : BitVec 2} {q : Part} (hc : c.cls = .regwr)
    (hu : s.spi[dev.toNat]? = some u) (hr : u.record = some r) (ha : u.Available s.cfg) (hw : u.PartReady s.cfg)
    (hn : n ≠ 0#2) (hexec : partExecute s.cfg u.board (u.part.drawnTimes n.toNat) [s.cfg.op c] = .ok q) :
    ∃ v rx, rx.length = n.toNat ∧ exec (.spiRdreg dev (s.cfg.op c) n) s = .next { s with
        spi := s.spi.set dev.toNat v, status := .success, buf := rx } ∧
      u.Returned s.cfg v [⟨[s.cfg.op c], rx⟩] ∧ Settles s.cfg q v.part ∧
      v.ctl = (rdTxn s.cfg c n.toNat).doneCtl s.cfg := by
  have hread : ∀ i, i < n.toNat → partReadByte s.cfg u.board (u.part.drawnTimes i) [s.cfg.op c] i =
      .ok (Config.freeByte u.board.baseAddress (u.part.drawnTimes i).draws, u.part.drawnTimes (i + 1)) := fun i _ =>
    partReadByte_regwr (p := u.part.drawnTimes i) hc ha.2.2.1 hw i
  obtain ⟨v, h⟩ := exec_spiRdreg_through u.part.drawnTimes hu hr ha hn rfl (fun _ => hw) hread hexec
  exact ⟨v, _, by simp, h⟩

end RegisterRead

/-- Settles O33: the register reads (`exec_spiRdreg_rdid`, `exec_spiRdreg_rdsr`), and what the part executes of each
command of the class REGWR after it has drawn the bytes received (`exec_spiRdreg_regwr`). -/
theorem spiRdregAndNorGetidReadRegisters : Obligations.SpiRdregAndNorGetidReadRegisters := by
  unfold Obligations.SpiRdregAndNorGetidReadRegisters
  intro s dev n u r hu hr ha hw hn
  have hcut : (u.part.drawnTimes n.toNat).cut = false := ha.2.2.1
  have hwip : wip s.cfg (u.part.drawnTimes n.toNat).sr = false := hw
  obtain ⟨y, hy⟩ := partExecute_wrsr_payload (board := u.board) (args := []) hcut hwip (by simp)
  refine ⟨exec_spiRdreg_rdid hu hr ha hw hn, exec_spiRdreg_rdsr hu hr ha hw hn,
    exec_spiRdreg_rdid (n := 3#2) hu hr ha hw (by decide), ?_, ?_, ?_, ?_, y, ?_⟩
  · exact exec_spiRdreg_regwr rfl hu hr ha hw hn (partExecute_wren hcut hwip)
  · exact exec_spiRdreg_regwr rfl hu hr ha hw hn (partExecute_wrdi hcut hwip)
  · exact exec_spiRdreg_regwr rfl hu hr ha hw hn (partExecute_en4b hcut hwip)
  · exact exec_spiRdreg_regwr rfl hu hr ha hw hn (partExecute_ce hcut hwip)
  · exact exec_spiRdreg_regwr rfl hu hr ha hw hn hy

/-! ## SPI.WRREG (R180) -/

section RegisterWrite
variable {s : State} {dev : Word} {u : SpiUnit}

theorem exec_spiWrreg (s : State) (dev : Word) (cmd : Byte) {n : BitVec 2} {payload : List Byte}
    (h : payload.length = n.toNat) :
    exec (.spiWrreg dev cmd n payload) s = onSpi dev s .absentDevice noResult fun u =>
      writeRegister s.cfg cmd payload (u.load payload) :=
  if_neg (not_not.2 h)

/-- `SPI.WRREG` of any command on a ready part: the part executes the frame (R180, R212). -/
theorem exec_spiWrreg_ready {r : NorDevice} (hu : s.spi[dev.toNat]? = some u) (hr : u.record = some r)
    (ha : u.Available s.cfg) (hw : u.PartReady s.cfg) (c : NorCmd) (n : BitVec 2) {payload : List Byte} {q : Part}
    (hlen : payload.length = n.toNat)
    (hexec : partExecute s.cfg u.board u.part (s.cfg.op c :: payload) = .ok q) :
    ∃ v, exec (.spiWrreg dev (s.cfg.op c) n payload) s = .next { s with
        spi := s.spi.set dev.toNat v, status := .success, buf := payload } ∧
      u.Returned s.cfg v [⟨s.cfg.op c :: payload, []⟩] ∧ Settles s.cfg q v.part ∧
      v.ctl = (wrTxn s.cfg c payload).doneCtl s.cfg := by
  obtain ⟨v, e, hpart, hafter, hctl⟩ := writeRegister_ready (u := (u.load s.buf).load payload) hr
    (hlen.trans_le (Nat.le_of_lt_succ n.isLt)) ha hw hexec
  have hbuf : v.work.buf = payload := hafter.buf
  refine ⟨v.retire, ?_, SAfter.returned (u := u) hafter hctl, hpart, hctl⟩
  rw [exec_spiWrreg s dev _ hlen, onSpi_ok hu e, hbuf]
  rfl

end RegisterWrite

/-- Settles O34: each write is framed, and the part executes the frame (`exec_spiWrreg_ready`); what it makes of each
frame is said by the lemmas of `partExecute`. -/
theorem spiWrregWritesRegisters : Obligations.SpiWrregWritesRegisters := by
  unfold Obligations.SpiWrregWritesRegisters
  intro s dev x u r hu hr ha hw
  have hcut := ha.2.2.1
  have does := fun c n payload q => exec_spiWrreg_ready hu hr ha hw c n (payload := payload) (q := q)
  refine ⟨does .wren 0#2 [] _ rfl (partExecute_wren hcut hw), does .wrdi 0#2 [] _ rfl (partExecute_wrdi hcut hw),
    does .en4b 0#2 [] _ rfl (partExecute_en4b hcut hw), does .wrsr 1#2 [x] _ rfl (partExecute_wrsr hcut hw x),
    does .ce 0#2 [] _ rfl (partExecute_ce hcut hw), fun n payload hlen => ⟨fun hne => ?_, fun hne => ?_,
      does .rdid n payload _ hlen (partExecute_rdid hcut hw payload),
      does .rdsr n payload _ hlen (partExecute_rdsr hcut payload), fun c q => does c n payload q hlen⟩⟩
  · obtain ⟨b, hwren, hwrdi, hen4b, hce⟩ := partExecute_payload (board := u.board) hcut hw hne
    have hce' : (if b then u.part.drawn.eraseChip s.cfg else u.part.drawn) =
        if b && wel s.cfg u.part.sr then partStart s.cfg u.part.drawn .eraseAll else u.part.drawn := by
      cases b <;> rfl
    rw [hce'] at hce
    exact ⟨b, does .wren n payload _ hlen hwren, does .wrdi n payload _ hlen hwrdi, does .en4b n payload _ hlen hen4b,
      does .ce n payload _ hlen hce⟩
  · obtain ⟨y, hy⟩ := partExecute_wrsr_payload (board := u.board) hcut hw hne
    exact ⟨y, does .wrsr n payload _ hlen hy⟩

/-! ## SPI.XRD, SPI.XPP and SPI.XER (R181 to R183) -/

/-- Settles O35: the data read transaction (`readTransaction_ready`), its bytes in the caller's `BUF`. -/
theorem spiXrdReadsOnePage : Obligations.SpiXrdReadsOnePage := by
  unfold Obligations.SpiXrdReadsOnePage
  intro s dev addr len u info hu hr ha hw hpage hf
  obtain ⟨v, e, hpart, hafter, hctl⟩ := readTransaction_ready (u := u.load s.buf) hr (ha.load s.buf) hw len.isLt
    hpage hf
  have hret := hafter.returned hctl
  simp only [readTxn, Txn.out, Txn.addrBytes, BitVec.ofNat_toNat, BitVec.setWidth_eq, List.append_nil] at hret
  refine ⟨v.retire, ?_, hret, hpart, ?_⟩
  · rw [exec_spiXrd]
    exact onSpi_intoBuf hu e
  · show v.ctl.tranNum = len
    rw [hctl]
    simp [Txn.doneCtl, readTxn]

/-- Settles O36: the program transaction (`programTransaction_ready`), on a part whose page is that of the record. -/
theorem spiXppStartsAProgram : Obligations.SpiXppStartsAProgram := by
  unfold Obligations.SpiXppStartsAProgram
  intro s dev addr len data u info hu hr ha hw hd hpage hf hroom
  rw [← hd] at hpage hf hroom
  obtain ⟨v, e, hpart, hafter, hctl⟩ := programTransaction_ready (u := (u.load s.buf).load data) hr ha hw
    (hd.trans_lt len.isLt) hpage hf hroom
  have hret := SAfter.returned (u := u) hafter hctl
  simp only [programTxn, Txn.out, Txn.addrBytes, BitVec.ofNat_toNat, BitVec.setWidth_eq] at hret
  have hbuf : v.work.buf = data := hafter.buf
  refine ⟨v.retire, ?_, hret, ?_, ?_⟩
  · rw [exec_spiXpp s dev addr len hd, onSpi_ok hu e, hbuf]
    rfl
  · rw [← partPage_listed hr.2.1]
    exact Part.programTaken_spec hpart
  · show v.ctl.tranNum = len
    rw [hctl]
    simp [Txn.doneCtl, programTxn, hd]

theorem granularity_pos {cfg : Config.Params} {info : Config.FlashInfo} (h : 0 < info.sectorSize) :
    0 < (resolve cfg info).granularity := by
  simp only [Resolved.granularity]
  split
  · decide
  · exact h

/-- Settles O37: the erase transaction at any address of a unit in FLASH (`eraseTransaction_held`). -/
theorem spiXerStartsAnErase : Obligations.SpiXerStartsAnErase := by
  unfold Obligations.SpiXerStartsAnErase
  intro s dev addr u info hu hr ha hw hf
  obtain ⟨v, e, hpart, hafter, hctl⟩ := eraseTransaction_held (u := u.load s.buf) hr (ha.load s.buf) hw hf
  have hret := hafter.returned hctl
  simp only [eraseTxn, Txn.out, Txn.addrBytes, BitVec.ofNat_toNat, BitVec.setWidth_eq, List.append_nil] at hret
  have hbuf : v.work.buf = s.buf := hafter.buf
  refine ⟨v.retire, ?_, hret, Part.eraseTaken_spec (granularity_pos hr.2.2.2.1) hpart, ?_⟩
  · rw [exec_spiXer, onSpi_ok hu e, hbuf]
    rfl
  · show v.ctl.tranNum = 0#32
    rw [hctl]
    rfl

end Sys2Proof.Machine
end

section
/-! PROOF. The statements of the NOR command family: what each frame delivers to the part and returns (R200 to R209,
R213), what the part's own step completes (R214 to R216), which frames the part refuses (R212, R217, R289). -/

namespace Sys2Proof.Machine

open Sys2Proof

/-! ## One frame on the bus (R104, R178, R184) -/

theorem SpiUnit.Available.fifoRoom {cfg : Config.Params} {u : SpiUnit} {n : Nat} (h : u.Available cfg) (hn : n ≤ 8) :
    FifoRoom cfg n := fun _ => hn.trans h.2.2.2

section Frame
variable {s : State} {dev : Word} {u : SpiUnit} {d : Txn} {q : Part}

/-- A frame that receives nothing: the part executes it, and a payload stays in the caller's `BUF`. -/
theorem execFrame_sends (hu : s.spi[dev.toNat]? = some u) (ha : u.Available s.cfg) (hw : u.PartReady s.cfg)
    (hd : d.Legal s.cfg) (hrx : d.cls.rx = false) (hroom : FifoRoom s.cfg d.out.length)
    (hexec : partExecute s.cfg u.board u.part d.out = .ok q) :
    ∃ v, execFrame dev d s = .next { s with
        spi := s.spi.set dev.toNat v, status := .success, buf := if d.sendsBuf then d.tx else s.buf } ∧
      u.Returned s.cfg v [⟨d.out, []⟩] ∧ Settles s.cfg q v.part ∧ v.ctl = d.doneCtl s.cfg := by
  have h0 : d.rxLen = 0 := by
    by_contra hne
    obtain h | h := hd.2.2.2.2 (Nat.pos_of_ne_zero hne) <;> simp [h, TranClass.rx] at hrx
  obtain ⟨v, e, hpart, hctl, hret⟩ := execFrame_ready (f := fun _ => 0#8) hu hd ha hw hroom
    (fun i hi => absurd hi (by omega)) hexec
  rw [hrx] at e
  rw [h0] at hret
  exact ⟨v, e, hret, hpart, hctl⟩

/-- A frame that receives, of a command that does nothing to the part: the bytes go to the caller's `BUF`. -/
theorem execFrame_receives {f : Nat → Byte} (hu : s.spi[dev.toNat]? = some u) (ha : u.Available s.cfg)
    (hw : u.PartReady s.cfg) (hd : d.Legal s.cfg) (hrx : d.cls.rx = true) (hroom : FifoRoom s.cfg d.out.length)
    (hread : ∀ i, i < d.rxLen → partReadByte s.cfg u.board u.part d.out i = .ok (f i, u.part))
    (hexec : partExecute s.cfg u.board u.part d.out = .ok u.part) :
    ∃ v, execFrame dev d s = .next { s with
        spi := s.spi.set dev.toNat v, status := .success, buf := (List.range d.rxLen).map f } ∧
      u.Returned s.cfg v [⟨d.out, (List.range d.rxLen).map f⟩] ∧ v.part = u.part ∧ v.ctl = d.doneCtl s.cfg := by
  obtain ⟨v, e, hpart, hctl, hret⟩ := execFrame_ready hu hd ha hw hroom hread hexec
  rw [hrx] at e
  exact ⟨v, e, hret, hpart.ready hw, hctl⟩

end Frame

/-! ## RDID and RDSR (R200, R201) -/

section Register
variable {s : State} {dev : Word} {u : SpiUnit}

/-- The frame of a command that reads a register is the transaction of `SPI.RDREG`, its bytes in `BUF`. -/
theorem execFrame_rdTxn (s : State) (dev : Word) (c : NorCmd) (n : Nat) :
    execFrame dev (rdTxn s.cfg c n) s =
      onSpi dev s .noController noResult fun u => (transact s.cfg (rdTxn s.cfg c n) u).bind intoBuf := rfl

theorem exec_rdid_ready (hu : s.spi[dev.toNat]? = some u) (ha : u.Available s.cfg) (hw : u.PartReady s.cfg) :
    let id := [u.board.jedecId.b0, u.board.jedecId.b1, u.board.jedecId.b2]
    ∃ v, exec (.rdid dev) s = .next { s with spi := s.spi.set dev.toNat v, status := .success, buf := id } ∧
      u.Returned s.cfg v [⟨[s.cfg.op .rdid], id⟩] ∧ v.part = u.part ∧
      v.ctl = (registerTxn s.cfg .rdid [] 3).doneCtl s.cfg :=
  execFrame_receives (d := rdTxn s.cfg .rdid 3) (f := jedecByte u.board) hu ha hw
    (rdTxn_legal .rdid (by decide) (by decide)) rfl (ha.fifoRoom (by decide : 1 ≤ 8))
    (fun i _ => partReadByte_rdid ha.2.2.1 hw i) (partExecute_rdid ha.2.2.1 hw [])

theorem exec_rdsr_available (hu : s.spi[dev.toNat]? = some u) (ha : u.Available s.cfg) :
    ∃ b v, exec (.rdsr dev) s = .next { s with spi := s.spi.set dev.toNat v, status := .success, buf := [b] } ∧
      u.Returned s.cfg v [⟨[s.cfg.op .rdsr], [b]⟩] ∧ v.ctl = (registerTxn s.cfg .rdsr [] 1).doneCtl s.cfg ∧
      (b = u.part.sr ∧ Settles s.cfg u.part v.part ∨
        b = (partStep s.cfg u.part).sr ∧ v.part = partStep s.cfg u.part) := by
  obtain ⟨b, v, e, hafter, -, hctl, hb⟩ := statusFrame (u := u.load s.buf) (ha.load s.buf) rfl
  refine ⟨b, v.retire, ?_, hafter.returned hctl, hctl, hb.imp_left fun ⟨hsr, hsettles, _⟩ => ⟨hsr, hsettles⟩⟩
  rw [exec_rdsr, execFrame_rdTxn]
  exact onSpi_intoBuf hu e

end Register

/-- Settles O39: the ID a ready part answers (`exec_rdid_ready`), and a status read of any part
(`exec_rdsr_available`). -/
theorem rdidAndRdsrFrames : Obligations.RdidAndRdsrFrames := by
  unfold Obligations.RdidAndRdsrFrames
  intro s dev u hu ha
  exact ⟨exec_rdid_ready hu ha, exec_rdsr_available hu ha⟩

/-! ## WREN, WRDI, EN4B, WRSR and CE (R202 to R205, R209, R213) -/

/-- The frame of a command that writes a register, on a ready part (R202 to R205, R209). -/
theorem execFrame_wrTxn {s : State} {dev : Word} {u : SpiUnit} {q : Part} (c : NorCmd) {payload : List Byte}
    (hu : s.spi[dev.toNat]? = some u) (ha : u.Available s.cfg) (hw : u.PartReady s.cfg) (hlen : payload.length ≤ 3)
    (hexec : partExecute s.cfg u.board u.part (s.cfg.op c :: payload) = .ok q) :
    ∃ v, execFrame dev (wrTxn s.cfg c payload) s = .next { s with
        spi := s.spi.set dev.toNat v, status := .success, buf := if payload = [] then s.buf else payload } ∧
      u.Returned s.cfg v [⟨s.cfg.op c :: payload, []⟩] ∧ Settles s.cfg q v.part ∧
      v.ctl = (wrTxn s.cfg c payload).doneCtl s.cfg := by
  obtain ⟨v, e, h⟩ := execFrame_sends (d := wrTxn s.cfg c payload) hu ha hw (wrTxn_legal c hlen) rfl
    (ha.fifoRoom (by simp only [wrTxn, Txn.out, Txn.addrBytes, List.nil_append, List.length_cons]; omega)) hexec
  refine ⟨v, e.trans ?_, h⟩
  cases payload <;> rfl

/-- Settles O40: each frame is executed by the part (`execFrame_wrTxn`), which is ready after it. -/
theorem latchAndModeFrames : Obligations.LatchAndModeFrames := by
  unfold Obligations.LatchAndModeFrames
  intro s dev u hu ha hw does
  have hcut := ha.2.2.1
  have hdoes : ∀ c q, wip s.cfg q.sr = false → partExecute s.cfg u.board u.part [s.cfg.op c] = .ok q →
      ∃ v, execFrame dev (wrTxn s.cfg c []) s = .next { s with spi := s.spi.set dev.toNat v, status := .success } ∧
        u.Returned s.cfg v [⟨[s.cfg.op c], []⟩] ∧ v.part = q ∧ v.ctl = (wrTxn s.cfg c []).doneCtl s.cfg := by
    intro c q hq hexec
    obtain ⟨v, e, hret, hpart, hctl⟩ := execFrame_wrTxn c hu ha hw (by decide) hexec
    exact ⟨v, e, hret, hpart.ready hq, hctl⟩
  exact ⟨hdoes .wren _ ((wip_setWel ..).trans hw) (partExecute_wren hcut hw),
    hdoes .wrdi _ ((wip_clearWel ..).trans hw) (partExecute_wrdi hcut hw),
    hdoes .en4b _ hw (partExecute_en4b hcut hw)⟩

/-- Settles O41: the part starts what the frame asks of it if it is write-enabled (`partExecute_wrsr`,
`partExecute_ce`). -/
theorem statusWriteAndChipEraseFrames : Obligations.StatusWriteAndChipEraseFrames := by
  unfold Obligations.StatusWriteAndChipEraseFrames
  intro s dev x u hu ha hw
  obtain ⟨v, hexec, hret, hpart, hctl⟩ := execFrame_wrTxn .wrsr (payload := [x]) hu ha hw (by simp)
    (partExecute_wrsr ha.2.2.1 hw x)
  obtain ⟨v', hexec', hret', hpart', hctl'⟩ := execFrame_wrTxn .ce hu ha hw (by simp) (partExecute_ce ha.2.2.1 hw)
  exact ⟨⟨v, hexec, hret, hctl, hpart⟩, v', hexec', hret', hctl', hpart'⟩

/-! ## Address bytes (R105, R212) -/

/-- A byte of an address, as the engine frames it. -/
theorem setWidth_ushiftRight_byte {w : Nat} (a : BitVec w) (k : Nat) (hw : w ≤ 32) :
    ((a.setWidth 32) >>> k).setWidth 8 = a.extractLsb' k 8 := by
  apply BitVec.eq_of_getLsbD_eq
  intro i hi
  simp only [BitVec.getLsbD_setWidth, BitVec.getLsbD_ushiftRight, BitVec.getLsbD_extractLsb', hi, decide_true,
    Bool.true_and]
  by_cases h : k + i < 32
  · simp [h]
  · simp [h, BitVec.getLsbD_of_ge a (k + i) (by omega)]

theorem addrBytes_three (a : BitVec 24) : addrBytes (a.setWidth 32) 3 = addrBytes3 a := by
  simp only [addrBytes, addrBytes3, setWidth_ushiftRight_byte a _ (by decide : 24 ≤ 32)]

theorem addrBytes_four (a : BitVec 32) : addrBytes a 4 = addrBytes4 a := by
  have h := setWidth_ushiftRight_byte a (hw := le_rfl)
  rw [BitVec.setWidth_eq] at h
  simp only [addrBytes, addrBytes4, h]

/-- `args` are the `n` address bytes of `a`, `n` is what the mode of the part takes, and the part reads them as the
number `x`. -/
structure SpiUnit.Addressed (u : SpiUnit) (n : Nat) (a : Word) (args : List Byte) (x : Nat) : Prop where
  width : n = 3 ∨ n = 4
  mode : u.part.mode4B = decide (n = 4)
  bytes : addrBytes a n = args
  number : addrNumber args = x

theorem SpiUnit.addressed_base {u : SpiUnit} (h : u.part.mode4B = false) (a : BitVec 24) :
    u.Addressed 3 (a.setWidth 32) (addrBytes3 a) a.toNat := by
  refine ⟨.inl rfl, h, addrBytes_three a, ?_⟩
  rw [← addrBytes_three, addrNumber_addrBytes, BitVec.toNat_setWidth]
  omega

theorem SpiUnit.addressed_4B {u : SpiUnit} (h : u.part.mode4B = true) (a : BitVec 32) :
    u.Addressed 4 a (addrBytes4 a) a.toNat := by
  refine ⟨.inr rfl, h, addrBytes_four a, ?_⟩
  rw [← addrBytes_four, addrNumber_addrBytes]
  omega

theorem SpiUnit.Addressed.length {u : SpiUnit} {n x : Nat} {a : Word} {args : List Byte}
    (h : u.Addressed n a args x) : args.length = n := by
  rw [← h.bytes, addrBytes_length]

/-! ## READ, PP and the erases (R206 to R208) -/

/-- The transaction of a command with an address, its class written out. -/
theorem addressTxn_readCmd (cfg : Config.Params) (n : Nat) (a : Word) (len : Nat) :
    addressTxn cfg (readCmd n) n a [] len = ⟨.datard, cfg.op (readCmd n), some a, n, [], len⟩ := by
  have : (readCmd n).cls = .datard := by unfold readCmd; split <;> rfl
  rw [addressTxn, this]

theorem addressTxn_programCmd (cfg : Config.Params) (n : Nat) (a : Word) (data : List Byte) :
    addressTxn cfg (programCmd n) n a data 0 = ⟨.datawr, cfg.op (programCmd n), some a, n, data, 0⟩ := by
  have : (programCmd n).cls = .datawr := by unfold programCmd; split <;> rfl
  rw [addressTxn, this]

theorem addressTxn_eraseCmd (cfg : Config.Params) (e4K : Bool) (n : Nat) (a : Word) :
    addressTxn cfg (eraseCmd e4K n) n a [] 0 = ⟨.erase, cfg.op (eraseCmd e4K n), some a, n, [], 0⟩ := by
  have : (eraseCmd e4K n).cls = .erase := by unfold eraseCmd; split <;> split <;> rfl
  rw [addressTxn, this]

section Address
variable {s : State} {dev : Word} {u : SpiUnit} {n x : Nat} {a : Word} {args : List Byte} {i : Instr} {c : NorCmd}

/-- The bytes of a frame with an address. -/
theorem SpiUnit.Addressed.out (h : u.Addressed n a args x) (cls : TranClass) (cmd : Byte) (tx : List Byte) (rx : Nat) :
    (⟨cls, cmd, some a, n, tx, rx⟩ : Txn).out = cmd :: (args ++ tx) := by
  rw [← h.bytes]
  rfl

/-- A data read on a ready part, inside FLASH (R206); of no byte, anywhere (log 45). -/
theorem exec_readFrame {len : Word} (hc : readCmd n = c)
    (hi : exec i s = execFrame dev (addressTxn s.cfg c n a [] len.toNat) s) (hu : s.spi[dev.toNat]? = some u)
    (ha : u.Available s.cfg) (hw : u.PartReady s.cfg) (h : u.Addressed n a args x)
    (hfit : len ≠ 0#32 → x + len.toNat ≤ u.board.flashSize) :
    let rx := (List.range len.toNat).map fun j => flashRead s.cfg u.part.flash (x + j)
    ∃ v, exec i s = .next { s with spi := s.spi.set dev.toNat v, status := .success, buf := rx } ∧
      u.Returned s.cfg v [⟨s.cfg.op c :: args, rx⟩] ∧ v.part = u.part ∧ v.ctl.tranNum = len := by
  subst hc
  have hout := h.out .datard (s.cfg.op (readCmd n)) [] len.toNat
  rw [List.append_nil] at hout
  have hread : ∀ j, j < len.toNat → partReadByte s.cfg u.board u.part (s.cfg.op (readCmd n) :: args) j =
      .ok (flashRead s.cfg u.part.flash (x + j), u.part) := fun j hj =>
    have hfit := hfit (by rintro rfl; exact absurd hj (Nat.not_lt_zero j))
    partReadByte_read h.width ha.2.2.1 hw h.mode h.length h.number (by omega)
  rw [hi, addressTxn_readCmd]
  obtain ⟨v, e, hret, hpart, hctl⟩ := execFrame_receives
    (d := ⟨.datard, s.cfg.op (readCmd n), some a, n, [], len.toNat⟩) hu ha hw
    (addrTxn_legal h.width (.inl ⟨rfl, rfl⟩) (by simpa using len.isLt)) rfl
    (ha.fifoRoom (by rw [hout, List.length_cons, h.length]; have := h.width; omega))
    (by rwa [hout]) (by rw [hout]; exact partExecute_read h.width ha.2.2.1 hw h.mode h.length)
  rw [hout] at hret
  refine ⟨v, e, hret, hpart, ?_⟩
  rw [hctl]
  simp [Txn.doneCtl]

/-- A page program on a ready part, inside FLASH (R207); of no byte, anywhere (log 45). -/
theorem exec_programFrame {data : List Byte} (hc : programCmd n = c)
    (hi : exec i s = execFrame dev (addressTxn s.cfg c n a data 0) s) (hu : s.spi[dev.toNat]? = some u)
    (ha : u.Available s.cfg) (hw : u.PartReady s.cfg) (h : u.Addressed n a args x) (hlen : data.length < 2 ^ 32)
    (hroom : FifoRoom s.cfg (1 + args.length + data.length))
    (hfit : data ≠ [] → x + data.length ≤ u.board.flashSize) (hpage : 0 < partPage s.cfg u.board) :
    ∃ v, exec i s = .next { s with spi := s.spi.set dev.toNat v, status := .success, buf := data } ∧
      u.Returned s.cfg v [⟨s.cfg.op c :: (args ++ data), []⟩] ∧
      ProgramTaken s.cfg u.part (partPage s.cfg u.board) x data v.part ∧
      v.ctl.tranNum = BitVec.ofNat 32 data.length := by
  subst hc
  have hout := h.out .datawr (s.cfg.op (programCmd n)) data 0
  have hlength : 1 + args.length + data.length = (args ++ data).length + 1 := by rw [List.length_append]; omega
  rw [hi, addressTxn_programCmd]
  obtain ⟨v, e, hret, hpart, hctl⟩ := execFrame_sends
    (d := ⟨.datawr, s.cfg.op (programCmd n), some a, n, data, 0⟩) hu ha hw
    (addrTxn_legal h.width (.inr (.inl ⟨rfl, rfl⟩)) hlen) rfl
    (by rwa [hout, List.length_cons, ← hlength])
    (by rw [hout]; exact partExecute_pp h.width ha.2.2.1 hw h.mode h.length h.number hpage hfit)
  rw [hout] at hret
  refine ⟨v, ?_, hret, Part.programTaken_spec hpart, by rw [hctl]; rfl⟩
  simpa [Txn.sendsBuf] using e

/-- An erase on a ready part, of the unit of `m` bytes at an address (R208). -/
theorem exec_eraseFrame {e4K : Bool} {m : Nat} (hc : eraseCmd e4K n = c)
    (hi : exec i s = execFrame dev (addressTxn s.cfg c n a [] 0) s) (hu : s.spi[dev.toNat]? = some u)
    (ha : u.Available s.cfg) (hw : u.PartReady s.cfg) (h : u.Addressed n a args x) (hm : 0 < m)
    (hunit : eraseUnitOf s.cfg u.board e4K x = .ok m) :
    ∃ v, exec i s = .next { s with spi := s.spi.set dev.toNat v, status := .success } ∧
      u.Returned s.cfg v [⟨s.cfg.op c :: args, []⟩] ∧ EraseTaken s.cfg u.part m x v.part := by
  subst hc
  have hout := h.out .erase (s.cfg.op (eraseCmd e4K n)) [] 0
  rw [List.append_nil] at hout
  rw [hi, addressTxn_eraseCmd]
  obtain ⟨v, e, hret, hpart, -⟩ := execFrame_sends
    (d := ⟨.erase, s.cfg.op (eraseCmd e4K n), some a, n, [], 0⟩) hu ha hw
    (addrTxn_legal h.width (.inr (.inr ⟨rfl, rfl, rfl⟩)) (by decide)) rfl
    (ha.fifoRoom (by rw [hout, List.length_cons, h.length]; have := h.width; omega))
    (by rw [hout]; exact partExecute_erase_unit h.width ha.2.2.1 hw h.mode h.length h.number hunit)
  rw [hout] at hret
  exact ⟨v, e, hret, Part.eraseTaken_spec hm hpart⟩

end Address

/-- Settles O42: the data read of each address width (`exec_readFrame`). -/
theorem readFrames : Obligations.ReadFrames := by
  unfold Obligations.ReadFrames
  intro s dev len a3 a4 u hu ha hw
  exact ⟨fun hm => exec_readFrame (c := .read) rfl rfl hu ha hw (SpiUnit.addressed_base hm a3),
    fun hm => exec_readFrame (c := .read4b) rfl rfl hu ha hw (SpiUnit.addressed_4B hm a4)⟩

/-- Settles O43: the page program of each address width (`exec_programFrame`), with the page of the geometry table, or
of a free size where it has no entry. -/
theorem pageProgramFrames : Obligations.PageProgramFrames := by
  unfold Obligations.PageProgramFrames
  intro s dev a3 a4 data u hu ha hw hlen does program
  have key : ∀ {n c args x a i}, u.Addressed n a args x → programCmd n = c →
      exec i s = execFrame dev (addressTxn s.cfg c n a data 0) s → program i c args x := by
    intro n c args x a i h hc hi hroom hfit
    have run := exec_programFrame hc hi hu ha hw h hlen hroom hfit
    refine ⟨fun info hinfo hpage => ?_, fun hinfo => ⟨_, partPage_unlisted hinfo, run (partPage_unlisted hinfo)⟩⟩
    rw [partPage_listed hinfo] at run
    exact run hpage
  exact ⟨fun hm => key (SpiUnit.addressed_base hm a3) rfl (if_pos (decide_eq_true hlen)),
    fun hm => key (SpiUnit.addressed_4B hm a4) rfl (if_pos (decide_eq_true hlen))⟩

/-- The unit a sector erase erases, inside FLASH: the sector of the geometry table (R208). -/
theorem eraseUnitOf_sector {cfg : Config.Params} {board : Config.SpiBoard} {info : Config.FlashInfo} {a : Nat}
    (hinfo : Config.norFlashGetInfo cfg board.jedecId = some info) (hm : 0 < info.sectorSize)
    (hfit : alignDown info.sectorSize a + info.sectorSize ≤ board.flashSize) :
    eraseUnitOf cfg board false a = .ok info.sectorSize := by
  simp only [eraseUnitOf, Bool.false_eq_true, if_false, eraseSectorAt, hinfo]
  exact eraseUnitAt_ok hm hfit

/-- Settles O44: the erase of each unit and address width (`exec_eraseFrame`); the sector is that of the geometry table,
or of a free size where it has no entry. -/
theorem eraseFrames : Obligations.EraseFrames := by
  unfold Obligations.EraseFrames
  intro s dev a3 a4 u hu ha hw does block sector
  have hblock : ∀ {n c args x a i}, u.Addressed n a args x → eraseCmd true n = c →
      exec i s = execFrame dev (addressTxn s.cfg c n a [] 0) s → block i c args x 4096 :=
    fun h hc hi hm hfit => exec_eraseFrame hc hi hu ha hw h hm (eraseUnitAt_ok hm hfit)
  have hsector : ∀ {n c args x a i}, u.Addressed n a args x → eraseCmd false n = c →
      exec i s = execFrame dev (addressTxn s.cfg c n a [] 0) s → sector i c args x := by
    intro n c args x a i h hc hi
    refine ⟨fun info hinfo hm hfit => ?_, fun hinfo hx => ?_⟩
    · exact exec_eraseFrame hc hi hu ha hw h hm (eraseUnitOf_sector hinfo hm hfit)
    · obtain ⟨m, hm, hunit⟩ := eraseSectorAt_unlisted hinfo hx
      exact ⟨m, hm, exec_eraseFrame hc hi hu ha hw h hm hunit⟩
  exact ⟨fun hm => ⟨hblock (SpiUnit.addressed_base hm a3) rfl rfl, hsector (SpiUnit.addressed_base hm a3) rfl rfl⟩,
    fun hm => ⟨hblock (SpiUnit.addressed_4B hm a4) rfl rfl, hsector (SpiUnit.addressed_4B hm a4) rfl rfl⟩⟩

/-! ## PART's step (R214 to R216) -/

section Completion
variable {cfg : Config.Params} {p : Part}

theorem partStep_busy {x : Pending} (hw : wip cfg p.sr = true) (hp : p.pending = some x) :
    partStep cfg p = { applyPending cfg p x with
      sr := clearBusy cfg (applyPending cfg p x).sr, pending := none } := by
  rw [partStep, if_pos hw, applyPending?, hp]

theorem wel_partStep (hw : wip cfg p.sr = true) : wel cfg (partStep cfg p).sr = false := by
  rw [partStep, if_pos hw]
  exact wel_clearBusy ..

theorem partStep_pending (hw : wip cfg p.sr = true) : (partStep cfg p).pending = none := by
  rw [partStep, if_pos hw]

/-- Completion of a page program: the data is ANDed into its bytes (R214). -/
theorem partStep_of_program {a : Nat} {data : List Byte} (hw : wip cfg p.sr = true)
    (hm : Memory.wf cfg.erasedByte p.flash = true) (hp : p.pending = some (.program a data)) :
    (partStep cfg p).sr = p.sr &&& ~~~cfg.srMask ∧
      ∀ x, flashRead cfg (partStep cfg p).flash x = if h : a ≤ x ∧ x - a < data.length
        then flashRead cfg p.flash x &&& data[x - a]'h.2 else flashRead cfg p.flash x := by
  rw [partStep_busy hw hp]
  refine ⟨rfl, fun x => (flashRead_flashProgram hm a data x).trans ?_⟩
  by_cases h : a ≤ x ∧ x - a < data.length
  · rw [if_pos (by omega), dif_pos h, List.getD_eq_getElem _ _ h.2]
  · rw [if_neg (by omega), dif_neg h]

/-- Completion of a block erase (R215). -/
theorem partStep_of_eraseUnit {a u : Nat} (hw : wip cfg p.sr = true) (hp : p.pending = some (.eraseUnit a u)) :
    (partStep cfg p).sr = p.sr &&& ~~~cfg.srMask ∧
      ∀ x, flashRead cfg (partStep cfg p).flash x =
        if a ≤ x ∧ x < a + u then cfg.erasedByte else flashRead cfg p.flash x := by
  rw [partStep_busy hw hp]
  exact ⟨rfl, memRead_memClear cfg.erasedByte p.flash a u⟩

/-- Completion of a chip erase (R215). -/
theorem partStep_of_eraseAll (hw : wip cfg p.sr = true) (hp : p.pending = some .eraseAll) :
    (partStep cfg p).sr = p.sr &&& ~~~cfg.srMask ∧ ∀ x, flashRead cfg (partStep cfg p).flash x = cfg.erasedByte := by
  rw [partStep_busy hw hp]
  exact ⟨rfl, fun _ => rfl⟩

/-- Completion of a status write: `WIP` and `WEL` are not among the bits written (R216). -/
theorem partStep_of_statusWrite {v : Byte} (hw : wip cfg p.sr = true) (hp : p.pending = some (.statusWrite v)) :
    (partStep cfg p).flash = p.flash ∧ (partStep cfg p).sr = v &&& ~~~cfg.srMask := by
  rw [partStep_busy hw hp]
  exact ⟨rfl, clearBusy_statusMerge ..⟩

end Completion

/-- Settles O46: what the step leaves of any busy part, and of each kind of pending operation (`partStep_of_program`,
`partStep_of_eraseUnit`, `partStep_of_eraseAll`, `partStep_of_statusWrite`). -/
theorem partCompletesWhatIsPending : Obligations.PartCompletesWhatIsPending := by
  unfold Obligations.PartCompletesWhatIsPending
  intro cfg p
  exact ⟨partStep_ready, fun hw hm => ⟨wip_partStep p, wel_partStep hw, partStep_pending hw, partStep_mode4B p,
    fun _ _ => partStep_of_program hw hm, fun _ _ => partStep_of_eraseUnit hw, partStep_of_eraseAll hw,
    fun _ => partStep_of_statusWrite hw⟩⟩

/-! ## What the part refuses (R212, R217, R289) -/

section Refusal
variable {cfg : Config.Params} {board : Config.SpiBoard} {p : Part} {n : Nat} {args : List Byte} {x : Refusal}

theorem frameAddr_length (h : args.length ≠ n) : frameAddr p n args = .error (.refuse .addressLength) := if_pos h

theorem frameAddr_mode (hl : args.length = n) (hm : p.mode4B ≠ decide (n = 4)) :
    frameAddr p n args = .error (.refuse .addressMode) := by
  rw [frameAddr, if_neg (not_not.2 hl), if_pos hm]

/-- The part turns a frame with the address bytes `args` down for the reason `x`: they are not an address of `n` bytes
in its mode, or they are and the part is busy. -/
def Part.Declines (cfg : Config.Params) (p : Part) (n : Nat) (args : List Byte) (x : Refusal) : Prop :=
  frameAddr p n args = .error (.refuse x) ∨
    wip cfg p.sr = true ∧ frameAddr p n args = .ok (addrNumber args) ∧ x = .partBusy

theorem Part.declines_length (h : args.length ≠ n) : p.Declines cfg n args .addressLength := .inl (frameAddr_length h)

theorem Part.declines_mode (hl : args.length = n) (hm : p.mode4B ≠ decide (n = 4)) :
    p.Declines cfg n args .addressMode := .inl (frameAddr_mode hl hm)

theorem Part.declines_busy (hl : args.length = n) (hm : p.mode4B = decide (n = 4)) (hw : wip cfg p.sr = true) :
    p.Declines cfg n args .partBusy := .inr ⟨hw, frameAddr_ok hl hm, rfl⟩

theorem partBegin_busy (hw : wip cfg p.sr = true) (go : Except Stop (Part × Pending)) :
    partBegin cfg p go = .error (.refuse .partBusy) := if_pos hw

theorem partSent_declines (hn : n ≠ 0) (h : p.Declines cfg n (args.take n) x) :
    partSent cfg p n args = .error (.refuse x) := by
  obtain h | ⟨hw, h, rfl⟩ := h
  · rw [partSent, if_neg hn, h]
  · rw [partSent, if_neg hn, h]
    exact if_pos hw

theorem partProgram_declines (h : p.Declines cfg n (args.take n) x) :
    partProgram cfg board p n args = .error (.refuse x) := by
  obtain h | ⟨hw, h, rfl⟩ := h
  · rw [partProgram, h]
  · simp only [partProgram, h, hw, if_true, partBegin_busy, ite_self]

theorem partErase_declines {unit : Nat → Except Stop Nat} (h : p.Declines cfg n args x) :
    partErase cfg board p n args unit = .error (.refuse x) := by
  obtain h | ⟨hw, h, rfl⟩ := h
  · rw [partErase, h]
  · rw [partErase, h]
    exact partBegin_busy hw _

theorem commandAddr_addressed {c : NorCmd} (hn : n ≠ 0) (hc : c.addrLen = n) :
    commandAddr c p args = frameAddr p n args := by
  subst hc
  exact if_neg hn

theorem commandAddr_length {c : NorCmd} (h : args.length ≠ c.addrLen) :
    commandAddr c p args = .error (.refuse .addressLength) := by
  by_cases h0 : c.addrLen = 0
  · rw [commandAddr, if_pos h0, if_neg (by rintro rfl; exact h h0.symm)]
  · rw [commandAddr_addressed h0 rfl, frameAddr_length h]

theorem partReadByte_address {c : NorCmd} (hc : p.cut = false) (h : commandAddr c p args = .error (.refuse x))
    (i : Nat) : partReadByte cfg board p (cfg.op c :: args) i = .error (.refuse x) := by
  simp only [partReadByte, hc, Bool.false_eq_true, if_false, cmdOf_op, h]

theorem partReadByte_busy {c : NorCmd} {a : Nat} (hc : p.cut = false) (hw : wip cfg p.sr = true) (hne : c ≠ .rdsr)
    (h : commandAddr c p args = .ok a) (i : Nat) :
    partReadByte cfg board p (cfg.op c :: args) i = .error (.refuse .partBusy) := by
  simp [partReadByte, hc, h, hw, hne]

theorem partReadByte_declines {c : NorCmd} (hc : p.cut = false) (hn : n ≠ 0) (hlen : c.addrLen = n)
    (h : p.Declines cfg n args x) (i : Nat) :
    partReadByte cfg board p (cfg.op c :: args) i = .error (.refuse x) := by
  have haddr := commandAddr_addressed (p := p) (args := args) hn hlen
  obtain h | ⟨hw, h, rfl⟩ := h
  · exact partReadByte_address hc (haddr.trans h) i
  · exact partReadByte_busy hc hw (by rintro rfl; exact hn hlen.symm) (haddr.trans h) i

theorem partExecute_readCmd (hn : n = 3 ∨ n = 4) (hc : p.cut = false) (args : List Byte) :
    partExecute cfg board p (cfg.op (readCmd n) :: args) = partSent cfg p n args := by
  simp only [partExecute, hc, Bool.false_eq_true, if_false, cmdOf_op]
  obtain rfl | rfl := hn <;> rfl

theorem partExecute_programCmd (hn : n = 3 ∨ n = 4) (hc : p.cut = false) (args : List Byte) :
    partExecute cfg board p (cfg.op (programCmd n) :: args) = partProgram cfg board p n args := by
  simp only [partExecute, hc, Bool.false_eq_true, if_false, cmdOf_op]
  obtain rfl | rfl := hn <;> rfl

theorem partExecute_eraseCmd (hn : n = 3 ∨ n = 4) (hc : p.cut = false) (e4K : Bool) (args : List Byte) :
    partExecute cfg board p (cfg.op (eraseCmd e4K n) :: args) =
      partErase cfg board p n args (eraseUnitOf cfg board e4K) := by
  simp only [partExecute, hc, Bool.false_eq_true, if_false, cmdOf_op]
  cases e4K <;> obtain rfl | rfl := hn <;> rfl

/-- Execution of a frame whose address bytes are too few, or, of an erase, not as many as it takes (R212). -/
theorem partExecute_length (hn : n = 3 ∨ n = 4) (hc : p.cut = false) (args : List Byte) :
    (args.length ≠ n → ∀ e4K, partExecute cfg board p (cfg.op (eraseCmd e4K n) :: args) =
      .error (.refuse .addressLength)) ∧
    (args.length < n →
      partExecute cfg board p (cfg.op (programCmd n) :: args) = .error (.refuse .addressLength) ∧
      partExecute cfg board p (cfg.op (readCmd n) :: args) = .error (.refuse .addressLength)) := by
  refine ⟨fun h e4K => ?_, fun h => ?_⟩
  · rw [partExecute_eraseCmd hn hc, partErase_declines (Part.declines_length h)]
  · have hshort : p.Declines cfg n (args.take n) .addressLength :=
      Part.declines_length (by rw [List.length_take]; omega)
    rw [partExecute_programCmd hn hc, partExecute_readCmd hn hc]
    exact ⟨partProgram_declines hshort, partSent_declines (by omega) hshort⟩

/-- The commands that take an address of `n` bytes (R113, R211). -/
def addressCommands (n : Nat) : List NorCmd := [readCmd n, programCmd n, eraseCmd true n, eraseCmd false n]

theorem addrLen_addressCommands (hn : n = 3 ∨ n = 4) : ∀ c ∈ addressCommands n, c.addrLen = n := by
  obtain rfl | rfl := hn <;> decide

/-- Address bytes the part declines: no byte is sent, no command of their width is executed, and a data read or a page
program is not whatever follows them. -/
theorem partExecute_declines (hn : n = 3 ∨ n = 4) (hc : p.cut = false) (hl : args.length = n)
    (h : p.Declines cfg n args x) (data : List Byte) (i : Nat) :
    (∀ c ∈ addressCommands n, partReadByte cfg board p (cfg.op c :: args) i = .error (.refuse x) ∧
      partExecute cfg board p (cfg.op c :: args) = .error (.refuse x)) ∧
    partExecute cfg board p (cfg.op (programCmd n) :: (args ++ data)) = .error (.refuse x) ∧
    partExecute cfg board p (cfg.op (readCmd n) :: (args ++ data)) = .error (.refuse x) := by
  have hn0 : n ≠ 0 := by omega
  have htake : ∀ data, p.Declines cfg n ((args ++ data).take n) x := fun data => by rwa [← hl, List.take_left, hl]
  have hread : ∀ data, partExecute cfg board p (cfg.op (readCmd n) :: (args ++ data)) = .error (.refuse x) :=
    fun data => (partExecute_readCmd hn hc _).trans (partSent_declines hn0 (htake data))
  have hprogram : ∀ data, partExecute cfg board p (cfg.op (programCmd n) :: (args ++ data)) = .error (.refuse x) :=
    fun data => (partExecute_programCmd hn hc _).trans (partProgram_declines (htake data))
  have herase : ∀ e4K, partExecute cfg board p (cfg.op (eraseCmd e4K n) :: args) = .error (.refuse x) :=
    fun e4K => (partExecute_eraseCmd hn hc e4K args).trans (partErase_declines h)
  refine ⟨fun c hmem => ⟨partReadByte_declines hc hn0 (addrLen_addressCommands hn c hmem) h i, ?_⟩, hprogram data,
    hread data⟩
  have hread' := hread []
  have hprogram' := hprogram []
  rw [List.append_nil] at hread' hprogram'
  simp only [addressCommands, List.mem_cons, List.not_mem_nil, or_false] at hmem
  obtain rfl | rfl | rfl | rfl := hmem
  exacts [hread', hprogram', herase true, herase false]

/-- The commands without an address that are refused while the part is busy: all but RDSR (R289). -/
def plainCommands : List NorCmd := [.rdid, .wren, .wrdi, .en4b, .wrsr, .ce]

theorem partReadByte_plain_busy (hc : p.cut = false) (hw : wip cfg p.sr = true) (i : Nat) :
    ∀ c ∈ plainCommands, partReadByte cfg board p [cfg.op c] i = .error (.refuse .partBusy) := by
  intro c hmem
  have hplain : c.addrLen = 0 ∧ c ≠ .rdsr := by revert c; decide
  exact partReadByte_busy hc hw hplain.2 (commandAddr_none hplain.1) i

theorem partExecute_plain_busy (hc : p.cut = false) (hw : wip cfg p.sr = true) (args : List Byte) :
    ∀ c ∈ plainCommands, partExecute cfg board p (cfg.op c :: args) = .error (.refuse .partBusy) := by
  have hsent : partSent cfg p 0 args = .error (.refuse .partBusy) := if_pos hw
  have hsimple : ∀ f, partSimple cfg board p args f = .error (.refuse .partBusy) := fun _ => if_pos hw
  have hstatus : partStatusWrite cfg board p args = .error (.refuse .partBusy) := partBegin_busy hw _
  simp [plainCommands, partExecute, hc, hsent, hsimple, hstatus]

end Refusal

/-- Settles O45: address bytes of the wrong number or of the other mode, or sent to a busy part
(`partExecute_declines`), and the commands without an address on a busy part. -/
theorem partRefusesMismatchedFrames : Obligations.PartRefusesMismatchedFrames := by
  unfold Obligations.PartRefusesMismatchedFrames
  intro cfg board p args data i hc
  have length3 := partExecute_length (cfg := cfg) (board := board) (.inl rfl : 3 = 3 ∨ 3 = 4) hc args
  have length4 := partExecute_length (cfg := cfg) (board := board) (.inr rfl : 4 = 3 ∨ 4 = 4) hc args
  refine ⟨fun c h => partReadByte_address hc (commandAddr_length h) i, fun h => ⟨length3.1 h true, length3.1 h false⟩,
    fun h => ⟨length4.1 h true, length4.1 h false⟩, length3.2, length4.2, fun hl hm => ?_, fun hl hm => ?_,
    fun hw => ⟨fun hl hm => ?_, fun hl hm => ?_, ?_, partExecute_plain_busy hc hw args⟩⟩
  · exact partExecute_declines (.inl rfl) hc hl (Part.declines_mode hl (by simp [hm])) data i
  · exact partExecute_declines (.inr rfl) hc hl (Part.declines_mode hl (by simp [hm])) data i
  · exact partExecute_declines (.inl rfl) hc hl (Part.declines_busy hl (by simp [hm]) hw) data i
  · exact partExecute_declines (.inr rfl) hc hl (Part.declines_busy hl (by simp [hm]) hw) data i
  · rintro rfl
    exact partReadByte_plain_busy hc hw i

end Sys2Proof.Machine
end

section
/-! PROOF. The statements of the NOR operation family: the device records (R220, R221, R229, R232), invalid input (R223,
R227, R251), NOR.INIT (R211, R224, R254), the data operations under every fair schedule (R225 to R228, R230, R288) and
their composition (R231). -/

namespace Sys2Proof.Machine

open Sys2Proof

/-! ## NOR.SETUP and NOR.FREE (R221, R222, R229, R252) -/

section Records
variable {s : State} {spi : List SpiUnit} {handle : Option Word} {i : Nat} {u : SpiUnit}

theorem freeIndices_record (hi : i ∈ freeIndices spi) (hu : spi[i]? = some u) : u.record = none := by
  simpa [freeIndices, hu] using (List.mem_filter.1 hi).2

theorem freeIndices_full (h : ∀ u ∈ spi, u.record ≠ none) : freeIndices spi = [] := by
  refine List.filter_eq_nil_iff.2 fun i hi => ?_
  have hlt := List.mem_range.1 hi
  simp [List.getElem?_eq_getElem hlt, h _ (List.getElem_mem hlt)]

/-- A full table has no index to take, whatever is drawn (log 18). -/
theorem drawnIndex_full (h : ∀ u ∈ spi, u.record ≠ none) (d : AllocDraw) : drawnIndex spi d = none := by
  cases d with
  | fail => rfl
  | pick k => simp [drawnIndex, freeIndices_full h]

theorem nextDraw_tail (ds : List AllocDraw) : (nextDraw ds).2 = ds.tail := by cases ds <;> rfl

theorem reusable_absent
    (h : ∀ x u, handle = some x → s.spi[x.toNat]? = some u → u.record = none) : reusable s handle = none := by
  cases handle with
  | none => rfl
  | some x =>
    cases hu : s.spi[x.toNat]? with
    | none => simp only [reusable, hu]
    | some u => simp only [reusable, hu, h x u rfl hu, if_true]

/-- No present record, and a free index drawn: it gets a fresh record, and its controller is reset (R221). -/
theorem exec_norSetup_fresh (hr : reusable s handle = none) (hd : drawnIndex s.spi (nextDraw s.allocs).1 = some i)
    (hu : s.spi[i]? = some u) :
    exec (.norSetup handle) s = .next (setupDone { s with allocs := (nextDraw s.allocs).2 } i
      { u with record := some (freshRecord s.cfg u) }) := by
  show execNorSetup handle s = _
  simp only [execNorSetup, hr, hd, hu]

/-- No present record and no index: nothing but the status and the draws changes (R252). -/
theorem exec_norSetup_noIndex (hr : reusable s handle = none)
    (hd : drawnIndex s.spi (nextDraw s.allocs).1 = none) :
    exec (.norSetup handle) s = .next { s with allocs := s.allocs.tail, status := .outOfResources } := by
  show execNorSetup handle s = _
  simp only [execNorSetup, hr, hd, nextDraw_tail]
  rfl

end Records

/-- Settles O48: a present record is reused (`exec_norSetup_reuse`); else the draw decides between a fresh record
(`exec_norSetup_fresh`) and a failure (`exec_norSetup_noIndex`). -/
theorem norSetupReusesOrAllocates : Obligations.NorSetupReusesOrAllocates := by
  unfold Obligations.NorSetupReusesOrAllocates
  intro s handle
  refine ⟨fun h u hh hu hrec => ?_, fun habs => ?_⟩
  · rw [hh, exec_norSetup_reuse hu hrec, setupDone, BitVec.ofNat_toNat, BitVec.setWidth_eq]
  · have hr := reusable_absent habs
    refine ⟨fun k rest i u ha hi hu => ⟨freeIndices_record (List.mem_of_getElem? hi) hu, ?_⟩,
      fun i u ha hi hu => ⟨freeIndices_record (List.mem_of_head? hi) hu, ?_⟩, fun rest ha => ?_, fun hfull => ?_⟩
    · have hd : drawnIndex s.spi (nextDraw s.allocs).1 = some i := by rw [ha]; exact hi
      rw [exec_norSetup_fresh hr hd hu, ha]
      rfl
    · have hd : drawnIndex s.spi (nextDraw s.allocs).1 = some i := by
        rw [ha, ← hi, List.head?_eq_getElem?]
        simp only [nextDraw, drawnIndex, Nat.zero_mod]
      rw [exec_norSetup_fresh hr hd hu, ha]
      simp only [setupDone, nextDraw, freshRecord, ← ha]
    · rw [exec_norSetup_noIndex hr (by rw [ha]; rfl), ha]
      rfl
    · exact exec_norSetup_noIndex hr (drawnIndex_full hfull _)

/-- Settles O56: the record goes, by the definition of the operation on a present one. -/
theorem norFreeReleasesTheRecord : Obligations.NorFreeReleasesTheRecord := by
  unfold Obligations.NorFreeReleasesTheRecord
  intro s dev u hu hrec
  show execNorFree dev s = _
  simp only [execNorFree, hu, if_neg hrec]

/-! ## Which operation each instruction is -/

section Exec
variable (s : State) (dev : Word)

theorem exec_norInit : exec (.norInit dev) s = onSpi dev s .absentDevice noResult (norInit s.cfg) := rfl

theorem exec_norErchip : exec (.norErchip dev) s = onSpi dev s .absentDevice noResult (norEraseChip s.cfg) := rfl

end Exec

/-! ## An absent record, and one not initialised (R220, R232) -/

section NoRecord
variable {cfg : Config.Params} {u : SpiUnit}

section Absent
variable (hr : u.record = none)
include hr

theorem withRecord_absent {α : Type} (f : NorDevice → Res SpiUnit α) :
    withRecord u f = .stop (.refuse .absentDevice) := by
  rw [withRecord, hr]; rfl

theorem withResolved_absent {α : Type} (f : Resolved → Res SpiUnit α) :
    withResolved u f = .stop (.refuse .absentDevice) := withRecord_absent hr _

theorem withInited_absent {α : Type} (f : Resolved → Res SpiUnit α) :
    withInited u f = .stop (.refuse .absentDevice) := withRecord_absent hr _

theorem readRegister_absent (cmd : Byte) (n : Nat) : readRegister cfg cmd n u = .stop (.refuse .absentDevice) :=
  withRecord_absent hr _

theorem norInit_absent : norInit cfg u = .stop (.refuse .absentDevice) := by
  rw [norInit, getId, readRegister_absent hr]; rfl

theorem waitReady_absent : waitReady cfg u = .stop (.refuse .absentDevice) := by
  obtain ⟨n, hn⟩ := pollCount_pos cfg.readyPollBudget u.sched.length
  rw [waitReady, hn, readyPolls, readRegister_absent hr]; rfl

end Absent

/-- A record that `NOR.INIT` has not completed (R232). -/
theorem withInited_notInited {α : Type} {r : NorDevice} (hr : u.record = some r) (hi : r.inited = false)
    (f : Resolved → Res SpiUnit α) : withInited u f = .stop (.refuse .notInitialised) := by
  simp only [withInited, withRecord, hr, hi]; rfl

variable {s : State} {dev : Word}

theorem onSpi_refused {α : Type} {m x : Refusal} {k : α → State → State} {f : SpiUnit → Res SpiUnit α}
    (hu : s.spi[dev.toNat]? = some u) (h : f (u.load s.buf) = .stop (.refuse x)) : onSpi dev s m k f = .refused x :=
  onSpi_stop hu h

/-- The data operations look at the record before any other operand (log 32). -/
theorem exec_data_refused {off len : Word} {data : List Byte} {x : Refusal} (hu : s.spi[dev.toNat]? = some u)
    (hd : data.length = len.toNat)
    (h : ∀ f : Resolved → Res SpiUnit Unit, withInited (u.load s.buf) f = .stop (.refuse x)) :
    ∀ i ∈ [Instr.norRd dev off len, .norWr dev off len data, .norEr dev off len, .norErchip dev],
      exec i s = .refused x := by
  simp only [List.forall_mem_cons, List.not_mem_nil, false_imp_iff, implies_true, and_true]
  rw [exec_norRd, exec_norWr s dev off len hd, exec_norEr, exec_norErchip]
  exact ⟨onSpi_refused hu (h _), onSpi_refused hu (h _), onSpi_refused hu (h _), onSpi_refused hu (h _)⟩

/-- The primitives over a device record need one (R220). -/
theorem exec_primitive_absent {addr len : Word} {data payload : List Byte} {n : BitVec 2}
    (hu : s.spi[dev.toNat]? = some u) (hr : u.record = none) (hd : data.length = len.toNat)
    (hp : payload.length = n.toNat) (cmd : Byte) :
    ∀ i ∈ [Instr.norWaitrdy dev, .norGetid dev, .spiRdreg dev cmd n, .spiWrreg dev cmd n payload,
        .spiXrd dev addr len, .spiXpp dev addr len data, .spiXer dev addr], exec i s = .refused .absentDevice := by
  have hl : ∀ b, (u.load b).record = none := fun _ => hr
  have hread : ∀ c m, exec (.spiRdreg dev c m) s = .refused .absentDevice := fun c m => by
    rw [exec_spiRdreg]
    exact onSpi_refused hu (by rw [readRegister_absent (hl _)]; rfl)
  simp only [List.forall_mem_cons, List.not_mem_nil, false_imp_iff, implies_true, and_true]
  refine ⟨?_, (exec_norGetid s dev).trans (hread _ _), hread _ _, ?_, ?_, ?_, ?_⟩
  · rw [exec_norWaitrdy]
    exact onSpi_refused hu (waitReady_absent (hl _))
  · rw [exec_spiWrreg s dev cmd hp]
    exact onSpi_refused hu (withRecord_absent (u := (u.load s.buf).load payload) hr _)
  · rw [exec_spiXrd]
    exact onSpi_refused hu (by rw [readTransaction, withResolved_absent (hl _)]; rfl)
  · rw [exec_spiXpp s dev addr len hd]
    exact onSpi_refused hu (withResolved_absent (u := (u.load s.buf).load data) hr _)
  · rw [exec_spiXer]
    exact onSpi_refused hu (withResolved_absent (hl _) _)

theorem exec_norFree_absent (hu : s.spi[dev.toNat]? = some u) (hr : u.record = none) :
    exec (.norFree dev) s = .refused .absentDevice := by
  show execNorFree dev s = _
  simp only [execNorFree, hu, if_pos hr]

end NoRecord

/-- Settles O58: every operation looks at the record first (`exec_data_refused`, `exec_primitive_absent`). -/
theorem absentOrUninitialisedIsRefused : Obligations.AbsentOrUninitialisedIsRefused := by
  unfold Obligations.AbsentOrUninitialisedIsRefused
  intro s dev off len data payload cmd n u hu hd hp
  refine ⟨fun hr => ?_, fun r hr hi => exec_data_refused hu hd fun f => withInited_notInited hr hi f⟩
  have hdata := exec_data_refused (off := off) hu hd fun f => withInited_absent (u := u.load s.buf) hr f
  have hprim := exec_primitive_absent (addr := off) hu hr hd hp cmd
  have hinit : exec (.norInit dev) s = .refused .absentDevice :=
    onSpi_refused hu (norInit_absent (u := u.load s.buf) hr)
  simp only [List.forall_mem_cons, List.not_mem_nil, false_imp_iff, implies_true, and_true] at hdata hprim ⊢
  obtain ⟨hrd, hwr, her, herchip⟩ := hdata
  exact ⟨hinit, hrd, hwr, her, herchip, exec_norFree_absent hu hr, hprim⟩

/-! ## Invalid input (R223, R227, R251) -/

section Invalid
variable {cfg : Config.Params} {u : SpiUnit} {info : Config.FlashInfo} (hi : u.Initialised cfg info)
include hi

theorem norRead_zero (off : Nat) : norRead cfg off 0 u = .raised .invalidParameter u := withInited_eq hi _

theorem norWrite_zero (off : Nat) (data : List Byte) : norWrite cfg off 0 data u = .raised .invalidParameter u :=
  withInited_eq hi _

theorem norErase_zero (off : Nat) : norErase cfg off 0 u = .raised .invalidParameter u := withInited_eq hi _

/-- A misaligned erase is invalid whatever its length (R227). -/
theorem norErase_misaligned {off : Nat} (len : Nat) (h : off % (resolve cfg info).granularity ≠ 0) :
    norErase cfg off len u = .raised .invalidParameter u := by
  rw [norErase, withInited_eq hi, nonZero, if_pos h, ite_self]

end Invalid

/-- Settles O57: each operation checks its operands before its first transaction (`norRead_zero`, `norWrite_zero`,
`norErase_zero`, `norErase_misaligned`). -/
theorem zeroLengthAndMisalignmentAreInvalid : Obligations.ZeroLengthAndMisalignmentAreInvalid := by
  unfold Obligations.ZeroLengthAndMisalignmentAreInvalid
  intro s dev off len u info hu hi
  have hi : (u.load s.buf).Initialised s.cfg info := hi
  rw [exec_norRd, exec_norWr s dev off 0#32 (data := []) rfl, exec_norEr, exec_norEr]
  exact ⟨onSpi_invalid hu (norRead_zero hi _), onSpi_invalid hu (norWrite_zero hi _ _),
    onSpi_invalid hu (norErase_zero hi _), fun h => onSpi_invalid hu (norErase_misaligned hi _ h)⟩

/-! ## NOR.INIT (R211, R224, R254) -/

/-- Settles O49: the run of `Init` on a part the table knows (`norInit_ready`). -/
theorem norInitResolvesTheRecord : Obligations.NorInitResolvesTheRecord := by
  unfold Obligations.NorInitResolvesTheRecord
  intro s dev u r info hu hr ha hw hg hp hs
  obtain ⟨v, fs, e, hpart, hrec, hboard, hlive, -, hidle, hfair, hbuf, hframes, hcmds, hctl⟩ :=
    norInit_ready (u := u.load s.buf) hr (ha.load s.buf) hw hg hp hs
  have hbuf : v.work.buf = s.buf := hbuf
  have hx : v.ctl.xfer = none := by rw [hctl]; rfl
  refine ⟨v.retire, fs, ?_, ⟨hboard, hrec, hlive, hidle, hx, hfair, hframes⟩, hpart, hctl, hcmds⟩
  rw [exec_norInit, onSpi_ok hu e, hbuf]
  rfl

/-- An ID without an entry ends `Init` after the ID read (R224, C8). -/
theorem norInit_unknown {cfg : Config.Params} {u v : SpiUnit}
    (e : getId cfg u = .ok [u.board.jedecId.b0, u.board.jedecId.b1, u.board.jedecId.b2] v)
    (hg : Config.norFlashGetInfo cfg u.board.jedecId = none) : norInit cfg u = .raised .notFound v := by
  have hj : jedecOf [u.board.jedecId.b0, u.board.jedecId.b1, u.board.jedecId.b2] = u.board.jedecId := rfl
  rw [norInit, e, Res.bind_ok, hj, hg]

/-- Settles O50: the ID read (`getId_ready`) is all that happens (`norInit_unknown`). -/
theorem norInitUnknownPartNotFound : Obligations.NorInitUnknownPartNotFound := by
  unfold Obligations.NorInitUnknownPartNotFound
  intro s dev u r hu hr ha hw hg
  obtain ⟨v, e, hpart, hafter, hctl⟩ := getId_ready (u := u.load s.buf) hr (ha.load s.buf) hw
  have hbuf : v.work.buf = s.buf := hafter.buf
  refine ⟨v.retire, ?_, hafter.returned hctl, hpart, hctl⟩
  rw [exec_norInit, onSpi_raised hu (norInit_unknown e hg) nofun, hbuf]

/-! ## The data operations (R225 to R228) -/

/-- What a byte of `FLASH` reads as after a page program of data given with its length (R214). -/
theorem flashRead_flashProgram_getElem {cfg : Config.Params} {m : Memory} (h : Memory.wf cfg.erasedByte m = true)
    (a : Nat) (data : List Byte) (x : Nat) :
    flashRead cfg (flashProgram cfg m a data) x = if h : a ≤ x ∧ x - a < data.length
      then flashRead cfg m x &&& data[x - a]'h.2 else flashRead cfg m x := by
  rw [flashRead_flashProgram h]
  by_cases hx : a ≤ x ∧ x - a < data.length
  · rw [if_pos (by omega), dif_pos hx, List.getD_eq_getElem _ _ hx.2]
  · rw [if_neg (by omega), dif_neg hx]

/-- What a part at rest holds. -/
theorem Part.rest_fields {p q : Part} {m : Memory} {sr : Byte} (h : q = p.rest m sr) :
    q.sr = sr ∧ q.pending = none ∧ q.mode4B = p.mode4B ∧ q.flash = m := by
  subst h
  exact ⟨rfl, rfl, rfl, rfl⟩

theorem toNat_pos {w : Word} (h : w ≠ 0#32) : 0 < w.toNat :=
  Nat.pos_of_ne_zero ((BitVec.toNat_ne_iff_ne (y := 0#32)).2 h)

section Fair
variable {s : State} {dev : Word} {u : SpiUnit} {info : Config.FlashInfo} (hu : s.spi[dev.toNat]? = some u)
  (hi : u.Initialised s.cfg info) (ha : u.Available s.cfg) (hw : u.PartReady s.cfg)
include hu hi ha hw

theorem exec_norRd_fair {off len : Word} (h0 : len ≠ 0#32)
    (hf : flashFits u.board.flashSize (resolve s.cfg info).addressByteCount off.toNat len.toNat = true) :
    ∃ v fs, exec (.norRd dev off len) s = .next { s with
        spi := s.spi.set dev.toNat v, status := .success,
        buf := (List.range len.toNat).map fun j => flashRead s.cfg u.part.flash (off.toNat + j) } ∧
      u.Returned s.cfg v fs ∧ v.part = u.part ∧
      commandsOf s.cfg fs = readCommands (resolve s.cfg info) len.toNat off.toNat len.toNat ∧
      ∀ f ∈ fs, ReadInPage (resolve s.cfg info) f := by
  obtain ⟨v, fs, e, hpart, hboard, hrec, hlive, -, hidle, hfair, hframes, hcmds, hpages, hbuf, hx⟩ :=
    norRead_ready (u := u.load s.buf) hi (ha.load s.buf) hw (toNat_pos h0) len.isLt hf
  refine ⟨v.retire, fs, ?_, ⟨hboard, hrec, hlive, hidle, hx, hfair, hframes⟩, hpart, hcmds, hpages⟩
  rw [exec_norRd, onSpi_ok hu e, hbuf]
  rfl

theorem exec_norWr_fair {off len : Word} {data : List Byte} (h0 : len ≠ 0#32) (hd : data.length = len.toNat)
    (hf : flashFits u.board.flashSize (resolve s.cfg info).addressByteCount off.toNat len.toNat = true)
    (hroom : FifoRoom s.cfg (1 + (resolve s.cfg info).addressByteCount + min info.pageSize len.toNat)) :
    ∃ v fs, exec (.norWr dev off len data) s = .next { s with
        spi := s.spi.set dev.toNat v, status := .success, buf := data } ∧
      u.Returned s.cfg v fs ∧ v.ctl = (registerTxn s.cfg .wrdi [] 0).doneCtl s.cfg ∧
      v.part = u.part.rest (flashProgram s.cfg u.part.flash off.toNat data) (clearWel s.cfg u.part.sr) ∧
      commandsOf s.cfg fs =
        writeCommands s.cfg (resolve s.cfg info) len.toNat off.toNat data ++ [[s.cfg.op .wrdi]] := by
  obtain ⟨v, fs, e, hpart, hboard, hrec, hlive, -, hidle, hfair, hbuf, hframes, hcmds, hctl⟩ :=
    norWrite_ready (u := u.load s.buf) hi (ha.load s.buf) hw (toNat_pos h0) len.isLt hd hf hroom
  have hx : v.ctl.xfer = none := by rw [hctl]; rfl
  refine ⟨v.retire, fs, ?_, ⟨hboard, hrec, hlive, hidle, hx, hfair, hframes⟩, hctl, hpart, hcmds⟩
  rw [exec_norWr s dev off len hd, onSpi_ok hu e, hbuf]
  rfl

theorem exec_norEr_fair {off len : Word} (h0 : len ≠ 0#32) (hal : off.toNat % (resolve s.cfg info).granularity = 0)
    (hf : flashFits u.board.flashSize (resolve s.cfg info).addressByteCount off.toNat len.toNat = true)
    (hunits : off.toNat + sectorCount len.toNat (resolve s.cfg info).granularity *
      (resolve s.cfg info).granularity ≤ u.board.flashSize) :
    let n := sectorCount len.toNat (resolve s.cfg info).granularity
    ∃ v fs, exec (.norEr dev off len) s = .next { s with spi := s.spi.set dev.toNat v, status := .success } ∧
      u.Returned s.cfg v fs ∧ v.ctl = (registerTxn s.cfg .wrdi [] 0).doneCtl s.cfg ∧
      v.part = u.part.rest (memClear u.part.flash off.toNat (n * (resolve s.cfg info).granularity))
        (clearWel s.cfg u.part.sr) ∧
      commandsOf s.cfg fs =
        eraseCommands s.cfg (resolve s.cfg info) off.toNat (List.range n) ++ [[s.cfg.op .wrdi]] := by
  obtain ⟨v, fs, e, hpart, hboard, hrec, hlive, -, hidle, hfair, hbuf, hframes, hcmds, hctl⟩ :=
    norErase_ready (u := u.load s.buf) hi (ha.load s.buf) hw (toNat_pos h0) hal hf hunits
  have hbuf : v.work.buf = s.buf := hbuf
  have hx : v.ctl.xfer = none := by rw [hctl]; rfl
  refine ⟨v.retire, fs, ?_, ⟨hboard, hrec, hlive, hidle, hx, hfair, hframes⟩, hctl, hpart, hcmds⟩
  rw [exec_norEr, onSpi_ok hu e, hbuf]
  rfl

theorem exec_norErchip_fair :
    ∃ v fs, exec (.norErchip dev) s = .next { s with spi := s.spi.set dev.toNat v, status := .success } ∧
      u.Returned s.cfg v fs ∧ v.ctl = (registerTxn s.cfg .wrdi [] 0).doneCtl s.cfg ∧
      v.part = u.part.rest [] (clearWel s.cfg u.part.sr) ∧
      commandsOf s.cfg fs = [[s.cfg.op .wren], [s.cfg.op .ce], [s.cfg.op .wrdi]] := by
  obtain ⟨v, fs, e, hpart, hafter, hcmds, hctl⟩ := norEraseChip_ready (u := u.load s.buf) hi (ha.load s.buf) hw
  have hbuf : v.work.buf = s.buf := hafter.buf
  refine ⟨v.retire, fs, ?_, hafter.returned hctl, hctl, hpart, hcmds⟩
  rw [exec_norErchip, onSpi_ok hu e, hbuf]
  rfl

end Fair

/-- Without status polls among them, the commands are the frames sent (R210). -/
theorem commandsOf_noPoll {cfg : Config.Params} {fs : List Frame} (h : ∀ f ∈ fs, f.out ≠ [cfg.op .rdsr]) :
    commandsOf cfg fs = fs.map Frame.out := by
  refine List.filter_eq_self.2 fun o ho => ?_
  obtain ⟨f, hf, rfl⟩ := List.mem_map.1 ho
  exact decide_eq_true (h f hf)

theorem ReadInPage.not_poll {cfg : Config.Params} {info : Config.FlashInfo} {f : Frame}
    (h : ReadInPage (resolve cfg info) f) : f.out ≠ [cfg.op .rdsr] := by
  obtain ⟨a, -, hout, -⟩ := h
  refine not_rdsr_of_length ?_
  have hn := resolve_n cfg info
  rw [hout, List.length_cons, addrBytes_length]
  omega

/-- Settles O51: the page-wise read (`exec_norRd_fair`), which polls no status. -/
theorem norRdReturnsTheBytes : Obligations.NorRdReturnsTheBytes := by
  unfold Obligations.NorRdReturnsTheBytes
  intro s dev off len u info hu hi ha hw h0 hf
  obtain ⟨v, fs, e, hret, hpart, hcmds, hpages⟩ := exec_norRd_fair hu hi ha hw h0 hf
  rw [commandsOf_noPoll fun f hf => (hpages f hf).not_poll] at hcmds
  exact ⟨v, fs, e, hret, hpart, hcmds, hpages⟩

/-- Settles O52: the page-wise write (`exec_norWr_fair`) programs the array (`flashRead_flashProgram_getElem`). -/
theorem norWrProgramsTheBytes : Obligations.NorWrProgramsTheBytes := by
  unfold Obligations.NorWrProgramsTheBytes
  intro s dev off len data u info hu hi ha hw hinv h0 hd hf hroom
  obtain ⟨v, fs, e, hret, hctl, hpart, hcmds⟩ := exec_norWr_fair hu hi ha hw h0 hd hf hroom
  obtain ⟨-, hwf⟩ := hinv.part
  obtain ⟨hsr, hpending, hmode, hflash⟩ := Part.rest_fields hpart
  refine ⟨v, fs, e, hret, hctl, hsr, hpending, hmode, ?_, hcmds⟩
  rw [hflash]
  exact flashRead_flashProgram_getElem hwf _ data

/-- Settles O54: the unit-wise erase (`exec_norEr_fair`) clears the array (`memRead_memClear`). -/
theorem norErErasesTheUnits : Obligations.NorErErasesTheUnits := by
  unfold Obligations.NorErErasesTheUnits
  intro s dev off len u info hu hi ha hw h0 hal hf hunits n
  obtain ⟨v, fs, e, hret, hctl, hpart, hcmds⟩ := exec_norEr_fair hu hi ha hw h0 hal hf hunits
  obtain ⟨hsr, hpending, hmode, hflash⟩ := Part.rest_fields hpart
  refine ⟨v, fs, e, hret, hctl, hsr, hpending, hmode, ?_, hcmds⟩
  rw [hflash]
  exact memRead_memClear s.cfg.erasedByte u.part.flash _ _

/-- Settles O55: the chip erase (`exec_norErchip_fair`) leaves no byte listed. -/
theorem norErchipErasesEverything : Obligations.NorErchipErasesEverything := by
  unfold Obligations.NorErchipErasesEverything
  intro s dev u info hu hi ha hw
  obtain ⟨v, fs, e, hret, hctl, hpart, hcmds⟩ := exec_norErchip_fair hu hi ha hw
  obtain ⟨hsr, hpending, hmode, hflash⟩ := Part.rest_fields hpart
  refine ⟨v, fs, e, hret, hctl, hsr, hpending, hmode, ?_, hcmds⟩
  rw [hflash]
  exact fun _ => rfl

/-! ## The programs of a page-wise write (R226, R230, R288) -/

section Programs
variable {cfg : Config.Params} {g : Resolved} {addr : Nat} {data : List Byte}

theorem writeCommands_nil (fuel : Nat) : writeCommands cfg g fuel addr [] = [] := by cases fuel <;> rfl

/-- The first chunk of a write and the chunks after it. -/
theorem writeCommands_chunk (fuel : Nat) (h : data ≠ []) :
    writeCommands cfg g (fuel + 1) addr data =
      [cfg.op .wren] ::
      (g.programOpcode :: (addrBytes (BitVec.ofNat 32 addr) g.addressByteCount ++
        data.take (chunkLen g.pageSize addr data.length))) ::
      writeCommands cfg g fuel (addr + chunkLen g.pageSize addr data.length)
        (data.drop (chunkLen g.pageSize addr data.length)) := by
  rw [writeCommands, if_neg h]

/-- Every program of a write lies in one page (R230). -/
theorem writeCommands_inPage (hp : 0 < g.pageSize) (hwren : cfg.op .wren ≠ g.programOpcode) (fuel : Nat)
    (hfit : addr + data.length ≤ 2 ^ (8 * g.addressByteCount)) {f : Frame}
    (hf : f.out ∈ writeCommands cfg g fuel addr data) (hop : f.out.head? = some g.programOpcode) :
    ProgramInPage g f := by
  induction fuel generalizing addr data with
  | zero => cases hf
  | succ n ih =>
    by_cases h : data = []
    · subst h
      rw [writeCommands_nil] at hf
      cases hf
    have hpos : 0 < data.length := List.length_pos_iff.2 h
    have hk := chunkLen_pos (addr := addr) hp hpos
    have hle := chunkLen_le (p := g.pageSize) (addr := addr) (rem := data.length)
    have hpage := chunkLen_page (p := g.pageSize) (addr := addr) (rem := data.length)
    rw [writeCommands_chunk n h] at hf
    generalize chunkLen g.pageSize addr data.length = k at *
    rw [List.mem_cons, List.mem_cons] at hf
    obtain hf | hf | hf := hf
    · rw [hf] at hop
      exact absurd (Option.some.inj hop) hwren
    · have hlen : (data.take k).length = k := by rw [List.length_take]; omega
      refine ⟨addr, data.take k, by omega, hf, List.ne_nil_of_length_pos (by omega), ?_⟩
      rw [hlen]
      exact div_page hp hk hpage
    · exact ih (by rw [List.length_drop]; omega) hf

/-- A chunk that ends before the request does ends at a page boundary, and what is left is counted from there. -/
theorem pages_after_chunk {p a n : Nat} (hp : 0 < p) (h : p - a % p < n) :
    (a + n - 1) / p - a / p + 1 =
      1 + ((a + (p - a % p) + (n - (p - a % p)) - 1) / p - (a + (p - a % p)) / p + 1) := by
  have hm := Nat.mod_lt a hp
  have hnext : a + (p - a % p) = p * (a / p + 1) := by have := Nat.mod_add_div a p; rw [Nat.mul_add]; omega
  have hdiv : (a + (p - a % p)) / p = a / p + 1 := by rw [hnext, Nat.mul_div_cancel_left _ hp]
  have hle : a / p + 1 ≤ (a + n - 1) / p := by rw [← hdiv]; exact Nat.div_le_div_right (by omega)
  rw [hdiv, show a + (p - a % p) + (n - (p - a % p)) - 1 = a + n - 1 by omega]
  omega

/-- A write makes one program per page it touches (R226, R230). -/
theorem writeCommands_programs (hp : 0 < g.pageSize) (hwren : cfg.op .wren ≠ g.programOpcode) (fuel : Nat)
    (h : data ≠ []) (hfuel : data.length ≤ fuel) :
    ((writeCommands cfg g fuel addr data).filter fun o => o.head? = some g.programOpcode).length =
      (addr + data.length - 1) / g.pageSize - addr / g.pageSize + 1 := by
  induction fuel generalizing addr data with
  | zero => exact absurd (List.length_eq_zero_iff.1 (Nat.le_zero.1 hfuel)) h
  | succ n ih =>
    have hpos : 0 < data.length := List.length_pos_iff.2 h
    rw [writeCommands_chunk n h, List.filter_cons_of_neg (by simpa using hwren), List.filter_cons_of_pos (by simp),
      List.length_cons]
    by_cases hlast : data.length ≤ g.pageSize - addr % g.pageSize
    · have hk : chunkLen g.pageSize addr data.length = data.length := Nat.min_eq_right hlast
      rw [hk, List.drop_length, writeCommands_nil, ← div_page hp hpos hlast]
      simp
    · have hk : chunkLen g.pageSize addr data.length = g.pageSize - addr % g.pageSize :=
        Nat.min_eq_left (Nat.le_of_not_le hlast)
      have hm := Nat.mod_lt addr hp
      have hlen : (data.drop (g.pageSize - addr % g.pageSize)).length =
          data.length - (g.pageSize - addr % g.pageSize) :=
        List.length_drop
      rw [hk, ih (List.ne_nil_of_length_pos (by omega)) (by omega), hlen, pages_after_chunk hp (Nat.lt_of_not_le hlast),
        Nat.add_comm 1]

/-- Status polls aside, the frames a command byte leads are the commands it leads. -/
theorem filter_frames_head {fs : List Frame} {b : Byte} (hb : cfg.op .rdsr ≠ b) :
    (fs.filter fun f => f.out.head? = some b).map Frame.out =
      (commandsOf cfg fs).filter fun o => o.head? = some b := by
  rw [commandsOf, List.filter_filter, List.filter_map]
  refine congrArg _ (List.filter_congr fun f _ => ?_)
  by_cases hf : f.out = [cfg.op .rdsr] <;> simp [hf, hb]

theorem op_ne_programOpcode (info : Config.FlashInfo) {c : NorCmd} (h : c ≠ .pp) (h4 : c ≠ .pp4b) :
    cfg.op c ≠ (resolve cfg info).programOpcode := by
  rw [resolve_programOpcode, Ne, op_inj]
  split
  · exact h4
  · exact h

end Programs

/-- Settles O53: of the commands of the write (`exec_norWr_fair`), each program lies in one page
(`writeCommands_inPage`) and each page has one (`writeCommands_programs`). -/
theorem norWrNeverCrossesAPage : Obligations.NorWrNeverCrossesAPage := by
  unfold Obligations.NorWrNeverCrossesAPage
  intro s dev off len data u info hu hi ha hw h0 hd hf hroom
  obtain ⟨v, fs, e, hret, -, -, hcmds⟩ := exec_norWr_fair hu hi ha hw h0 hd hf hroom
  have hp : 0 < (resolve s.cfg info).pageSize := hi.1.2.2.1
  have hne : data ≠ [] := by
    rintro rfl
    exact h0 (BitVec.eq_of_toNat_eq hd.symm)
  have hwren := op_ne_programOpcode (cfg := s.cfg) info (c := .wren) nofun nofun
  have hwrdi := op_ne_programOpcode (cfg := s.cfg) info (c := .wrdi) nofun nofun
  have hrdsr := op_ne_programOpcode (cfg := s.cfg) info (c := .rdsr) nofun nofun
  have hframes := filter_frames_head (fs := fs) hrdsr
  rw [hcmds, List.filter_append, List.filter_cons_of_neg (by simpa using hwrdi), List.filter_nil,
    List.append_nil] at hframes
  refine ⟨_, v, fs, e, List.getElem?_set_self (List.getElem?_eq_some_iff.1 hu).1, hret.frames, ?_,
    fun f hmem hop => ?_⟩
  · rw [← List.length_map (f := Frame.out), hframes, writeCommands_programs hp hwren _ hne hd.le, hd]
    rfl
  · have hcmd : f.out ∈ (fs.filter fun f => f.out.head? = some (resolve s.cfg info).programOpcode).map Frame.out :=
      List.mem_map_of_mem (List.mem_filter.2 ⟨hmem, decide_eq_true hop⟩)
    rw [hframes] at hcmd
    simp only [flashFits, decide_eq_true_eq] at hf
    exact writeCommands_inPage hp hwren _ (by omega) (List.mem_filter.1 hcmd).1 hop

/-! ## Erase, write, read (R231) -/

section Compose
variable {cfg : Config.Params} {u v : SpiUnit} {fs : List Frame} {info : Config.FlashInfo}

theorem SpiUnit.Returned.initialised (h : u.Returned cfg v fs) (hi : u.Initialised cfg info)
    (hm : v.part.mode4B = u.part.mode4B) : v.Initialised cfg info := by
  obtain ⟨hr, r, hrec, hinit⟩ := hi
  exact ⟨hr.keep h.record h.board hm, r, h.record.trans hrec, hinit⟩

theorem SpiUnit.Returned.available (h : u.Returned cfg v fs) (ha : u.Available cfg) (hc : v.part.cut = u.part.cut) :
    v.Available cfg := by
  obtain ⟨-, -, hcut, hdep⟩ := ha
  exact ⟨h.idle, h.fair, hc.trans hcut, hdep⟩

/-- A part at rest is as it was, but for its array and the write-enable latch. -/
structure SpiUnit.Rested (cfg : Config.Params) (u v : SpiUnit) (m : Memory) : Prop where
  initialised : ∀ info, u.Initialised cfg info → v.Initialised cfg info
  available : u.Available cfg → v.Available cfg
  ready : u.PartReady cfg → v.PartReady cfg
  flash : v.part.flash = m

theorem SpiUnit.Returned.rested {m : Memory} (h : u.Returned cfg v fs)
    (hp : v.part = u.part.rest m (clearWel cfg u.part.sr)) : u.Rested cfg v m where
  initialised _ hi := h.initialised hi (by rw [hp]; rfl)
  available ha := h.available ha (by rw [hp]; rfl)
  ready hw := by
    show wip cfg v.part.sr = false
    rw [hp]
    exact (wip_clearWel ..).trans hw
  flash := by rw [hp]; rfl

variable {g : Resolved} {fuel addr : Nat}

theorem readCommands_zero : readCommands g fuel addr 0 = [] := by cases fuel <;> rfl

/-- The first chunk of a read and the chunks after it. -/
theorem readCommands_chunk {rem : Nat} (h : rem ≠ 0) :
    readCommands g (fuel + 1) addr rem =
      (g.readOpcode :: addrBytes (BitVec.ofNat 32 addr) g.addressByteCount) ::
      readCommands g fuel (addr + chunkLen g.pageSize addr rem) (rem - chunkLen g.pageSize addr rem) := by
  rw [readCommands, if_neg h]

/-- 300 bytes at 0 are two chunks of pages of 256 bytes. -/
theorem readCommands_300 (hp : g.pageSize = 256) :
    readCommands g 300 0 300 = [g.readOpcode :: addrBytes 0#32 g.addressByteCount,
      g.readOpcode :: addrBytes 256#32 g.addressByteCount] := by
  have h0 : chunkLen g.pageSize 0 300 = 256 := by rw [hp]; decide
  have h256 : chunkLen g.pageSize 256 44 = 44 := by rw [hp]; decide
  rw [readCommands_chunk (fuel := 299) (by decide), h0, readCommands_chunk (fuel := 298) (by decide), h256,
    readCommands_zero]

theorem writeCommands_300 (hp : g.pageSize = 256) {data : List Byte} (hd : data.length = 300) :
    writeCommands cfg g 300 0 data =
      [[cfg.op .wren], g.programOpcode :: (addrBytes 0#32 g.addressByteCount ++ data.take 256),
        [cfg.op .wren], g.programOpcode :: (addrBytes 256#32 g.addressByteCount ++ data.drop 256)] := by
  have h0 : chunkLen g.pageSize 0 data.length = 256 := by rw [hp, hd]; decide
  have hlen : (data.drop 256).length = 44 := by rw [List.length_drop, hd]
  have h256 : chunkLen g.pageSize 256 (data.drop 256).length = (data.drop 256).length := by rw [hp, hlen]; decide
  rw [writeCommands_chunk 299 (List.ne_nil_of_length_pos (by omega)), h0,
    writeCommands_chunk 298 (List.ne_nil_of_length_pos (by omega)), h256, List.take_length, List.drop_length,
    writeCommands_nil]

/-- What reads back of data programmed into erased bytes of ones (R214). -/
theorem read_flashProgram_erased {m : Memory} (hm : Memory.wf cfg.erasedByte m = true) (hff : cfg.erasedByte = 0xFF#8)
    {data : List Byte} (herased : ∀ j < data.length, flashRead cfg m (addr + j) = cfg.erasedByte) :
    ((List.range data.length).map fun j => flashRead cfg (flashProgram cfg m addr data) (addr + j)) = data := by
  refine List.ext_getElem (by simp) fun j _ hj => ?_
  rw [List.getElem_map, List.getElem_range, flashRead_flashProgram hm, if_pos (by omega), herased j hj, hff,
    Nat.add_sub_cancel_left, List.getD_eq_getElem _ _ hj]
  exact BitVec.allOnes_and

/-- A 4 KB erase at 0 is one unit, which reads as erased after it (R106, R227). -/
theorem exec_norEr_4K {s : State} {dev : Word} (hu : s.spi[dev.toNat]? = some u) (hi : u.Initialised s.cfg info)
    (ha : u.Available s.cfg) (hw : u.PartReady s.cfg) (h4K : info.flagErase4K = true)
    (hf : flashFits u.board.flashSize (resolve s.cfg info).addressByteCount 0 4096 = true) :
    ∃ v fs, exec (.norEr dev 0#32 4096#32) s =
        .next { s with spi := s.spi.set dev.toNat v, status := .success } ∧
      u.Returned s.cfg v fs ∧ u.Rested s.cfg v (memClear u.part.flash 0 4096) ∧
      commandsOf s.cfg fs = [[s.cfg.op .wren],
        (resolve s.cfg info).eraseOpcode :: addrBytes 0#32 (resolve s.cfg info).addressByteCount,
        [s.cfg.op .wrdi]] := by
  have hgran : (resolve s.cfg info).granularity = 4096 := by rw [resolve_granularity, if_pos h4K]
  have hcount : sectorCount (4096#32).toNat (resolve s.cfg info).granularity = 1 := by rw [hgran]; decide
  have hsize : 4096 ≤ u.board.flashSize := by
    simp only [flashFits, decide_eq_true_eq] at hf
    omega
  obtain ⟨v, fs, e, hret, -, hpart, hcmds⟩ := exec_norEr_fair (off := 0#32) (len := 4096#32) hu hi ha hw
    (by decide) (Nat.zero_mod _) hf (by rw [hcount, hgran]; exact hsize)
  rw [hcount, hgran] at hpart
  rw [hcount] at hcmds
  refine ⟨v, fs, e, hret, hret.rested hpart, hcmds.trans ?_⟩
  simp [eraseCommands]

end Compose

/-- Settles O60: the erase (`exec_norEr_4K`), the write (`exec_norWr_fair`) and the read (`exec_norRd_fair`), each from
what the one before leaves (`SpiUnit.Rested`). -/
theorem eraseWriteReadReturnsThePattern : Obligations.EraseWriteReadReturnsThePattern := by
  unfold Obligations.EraseWriteReadReturnsThePattern
  intro s dev pattern u info hu hi ha hw hinv hff h4K hp hlen hf hroom g at0 at256
  have hf300 : flashFits u.board.flashSize g.addressByteCount 0 300 = true := flashFits_split hf le_rfl (by decide)
  have hset : ∀ (t : State) (v : SpiUnit), dev.toNat < t.spi.length →
      (t.spi.set dev.toNat v)[dev.toNat]? = some v := fun _ _ h => List.getElem?_set_self h
  obtain ⟨hlt, -⟩ := List.getElem?_eq_some_iff.1 hu
  -- the erase
  obtain ⟨v1, es, e1, hret1, h1, hcmds1⟩ := exec_norEr_4K hu hi ha hw h4K hf
  let t1 : State := { s with spi := s.spi.set dev.toNat v1, status := .success }
  have hu1 := hset s v1 hlt
  have hlt1 : dev.toNat < t1.spi.length := hlt.trans_eq List.length_set.symm
  -- the write
  obtain ⟨v2, ws, e2, hret2, -, hpart2, hcmds2⟩ := exec_norWr_fair (s := t1) (off := 0#32) (len := 300#32)
    (data := pattern) hu1 (h1.initialised info hi) (h1.available ha) (h1.ready hw) (by decide) hlen
    (by rw [hret1.board]; exact hf300) (by rw [hp]; exact hroom)
  have h2 := hret2.rested hpart2
  let t2 : State := { t1 with spi := t1.spi.set dev.toNat v2, status := .success, buf := pattern }
  have hu2 := hset t1 v2 hlt1
  have hlt2 : dev.toNat < t2.spi.length := hlt1.trans_eq List.length_set.symm
  -- the read
  obtain ⟨v3, rs, e3, hret3, -, hcmds3, -⟩ := exec_norRd_fair (s := t2) (off := 0#32) (len := 300#32) hu2
    (h2.initialised info (h1.initialised info hi)) (h2.available (h1.available ha)) (h2.ready (h1.ready hw))
    (by decide) (by rw [hret2.board, hret1.board]; exact hf300)
  have hread : ((List.range 300).map fun j => flashRead s.cfg v2.part.flash (0 + j)) = pattern := by
    obtain ⟨-, hwf⟩ := hinv.part
    rw [h2.flash, h1.flash, ← hlen]
    refine read_flashProgram_erased (addr := 0) (memClear_memory_wf hwf 0 4096) hff fun j hj => ?_
    exact (memRead_memClear ..).trans (if_pos (by omega))
  exact ⟨t1, t2, _, v1, v2, v3, es, ws, rs, e1, rfl, e2, rfl, e3, rfl, hread, hu1, hret1.frames, hcmds1, hu2,
    hret2.frames, hcmds2.trans (congrArg (· ++ _) (writeCommands_300 hp hlen)), hset t2 v3 hlt2, hret3.frames,
    hcmds3.trans (readCommands_300 hp)⟩

end Sys2Proof.Machine
end

section
/-! PROOF. The statements of the exceptions family: a hang (R256), invalid input (R251, R260), and which operation can
return which failure (R250, R252 to R255). What a sequence can raise is proved sequence by sequence, for any set of
statuses that holds `EFI_TIMEOUT` once a budget of its waits is set (`AllowsTimeout`); what an operation reports is said
once of all (`exec_reports`). -/

namespace Sys2Proof.Machine

open Sys2Proof

theorem stopped_ne_next (x : Stop) (t : State) : stopped x ≠ .next t := by cases x <;> nofun

/-! ## A hang (R256, log 11) -/

section Hang
variable {s t : State}

theorem agentsStep_units (h : agentsStep s = .ok t) : ∃ es us, t = { s with efuse := es, spi := us } := by
  unfold agentsStep at h
  split at h
  · cases h
  · next es _ =>
    split at h
    · cases h
    · next us _ => cases h; exact ⟨es, us, rfl⟩

/-- However the poll ends, only the unit polled changes. -/
theorem spinPoll_units {d : Nat} {poll : SpiUnit → Res SpiUnit (List Byte)} (h : spinPoll s d poll = .next t) :
    ∃ us, t = { s with spi := us } := by
  unfold spinPoll at h
  split at h
  · cases h; exact ⟨s.spi, rfl⟩
  · split at h
    · cases h; exact ⟨_, rfl⟩
    · cases h; exact ⟨_, rfl⟩
    · cases h; exact ⟨_, rfl⟩
    · exact absurd h (stopped_ne_next _ _)

theorem hostStep_spinning {x : SpinSite} (hx : s.host = .spinning x) (h : hostStep s = .next t) :
    ∃ us, t = { s with spi := us } := by
  cases x with
  | efuse b => simp only [hostStep, hx] at h; cases h; exact ⟨s.spi, rfl⟩
  | spi d => simp only [hostStep, hx] at h; cases h; exact ⟨s.spi, rfl⟩
  | flashReady d => simp only [hostStep, hx] at h; exact spinPoll_units h

end Hang

/-- Settles O13: the agents and the polls of a spinning HOST change units only (`agentsStep_units`,
`hostStep_spinning`). -/
theorem hangNeverReturns : Obligations.HangNeverReturns := by
  unfold Obligations.HangNeverReturns
  intro s t x hx h
  cases ha : agentsStep s with
  | error e => rw [step, ha] at h; exact absurd h (stopped_ne_next e t)
  | ok r =>
    rw [step_of_agentsStep ha] at h
    obtain ⟨es, us, rfl⟩ := agentsStep_units ha
    obtain ⟨vs, rfl⟩ := hostStep_spinning (s := { s with efuse := es, spi := us }) hx h
    exact ⟨hx, rfl, rfl, rfl, rfl, rfl, rfl, rfl, rfl⟩

/-! ## What a piece of an operation can raise -/

/-- The piece raises no status outside `A`. -/
def Res.RaisesOnly {σ α : Type} (A : Status → Prop) (r : Res σ α) : Prop :=
  match r with
  | .raised st _ => A st
  | .ok _ _ | .hang _ _ | .stop _ => True

theorem Res.raisesOnly_iff {σ α : Type} {A : Status → Prop} {r : Res σ α} :
    r.RaisesOnly A ↔ ∀ st u, r = .raised st u → A st := by
  cases r with
  | ok a u => exact ⟨fun _ => nofun, fun _ => trivial⟩
  | raised st u => exact ⟨fun h _ _ e => by cases e; exact h, fun h => h st u rfl⟩
  | hang k u => exact ⟨fun _ => nofun, fun _ => trivial⟩
  | stop x => exact ⟨fun _ => nofun, fun _ => trivial⟩

theorem Res.RaisesOnly.bind {σ α β : Type} {A : Status → Prop} {r : Res σ α} {f : α → σ → Res σ β}
    (h : r.RaisesOnly A) (hf : ∀ a u, (f a u).RaisesOnly A) : (r.bind f).RaisesOnly A := by
  cases r with
  | ok a u => exact hf a u
  | raised st u => exact h
  | hang k u => trivial
  | stop x => trivial

theorem Res.raisesOnly_access {σ : Type} {A : Status → Prop} (r : Except Stop σ) : (Res.access r).RaisesOnly A := by
  cases r <;> trivial

theorem waitFailed_raisesOnly {σ α : Type} {A : Status → Prop} {budget : Option Nat}
    (hA : budget.isSome = true → A .timeout) (k : HangKind) (point : σ → Except Stop σ) (u : σ) :
    (waitFailed k budget point u : Res σ α).RaisesOnly A := by
  cases budget with
  | none => trivial
  | some b =>
    rw [waitFailed]
    split
    · trivial
    · exact hA rfl

theorem waitFlag_raisesOnly {σ : Type} {A : Status → Prop} {budget : Option Nat}
    (hA : budget.isSome = true → A .timeout) (n : Nat) (point : σ → Except Stop σ) (ready : σ → Bool) (u : σ) :
    (waitFlag budget n point ready u).RaisesOnly A := by
  unfold waitFlag
  split
  · trivial
  · trivial
  · exact waitFailed_raisesOnly hA _ _ _

/-- `A` has `EFI_TIMEOUT` as soon as a budget of the waits `w` is set (R253). -/
def AllowsTimeout (cfg : Config.Params) (w : Waits) (A : Status → Prop) : Prop := w.budgeted cfg = true → A .timeout

/-! ## Engine E -/

section EngineE
variable {cfg : Config.Params} {A : Status → Prop} (hA : AllowsTimeout cfg .macroReady A)
include hA

theorem eWait_raisesOnly (u : EfuseUnit) : (eWait cfg u).RaisesOnly A := waitFlag_raisesOnly hA _ _ _ _

theorem embeddedRead_raisesOnly (w : Nat) (u : EfuseUnit) : (embeddedRead cfg w u).RaisesOnly A := by
  unfold embeddedRead
  split
  · trivial
  · exact (Res.raisesOnly_access _).bind fun _ _ => (eWait_raisesOnly hA _).bind fun _ _ =>
      (Res.raisesOnly_access _).bind fun _ _ => (Res.raisesOnly_access _).bind fun _ _ =>
      (eWait_raisesOnly hA _).bind fun _ _ => trivial

theorem embeddedSetBit_raisesOnly (w k : Nat) (u : EfuseUnit) : (embeddedSetBit cfg w k u).RaisesOnly A := by
  unfold embeddedSetBit
  split
  · trivial
  · exact (Res.raisesOnly_access _).bind fun _ _ => (Res.raisesOnly_access _).bind fun _ _ => eWait_raisesOnly hA _

theorem setBits_raisesOnly (w : Nat) (value : Word) (ks : List Nat) (u : EfuseUnit) :
    (setBits cfg w value ks u).RaisesOnly A := by
  induction ks generalizing u with
  | nil => trivial
  | cons k t ih =>
    rw [setBits]
    split
    · exact (embeddedSetBit_raisesOnly hA w k u).bind fun _ v => ih v
    · exact ih u

theorem embeddedWrite_raisesOnly (w : Nat) (value : Word) (u : EfuseUnit) :
    (embeddedWrite cfg w value u).RaisesOnly A := by
  unfold embeddedWrite
  split
  · trivial
  · exact setBits_raisesOnly hA _ _ _ _

theorem readSegments_raisesOnly (total : Nat) (gs : List Segment) (u : EfuseUnit) :
    (readSegments cfg total gs u).RaisesOnly A := by
  induction gs generalizing u with
  | nil => trivial
  | cons g t ih => exact (embeddedRead_raisesOnly hA _ _).bind fun _ _ => ih _

theorem writeSegments_raisesOnly (total : Nat) (gs : List Segment) (u : EfuseUnit) :
    (writeSegments cfg total gs u).RaisesOnly A := by
  induction gs generalizing u with
  | nil => trivial
  | cons g t ih => exact (embeddedWrite_raisesOnly hA _ _ _).bind fun _ _ => ih _

theorem efuseReadBytes_raisesOnly (off cnt : Word) (u : EfuseUnit) : (efuseReadBytes cfg off cnt u).RaisesOnly A := by
  unfold efuseReadBytes
  split
  · trivial
  · exact readSegments_raisesOnly hA _ _ _

theorem efuseWriteBytes_raisesOnly (off cnt : Word) (data : List Byte) (u : EfuseUnit) :
    (efuseWriteBytes cfg off cnt data u).RaisesOnly A := by
  unfold efuseWriteBytes
  split
  · trivial
  · exact writeSegments_raisesOnly hA _ _ _

end EngineE

/-! ## Engine S: one transaction -/

section Guards
variable {A : Status → Prop} {α : Type} {u : SpiUnit}

theorem withRecord_raisesOnly {f : NorDevice → Res SpiUnit α} (h : ∀ r, (f r).RaisesOnly A) :
    (withRecord u f).RaisesOnly A := by
  unfold withRecord
  split
  · trivial
  · exact h _

theorem withResolved_raisesOnly {f : Resolved → Res SpiUnit α} (h : ∀ g, (f g).RaisesOnly A) :
    (withResolved u f).RaisesOnly A := by
  refine withRecord_raisesOnly fun r => ?_
  split
  · trivial
  · split
    · trivial
    · exact h _

theorem withInited_raisesOnly {f : Resolved → Res SpiUnit α} (h : ∀ g, (f g).RaisesOnly A) :
    (withInited u f).RaisesOnly A := by
  refine withRecord_raisesOnly fun r => ?_
  split
  · exact withResolved_raisesOnly h
  · trivial

theorem nonZero_raisesOnly {len : Nat} {r : Res SpiUnit α} (hi : A .invalidParameter) (hr : r.RaisesOnly A) :
    (nonZero len u r).RaisesOnly A := by
  unfold nonZero
  split
  · exact hi
  · exact hr

theorem inFlash_raisesOnly {g : Resolved} {off len : Nat} {r : Res SpiUnit α} (hr : r.RaisesOnly A) :
    (inFlash g off len u r).RaisesOnly A := by
  unfold inFlash
  split
  · exact hr
  · trivial

end Guards

theorem intoBuf_raisesOnly {A : Status → Prop} (rx : List Byte) (u : SpiUnit) : (intoBuf rx u).RaisesOnly A := trivial

section Transfer
variable {cfg : Config.Params} {A : Status → Prop} (hA : AllowsTimeout cfg .transfer A)
include hA

theorem transact_raisesOnly (d : Txn) (u : SpiUnit) : (transact cfg d u).RaisesOnly A := by
  refine Res.raisesOnly_iff.2 fun st v h => ?_
  obtain ⟨rfl, hbudget, -⟩ := transact_raised h
  exact hA hbudget

theorem readRegister_raisesOnly (cmd : Byte) (n : Nat) (u : SpiUnit) : (readRegister cfg cmd n u).RaisesOnly A := by
  refine withRecord_raisesOnly fun _ => ?_
  split_ifs
  · trivial
  · trivial
  · exact (transact_raisesOnly hA _ _).bind fun _ _ => trivial

theorem writeRegister_raisesOnly (cmd : Byte) (payload : List Byte) (u : SpiUnit) :
    (writeRegister cfg cmd payload u).RaisesOnly A := by
  refine withRecord_raisesOnly fun _ => ?_
  split_ifs
  · trivial
  · trivial
  · exact transact_raisesOnly hA _ _

theorem readTransaction_raisesOnly (addr len : Nat) (u : SpiUnit) : (readTransaction cfg addr len u).RaisesOnly A := by
  refine withResolved_raisesOnly fun g => ?_
  split
  · trivial
  · exact transact_raisesOnly hA _ _

theorem programTransaction_raisesOnly (addr : Nat) (payload : List Byte) (u : SpiUnit) :
    (programTransaction cfg addr payload u).RaisesOnly A := by
  refine withResolved_raisesOnly fun g => ?_
  split
  · trivial
  · exact transact_raisesOnly hA _ _

theorem eraseTransaction_raisesOnly (addr : Nat) (u : SpiUnit) : (eraseTransaction cfg addr u).RaisesOnly A := by
  refine withResolved_raisesOnly fun g => ?_
  split
  · trivial
  · exact transact_raisesOnly hA _ _

theorem readChunks_raisesOnly (pageSize fuel addr rem ptr : Nat) (u : SpiUnit) :
    (readChunks cfg pageSize fuel addr rem ptr u).RaisesOnly A := by
  induction fuel generalizing addr rem ptr u with
  | zero => trivial
  | succ f ih =>
    rw [readChunks]
    split
    · trivial
    · exact (readTransaction_raisesOnly hA _ _ _).bind fun _ _ => ih _ _ _ _

theorem norRead_raisesOnly (hi : A .invalidParameter) (off len : Nat) (u : SpiUnit) :
    (norRead cfg off len u).RaisesOnly A :=
  withInited_raisesOnly fun _ => nonZero_raisesOnly hi (inFlash_raisesOnly (readChunks_raisesOnly hA ..))

end Transfer

/-! ## Engine S: waits for the part -/

section PartReady
variable {cfg : Config.Params} {A : Status → Prop} (hA : AllowsTimeout cfg .partReady A)
include hA

/-- Waiting for the part waits for its transactions too (R210). -/
theorem AllowsTimeout.transfer : AllowsTimeout cfg .transfer A :=
  fun h => hA (Bool.or_eq_true_iff.2 (.inl h))

theorem readyPolls_raisesOnly (n : Nat) (u : SpiUnit) : (readyPolls cfg n u).RaisesOnly A := by
  induction n generalizing u with
  | zero => trivial
  | succ m ih =>
    refine (readRegister_raisesOnly hA.transfer _ _ _).bind fun rx v => ?_
    split
    · exact ih v
    · trivial

theorem waitReady_raisesOnly (u : SpiUnit) : (waitReady cfg u).RaisesOnly A := by
  refine (readyPolls_raisesOnly hA _ _).bind fun b v => ?_
  split
  · trivial
  · exact waitFailed_raisesOnly (fun h => hA (Bool.or_eq_true_iff.2 (.inr h))) _ _ _

theorem initStatus_raisesOnly (u : SpiUnit) : (initStatus cfg u).RaisesOnly A :=
  (writeRegister_raisesOnly hA.transfer _ _ _).bind fun _ _ =>
    (writeRegister_raisesOnly hA.transfer _ _ _).bind fun _ _ => (waitReady_raisesOnly hA _).bind fun _ _ =>
    (writeRegister_raisesOnly hA.transfer _ _ _).bind fun _ _ => trivial

theorem enter4B_raisesOnly (flag4B : Bool) (u : SpiUnit) : (enter4B cfg flag4B u).RaisesOnly A := by
  unfold enter4B
  split
  · exact (writeRegister_raisesOnly hA.transfer _ _ _).bind fun _ _ => trivial
  · trivial

theorem norInit_raisesOnly (hn : A .notFound) (u : SpiUnit) : (norInit cfg u).RaisesOnly A := by
  refine (readRegister_raisesOnly hA.transfer _ _ _).bind fun rx v => ?_
  split
  · exact hn
  · split
    · trivial
    · exact (enter4B_raisesOnly hA _ _).bind fun _ _ => (initStatus_raisesOnly hA _).bind fun _ _ => trivial

theorem writeChunks_raisesOnly (pageSize fuel addr rem ptr : Nat) (u : SpiUnit) :
    (writeChunks cfg pageSize fuel addr rem ptr u).RaisesOnly A := by
  induction fuel generalizing addr rem ptr u with
  | zero => trivial
  | succ f ih =>
    rw [writeChunks]
    split
    · trivial
    · exact (writeRegister_raisesOnly hA.transfer _ _ _).bind fun _ _ =>
        (programTransaction_raisesOnly hA.transfer _ _ _).bind fun _ _ =>
        (waitReady_raisesOnly hA _).bind fun _ _ => ih _ _ _ _

theorem norWrite_raisesOnly (hi : A .invalidParameter) (off len : Nat) (data : List Byte) (u : SpiUnit) :
    (norWrite cfg off len data u).RaisesOnly A :=
  withInited_raisesOnly fun _ => nonZero_raisesOnly hi <| inFlash_raisesOnly <|
    (writeChunks_raisesOnly hA ..).bind fun _ _ =>
    (writeRegister_raisesOnly hA.transfer _ _ _).bind fun _ _ => trivial

theorem eraseSectors_raisesOnly (off gran nsec : Nat) (idxs : List Nat) (u : SpiUnit) :
    (eraseSectors cfg off gran nsec idxs u).RaisesOnly A := by
  induction idxs generalizing u with
  | nil => trivial
  | cons i t ih =>
    exact (writeRegister_raisesOnly hA.transfer _ _ _).bind fun _ _ =>
      (eraseTransaction_raisesOnly hA.transfer _ _).bind fun _ _ =>
      (waitReady_raisesOnly hA _).bind fun _ _ => ih _

theorem norErase_raisesOnly (hi : A .invalidParameter) (off len : Nat) (u : SpiUnit) :
    (norErase cfg off len u).RaisesOnly A := by
  refine withInited_raisesOnly fun g => nonZero_raisesOnly hi ?_
  split
  · exact hi
  · exact inFlash_raisesOnly <| (eraseSectors_raisesOnly hA ..).bind fun _ _ =>
      (writeRegister_raisesOnly hA.transfer _ _ _).bind fun _ _ => trivial

theorem norEraseChip_raisesOnly (u : SpiUnit) : (norEraseChip cfg u).RaisesOnly A :=
  withInited_raisesOnly fun _ =>
    (writeRegister_raisesOnly hA.transfer _ _ _).bind fun _ _ =>
    (writeRegister_raisesOnly hA.transfer _ _ _).bind fun _ _ => (waitReady_raisesOnly hA _).bind fun _ _ =>
    (writeRegister_raisesOnly hA.transfer _ _ _).bind fun _ _ => trivial

end PartReady

/-! ## What an operation reports (R250 to R255, R260) -/

/-- The operations that check their input (R251; column I of R255). -/
def ChecksInput (i : Instr) : Prop :=
  (∃ b o c, i = .efuseRdb b o c) ∨ (∃ b o c d, i = .efuseWrb b o c d) ∨ (∃ b x y, i = .efuseInfo b x y) ∨
    (∃ d o l, i = .norRd d o l) ∨ (∃ d o l w, i = .norWr d o l w) ∨ ∃ d o l, i = .norEr d o l

/-- The table of R255: the failures an operation can return, column by column. -/
def MayFail (cfg : Config.Params) (i : Instr) (st : Status) : Prop :=
  match st with
  | .success => False
  | .invalidParameter => ChecksInput i
  | .outOfResources => ∃ h, i = .norSetup h
  | .notFound => ∃ d, i = .norInit d
  | .timeout => i.waits.budgeted cfg = true

/-- The column T of R255 names the waits of the operation. -/
theorem mayFail_allowsTimeout (cfg : Config.Params) (i : Instr) : AllowsTimeout cfg i.waits (MayFail cfg i) := id

/-- What an operation that can fail as `A` says leaves in the status: what was there, success, or a failure of `A`; and
invalid input leaves the rest of the state as it was (R251, R260). -/
def Reports (A : Status → Prop) (s t : State) : Prop :=
  t.status = s.status ∨ t.status = .success ∨
    A t.status ∧ (t.status = .invalidParameter → t = { s with status := .invalidParameter })

section Reports
variable {A : Status → Prop} {s t : State}

theorem Reports.unchanged (h : t.status = s.status) : Reports A s t := .inl h

theorem Reports.success (h : t.status = .success) : Reports A s t := .inr (.inl h)

theorem Reports.invalid (hi : A .invalidParameter) : Reports A s { s with status := .invalidParameter } :=
  .inr (.inr ⟨hi, fun _ => rfl⟩)

theorem Reports.failure {st : Status} (h : t.status = st) (hst : st ≠ .invalidParameter) (hA : A st) :
    Reports A s t := by
  subst h
  exact .inr (.inr ⟨hA, fun e => absurd e hst⟩)

variable {α : Type} {k : α → State → State}

theorem noResult_status (a : α) (r : State) : (noResult a r).status = r.status := rfl

/-- No sequence of engine E raises `EFI_INVALID_PARAMETER`: the bus is checked before one starts (R154). -/
theorem onEfuse_reports {bus : Word} {f : EfuseUnit → Res EfuseUnit α} (hk : ∀ a r, (k a r).status = r.status)
    (hf : ∀ u, (f u).RaisesOnly fun st => st ≠ .invalidParameter ∧ A st) (h : onEfuse bus s k f = .next t) :
    Reports A s t := by
  cases hu : s.efuse[bus.toNat]? with
  | none => rw [onEfuse, hu] at h; cases h
  | some u =>
    cases hr : f (u.load s.buf) with
    | ok a v => rw [onEfuse_ok hu hr] at h; cases h; exact .success (hk _ _)
    | raised st v =>
      obtain ⟨hst, hA⟩ := Res.raisesOnly_iff.1 (hf _) st v hr
      rw [onEfuse_raised hu hr] at h; cases h; exact .failure rfl hst hA
    | hang q v => rw [onEfuse_hang hu hr] at h; cases h; exact .unchanged rfl
    | stop x => rw [onEfuse_stop hu hr] at h; exact absurd h (stopped_ne_next x t)

theorem onSpi_reports {dev : Word} {m : Refusal} {f : SpiUnit → Res SpiUnit α}
    (hk : ∀ a r, (k a r).status = r.status) (hf : ∀ u, (f u).RaisesOnly A) (h : onSpi dev s m k f = .next t) :
    Reports A s t := by
  cases hu : s.spi[dev.toNat]? with
  | none => rw [onSpi, hu] at h; cases h
  | some u =>
    cases hr : f (u.load s.buf) with
    | ok a v => rw [onSpi_ok hu hr] at h; cases h; exact .success (hk _ _)
    | raised st v =>
      have hA : A st := Res.raisesOnly_iff.1 (hf _) st v hr
      by_cases hst : st = .invalidParameter
      · subst hst; rw [onSpi_invalid hu hr] at h; cases h; exact .invalid hA
      · rw [onSpi_raised hu hr hst] at h; cases h; exact .failure rfl hst hA
    | hang q v => rw [onSpi_hang hu hr] at h; cases h; exact .unchanged rfl
    | stop x => rw [onSpi_stop hu hr] at h; exact absurd h (stopped_ne_next x t)

theorem withBus_reports {bus : Word} {go : Host.Outcome State Fault Refusal} (hi : A .invalidParameter)
    (hg : go = .next t → Reports A s t) (h : withBus bus s go = .next t) : Reports A s t := by
  unfold withBus at h
  split at h
  · cases h; exact .invalid hi
  · exact hg h

theorem eRegisterWrite_reports {bus : Word} {r : EReg} {v : EfuseUnit → Except Stop Word}
    (h : eRegisterWrite bus s r v = .next t) : Reports A s t := by
  unfold eRegisterWrite at h
  split at h
  · cases h
  · split at h
    · cases h
    · split at h
      · exact absurd h (stopped_ne_next _ t)
      · split at h
        · exact absurd h (stopped_ne_next _ t)
        · cases h; exact .unchanged rfl

theorem sRegisterWrite_reports {dev : Word} {r : SReg} {v : Word} (h : sRegisterWrite dev s r v = .next t) :
    Reports A s t := by
  unfold sRegisterWrite at h
  split at h
  · cases h
  · split at h
    · exact absurd h (stopped_ne_next _ t)
    · split at h
      · cases h; exact .unchanged rfl
      · cases h

theorem execFrame_reports {dev : Word} {d : Txn} (hA : AllowsTimeout s.cfg .transfer A)
    (h : execFrame dev d s = .next t) : Reports A s t := by
  refine onSpi_reports noResult_status (fun u => (transact_raisesOnly hA _ _).bind fun rx v => ?_) h
  split
  · exact intoBuf_raisesOnly rx v
  · trivial

theorem execEfuseInfo_reports {bus : Word} {x y : Bool} (hi : A .invalidParameter)
    (h : execEfuseInfo bus x y s = .next t) : Reports A s t := by
  unfold execEfuseInfo at h
  split at h
  · cases h; exact .invalid hi
  · cases h; exact .success rfl

theorem execNorSetup_reports {x : Option Word} (ho : A .outOfResources) (h : execNorSetup x s = .next t) :
    Reports A s t := by
  unfold execNorSetup at h
  split at h
  · cases h; exact .success rfl
  · dsimp only at h
    split at h
    · cases h; exact .failure rfl nofun ho
    · split at h
      · cases h; exact .failure rfl nofun ho
      · cases h; exact .success rfl

theorem execNorFree_reports {dev : Word} (h : execNorFree dev s = .next t) : Reports A s t := by
  unfold execNorFree at h
  split at h
  · cases h
  · split at h
    · cases h
    · cases h; exact .success rfl

end Reports

/-- Engine E waits after its input is checked: a time-out is a failure other than invalid input (R154). -/
theorem mayFail_valid_allowsTimeout {cfg : Config.Params} {i : Instr} (hi : i.waits = .macroReady) :
    AllowsTimeout cfg .macroReady fun st => st ≠ .invalidParameter ∧ MayFail cfg i st :=
  fun h => ⟨nofun, mayFail_allowsTimeout cfg i (hi ▸ h)⟩

/-- What an operation reports is in its row of the table (R255). -/
theorem exec_reports {i : Instr} {s t : State} (h : exec i s = .next t) : Reports (MayFail s.cfg i) s t := by
  have hT : AllowsTimeout s.cfg i.waits (MayFail s.cfg i) := mayFail_allowsTimeout s.cfg i
  cases i with
  | efuseRdb b o c =>
    exact withBus_reports (.inl ⟨b, o, c, rfl⟩)
      (onEfuse_reports noResult_status (efuseReadBytes_raisesOnly (mayFail_valid_allowsTimeout rfl) o c)) h
  | efuseWrb b o c x =>
    simp only [exec, execEfuseWrb] at h
    split at h
    · cases h
    · exact withBus_reports (.inr (.inl ⟨b, o, c, x, rfl⟩))
        (onEfuse_reports noResult_status (efuseWriteBytes_raisesOnly (mayFail_valid_allowsTimeout rfl) o c x)) h
  | efuseInfo b x y => exact execEfuseInfo_reports (.inr (.inr (.inl ⟨b, x, y, rfl⟩))) h
  | norSetup x => exact execNorSetup_reports ⟨x, rfl⟩ h
  | norInit d => exact onSpi_reports noResult_status (norInit_raisesOnly hT ⟨d, rfl⟩) h
  | norRd d o l =>
    exact onSpi_reports noResult_status (norRead_raisesOnly hT (.inr (.inr (.inr (.inl ⟨d, o, l, rfl⟩)))) _ _) h
  | norWr d o l x =>
    simp only [exec, execNorWr] at h
    split at h
    · cases h
    · exact onSpi_reports noResult_status
        (norWrite_raisesOnly hT (.inr (.inr (.inr (.inr (.inl ⟨d, o, l, x, rfl⟩))))) _ _ _) h
  | norEr d o l =>
    exact onSpi_reports noResult_status
      (norErase_raisesOnly hT (.inr (.inr (.inr (.inr (.inr ⟨d, o, l, rfl⟩))))) _ _) h
  | norErchip d => exact onSpi_reports noResult_status (norEraseChip_raisesOnly hT) h
  | norFree d => exact execNorFree_reports h
  | efuseRdw b w =>
    exact onEfuse_reports wordResult_status (embeddedRead_raisesOnly (mayFail_valid_allowsTimeout rfl) w.toNat) h
  | efuseSetb b w k =>
    exact onEfuse_reports noResult_status
      (embeddedSetBit_raisesOnly (mayFail_valid_allowsTimeout rfl) w.toNat k.toNat) h
  | efuseWrw b w v =>
    exact onEfuse_reports noResult_status (embeddedWrite_raisesOnly (mayFail_valid_allowsTimeout rfl) w.toNat v) h
  | spiRdreg d c n =>
    exact onSpi_reports noResult_status
      (fun u => (readRegister_raisesOnly hT c n.toNat u).bind intoBuf_raisesOnly) h
  | spiWrreg d c n p =>
    simp only [exec, execSpiWrreg] at h
    split at h
    · cases h
    · exact onSpi_reports noResult_status (fun u => writeRegister_raisesOnly hT c p (u.load p)) h
  | spiXrd d a l =>
    exact onSpi_reports noResult_status
      (fun u => (readTransaction_raisesOnly hT a.toNat l.toNat u).bind intoBuf_raisesOnly) h
  | spiXpp d a l p =>
    simp only [exec, execSpiXpp] at h
    split at h
    · cases h
    · exact onSpi_reports noResult_status (fun u => programTransaction_raisesOnly hT a.toNat p (u.load p)) h
  | spiXer d a => exact onSpi_reports noResult_status (eraseTransaction_raisesOnly hT a.toNat) h
  | norWaitrdy d => exact onSpi_reports noResult_status (waitReady_raisesOnly hT) h
  | norGetid d =>
    exact onSpi_reports noResult_status
      (fun u => (readRegister_raisesOnly hT (s.cfg.op .rdid) 3 u).bind intoBuf_raisesOnly) h
  | modeIdle b => rw [exec_modeIdle] at h; exact eRegisterWrite_reports h
  | modeRead b => rw [exec_modeRead] at h; exact eRegisterWrite_reports h
  | modeWrite b => rw [exec_modeWrite] at h; exact eRegisterWrite_reports h
  | efuseAddr b w k => exact eRegisterWrite_reports h
  | tranRegrd d g | tranRegwr d g | tranDatard d g n | tranDatawr d g n | tranErase d g n =>
    exact sRegisterWrite_reports h
  | rdid d | rdsr d | wrsr d v | wren d | wrdi d | en4b d | read d a l | read4b d a l | be4k d a | be4k4b d a | se d a
  | se4b d a | ce d =>
    exact execFrame_reports hT h
  | pp d a x =>
    simp only [exec, execPp] at h
    split at h
    · exact execFrame_reports hT h
    · cases h
  | pp4b d a x =>
    simp only [exec, execPp4b] at h
    split at h
    · exact execFrame_reports hT h
    · cases h

/-- Settles O14: of what an operation can report (`exec_reports`), only invalid input is left, and that changes nothing
else. -/
theorem invalidInputChangesNothingElse : Obligations.InvalidInputChangesNothingElse := by
  unfold Obligations.InvalidInputChangesNothingElse
  intro i s t hs h ht
  obtain hsame | hok | ⟨-, hinvalid⟩ := exec_reports h
  · exact absurd (hsame.symm.trans ht) hs
  · rw [hok] at ht; cases ht
  · exact hinvalid ht

/-- Settles O15: a status other than success comes from the operation's row of the table (`exec_reports`). -/
theorem failuresAreThoseOfTheTable : Obligations.FailuresAreThoseOfTheTable := by
  unfold Obligations.FailuresAreThoseOfTheTable
  intro i s t hs h
  have row : ∀ st, st ≠ .success → t.status = st → MayFail s.cfg i st := by
    intro st hst ht
    obtain hsame | hok | ⟨hrow, -⟩ := exec_reports h
    · exact absurd (ht.symm.trans (hsame.trans hs)) hst
    · exact absurd (ht.symm.trans hok) hst
    · rwa [ht] at hrow
  exact ⟨row .invalidParameter nofun, row .outOfResources nofun, row .notFound nofun, row .timeout nofun⟩

end Sys2Proof.Machine
end
